-- ==== Sys2Proof/Word.lean ====
section
/-! DEFINITION. The bit-vector widths of the block: 32-bit registers, addresses and data (00_scope.md R8),
16-bit flash half-words (20_memory.md R60), 8-bit control and status bytes (10_state.md R51, R52). -/

namespace Sys2Proof

/-- A 32-bit register, address or data word. -/
abbrev Word := BitVec 32

/-- A 16-bit half-word: the unit of the flash window. -/
abbrev Half := BitVec 16

/-- A control byte written to the JTAG lines, or a status byte read from them. -/
abbrev Byte := BitVec 8

end Sys2Proof
end

