-- ==== Sys2Proof/Config.lean ====
section
/-! DEFINITION. What an implementation fixes: the parameters of 00_scope.md R7, R9, R10 and the formats of the
read-only tables (R12, 30_encoding.md R115 to R117), and the free values of the model (opaque constants, no body).

Everything but the free functions is plain data, collected in `Params`. A machine state carries its parameters,
so a statement about every state is a statement about every configuration (log entries 1 and 2). -/

namespace Sys2Proof

/-- 30_encoding.md R112: the bit positions of TDI, TCK and TMS in the control byte and of TDO in the status
byte, and whether TDO is inverted. A byte has eight bits, so a position is below 8. -/
structure PinMap where
  tdi : Fin 8
  tck : Fin 8
  tms : Fin 8
  tdo : Fin 8
  tdoInverted : Bool
deriving DecidableEq, Repr, Inhabited

/-- 30_encoding.md R108: the bit positions of the EJTAG CONTROL fields the block writes or reads, and the two
values of the width field. -/
structure ControlBits where
  prnw : Nat
  pracc : Nat
  dmaacc : Nat
  proben : Nat
  probtrap : Nat
  dstrt : Nat
  derr : Nat
  drwn : Nat
  /-- the low bit of the two-bit width field DSZ -/
  dsz : Nat
  dszWord : BitVec 2
  dszHalf : BitVec 2
deriving DecidableEq, Repr

/-- 00_scope.md R9, 30_encoding.md R101, R110: the EJTAG instruction codes, the DMA-unsupported bit of the
feature register, and the addresses of the probe-serviced segment. -/
structure EjtagParams where
  irIdcode : Word
  irImpcode : Word
  irAddress : Word
  irData : Word
  irControl : Word
  control : ControlBits
  impcodeNoDmaBit : Nat
  debugVector : Word
  vaddrReg : Word
  vdataReg : Word
deriving DecidableEq, Repr

/-- 30_encoding.md R113: the flash command values. -/
structure FlashBytes where
  unlock1 : Byte
  unlock2 : Byte
  autoselect : Byte
  eraseSetup : Byte
  sectorErase : Byte
  program : Byte
  reset : Byte
  readId : Byte
  unlockBlock : Byte
  confirm : Byte
  blockErase : Byte
  write : Byte
  readArray : Byte
  statusReady : Half
deriving DecidableEq, Repr

/-- 30_encoding.md R114: the command-set family of a chip. -/
inductive Family where
  | amd
  | sst
  | bsc
  | scs
deriving DecidableEq, Repr, Inhabited

/-- One (block-count, block-size) region of a descriptor (30_encoding.md R116). -/
structure Region where
  count : Word
  blockSize : Word
deriving DecidableEq, Repr, Inhabited

/-- 30_encoding.md R116: a flash chip descriptor, an entry of FLASH_TABLE. -/
structure FlashDescriptor where
  vendor : Half
  device : Half
  size : Word
  family : Family
  regions : List Region
deriving DecidableEq, Repr, Inhabited

/-- 30_encoding.md R116: at most four regions, and every region with blocks has a block size. -/
def FlashDescriptor.wf (d : FlashDescriptor) : Bool :=
  decide (d.regions.length ≤ 4) && d.regions.all fun r => r.count == 0 || r.blockSize != 0

/-- 30_encoding.md R117: an entry of AREA_TABLE. `area` is a code 0..3 of R97. -/
structure AreaEntry where
  size : Word
  area : BitVec 4
  start : Word
  length : Word
deriving DecidableEq, Repr, Inhabited

/-- The flash parameters of 00_scope.md R9 and R10. -/
structure FlashParams where
  bytes : FlashBytes
  baseSmall : Word
  baseLarge : Word
  probeRounds : Nat
  ambigDeviceId : Half
  extIdOffset : Word
  /-- ERASE_SETTLE: an opaque length of time (60_exceptions.md R281) -/
  eraseSettle : Nat
  /-- WRITE_DELAY: an opaque length of time (60_exceptions.md R281) -/
  writeDelay : Nat
  maxBlocks : Nat
  table : List FlashDescriptor
  areas : List AreaEntry
deriving DecidableEq, Repr

/-- 30_encoding.md R115: the four PrAcc micro-programs, never interpreted. -/
structure ModuleParams where
  readWord : List Word
  writeWord : List Word
  readHalf : List Word
  writeHalf : List Word
deriving DecidableEq, Repr

/-- Every parameter of the block that is plain data (00_scope.md R9, R10, R12). -/
structure Params where
  pinsStandard : PinMap
  pinsAlternate : PinMap
  ejtag : EjtagParams
  modules : ModuleParams
  flash : FlashParams
  /-- the unit of TCK_DELAY: opaque (10_state.md R23) -/
  tckDelayUnit : Nat
deriving DecidableEq, Repr

/-- 30_encoding.md R116: a model refuses a FLASH_TABLE with an ill-formed entry. -/
def Params.tableWf (p : Params) : Bool := p.flash.table.all FlashDescriptor.wf

namespace Config

/-! ### Fixed parameters (00_scope.md R7) -/

/-- RESET_TMS_ONES. -/
def resetTmsOnes : Nat := 5

/-- DMA_RETRY_CAP: retries after the first attempt (90_conflicts.md C2). -/
def dmaRetryCap : Nat := 16

/-- LARGE_CHIP_THRESHOLD: 8 MB with MB = 2^20 bytes. -/
def largeChipThreshold : Word := 0x00800000

/-- AMD_VENDOR_LOW_BYTE. -/
def amdVendorLowByte : Byte := 0x01

/-- AMD_UNLOCK and SST_UNLOCK, first offset, in 16-bit words. The Intel families have no unlock cycle, so the
value they get here is read by no rule. -/
def unlockAddr1 : Family → Word
  | .sst => 0x5555
  | _ => 0x555

/-- AMD_UNLOCK and SST_UNLOCK, second offset, in 16-bit words. -/
def unlockAddr2 : Family → Word
  | .sst => 0x2AAA
  | _ => 0x2AA

/-! ### Defaults of 00_scope.md R9 (PRESUMED: the spec takes them from general knowledge; log entry 1) -/

/-- PINMAP_STANDARD (30_encoding.md R112). -/
def pinsStandard : PinMap := { tdi := 0, tck := 1, tms := 2, tdo := 4, tdoInverted := false }

/-- The CONTROL bit positions of 30_encoding.md R108. -/
def controlBits : ControlBits where
  prnw := 19
  pracc := 18
  dmaacc := 17
  proben := 15
  probtrap := 14
  dstrt := 11
  derr := 10
  drwn := 9
  dsz := 7
  dszWord := 0b10
  dszHalf := 0b01

/-- The EJTAG defaults of 00_scope.md R9. -/
def ejtag : EjtagParams where
  irIdcode := 0x01
  irImpcode := 0x03
  irAddress := 0x08
  irData := 0x09
  irControl := 0x0A
  control := controlBits
  impcodeNoDmaBit := 14
  debugVector := 0xFF200200
  vaddrReg := 0xFF200000
  vdataReg := 0xFF200004

/-- The flash command values of 30_encoding.md R113. -/
def flashBytes : FlashBytes where
  unlock1 := 0xAA
  unlock2 := 0x55
  autoselect := 0x90
  eraseSetup := 0x80
  sectorErase := 0x30
  program := 0xA0
  reset := 0xF0
  readId := 0x90
  unlockBlock := 0x60
  confirm := 0xD0
  blockErase := 0x20
  write := 0x40
  readArray := 0xFF
  statusReady := 0x0080

/-- FLASH_BASE_SMALL: 0x1FC00000 (43_flash.md R233). -/
def flashBaseSmall : Word := 0x1FC00000

/-! ### Open parameters (00_scope.md R10): constants nothing is known of (log entry 2)

Where R10 bounds a parameter, the constant the machine uses is built from an unbounded one so that the bound
holds and every value within it is possible. -/

/-- PINMAP_ALTERNATE. -/
opaque openPinsAlternate : PinMap
/-- The words of the four micro-programs, before the bound of 1 to 8 words is imposed. -/
opaque openModuleHead : Nat → Word
opaque openModuleTail : Nat → List Word
/-- FLASH_BASE_LARGE. -/
opaque openFlashBaseLarge : Word
/-- PROBE_ROUNDS less one. -/
opaque openProbeRounds : Nat
/-- AMBIG_DEVICE_ID. -/
opaque openAmbigDeviceId : Half
/-- EXT_ID_OFFSET. -/
opaque openExtIdOffset : Word
/-- ERASE_SETTLE. -/
opaque openEraseSettle : Nat
/-- WRITE_DELAY. -/
opaque openWriteDelay : Nat
/-- MAX_BLOCKS less one. -/
opaque openMaxBlocks : Nat
/-- FLASH_TABLE, before its ill-formed entries are taken out. -/
opaque openFlashTable : List FlashDescriptor
/-- AREA_TABLE. -/
opaque openAreaTable : List AreaEntry
/-- The unit of TCK_DELAY. -/
opaque openTckDelayUnit : Nat

/-- Micro-program `k` of the open parameters: 1 to 8 words (30_encoding.md R115). -/
def openModule (k : Nat) : List Word := openModuleHead k :: (openModuleTail k).take 7

/-- The parameters of a block after power-on: the defaults of R9, and for R10 the open constants. -/
def params : Params where
  pinsStandard := pinsStandard
  pinsAlternate := openPinsAlternate
  ejtag := ejtag
  modules := { readWord := openModule 0, writeWord := openModule 1,
               readHalf := openModule 2, writeHalf := openModule 3 }
  flash :=
    { bytes := flashBytes
      baseSmall := flashBaseSmall
      baseLarge := openFlashBaseLarge
      probeRounds := openProbeRounds + 1
      ambigDeviceId := openAmbigDeviceId
      extIdOffset := openExtIdOffset
      eraseSettle := openEraseSettle
      writeDelay := openWriteDelay
      maxBlocks := openMaxBlocks + 1
      table := openFlashTable.filter FlashDescriptor.wf
      areas := openAreaTable }
  tckDelayUnit := openTckDelayUnit

/-! ### Free values -/

/-- PRACC_VADDR (20_memory.md R62): an open function of the target address (log entry 24). -/
opaque praccVaddr : Word → Word

/-- The status byte of a read the environment has queued nothing for (10_state.md R52; log entry 3), applied
to the number of such reads so far. -/
opaque freeStatusByte : Nat → Byte

/-- The CANCEL level of a consultation the environment has queued nothing for (10_state.md R53; log entry 4). -/
opaque freeCancel : Nat → Bool

/-- The k-th block start of a map that would wrap past 2^32, which 43_flash.md R236 does not define (log
entry 10): draw, then index. -/
opaque freeBlockStart : Nat → Nat → Word

/-- The value of a target read made with MODE = NONE, which 42_transaction.md R170 says cannot occur (log
entry 13). -/
opaque freeWord : Nat → Word

end Config

end Sys2Proof
end

