-- ==== Sys2Proof/Syntax.lean ====
section
/-! DEFINITION. The 24 commands of the opcode map (30_encoding.md R93), one constructor per row of
spec/opcode_table.json. Operands other than ARG come from registers (R92), so only CLOCK and
FLASH_SELECT_AREA have fields. -/

namespace Sys2Proof

/-- A command of the block. -/
inductive Instr where
  /-- CLOCK: one raw clock with these TMS and TDI levels, reading TDO if `sample` (R96, R142). -/
  | clock (tms tdi sample : Bool)
  /-- RESET_TAP (R143). -/
  | resetTap
  /-- SET_IR: shift DATA into the instruction register (R144). -/
  | setIr
  /-- SHIFT_DR32: shift DATA through the selected data register (R145). -/
  | shiftDr32
  /-- INIT: open a session (R160). -/
  | init
  /-- SHUTDOWN: close the session (R162). -/
  | shutdown
  /-- READ_WORD (R200). -/
  | readWord
  /-- READ_HALF (R201). -/
  | readHalf
  /-- WRITE_WORD (R202). -/
  | writeWord
  /-- WRITE_HALF (R203). -/
  | writeHalf
  /-- DMA_READ_WORD (R204). -/
  | dmaReadWord
  /-- DMA_READ_HALF (R205). -/
  | dmaReadHalf
  /-- DMA_WRITE_WORD (R206). -/
  | dmaWriteWord
  /-- DMA_WRITE_HALF (R207). -/
  | dmaWriteHalf
  /-- PRACC_READ_WORD (R208). -/
  | praccReadWord
  /-- PRACC_READ_HALF (R209). -/
  | praccReadHalf
  /-- PRACC_WRITE_WORD (R210). -/
  | praccWriteWord
  /-- PRACC_WRITE_HALF (R211). -/
  | praccWriteHalf
  /-- FLASH_PROBE (R250). -/
  | flashProbe
  /-- FLASH_RESET_READ (R251). -/
  | flashResetRead
  /-- FLASH_SELECT_AREA: the area code of R97, 0..4 legal (R252). -/
  | flashSelectArea (area : BitVec 4)
  /-- FLASH_ERASE_BLOCK (R253). -/
  | flashEraseBlock
  /-- FLASH_ERASE_AREA (R254). -/
  | flashEraseArea
  /-- FLASH_WRITE_WORD (R255). -/
  | flashWriteWord
deriving DecidableEq, Repr

end Sys2Proof
end

