-- ==== Sys2Proof/WellFormed.lean ====
section
/-! DEFINITION. Which terms of `Instr` stand for a legal command word (30_encoding.md R95, R97). -/

namespace Sys2Proof

/-- The largest legal area code: 4, CUSTOM (R97). -/
def customArea : BitVec 4 := 4

/-- R97: codes 5..15 of FLASH_SELECT_AREA are illegal. Every other field of a command takes every value of its
type. -/
def Instr.wf : Instr → Bool
  | .flashSelectArea area => decide (area ≤ customArea)
  | .clock _ _ _ => true
  | .resetTap => true
  | .setIr => true
  | .shiftDr32 => true
  | .init => true
  | .shutdown => true
  | .readWord => true
  | .readHalf => true
  | .writeWord => true
  | .writeHalf => true
  | .dmaReadWord => true
  | .dmaReadHalf => true
  | .dmaWriteWord => true
  | .dmaWriteHalf => true
  | .praccReadWord => true
  | .praccReadHalf => true
  | .praccWriteWord => true
  | .praccWriteHalf => true
  | .flashProbe => true
  | .flashResetRead => true
  | .flashEraseBlock => true
  | .flashEraseArea => true
  | .flashWriteWord => true

end Sys2Proof
end

