-- ==== Sys2Proof/Decode.lean ====
section
/-! DEFINITION. The command decoder, total on 32-bit words and rejecting by name (30_encoding.md R92 to R97),
and the encoder. -/

namespace Sys2Proof

/-- Why a word fails `Legal(w)` (R95). Each of them ends the command with INVALID_COMMAND (R94). -/
inductive DecodeError where
  /-- bits 31:12 are not all 0 -/
  | reservedBits
  /-- bits 7:0 are none of the 24 opcodes -/
  | unknownOpcode
  /-- bits 11:8 hold an argument the opcode does not admit -/
  | illegalArgument
deriving DecidableEq, Repr

/-- The opcode field, bits 7:0 (R92). -/
def opField (w : Word) : Byte := w.extractLsb' 0 8

/-- The argument field, bits 11:8 (R92). -/
def argField (w : Word) : BitVec 4 := w.extractLsb' 8 4

/-- The reserved field, bits 31:12 (R92). -/
def resField (w : Word) : BitVec 20 := w.extractLsb' 12 20

/-- A word from its three fields (R92). -/
def commandWord (op : Byte) (arg : BitVec 4) : Word := op.setWidth 32 ||| (arg.setWidth 32 <<< 8)

/-- OP of CLOCK. -/
def opClock : Byte := 0x01

/-- OP of FLASH_SELECT_AREA. -/
def opSelectArea : Byte := 0x22

/-- The rows of R93 whose argument must be 0. -/
def plainRows : List (Byte × Instr) :=
  [(0x02, .resetTap), (0x03, .setIr), (0x04, .shiftDr32), (0x08, .init), (0x09, .shutdown),
   (0x10, .readWord), (0x11, .readHalf), (0x12, .writeWord), (0x13, .writeHalf),
   (0x14, .dmaReadWord), (0x15, .dmaReadHalf), (0x16, .dmaWriteWord), (0x17, .dmaWriteHalf),
   (0x18, .praccReadWord), (0x19, .praccReadHalf), (0x1A, .praccWriteWord), (0x1B, .praccWriteHalf),
   (0x20, .flashProbe), (0x21, .flashResetRead), (0x23, .flashEraseBlock), (0x24, .flashEraseArea),
   (0x25, .flashWriteWord)]

/-- The command a word stands for, or the reason it is illegal (R95). -/
def decode (w : Word) : Except DecodeError Instr :=
  if resField w ≠ 0 then .error .reservedBits
  else if opField w = opClock then
    if (argField w).getLsbD 3 then .error .illegalArgument
    else .ok (.clock ((argField w).getLsbD 0) ((argField w).getLsbD 1) ((argField w).getLsbD 2))
  else if opField w = opSelectArea then
    if argField w ≤ customArea then .ok (.flashSelectArea (argField w)) else .error .illegalArgument
  else
    match plainRows.lookup (opField w) with
    | none => .error .unknownOpcode
    | some i => if argField w = 0 then .ok i else .error .illegalArgument

/-- The argument field of CLOCK: TMS in bit 8, TDI in bit 9, SAMPLE in bit 10, bit 11 zero (R96). -/
def clockArg (tms tdi sample : Bool) : BitVec 4 :=
  (BitVec.ofBool tms).setWidth 4 ||| ((BitVec.ofBool tdi).setWidth 4 <<< 1) ||| ((BitVec.ofBool sample).setWidth 4 <<< 2)

/-- The word of a command (R92, R93, R96, R97). -/
def encode : Instr → Word
  | .clock tms tdi sample => commandWord opClock (clockArg tms tdi sample)
  | .resetTap => commandWord 0x02 0
  | .setIr => commandWord 0x03 0
  | .shiftDr32 => commandWord 0x04 0
  | .init => commandWord 0x08 0
  | .shutdown => commandWord 0x09 0
  | .readWord => commandWord 0x10 0
  | .readHalf => commandWord 0x11 0
  | .writeWord => commandWord 0x12 0
  | .writeHalf => commandWord 0x13 0
  | .dmaReadWord => commandWord 0x14 0
  | .dmaReadHalf => commandWord 0x15 0
  | .dmaWriteWord => commandWord 0x16 0
  | .dmaWriteHalf => commandWord 0x17 0
  | .praccReadWord => commandWord 0x18 0
  | .praccReadHalf => commandWord 0x19 0
  | .praccWriteWord => commandWord 0x1A 0
  | .praccWriteHalf => commandWord 0x1B 0
  | .flashProbe => commandWord 0x20 0
  | .flashResetRead => commandWord 0x21 0
  | .flashSelectArea area => commandWord opSelectArea area
  | .flashEraseBlock => commandWord 0x23 0
  | .flashEraseArea => commandWord 0x24 0
  | .flashWriteWord => commandWord 0x25 0

/-- The command in the low `nbits` bits of `w`, numbered as spec/opcode_table.json numbers them: bit 0 is the
least significant bit of the one 32-bit command word. -/
def decodeTableWord (nbits w : Nat) : Option Instr :=
  match decode (BitVec.ofNat 32 (w % 2 ^ nbits)) with
  | .ok i => some i
  | .error _ => none

end Sys2Proof
end

