-- ==== Sys2Proof/Machine/State.lean ====
section
/-! DEFINITION. The state of the block as plain data (10_state.md R20 to R57), the reasons a step can stop, and
the state after power-on reset (R55, 70_reset_and_hazards.md R300). -/

namespace Sys2Proof.Machine

/-- STATUS.MODE (10_state.md R43). -/
inductive Mode where
  | none
  | dma
  | pracc
deriving DecidableEq, Repr

/-- The error codes of STATUS.ERR (60_exceptions.md R270). -/
inductive ErrCode where
  | none
  | transactionCorrupted
  | userCancelled
  | chipNotDetected
  | chipSelectionInvalid
  | invalidCommand
  | notOpen
  | tapState
  | misaligned
  | invalidConfig
  | blockmapOverflow
deriving DecidableEq, Repr

/-- An error on its way to the host: its code, and what ERR_ADDR and ERR_DATA will hold (R271). -/
structure CmdError where
  code : ErrCode
  addr : Word
  data : Word
deriving DecidableEq, Repr

/-- An event of the observable trace (10_state.md R57). -/
inductive Event where
  | ctrlWrite (b : Byte)
  | statusRead (b : Byte)
  | progress (index : Nat) (addr : Word)
  | done (cmd : Word) (err : Byte)
deriving DecidableEq, Repr

/-- The two access widths (20_memory.md R69). -/
inductive Width where
  | word
  | half
deriving DecidableEq, Repr

/-- Which of the four micro-programs a PrAcc run uses (30_encoding.md R115). -/
inductive ModuleKind where
  | readWord
  | writeWord
  | readHalf
  | writeHalf
deriving DecidableEq, Repr

/-- The command sets the probe tries, in this order (43_flash.md R224). -/
inductive Attempt where
  | amd
  | sst
  | intel
deriving DecidableEq, Repr

/-- When a flash completion poll succeeds (43_flash.md R237, R238, R240, R241). -/
inductive PollCond where
  /-- the half-word is 0xFFFF -/
  | allOnes
  /-- the half-word is the one written -/
  | equals (h : Half)
  /-- the status register's ready bit is set -/
  | ready
deriving DecidableEq, Repr

/-- One task of the running command's pseudocode. A running command is a stack of tasks: what is left of it,
the plain data that 10_state.md R48 calls its continuation. A task reads the value the one before it returned in
`State.acc`. -/
inductive Task where
  /-- CLOCK's own sequence (40_tap.md R142) -/
  | rawClock (tms tdi sample : Bool)
  /-- ResetTap (R133) -/
  | resetTap
  /-- SetInstruction (R136) -/
  | setIr (ir : Word)
  /-- ShiftData32 (R139) -/
  | shiftDr (v : Word)
  /-- RESULT <- the value returned -/
  | setResult
  /-- the end of INIT: RESULT, MODE, LINK_OPEN (41_session.md R160) -/
  | initEnd
  /-- the end of SHUTDOWN (R162) -/
  | shutdownEnd
  /-- CheckAlign (42_transaction.md R171) -/
  | checkAlign (addr : Word) (w : Width) (v : Word)
  /-- MemRead (R170) -/
  | memRead (addr : Word) (w : Width)
  /-- MemWrite (R170) -/
  | memWrite (addr : Word) (w : Width) (v : Word)
  /-- DmaRead (R173, R178) -/
  | dmaRead (addr : Word) (w : Width)
  /-- one attempt of a careful read (R173) -/
  | dmaReadAttempt (addr : Word) (w : Width)
  /-- the data has been shifted out: keep it, clear CONTROL -/
  | dmaReadClear (addr : Word) (w : Width)
  /-- the error test of a careful read -/
  | dmaReadCheck (addr : Word) (w : Width) (raw : Word)
  /-- fast read: the data has been shifted out: keep it, clear CONTROL (R178) -/
  | fastReadClear (addr : Word) (w : Width)
  /-- fast read: FastCheck, then return (R178, R179) -/
  | fastReadEnd (addr : Word) (w : Width) (raw : Word)
  /-- DmaWrite (R174, R178) -/
  | dmaWrite (addr : Word) (w : Width) (v : Word)
  /-- one attempt of a careful write (R174) -/
  | dmaWriteAttempt (addr : Word) (w : Width) (v : Word)
  /-- the error test of a careful write -/
  | dmaWriteCheck (addr : Word) (w : Width) (v : Word)
  /-- fast write: FastCheck (R179) -/
  | fastWriteEnd
  /-- the head of PollStart's loop: `last` is the value of the last poll (R175) -/
  | pollStart (addr : Word) (last : Word)
  /-- the test of DSTRT -/
  | pollTest (addr : Word)
  /-- PraccRead (R197) -/
  | praccRead (addr : Word) (w : Width)
  /-- RunModule has returned: return the data mailbox -/
  | praccReadEnd (w : Width)
  /-- PraccWrite (R197) -/
  | praccWrite (addr : Word) (w : Width) (v : Word)
  /-- RunModule (R190) -/
  | runModule (m : ModuleKind)
  /-- the head of RunModule's outer loop -/
  | moduleLoop (m : ModuleKind)
  /-- the head of RunModule's poll loop (R191) -/
  | praccPoll (m : ModuleKind)
  /-- the test of the captured PRACC bit -/
  | praccPollTest (m : ModuleKind)
  /-- the address has been read: serve the access -/
  | praccServe (m : ModuleKind) (isWrite : Bool)
  /-- a CPU write: its data has been read -/
  | praccStore (m : ModuleKind) (a : Word)
  /-- a CPU write: the pending bit has been cleared -/
  | praccCommit (m : ModuleKind) (a : Word) (d : Word)
  /-- wait an opaque length of time (60_exceptions.md R281) -/
  | wait (length : Nat)
  /-- the head of FlashPoll's loop (43_flash.md R239) -/
  | flashPoll (a : Word) (cond : PollCond) (last : Word)
  /-- the test of FlashPoll's condition -/
  | flashPollTest (a : Word) (cond : PollCond)
  /-- the probe's round loop: rounds left, the last {vendor, device} read (R224) -/
  | probeRound (rounds : Nat) (last : Word)
  /-- one attempt of a round; `rounds` are left after this one -/
  | probeAttempt (k : Attempt) (rounds : Nat)
  /-- the vendor id has been read (R228) -/
  | probeVendor (k : Attempt) (rounds : Nat)
  /-- the device id has been read -/
  | probeDevice (k : Attempt) (rounds : Nat) (v : Half)
  /-- the true device id has been read (R229) -/
  | probeExtended (k : Attempt) (rounds : Nat) (v : Half)
  /-- the chip is back in read mode: look the ids up (R230) -/
  | probeLookup (k : Attempt) (rounds : Nat) (v : Half) (d : Half)
  /-- FLASH_SELECT_AREA's own sequence (R252) -/
  | selectArea (area : BitVec 4)
  /-- EraseArea (R243) -/
  | eraseArea (start : Word) (n : Word)
  /-- EraseBlock (R245) -/
  | eraseBlock (b : Word)
  /-- the head of EraseArea's loop: the index and the blocks to come, and the last block error (R243). It is also
  the place an error inside a block returns to. -/
  | eraseNext (i : Nat) (rest : List Word) (fail : Option CmdError)
  /-- WriteFlash (R245) -/
  | writeFlash (a : Word) (v : Word)
deriving DecidableEq, Repr

/-- An action of the host, one line of a program in the syntax of 30_encoding.md R99, or power-on reset. -/
inductive HostAction where
  /-- `REG = value` and `CMD ...`: a 32-bit write at an offset (R90, R91) -/
  | write (offset : Word) (value : Word)
  /-- a 32-bit read at an offset -/
  | read (offset : Word)
  /-- `WAIT`: read STATUS until BUSY = 0 -/
  | wait
  /-- power-on reset (70_reset_and_hazards.md R300) -/
  | powerOn
deriving DecidableEq, Repr

/-- What a JTAG clock can touch: the lines, the tracked TAP state, the clock counter, the status bytes the
target presents, and the trace. -/
structure Io where
  /-- the output latch (10_state.md R40) -/
  latch : Byte
  /-- TAP_STATES: bit k set when state k is possible (R38) -/
  tapStates : BitVec 16
  /-- CLOCK_COUNT (R39) -/
  clockCount : Word
  /-- the model's own: status bytes the environment will present, first read first (log entry 3) -/
  statusIn : List Byte
  /-- the model's own: how many free status bytes have been drawn (log entry 3) -/
  statusDraws : Nat
  /-- the observable trace, newest first (R57; log entry 21) -/
  trace : List Event
deriving DecidableEq, Repr

/-- The whole state of the block. A field's rule stands in INVENTORY.md under State. -/
structure State where
  /-- the model's own: the parameters, written by no step (00_scope.md R12; log entry 2) -/
  params : Params
  -- configuration and operand registers
  config : Word
  tckDelay : Word
  cmd : Word
  addr : Word
  data : Word
  len : Word
  blockSel : Word
  -- STATUS
  busy : Bool
  linkOpen : Bool
  mode : Mode
  possibleCorruption : Bool
  overrun : Bool
  stubAnomaly : Bool
  err : ErrCode
  irCacheValid : Bool
  -- results
  result : Word
  errAddr : Word
  errData : Word
  flashId : Word
  flashInfo : Word
  flashSize : Word
  flashBase : Word
  areaStart : Word
  areaLen : Word
  progress : Word
  eraseFailed : Word
  -- the identified chip and its block map
  chip : Option FlashDescriptor
  blockMap : List Word
  -- TAP driver and mailboxes
  io : Io
  irCache : Word
  mboxAddr : Word
  mboxData : Word
  -- transient sequencer state
  retries : Nat
  hits : Nat
  /-- the tasks left of the running command, the next one first (R48) -/
  cont : List Task
  /-- the value the last primitive returned (R48) -/
  acc : Word
  -- the model's own
  /-- CANCEL levels the environment will present, first consultation first (log entry 4) -/
  cancelIn : List Bool
  /-- how many free CANCEL levels have been drawn (log entry 4) -/
  cancelDraws : Nat
  /-- how many other free values have been drawn (log entries 10 and 13) -/
  freeDraws : Nat
  /-- the host's pending actions, the next one first (log entry 5) -/
  hostQueue : List HostAction
  /-- the word the last host read returned (log entry 9) -/
  hostRdata : Word
  /-- how many tasks of a running command one step carries out (log entry 6) -/
  pace : Nat
deriving DecidableEq, Repr

/-- Why a step stops the machine. The block itself never stops: an error of a command is a next state. -/
inductive Fault where
  /-- Raised by a command that reaches the target by the session's mode, when LINK_OPEN = 1 and MODE = NONE.
  42_transaction.md R170: this cannot occur, since INIT sets MODE whenever it sets LINK_OPEN. Safe: the model
  stops where the block cannot be (log entry 13). -/
  | accessWithoutMode
deriving DecidableEq, Repr

/-- Why a step has no meaning. -/
inductive Refusal where
  /-- Raised by `exec` for a command that has no meaning yet. Safe. No arm uses it. -/
  | notModelled (mnemonic : String)
  /-- Raised by FLASH_PROBE when FLASH_TABLE has an ill-formed entry. 30_encoding.md R116: a model refuses such a
  table. Safe: nothing is claimed of a configuration the spec excludes (log entry 12). -/
  | flashTableIllFormed
deriving DecidableEq, Repr

/-- The TAP driver's part of the state after power-on: all lines low, TAP state unknown, no clock driven (R300). -/
def Io.reset : Io where
  latch := 0x00
  tapStates := 0xFFFF
  clockCount := 0
  statusIn := []
  statusDraws := 0
  trace := []

/-- The machine right after power-on reset: 10_state.md R55. The model's own fields are the last lines, and their
values are DESIGN CHOICEs (log entries 3, 4, 5, 6, 8, 9). -/
def State.reset : State where
  params := Config.params
  config := 0
  tckDelay := 0
  cmd := 0
  addr := 0
  data := 0
  len := 0
  blockSel := 0
  busy := false
  linkOpen := false
  mode := .none
  possibleCorruption := false
  overrun := false
  stubAnomaly := false
  err := .none
  irCacheValid := false
  result := 0
  errAddr := 0
  errData := 0
  flashId := 0
  flashInfo := 0
  flashSize := 0
  flashBase := 0
  areaStart := 0
  areaLen := 0
  progress := 0
  eraseFailed := 0
  chip := none
  blockMap := []
  io := Io.reset
  irCache := 0
  mboxAddr := 0
  mboxData := 0
  retries := 16
  hits := 0
  cont := []
  acc := 0
  cancelIn := []
  cancelDraws := 0
  freeDraws := 0
  hostQueue := []
  hostRdata := 0
  pace := 65536

end Sys2Proof.Machine
end

