-- ==== Sys2Proof/Machine/Flags.lean ====
section
/-! DEFINITION. The STATUS and CONFIG words: their fields, what software reads, what a write keeps
(10_state.md R22, R29, 30_encoding.md R91, 60_exceptions.md R270). -/

namespace Sys2Proof.Machine

/-- The code of an error in STATUS.ERR (60_exceptions.md R270). -/
def ErrCode.code : ErrCode → Byte
  | .none => 0
  | .transactionCorrupted => 1
  | .userCancelled => 2
  | .chipNotDetected => 3
  | .chipSelectionInvalid => 4
  | .invalidCommand => 5
  | .notOpen => 6
  | .tapState => 7
  | .misaligned => 8
  | .invalidConfig => 9
  | .blockmapOverflow => 10

/-- The code of a mode in STATUS.MODE: 3 never occurs (10_state.md R29). -/
def Mode.code : Mode → BitVec 2
  | .none => 0
  | .dma => 1
  | .pracc => 2

/-- STATUS.CHIP_VALID is 1 exactly when CHIP is set (10_state.md R45). -/
def State.chipValid (s : State) : Bool := s.chip.isSome

/-- The STATUS word, bit 31 leftmost (10_state.md R29). -/
def State.statusWord (s : State) : Word :=
  (0 : BitVec 15) ++ BitVec.ofBool s.irCacheValid ++ s.err.code ++ BitVec.ofBool s.chipValid
    ++ BitVec.ofBool s.stubAnomaly ++ BitVec.ofBool s.overrun ++ BitVec.ofBool s.possibleCorruption
    ++ s.mode.code ++ BitVec.ofBool s.linkOpen ++ BitVec.ofBool s.busy

/-- What a host write to STATUS does: bits 5 and 6 are write-1-to-clear, every other bit ignores it
(10_state.md R29, 30_encoding.md R91). -/
def State.writeStatus (v : Word) (s : State) : State :=
  { s with
    overrun := s.overrun && !v.getLsbD 5
    stubAnomaly := s.stubAnomaly && !v.getLsbD 6 }

/-- The bits of CONFIG that are not reserved: 5:0 and 11:8 (10_state.md R22). -/
def configMask : Word := 0x00000F3F

/-- CONFIG as the host and the error reports read it: reserved fields read 0 (30_encoding.md R91). -/
def State.configWord (s : State) : Word := s.config &&& configMask

/-- CONFIG.IR_LENGTH, as a number (10_state.md R22). -/
def State.irLength (s : State) : Nat := (s.config.extractLsb' 0 6).toNat

/-- CONFIG.WIRING. -/
def State.wiring (s : State) : Bool := s.config.getLsbD 8

/-- CONFIG.FAST. -/
def State.fast (s : State) : Bool := s.config.getLsbD 9

/-- CONFIG.FORCE_DMA. -/
def State.forceDma (s : State) : Bool := s.config.getLsbD 10

/-- CONFIG.FORCE_PRACC. -/
def State.forcePracc (s : State) : Bool := s.config.getLsbD 11

/-- IR_LENGTH is legal: 1..32 (10_state.md R22, 40_tap.md R138). -/
def State.irLengthLegal (s : State) : Bool := decide (1 ≤ s.irLength) && decide (s.irLength ≤ 32)

end Sys2Proof.Machine
end

