-- ==== Sys2Proof/Machine/Operands.lean ====
section
/-! DEFINITION. Operand forms: masks, lanes, alignment, CONTROL words, flash addresses and values, block maps.
Every value is unsigned and every address wraps modulo 2^32, except the end of an erase area (00_scope.md R8, R11,
R16). -/

namespace Sys2Proof.Machine

/-! ### Instructions, lanes, alignment -/

/-- `Mask(ir, L) = ir & (2^L - 1)` (40_tap.md R137). -/
def maskIr (ir : Word) (l : Nat) : Word := BitVec.ofNat 32 (ir.toNat % 2 ^ l)

/-- The 16-bit lane of a word that bit 1 of the address selects, zero-extended: the lane of a DMA half-word read
(20_memory.md R64, 42_transaction.md R180) and the half a half-word write stores (20_memory.md R66). -/
def lane (raw addr : Word) : Word :=
  if addr.getLsbD 1 then raw >>> 16 else raw &&& 0xFFFF

/-- What a read of a width returns of the 32-bit DATA register (42_transaction.md R173, R180). -/
def readValue (w : Width) (raw addr : Word) : Word :=
  match w with
  | .word => raw
  | .half => lane raw addr

/-- A word access needs addr[1:0] = 0, a half-word access addr[0] = 0 (20_memory.md R68). -/
def misaligned (addr : Word) : Width → Bool
  | .word => addr.getLsbD 0 || addr.getLsbD 1
  | .half => addr.getLsbD 0

/-! ### CONTROL words (30_encoding.md R108, R109) -/

/-- A word with one bit set. -/
def bitAt (k : Nat) : Word := (1 : Word) <<< k

/-- The value of the width field DSZ. -/
def dszOf (c : ControlBits) : Width → BitVec 2
  | .word => c.dszWord
  | .half => c.dszHalf

/-- The start word of a DMA access (42_transaction.md R172): DMAACC, the direction, the width, DSTRT, PROBEN,
PRACC. PROBTRAP is 0 in every DMA shift. -/
def ctlStart (c : ControlBits) (isRead : Bool) (w : Width) : Word :=
  bitAt c.dmaacc ||| (if isRead then bitAt c.drwn else 0)
    ||| ((dszOf c w).setWidth 32 <<< c.dsz)
    ||| bitAt c.dstrt ||| bitAt c.proben ||| bitAt c.pracc

/-- CTL_DMA_POLL. -/
def ctlDmaPoll (c : ControlBits) : Word := bitAt c.proben ||| bitAt c.pracc

/-- CTL_DMA_CLEAR: the poll value (30_encoding.md R109). -/
def ctlDmaClear (c : ControlBits) : Word := bitAt c.proben ||| bitAt c.pracc

/-- CTL_PRACC_POLL: PRACC = 1 leaves the pending access pending (42_transaction.md R191). -/
def ctlPraccPoll (c : ControlBits) : Word := bitAt c.pracc ||| bitAt c.proben ||| bitAt c.probtrap

/-- CTL_PRACC_DONE: PRACC = 0 completes the pending access. -/
def ctlPraccDone (c : ControlBits) : Word := bitAt c.proben ||| bitAt c.probtrap

/-! ### The parameters a rule reads -/

/-- The EJTAG parameters. -/
def State.ejtag (s : State) : EjtagParams := s.params.ejtag

/-- The CONTROL bit positions. -/
def State.ctl (s : State) : ControlBits := s.params.ejtag.control

/-- The flash parameters. -/
def State.flashParams (s : State) : FlashParams := s.params.flash

/-- The pin map CONFIG.WIRING selects (30_encoding.md R112). -/
def State.pins (s : State) : PinMap := if s.wiring then s.params.pinsAlternate else s.params.pinsStandard

/-- The words of a micro-program (30_encoding.md R115). -/
def State.moduleWords (s : State) : ModuleKind → List Word
  | .readWord => s.params.modules.readWord
  | .writeWord => s.params.modules.writeWord
  | .readHalf => s.params.modules.readHalf
  | .writeHalf => s.params.modules.writeHalf

/-- The micro-program of a PrAcc read (42_transaction.md R197). -/
def readModule : Width → ModuleKind
  | .word => .readWord
  | .half => .readHalf

/-- The micro-program of a PrAcc write (42_transaction.md R197). -/
def writeModule : Width → ModuleKind
  | .word => .writeWord
  | .half => .writeHalf

/-! ### Flash values and addresses (43_flash.md R221, R222, R233) -/

/-- `Rep(c) = c * 0x00010001`: the command value in both lanes (R221). -/
def rep (c : Byte) : Word := c.setWidth 32 ||| (c.setWidth 32 <<< 16)

/-- `U1(f, base)`: offsets are 16-bit words, so the byte address is twice the offset (R222). -/
def unlock1 (f : Family) (base : Word) : Word := base + 2 * Config.unlockAddr1 f

/-- `U2(f, base)`. -/
def unlock2 (f : Family) (base : Word) : Word := base + 2 * Config.unlockAddr2 f

/-- `WindowBase(size)`: 8 MB and more use the larger-address window (R233). -/
def windowBase (p : FlashParams) (size : Word) : Word :=
  if Config.largeChipThreshold ≤ size then p.baseLarge else p.baseSmall

/-- The family code of FLASH_INFO (30_encoding.md R114). -/
def familyCode : Family → Word
  | .amd => 1
  | .sst => 2
  | .bsc => 3
  | .scs => 4

/-- AMD and SST share their erase and program sequences, BSC and SCS theirs (43_flash.md R245). -/
def amdStyle : Family → Bool
  | .amd => true
  | .sst => true
  | .bsc => false
  | .scs => false

/-- `{v, d}`: the vendor id in the high half. -/
def idWord (v d : Half) : Word := v ++ d

/-- The half-word of `v` written at `a + 2k` by a program (43_flash.md R240): `(v >> 16k) & 0xFFFF`. -/
def programHalf (v : Word) (k : Nat) : Half := v.extractLsb' (16 * k) 16

/-- Whether a captured half-word satisfies a poll's condition (R237, R238, R240, R241). The value of a half-word
read is zero-extended, so its low 16 bits are the half-word. -/
def pollHolds (p : FlashParams) (v : Word) : PollCond → Bool
  | .allOnes => v == 0xFFFF
  | .equals h => v == h.setWidth 32
  | .ready => (v &&& p.bytes.statusReady.setWidth 32) != 0

/-! ### Tables and block maps (43_flash.md R230, R234, R236, R242) -/

/-- `Lookup(v, d)`: the first entry of FLASH_TABLE with these ids (R230). -/
def lookupChip (p : FlashParams) (v d : Half) : Option FlashDescriptor :=
  p.table.find? fun e => e.vendor == v && e.device == d

/-- The first entry of AREA_TABLE for a chip size and an area code (R234). -/
def lookupArea (p : FlashParams) (size : Word) (code : BitVec 4) : Option AreaEntry :=
  p.areas.find? fun e => e.size == size && e.area == code

/-- `TotalBlocks(e)`: the sum of the region counts. The sum is not wrapped, so that the capacity test of R232 and
R235 is the bound of 10_state.md R35 (log entry 11). -/
def totalBlocks (regions : List Region) : Nat := (regions.map fun r => r.count.toNat).sum

/-- The block starts of a region list from `a` up, as unbounded numbers (R236). -/
def blockStarts : List Region → Nat → List Nat
  | [], _ => []
  | r :: rs, a =>
    (List.range r.count.toNat).map (fun k => a + k * r.blockSize.toNat)
      ++ blockStarts rs (a + r.count.toNat * r.blockSize.toNat)

/-- `BuildMap(e, base)` (R236). A map none of whose starts passes 2^32 is the list of its starts. The spec does not
define a map that would wrap: it then has its number of entries, each a free value (log entry 10). -/
def buildMap (draw : Nat) (regions : List Region) (base : Word) : List Word :=
  let starts := blockStarts regions base.toNat
  if starts.all (fun a => decide (a < 2 ^ 32)) then starts.map (BitVec.ofNat 32)
  else (List.range starts.length).map (Config.freeBlockStart draw)

/-- `Select(s, n)`: the blocks `b` of the map with `s <= b < s + n`, the sum not wrapped (R242). -/
def selectBlocks (map : List Word) (start n : Word) : List Word :=
  map.filter fun b => decide (start.toNat ≤ b.toNat) && decide (b.toNat < start.toNat + n.toNat)

end Sys2Proof.Machine
end

