-- ==== Sys2Proof/Machine/Ops.lean ====
section
/-! DEFINITION. The shared operations: the trace, the task stack, the environment's inputs, ending a command and
taking an error (30_encoding.md R94, 60_exceptions.md R271, R278). -/

namespace Sys2Proof.Machine

/-! ### Trace and task stack -/

/-- `emit` (00_scope.md R11): append an event to the trace. -/
def State.emit (e : Event) (s : State) : State :=
  { s with io := { s.io with trace := e :: s.io.trace } }

/-- Put tasks in front of what is left of the command. -/
def State.push (ts : List Task) (s : State) : State := { s with cont := ts ++ s.cont }

/-- Return a value to the next task. -/
def State.ret (v : Word) (s : State) : State := { s with acc := v }

/-! ### Inputs of the environment -/

/-- `readStatusLine()`: the next status byte the environment presents, or a free one (10_state.md R52; log
entry 3). -/
def Io.takeStatus (io : Io) : Byte × Io :=
  match io.statusIn with
  | b :: bs => (b, { io with statusIn := bs })
  | [] => (Config.freeStatusByte io.statusDraws, { io with statusDraws := io.statusDraws + 1 })

/-- `draw CANCEL`: the next level the environment presents, or a free one (10_state.md R53; log entry 4). -/
def State.drawCancel (s : State) : Bool × State :=
  match s.cancelIn with
  | c :: cs => (c, { s with cancelIn := cs })
  | [] => (Config.freeCancel s.cancelDraws, { s with cancelDraws := s.cancelDraws + 1 })

/-- A wait drives no line, reads no input and changes no state, whatever its length (60_exceptions.md R281). -/
def State.waitFor (_length : Nat) (s : State) : State := s

/-! ### The end of a command, and errors -/

/-- The end of every command: the Done event, then BUSY = 0 (30_encoding.md R94). -/
def State.finish (s : State) : State :=
  { s.emit (.done s.cmd s.err.code) with busy := false, cont := [] }

/-- Whether the running command ends by writing RESULT from the value it read. Of the commands that meet
TRANSACTION_CORRUPTED these are READ_WORD, READ_HALF, DMA_READ_WORD and DMA_READ_HALF. -/
def State.returnsValue (s : State) : Bool := s.cont.contains .setResult

/-- Taking an error at the command's level (60_exceptions.md R271): STATUS.ERR, ERR_ADDR and ERR_DATA are written
and the rest of the command is abandoned; nothing is rolled back (R272), no mode changes and control goes nowhere
(R278). A read command that ends with TRANSACTION_CORRUPTED also writes the last-seen data to RESULT
(42_transaction.md R177). -/
def State.endWithError (e : CmdError) (s : State) : State :=
  State.finish
    { s with
      err := e.code
      errAddr := e.addr
      errData := e.data
      result := if e.code = .transactionCorrupted ∧ s.returnsValue then e.data else s.result }

/-- The innermost erase-area loop the tasks stand in: its index and blocks to come, and what is left after it. -/
def enclosingArea : List Task → Option (Nat × List Word × List Task)
  | [] => none
  | .eraseNext i rest _ :: k => some (i, rest, k)
  | _ :: k => enclosingArea k

/-- `raise Error(code, addr, data)`. Inside FLASH_ERASE_AREA an error other than USER_CANCELLED ends only the
block being erased: the failure is counted and kept, and the loop goes on (43_flash.md R243, 90_conflicts.md C3).
The error registers are written only when a command ends (10_state.md R31; log entry 15). Anywhere else, and for
USER_CANCELLED, the command ends with the error (60_exceptions.md R271). -/
def State.raise (e : CmdError) (s : State) : State :=
  if e.code = .userCancelled then s.endWithError e
  else
    match enclosingArea s.cont with
    | some (i, rest, k) =>
      { s with eraseFailed := s.eraseFailed + 1, cont := .eraseNext i rest (some e) :: k }
    | none => s.endWithError e

/-- INVALID_COMMAND: STATUS.ERR only, ERR_ADDR and ERR_DATA are not written (30_encoding.md R94, R95,
60_exceptions.md R271). -/
def State.endInvalid (s : State) : State := State.finish { s with err := .invalidCommand }

/-- The acceptance of a command word (30_encoding.md R94): CMD, BUSY = 1, ERR = 0. -/
def State.accept (w : Word) (s : State) : State :=
  { s with cmd := w, busy := true, err := .none, cont := [] }

end Sys2Proof.Machine
end

