-- ==== Sys2Proof/Machine/Driver.lean ====
section
/-! DEFINITION. The TAP Driver (40_tap.md R130 to R141): the TAP state machine, the clock, ResetTap,
SetInstruction and ShiftData32. It is the only part that drives the JTAG lines (00_scope.md R14), and it never
consults CANCEL (R141). -/

namespace Sys2Proof.Machine

/-! ### The TAP state machine -/

/-- The sixteen TAP states, in the order of their codes (30_encoding.md R111). -/
inductive TapState where
  | testLogicReset
  | runTestIdle
  | selectDrScan
  | captureDr
  | shiftDr
  | exit1Dr
  | pauseDr
  | exit2Dr
  | updateDr
  | selectIrScan
  | captureIr
  | shiftIr
  | exit1Ir
  | pauseIr
  | exit2Ir
  | updateIr
deriving DecidableEq, Repr

/-- The code of a state: its bit in TAP_STATES (30_encoding.md R111). -/
def tapCode : TapState → Nat
  | .testLogicReset => 0
  | .runTestIdle => 1
  | .selectDrScan => 2
  | .captureDr => 3
  | .shiftDr => 4
  | .exit1Dr => 5
  | .pauseDr => 6
  | .exit2Dr => 7
  | .updateDr => 8
  | .selectIrScan => 9
  | .captureIr => 10
  | .shiftIr => 11
  | .exit1Ir => 12
  | .pauseIr => 13
  | .exit2Ir => 14
  | .updateIr => 15

/-- All sixteen states. -/
def allTapStates : List TapState :=
  [.testLogicReset, .runTestIdle, .selectDrScan, .captureDr, .shiftDr, .exit1Dr, .pauseDr, .exit2Dr,
   .updateDr, .selectIrScan, .captureIr, .shiftIr, .exit1Ir, .pauseIr, .exit2Ir, .updateIr]

/-- `Next1(s, tms)` (40_tap.md R130). -/
def tapNext1 : TapState → Bool → TapState
  | .testLogicReset, tms => if tms then .testLogicReset else .runTestIdle
  | .runTestIdle, tms => if tms then .selectDrScan else .runTestIdle
  | .selectDrScan, tms => if tms then .selectIrScan else .captureDr
  | .captureDr, tms => if tms then .exit1Dr else .shiftDr
  | .shiftDr, tms => if tms then .exit1Dr else .shiftDr
  | .exit1Dr, tms => if tms then .updateDr else .pauseDr
  | .pauseDr, tms => if tms then .exit2Dr else .pauseDr
  | .exit2Dr, tms => if tms then .updateDr else .shiftDr
  | .updateDr, tms => if tms then .selectDrScan else .runTestIdle
  | .selectIrScan, tms => if tms then .testLogicReset else .captureIr
  | .captureIr, tms => if tms then .exit1Ir else .shiftIr
  | .shiftIr, tms => if tms then .exit1Ir else .shiftIr
  | .exit1Ir, tms => if tms then .updateIr else .pauseIr
  | .pauseIr, tms => if tms then .exit2Ir else .pauseIr
  | .exit2Ir, tms => if tms then .updateIr else .shiftIr
  | .updateIr, tms => if tms then .selectDrScan else .runTestIdle

/-- The set with one state in it. -/
def tapOnly (t : TapState) : BitVec 16 := (1 : BitVec 16) <<< tapCode t

/-- `Next(S, tms)`: the states one transition after those of `S` (40_tap.md R131). -/
def tapNext (states : BitVec 16) (tms : Bool) : BitVec 16 :=
  allTapStates.foldl
    (fun acc t => if states.getLsbD (tapCode t) then acc ||| tapOnly (tapNext1 t tms) else acc) 0

/-- The set {RTI}, 0x0002: the TAP is known to be in Run-Test/Idle. -/
def tapIdle : BitVec 16 := 0x0002

/-! ### The clock -/

/-- What a clock needs to know of the configuration: the pin map and the inter-clock delay. -/
structure Wire where
  pins : PinMap
  delay : Nat
deriving DecidableEq, Repr

/-- The pin map CONFIG.WIRING selects, and TCK_DELAY in its opaque unit (10_state.md R22, R23). -/
def State.wire (s : State) : Wire := { pins := s.pins, delay := s.tckDelay.toNat * s.params.tckDelayUnit }

/-- The control byte of the low phase: TMS and TDI at their bits, TCK and every other bit 0 (40_tap.md R132,
30_encoding.md R112). -/
def lowByte (p : PinMap) (tms tdi : Bool) : Byte :=
  ((BitVec.ofBool tms).setWidth 8 <<< p.tms.val) ||| ((BitVec.ofBool tdi).setWidth 8 <<< p.tdi.val)

/-- The control byte of the high phase: the same with TCK = 1, the rising edge. -/
def highByte (p : PinMap) (tms tdi : Bool) : Byte := lowByte p tms tdi ||| ((1 : Byte) <<< p.tck.val)

/-- TDO in a status byte (40_tap.md R132). -/
def tdoBit (p : PinMap) (b : Byte) : Bool := b.getLsbD p.tdo.val ^^ p.tdoInverted

/-- `writeControlLine(b)` with its event and the latch (10_state.md R40, R57). -/
def Io.writeControl (b : Byte) (io : Io) : Io := { io with latch := b, trace := .ctrlWrite b :: io.trace }

/-- A wait of the inter-clock delay: it drives nothing and changes nothing (60_exceptions.md R281). -/
def Io.waitFor (_length : Nat) (io : Io) : Io := io

/-- The two phases of a clock, each followed by its delay. TCK stays high. -/
def Io.phases (w : Wire) (tms tdi : Bool) (io : Io) : Io :=
  (((io.writeControl (lowByte w.pins tms tdi)).waitFor w.delay).writeControl (highByte w.pins tms tdi)).waitFor
    w.delay

/-- The transition and the count at the end of a clock (40_tap.md R131, R132). -/
def Io.advance (tms : Bool) (io : Io) : Io :=
  { io with tapStates := tapNext io.tapStates tms, clockCount := io.clockCount + 1 }

/-- `readStatusLine()` with its event: TDO, an input (10_state.md R52). -/
def Io.readStatus (p : PinMap) (io : Io) : Bool × Io :=
  let (b, io) := io.takeStatus
  (tdoBit p b, { io with trace := .statusRead b :: io.trace })

/-- `Clock(tms, tdi, 0)`: no status read happens (40_tap.md R132). -/
def Io.clock (w : Wire) (tms tdi : Bool) (io : Io) : Io := (io.phases w tms tdi).advance tms

/-- `Clock(tms, tdi, 1)` (40_tap.md R132). -/
def Io.sampledClock (w : Wire) (tms tdi : Bool) (io : Io) : Bool × Io :=
  let (tdo, io) := (io.phases w tms tdi).readStatus w.pins
  (tdo, io.advance tms)

/-- Unsampled clocks in order, each a (tms, tdi) pair. -/
def Io.clocks (w : Wire) : List (Bool × Bool) → Io → Io
  | [], io => io
  | (tms, tdi) :: cs, io => Io.clocks w cs (io.clock w tms tdi)

/-- Sampled clocks in order: the bits captured, the first first. -/
def Io.shift (w : Wire) : List (Bool × Bool) → Io → List Bool × Io
  | [], io => ([], io)
  | (tms, tdi) :: cs, io =>
    let (tdo, io) := io.sampledClock w tms tdi
    let (tdos, io) := Io.shift w cs io
    (tdo :: tdos, io)

/-- A word from its bits, least significant first. -/
def wordOfBits (bits : List Bool) : Word := BitVec.ofNat 32 (bits.foldr (fun b n => b.toNat + 2 * n) 0)

/-! ### The clock sequences -/

/-- ResetTap: five clocks with tms = 1, one with tms = 0 (40_tap.md R133). -/
def resetClocks : List (Bool × Bool) := List.replicate Config.resetTmsOnes (true, false) ++ [(false, false)]

/-- The `n` data bits of a shift, LSB first; the last one raises tms (40_tap.md R136, R139). -/
def dataClocks (v : Word) (n : Nat) : List (Bool × Bool) :=
  (List.range n).map fun i => (i + 1 == n, v.getLsbD i)

/-- RTI to Select-DR, Select-IR, Capture-IR, Shift-IR (40_tap.md R136); TDI = 0 (R134). -/
def irEntry : List (Bool × Bool) := [(true, false), (true, false), (false, false), (false, false)]

/-- RTI to Select-DR, Capture-DR, Shift-DR (40_tap.md R139); TDI = 0 (R134). -/
def drEntry : List (Bool × Bool) := [(true, false), (false, false), (false, false)]

/-- Exit1 to Update, Run-Test/Idle (40_tap.md R136, R139); TDI = 0 (R134). -/
def shiftExit : List (Bool × Bool) := [(true, false), (false, false)]

/-- All the clocks of an instruction-register shift; none of them samples TDO (40_tap.md R135, R136). -/
def irClocks (m : Word) (l : Nat) : List (Bool × Bool) := irEntry ++ dataClocks m l ++ shiftExit

/-- All the clocks of ShiftData32: the 32 data clocks sample TDO, the others do not (40_tap.md R134, R139). -/
def Io.shiftDr (w : Wire) (v : Word) (io : Io) : Word × Io :=
  let (bits, io) := Io.shift w (dataClocks v 32) (io.clocks w drEntry)
  (wordOfBits bits, io.clocks w shiftExit)

/-! ### The primitives on the state -/

/-- `ResetTap()` (40_tap.md R133): six clocks, and the IR cache no longer describes the target. -/
def State.resetTap (s : State) : State :=
  { s with io := s.io.clocks s.wire resetClocks, irCacheValid := false }

/-- INVALID_CONFIG, with CONFIG: IR_LENGTH outside 1..32 (40_tap.md R138), or both force flags at INIT
(41_session.md R160). -/
def State.badConfig (s : State) : CmdError := { code := .invalidConfig, addr := 0, data := s.configWord }

/-- The error of a shift from a tracked TAP state other than {RTI} (40_tap.md R138). -/
def State.badTapState (s : State) : CmdError :=
  { code := .tapState, addr := 0, data := s.io.tapStates.setWidth 32 }

/-- The clocks and cache update of an instruction-register shift (40_tap.md R136). -/
def State.shiftIr (ir : Word) (s : State) : State :=
  let m := maskIr ir s.irLength
  { s with io := s.io.clocks s.wire (irClocks m s.irLength), irCache := m, irCacheValid := true }

/-- The cache holds this instruction by an actual shift (40_tap.md R136, 90_conflicts.md C4). -/
def State.irCached (ir : Word) (s : State) : Bool := s.irCacheValid && s.irCache == maskIr ir s.irLength

/-- `SetInstruction(ir)` (40_tap.md R136, R138): the preconditions in their order, then nothing at all on a cache
hit, else the shift. -/
def State.setInstruction (ir : Word) (s : State) : State :=
  if !s.irLengthLegal then s.raise s.badConfig
  else if s.io.tapStates ≠ tapIdle then s.raise s.badTapState
  else if s.irCached ir then s
  else s.shiftIr ir

/-- `ShiftData32(v)` (40_tap.md R138, R139): the captured word is returned; the IR cache is not touched. DEDUCED (log
entry 28): IR_LENGTH is checked by SetInstruction alone, as R138, R145 and row 9 of R270 say; 60_exceptions.md R274 and
93_implementation_defined.md I6 speak of an IR or DR shift. -/
def State.shiftData32 (v : Word) (s : State) : State :=
  if s.io.tapStates ≠ tapIdle then s.raise s.badTapState
  else { s with io := (s.io.shiftDr s.wire v).2, acc := (s.io.shiftDr s.wire v).1 }

/-- CLOCK's sequence (40_tap.md R142): one clock, the IR cache cleared, RESULT written when sampled. -/
def State.rawClock (tms tdi sample : Bool) (s : State) : State :=
  if sample then
    { s with
      io := (s.io.sampledClock s.wire tms tdi).2
      irCacheValid := false
      result := (BitVec.ofBool (s.io.sampledClock s.wire tms tdi).1).setWidth 32 }
  else { s with io := s.io.clock s.wire tms tdi, irCacheValid := false }

/-! ### The clock-level view of the trace -/

/-- `Clk(tms, tdi, sampled, tdo)` (10_state.md R57). -/
structure Clk where
  tms : Bool
  tdi : Bool
  tdo : Option Bool
deriving DecidableEq, Repr

/-- The clock-level view of byte-level events in the order they happened, under a pin map: a low-phase byte, a
high-phase byte, and the status byte when one follows (10_state.md R57, 40_tap.md R132). Other events are no
clocks. -/
def clockView (p : PinMap) : List Event → List Clk
  | .ctrlWrite lo :: .ctrlWrite _ :: .statusRead st :: es =>
    { tms := lo.getLsbD p.tms.val, tdi := lo.getLsbD p.tdi.val, tdo := some (tdoBit p st) } :: clockView p es
  | .ctrlWrite lo :: .ctrlWrite _ :: es =>
    { tms := lo.getLsbD p.tms.val, tdi := lo.getLsbD p.tdi.val, tdo := none } :: clockView p es
  | _ :: es => clockView p es
  | [] => []

end Sys2Proof.Machine
end

