-- ==== Sys2Proof/Machine/Transaction.lean ====
section
/-! DEFINITION. The EJTAG Transaction Layer and the Debug Stub Executor (42_transaction.md R170 to R199), one
definition per task of their pseudocode. A task acts on a state it has already been taken off. -/

namespace Sys2Proof.Machine

/-! ### Dispatch (R170, R171) -/

/-- MISALIGNED, with the address and the operand (R171). -/
def misalignedError (addr v : Word) : CmdError := { code := .misaligned, addr := addr, data := v }

/-- `CheckAlign(addr, n, v)` (R171): before any clock. -/
def State.checkAlign (addr : Word) (w : Width) (v : Word) (s : State) : State :=
  if misaligned addr w then s.raise (misalignedError addr v) else s

/-- `MemRead(addr, n)` (R170). With MODE = NONE, which cannot occur, neither path is taken and no value is given:
the value returned is free (log entry 13). -/
def State.memRead (addr : Word) (w : Width) (s : State) : State :=
  if misaligned addr w then s.raise (misalignedError addr 0)
  else
    match s.mode with
    | .dma => s.push [.dmaRead addr w]
    | .pracc => s.push [.praccRead addr w]
    | .none => { s with acc := Config.freeWord s.freeDraws, freeDraws := s.freeDraws + 1 }

/-- `MemWrite(addr, n, v)` (R170). With MODE = NONE, which cannot occur, neither path is taken. -/
def State.memWrite (addr : Word) (w : Width) (v : Word) (s : State) : State :=
  if misaligned addr w then s.raise (misalignedError addr v)
  else
    match s.mode with
    | .dma => s.push [.dmaWrite addr w v]
    | .pracc => s.push [.praccWrite addr w v]
    | .none => s

/-! ### DMA Access (R172 to R182) -/

/-- The first shifts of a DMA read, up to the start (R173, R178): the address unchanged (R182). -/
def State.dmaReadStart (addr : Word) (w : Width) (s : State) : List Task :=
  [.setIr s.ejtag.irAddress, .shiftDr addr, .setIr s.ejtag.irControl, .shiftDr (ctlStart s.ctl true w)]

/-- The first shifts of a DMA write, up to the start (R174, R178): the operand unchanged for half-words too
(R181). -/
def State.dmaWriteStart (addr : Word) (w : Width) (v : Word) (s : State) : List Task :=
  [.setIr s.ejtag.irAddress, .shiftDr addr, .setIr s.ejtag.irData, .shiftDr v,
   .setIr s.ejtag.irControl, .shiftDr (ctlStart s.ctl false w)]

/-- The retry counter at the start of a DMA access: 16, with FAST = 1 too (10_state.md R46; R176 reloads it for every
access; R178, the fast access, makes no use of it). A Processor Access, which has no retry, leaves it alone: DEDUCED
(log entry 28). -/
def State.loadRetries (s : State) : State := { s with retries := Config.dmaRetryCap }

/-- `DmaRead(addr, n)`: careful with 16 retries (R173, R176), or fast (R178). -/
def State.dmaRead (addr : Word) (w : Width) (s : State) : State :=
  if s.fast then
    s.loadRetries.push (s.dmaReadStart addr w ++ [.setIr s.ejtag.irData, .shiftDr 0, .fastReadClear addr w])
  else s.loadRetries.push [.dmaReadAttempt addr w]

/-- One attempt of a careful read (R173). -/
def State.dmaReadAttempt (addr : Word) (w : Width) (s : State) : State :=
  s.push (s.dmaReadStart addr w
    ++ [.pollStart addr 0, .setIr s.ejtag.irData, .shiftDr 0, .dmaReadClear addr w])

/-- The DATA word has been captured: clear CONTROL and test (R173). -/
def State.dmaReadClear (addr : Word) (w : Width) (s : State) : State :=
  s.push [.setIr s.ejtag.irControl, .shiftDr (ctlDmaClear s.ctl), .dmaReadCheck addr w s.acc]

/-- `Retry(addr, d)` (R176): TRANSACTION_CORRUPTED when no retries are left, else the whole operation again. -/
def State.retry (addr d : Word) (again : Task) (s : State) : State :=
  match s.retries with
  | 0 => s.raise { code := .transactionCorrupted, addr := addr, data := d }
  | n + 1 => { s with retries := n }.push [again]

/-- The error test of a careful read (R173): the value, or a retry. -/
def State.dmaReadCheck (addr : Word) (w : Width) (raw : Word) (s : State) : State :=
  if s.acc.getLsbD s.ctl.derr then s.retry addr (readValue w raw addr) (.dmaReadAttempt addr w)
  else s.ret (readValue w raw addr)

/-- `FastCheck(c)` (R179): DSTRT still set at the clear shift sets POSSIBLE_CORRUPTION; DERR is not examined. -/
def State.fastCheck (s : State) : State :=
  { s with possibleCorruption := s.possibleCorruption || s.acc.getLsbD s.ctl.dstrt }

/-- Fast read: the DATA word has been captured: clear CONTROL (R178). -/
def State.fastReadClear (addr : Word) (w : Width) (s : State) : State :=
  s.push [.setIr s.ejtag.irControl, .shiftDr (ctlDmaClear s.ctl), .fastReadEnd addr w s.acc]

/-- Fast read: FastCheck, then the value (R178). -/
def State.fastReadEnd (addr : Word) (w : Width) (raw : Word) (s : State) : State :=
  s.fastCheck.ret (readValue w raw addr)

/-- `DmaWrite(addr, n, v)`: careful with 16 retries (R174, R176), or fast (R178). -/
def State.dmaWrite (addr : Word) (w : Width) (v : Word) (s : State) : State :=
  if s.fast then
    s.loadRetries.push (s.dmaWriteStart addr w v ++ [.shiftDr (ctlDmaClear s.ctl), .fastWriteEnd])
  else s.loadRetries.push [.dmaWriteAttempt addr w v]

/-- One attempt of a careful write (R174): the clear needs no IR shift. -/
def State.dmaWriteAttempt (addr : Word) (w : Width) (v : Word) (s : State) : State :=
  s.push (s.dmaWriteStart addr w v
    ++ [.pollStart addr 0, .shiftDr (ctlDmaClear s.ctl), .dmaWriteCheck addr w v])

/-- The error test of a careful write (R174). -/
def State.dmaWriteCheck (addr : Word) (w : Width) (v : Word) (s : State) : State :=
  if s.acc.getLsbD s.ctl.derr then s.retry addr v (.dmaWriteAttempt addr w v) else s

/-- The head of PollStart's loop (R175): CANCEL is consulted before each poll shift. The loop has no bound. -/
def State.pollStart (addr last : Word) (s : State) : State :=
  if s.drawCancel.1 then s.drawCancel.2.raise { code := .userCancelled, addr := addr, data := last }
  else s.drawCancel.2.push [.shiftDr (ctlDmaPoll s.ctl), .pollTest addr]

/-- The test of PollStart's loop (R175). -/
def State.pollTest (addr : Word) (s : State) : State :=
  if s.acc.getLsbD s.ctl.dstrt then s.push [.pollStart addr s.acc] else s

/-! ### Processor Access (R190 to R199) -/

/-- `PraccRead(addr, n)` (R197). -/
def State.praccRead (addr : Word) (w : Width) (s : State) : State :=
  { s with mboxAddr := Config.praccVaddr addr, mboxData := 0 }.push
    [.runModule (readModule w), .praccReadEnd w]

/-- The value of a PrAcc read: the data mailbox, its low half for a half-word; no lane correction (R197). -/
def State.praccReadEnd (w : Width) (s : State) : State :=
  s.ret (match w with | .word => s.mboxData | .half => s.mboxData &&& 0xFFFF)

/-- `PraccWrite(addr, n, v)` (R197): a half-word write puts the selected half in the mailbox (20_memory.md R66). -/
def State.praccWrite (addr : Word) (w : Width) (v : Word) (s : State) : State :=
  { s with mboxAddr := Config.praccVaddr addr, mboxData := readValue w v addr }.push
    [.runModule (writeModule w)]

/-- `RunModule(M)` (R190): the hit counter starts at 0 (R192). -/
def State.runModule (m : ModuleKind) (s : State) : State := { s with hits := 0 }.push [.moduleLoop m]

/-- The head of RunModule's loop: one pending CPU access per iteration (R190). -/
def State.moduleLoop (m : ModuleKind) (s : State) : State :=
  s.push [.setIr s.ejtag.irControl, .praccPoll m]

/-- The head of the poll loop (R191): no CANCEL, no bound (R198). -/
def State.praccPoll (m : ModuleKind) (s : State) : State :=
  s.push [.shiftDr (ctlPraccPoll s.ctl), .praccPollTest m]

/-- The test of the poll loop (R191): PRACC = 1 ends it, and PRNW gives the direction. -/
def State.praccPollTest (m : ModuleKind) (s : State) : State :=
  if s.acc.getLsbD s.ctl.pracc then
    s.push [.setIr s.ejtag.irAddress, .shiftDr 0, .praccServe m (s.acc.getLsbD s.ctl.prnw)]
  else s.push [.praccPoll m]

/-- `Serve(M, a)` (R193, R194): the value served for a CPU read, and whether it is an anomaly. -/
def State.serve (m : ModuleKind) (a : Word) (s : State) : Word × Bool :=
  if s.ejtag.debugVector ≤ a then
    match (s.moduleWords m)[(a - s.ejtag.debugVector).toNat / 4]? with
    | some v => (v, false)
    | none => (0, true)
  else if a = s.ejtag.vaddrReg then (s.mboxAddr, false)
  else if a = s.ejtag.vdataReg then (s.mboxData, false)
  else (0, true)

/-- A CPU read that is served: DATA <- the value, then the pending bit is cleared, and the loop goes on (R190). -/
def State.serveRead (m : ModuleKind) (a : Word) (s : State) : State :=
  { s with stubAnomaly := s.stubAnomaly || (s.serve m a).2 }.push
    [.setIr s.ejtag.irData, .shiftDr (s.serve m a).1, .setIr s.ejtag.irControl,
     .shiftDr (ctlPraccDone s.ctl), .moduleLoop m]

/-- The access at the address just read (R190): a write has its data read; a read at DEBUG_VECTOR counts as a hit,
and the second hit ends the run with the access left pending (R192, R195). -/
def State.praccServe (m : ModuleKind) (isWrite : Bool) (s : State) : State :=
  if isWrite then s.push [.setIr s.ejtag.irData, .shiftDr 0, .praccStore m s.acc]
  else if s.acc = s.ejtag.debugVector then
    if s.hits + 1 = 2 then { s with hits := s.hits + 1 }
    else { s with hits := s.hits + 1 }.serveRead m s.acc
  else s.serveRead m s.acc

/-- A CPU write whose data has been read: clear the pending bit before storing (R196). -/
def State.praccStore (m : ModuleKind) (a : Word) (s : State) : State :=
  s.push [.setIr s.ejtag.irControl, .shiftDr (ctlPraccDone s.ctl), .praccCommit m a s.acc]

/-- The store of a CPU write: in the mailbox of its address, or nowhere with STUB_ANOMALY (R190, R194, R196). DEDUCED
(log entry 28): a write to VADDR_REG is no anomaly, as these rules say; 93_implementation_defined.md I20 has one at every
address but the data mailbox. -/
def State.praccCommit (m : ModuleKind) (a d : Word) (s : State) : State :=
  (if a = s.ejtag.vaddrReg then { s with mboxAddr := d }
   else if a = s.ejtag.vdataReg then { s with mboxData := d }
   else { s with stubAnomaly := true }).push [.moduleLoop m]

end Sys2Proof.Machine
end

