-- ==== Sys2Proof/Machine/FlashEngine.lean ====
section
/-! DEFINITION. The Flash Programming Engine (43_flash.md R220 to R245), one definition per task of its
pseudocode. Every flash access is a MemRead or MemWrite of a half-word, so it works in DMA and PrAcc mode alike. -/

namespace Sys2Proof.Machine

/-! ### Helpers (R220 to R223) -/

/-- `FlashCmd(a, c)`: one command cycle, a half-word write of the replicated value (R220, R221). -/
def flashCmd (a : Word) (c : Byte) : Task := .memWrite a .half (rep c)

/-- `FlashRead(a)`: one half-word read (R220). -/
def flashRead (a : Word) : Task := .memRead a .half

/-- The half-word a FlashRead returned: the low 16 bits of its zero-extended value. -/
def State.flashValue (s : State) : Half := s.acc.extractLsb' 0 16

/-- The unlock pair and a command at the first unlock address (R225, R237, R240). -/
def unlockCmd (b : FlashBytes) (f : Family) (base : Word) (c : Byte) : List Task :=
  [flashCmd (unlock1 f base) b.unlock1, flashCmd (unlock2 f base) b.unlock2, flashCmd (unlock1 f base) c]

/-- Reset-to-read of a family: one write at the window base (R244). -/
def resetRead (b : FlashBytes) (amd : Bool) (base : Word) : Task :=
  flashCmd base (if amd then b.reset else b.readArray)

/-! ### Completion poll (R239) -/

/-- The head of FlashPoll's loop: CANCEL is consulted before each read; no bound (R239). -/
def State.flashPoll (a : Word) (cond : PollCond) (last : Word) (s : State) : State :=
  if s.drawCancel.1 then s.drawCancel.2.raise { code := .userCancelled, addr := a, data := last }
  else s.drawCancel.2.push [flashRead a, .flashPollTest a cond]

/-- The test of FlashPoll's loop (R239). -/
def State.flashPollTest (a : Word) (cond : PollCond) (s : State) : State :=
  if pollHolds s.flashParams s.acc cond then s else s.push [.flashPoll a cond s.acc]

/-! ### Probe (R224 to R232) -/

/-- `Enter(s, base)`: the unlock pair and autoselect with the attempt's own unlock addresses, or the direct
read-ID command at the window base (R225 to R227). -/
def probeEnter (b : FlashBytes) (base : Word) : Attempt → List Task
  | .amd => unlockCmd b .amd base b.autoselect
  | .sst => unlockCmd b .sst base b.autoselect
  | .intel => [flashCmd base b.readId]

/-- The reset-to-read of an attempt (R231, R244). -/
def probeReset (b : FlashBytes) (base : Word) : Attempt → Task
  | .amd => resetRead b true base
  | .sst => resetRead b true base
  | .intel => resetRead b false base

/-- The probe's round loop (R224, R231): CHIP_NOT_DETECTED when no rounds are left. -/
def State.probeRound (rounds : Nat) (last : Word) (s : State) : State :=
  match rounds with
  | 0 => s.raise { code := .chipNotDetected, addr := s.flashParams.baseSmall, data := last }
  | n + 1 => s.push [.probeAttempt .amd n]

/-- One attempt: enter ID mode, read the vendor id at half-word 0 (R224 to R228). -/
def State.probeAttempt (k : Attempt) (rounds : Nat) (s : State) : State :=
  s.push (probeEnter s.flashParams.bytes s.flashParams.baseSmall k
    ++ [flashRead s.flashParams.baseSmall, .probeVendor k rounds])

/-- The vendor id has been read: read the device id at half-word 1 (R228). -/
def State.probeVendor (k : Attempt) (rounds : Nat) (s : State) : State :=
  s.push [flashRead (s.flashParams.baseSmall + 2), .probeDevice k rounds s.flashValue]

/-- The end of an attempt: reset-to-read, then the lookup (R224). -/
def State.probeClose (k : Attempt) (rounds : Nat) (v d : Half) (s : State) : State :=
  s.push [probeReset s.flashParams.bytes s.flashParams.baseSmall k, .probeLookup k rounds v d]

/-- The device id has been read. `Disambiguate` (R229): a vendor low byte 0x01 with the ambiguous code re-reads the
true id, still in ID mode. -/
def State.probeDevice (k : Attempt) (rounds : Nat) (v : Half) (s : State) : State :=
  if v.extractLsb' 0 8 = Config.amdVendorLowByte ∧ s.flashValue = s.flashParams.ambigDeviceId then
    s.push [flashRead (s.flashParams.baseSmall + s.flashParams.extIdOffset), .probeExtended k rounds v]
  else s.probeClose k rounds v s.flashValue

/-- The true device id has been read (R229). -/
def State.probeExtended (k : Attempt) (rounds : Nat) (v : Half) (s : State) : State :=
  s.probeClose k rounds v s.flashValue

/-- `Identify(e, v, d)` (R232): the capacity test, then the chip, its registers and its block map. -/
def State.identify (e : FlashDescriptor) (v d : Half) (s : State) : State :=
  let base := windowBase s.flashParams e.size
  if s.flashParams.maxBlocks < totalBlocks e.regions then
    s.raise { code := .blockmapOverflow, addr := base, data := BitVec.ofNat 32 (totalBlocks e.regions) }
  else
    { s with
      chip := some e
      flashId := idWord v d
      flashInfo := familyCode e.family
      flashSize := e.size
      flashBase := base
      blockMap := buildMap s.freeDraws e.regions base
      freeDraws := s.freeDraws + 1
      result := idWord v d }

/-- The lookup of an attempt (R224, R230): identify the chip, or go on to the next attempt or round. -/
def State.probeLookup (k : Attempt) (rounds : Nat) (v d : Half) (s : State) : State :=
  match lookupChip s.flashParams v d with
  | some e => s.identify e v d
  | none =>
    match k with
    | .amd => s.push [.probeAttempt .sst rounds]
    | .sst => s.push [.probeAttempt .intel rounds]
    | .intel => s.push [.probeRound rounds (idWord v d)]

/-! ### Geometry (R234, R235) -/

/-- `SelectNamed(code)` (R234): FLASH_BASE and BLOCK_MAP do not change. -/
def State.selectNamed (chip : FlashDescriptor) (code : BitVec 4) (s : State) : State :=
  match lookupArea s.flashParams chip.size code with
  | none =>
    s.raise { code := .chipSelectionInvalid, addr := chip.size, data := code.setWidth 32 }
  | some e => { s with areaStart := e.start, areaLen := e.length }

/-- `SelectCustom()` (R235): window = DATA, start = ADDR, length = LEN. -/
def State.selectCustom (chip : FlashDescriptor) (s : State) : State :=
  if s.flashParams.maxBlocks < totalBlocks chip.regions then
    s.raise { code := .blockmapOverflow, addr := s.data, data := BitVec.ofNat 32 (totalBlocks chip.regions) }
  else
    { s with
      flashBase := s.data
      areaStart := s.addr
      areaLen := s.len
      blockMap := buildMap s.freeDraws chip.regions s.data
      freeDraws := s.freeDraws + 1 }

/-- The error of a flash command with no chip identified (R245). -/
def noChipError : CmdError := { code := .chipNotDetected, addr := 0, data := 0 }

/-- FLASH_SELECT_AREA (R252): no JTAG traffic. -/
def State.selectArea (area : BitVec 4) (s : State) : State :=
  match s.chip with
  | none => s.raise noChipError
  | some c => if area = customArea then s.selectCustom c else s.selectNamed c area

/-! ### Erase (R237, R238, R243, R245) -/

/-- `EraseAmd(b)` (R237). -/
def eraseAmd (bytes : FlashBytes) (f : Family) (base b : Word) : List Task :=
  unlockCmd bytes f base bytes.eraseSetup
    ++ [flashCmd (unlock1 f base) bytes.unlock1, flashCmd (unlock2 f base) bytes.unlock2,
        flashCmd b bytes.sectorErase, .flashPoll b .allOnes 0]

/-- `EraseIntel(b)` (R238). -/
def eraseIntel (p : FlashParams) (b : Word) : List Task :=
  [flashCmd b p.bytes.unlockBlock, flashCmd b p.bytes.confirm, .wait p.eraseSettle,
   flashCmd b p.bytes.blockErase, flashCmd b p.bytes.confirm, .wait p.eraseSettle,
   .flashPoll b .ready 0]

/-- `EraseBlock(b)` (R245): the alignment check before any clock, then the family's sequence. -/
def State.eraseBlock (b : Word) (s : State) : State :=
  match s.chip with
  | none => s.raise noChipError
  | some c =>
    if misaligned b .half then s.raise (misalignedError b 0)
    else if amdStyle c.family then s.push (eraseAmd s.flashParams.bytes c.family s.flashBase b)
    else s.push (eraseIntel s.flashParams b)

/-- `EraseArea(s, n)` (R243): the selection, its count, no failure yet. -/
def State.eraseArea (start n : Word) (s : State) : State :=
  { s with
    result := BitVec.ofNat 32 (selectBlocks s.blockMap start n).length
    eraseFailed := 0 }.push [.eraseNext 0 (selectBlocks s.blockMap start n) none]

/-- The head of EraseArea's loop (R243): the next block with its progress report, or the end, with the last block
error if there was one. -/
def State.eraseNext (i : Nat) (rest : List Word) (fail : Option CmdError) (s : State) : State :=
  match rest with
  | b :: bs =>
    { s.emit (.progress i b) with progress := b }.push [.eraseBlock b, .eraseNext (i + 1) bs fail]
  | [] =>
    match fail with
    | some e => s.raise e
    | none => s

/-! ### Program (R240, R241, R245) -/

/-- One half of `WriteAmd(a, v)` (R240): unlock pair, program-setup, the data write, the read-back poll. SST uses
the same poll (90_conflicts.md C7). -/
def writeAmdHalf (bytes : FlashBytes) (f : Family) (base a v : Word) (k : Nat) : List Task :=
  unlockCmd bytes f base bytes.program
    ++ [.memWrite (a + BitVec.ofNat 32 (2 * k)) .half v,
        .flashPoll (a + BitVec.ofNat 32 (2 * k)) (.equals (programHalf v k)) 0]

/-- One half of `WriteIntel(a, v)` (R241). -/
def writeIntelHalf (p : FlashParams) (a v : Word) (k : Nat) : List Task :=
  [flashCmd (a + BitVec.ofNat 32 (2 * k)) p.bytes.write, .memWrite (a + BitVec.ofNat 32 (2 * k)) .half v,
   .wait p.writeDelay, .flashPoll (a + BitVec.ofNat 32 (2 * k)) .ready 0]

/-- `WriteFlash(a, v)` (R245): word-aligned, then the low half and the high half in the family's way. -/
def State.writeFlash (a v : Word) (s : State) : State :=
  match s.chip with
  | none => s.raise noChipError
  | some c =>
    if misaligned a .word then s.raise (misalignedError a v)
    else if amdStyle c.family then
      s.push (writeAmdHalf s.flashParams.bytes c.family s.flashBase a v 0
        ++ writeAmdHalf s.flashParams.bytes c.family s.flashBase a v 1)
    else s.push (writeIntelHalf s.flashParams a v 0 ++ writeIntelHalf s.flashParams a v 1)

end Sys2Proof.Machine
end

