-- ==== Sys2Proof/Machine/Sequencer.lean ====
section
/-! DEFINITION. The sequencer: the tasks of INIT and SHUTDOWN, one task of a running command, a run of tasks, and
the shared shell of every command (30_encoding.md R94, 60_exceptions.md R273, R274). -/

namespace Sys2Proof.Machine

/-! ### Session tasks (41_session.md R160 to R162) -/

/-- `SelectMode(f)` (R161): a force flag, else the DMA-unsupported bit of the feature register. -/
def State.selectMode (f : Word) (s : State) : Mode :=
  if s.forceDma then .dma
  else if s.forcePracc then .pracc
  else if f.getLsbD s.ejtag.impcodeNoDmaBit then .pracc
  else .dma

/-- The session reset of INIT (R160, 70_reset_and_hazards.md R301). -/
def State.sessionReset (s : State) : State :=
  { s with
    linkOpen := false
    mode := .none
    irCache := 0
    irCacheValid := false
    possibleCorruption := false
    stubAnomaly := false
    mboxAddr := 0
    mboxData := 0
    chip := none
    flashId := 0
    flashInfo := 0
    flashSize := 0
    flashBase := 0
    areaStart := 0
    areaLen := 0
    blockMap := []
    progress := 0
    eraseFailed := 0 }

/-- The end of INIT (R160): the feature register in RESULT, the mode, the session open. -/
def State.initEnd (s : State) : State :=
  { s with result := s.acc, mode := s.selectMode s.acc, linkOpen := true }

/-- The end of SHUTDOWN (R162): everything else stays readable. -/
def State.shutdownEnd (s : State) : State :=
  { s with linkOpen := false, mode := .none, irCacheValid := false }

/-- RESULT <- the value read. -/
def State.setResult (s : State) : State := { s with result := s.acc }

/-! ### Running -/

/-- Carry out one task, already taken off the stack. -/
def runTask : Task → State → State
  | .rawClock tms tdi sample, s => s.rawClock tms tdi sample
  | .resetTap, s => s.resetTap
  | .setIr ir, s => s.setInstruction ir
  | .shiftDr v, s => s.shiftData32 v
  | .setResult, s => s.setResult
  | .initEnd, s => s.initEnd
  | .shutdownEnd, s => s.shutdownEnd
  | .checkAlign addr w v, s => s.checkAlign addr w v
  | .memRead addr w, s => s.memRead addr w
  | .memWrite addr w v, s => s.memWrite addr w v
  | .dmaRead addr w, s => s.dmaRead addr w
  | .dmaReadAttempt addr w, s => s.dmaReadAttempt addr w
  | .dmaReadClear addr w, s => s.dmaReadClear addr w
  | .dmaReadCheck addr w raw, s => s.dmaReadCheck addr w raw
  | .fastReadClear addr w, s => s.fastReadClear addr w
  | .fastReadEnd addr w raw, s => s.fastReadEnd addr w raw
  | .dmaWrite addr w v, s => s.dmaWrite addr w v
  | .dmaWriteAttempt addr w v, s => s.dmaWriteAttempt addr w v
  | .dmaWriteCheck addr w v, s => s.dmaWriteCheck addr w v
  | .fastWriteEnd, s => s.fastCheck
  | .pollStart addr last, s => s.pollStart addr last
  | .pollTest addr, s => s.pollTest addr
  | .praccRead addr w, s => s.praccRead addr w
  | .praccReadEnd w, s => s.praccReadEnd w
  | .praccWrite addr w v, s => s.praccWrite addr w v
  | .runModule m, s => s.runModule m
  | .moduleLoop m, s => s.moduleLoop m
  | .praccPoll m, s => s.praccPoll m
  | .praccPollTest m, s => s.praccPollTest m
  | .praccServe m isWrite, s => s.praccServe m isWrite
  | .praccStore m a, s => s.praccStore m a
  | .praccCommit m a d, s => s.praccCommit m a d
  | .wait length, s => s.waitFor length
  | .flashPoll a cond last, s => s.flashPoll a cond last
  | .flashPollTest a cond, s => s.flashPollTest a cond
  | .probeRound rounds last, s => s.probeRound rounds last
  | .probeAttempt k rounds, s => s.probeAttempt k rounds
  | .probeVendor k rounds, s => s.probeVendor k rounds
  | .probeDevice k rounds v, s => s.probeDevice k rounds v
  | .probeExtended k rounds v, s => s.probeExtended k rounds v
  | .probeLookup k rounds v d, s => s.probeLookup k rounds v d
  | .selectArea area, s => s.selectArea area
  | .eraseArea start n, s => s.eraseArea start n
  | .eraseBlock b, s => s.eraseBlock b
  | .eraseNext i rest fail, s => s.eraseNext i rest fail
  | .writeFlash a v, s => s.writeFlash a v

/-- One task of the running command, or its end when no task is left (30_encoding.md R94). -/
def tick (s : State) : State :=
  match s.cont with
  | [] => s.finish
  | t :: k => runTask t { s with cont := k }

/-- Run the command for at most `n` tasks; a block that is idle stays as it is. A command whose polls never succeed
is BUSY after any number of tasks (60_exceptions.md R288). -/
def drive : Nat → State → State
  | 0, s => s
  | n + 1, s => if s.busy then drive n (tick s) else s

/-! ### The shell of a command -/

/-- What one step answers. -/
abbrev Answer := Host.Outcome State Fault Refusal

/-- Start the command's tasks and run it for one pace (log entry 6). -/
def State.launch (ts : List Task) (s : State) : Answer := .next (drive s.pace { s with cont := ts })

/-- A command word written while idle is accepted, and its command runs; while BUSY it is dropped with OVERRUN
(30_encoding.md R94, 10_state.md R24). -/
def command (w : Word) (body : State → Answer) (s : State) : Answer :=
  if s.busy then .next { s with overrun := true } else body (s.accept w)

/-- NOT_OPEN, with the command word (60_exceptions.md R271, R273). -/
def notOpenError (s : State) : CmdError := { code := .notOpen, addr := 0, data := s.cmd }

/-- Every command except INIT needs LINK_OPEN = 1 (60_exceptions.md R273). -/
def whenOpen (body : State → Answer) (s : State) : Answer :=
  if s.linkOpen then body s else .next (s.raise (notOpenError s))

/-- A command that reaches the target by the session's mode. MODE = NONE cannot occur in an open session
(42_transaction.md R170; log entry 13). -/
def whenModed (body : State → Answer) (s : State) : Answer :=
  if s.mode = .none then .fault .accessWithoutMode else body s

/-- A flash command other than FLASH_PROBE needs a chip; this check comes first (43_flash.md R245,
60_exceptions.md R274). -/
def whenChip (body : FlashDescriptor → State → Answer) (s : State) : Answer :=
  match s.chip with
  | none => .next (s.raise noChipError)
  | some c => body c s

/-- A word that is not Legal: INVALID_COMMAND and no JTAG traffic (30_encoding.md R94, R95). -/
def illegalCommand (w : Word) (s : State) : Answer := command w (fun s => .next s.endInvalid) s

end Sys2Proof.Machine
end

