-- ==== Sys2Proof/Machine/Access.lean ====
section
/-! DEFINITION. The twelve access commands (42_transaction.md R200 to R211). The value a read returns is already
zero-extended. -/

namespace Sys2Proof.Machine

/-- READ_WORD (R200): `RESULT <- MemRead(ADDR, 4)`. -/
def execReadWord (s : State) : Answer :=
  command (encode .readWord) (whenOpen (whenModed fun s => s.launch [.memRead s.addr .word, .setResult])) s

/-- READ_HALF (R201): `RESULT <- zext_32(MemRead(ADDR, 2))`. -/
def execReadHalf (s : State) : Answer :=
  command (encode .readHalf) (whenOpen (whenModed fun s => s.launch [.memRead s.addr .half, .setResult])) s

/-- WRITE_WORD (R202): `MemWrite(ADDR, 4, DATA)`. -/
def execWriteWord (s : State) : Answer :=
  command (encode .writeWord) (whenOpen (whenModed fun s => s.launch [.memWrite s.addr .word s.data])) s

/-- WRITE_HALF (R203): `MemWrite(ADDR, 2, DATA)`. -/
def execWriteHalf (s : State) : Answer :=
  command (encode .writeHalf) (whenOpen (whenModed fun s => s.launch [.memWrite s.addr .half s.data])) s

/-- DMA_READ_WORD (R204): by DMA Access whatever the session's mode. -/
def execDmaReadWord (s : State) : Answer :=
  command (encode .dmaReadWord)
    (whenOpen fun s => s.launch [.checkAlign s.addr .word 0, .dmaRead s.addr .word, .setResult]) s

/-- DMA_READ_HALF (R205). -/
def execDmaReadHalf (s : State) : Answer :=
  command (encode .dmaReadHalf)
    (whenOpen fun s => s.launch [.checkAlign s.addr .half 0, .dmaRead s.addr .half, .setResult]) s

/-- DMA_WRITE_WORD (R206). -/
def execDmaWriteWord (s : State) : Answer :=
  command (encode .dmaWriteWord)
    (whenOpen fun s => s.launch [.checkAlign s.addr .word s.data, .dmaWrite s.addr .word s.data]) s

/-- DMA_WRITE_HALF (R207). -/
def execDmaWriteHalf (s : State) : Answer :=
  command (encode .dmaWriteHalf)
    (whenOpen fun s => s.launch [.checkAlign s.addr .half s.data, .dmaWrite s.addr .half s.data]) s

/-- PRACC_READ_WORD (R208): by the read-word micro-program whatever the session's mode. -/
def execPraccReadWord (s : State) : Answer :=
  command (encode .praccReadWord)
    (whenOpen fun s => s.launch [.checkAlign s.addr .word 0, .praccRead s.addr .word, .setResult]) s

/-- PRACC_READ_HALF (R209). -/
def execPraccReadHalf (s : State) : Answer :=
  command (encode .praccReadHalf)
    (whenOpen fun s => s.launch [.checkAlign s.addr .half 0, .praccRead s.addr .half, .setResult]) s

/-- PRACC_WRITE_WORD (R210). -/
def execPraccWriteWord (s : State) : Answer :=
  command (encode .praccWriteWord)
    (whenOpen fun s => s.launch [.checkAlign s.addr .word s.data, .praccWrite s.addr .word s.data]) s

/-- PRACC_WRITE_HALF (R211). -/
def execPraccWriteHalf (s : State) : Answer :=
  command (encode .praccWriteHalf)
    (whenOpen fun s => s.launch [.checkAlign s.addr .half s.data, .praccWrite s.addr .half s.data]) s

end Sys2Proof.Machine
end

