-- ==== Sys2Proof/Machine/Flash.lean ====
section
/-! DEFINITION. The six flash commands (43_flash.md R250 to R255). -/

namespace Sys2Proof.Machine

/-- The fields FLASH_PROBE clears before it probes (R250). -/
def State.forgetChip (s : State) : State :=
  { s with
    chip := none
    flashId := 0
    flashInfo := 0
    flashSize := 0
    flashBase := 0
    blockMap := []
    result := 0 }

/-- FLASH_PROBE (R250): start from no chip, then `Probe()` (R224). A FLASH_TABLE with an ill-formed entry is refused
(30_encoding.md R116; log entry 12). -/
def execFlashProbe (s : State) : Answer :=
  command (encode .flashProbe)
    (whenOpen (whenModed fun s =>
      if s.params.tableWf then s.forgetChip.launch [.probeRound s.flashParams.probeRounds 0]
      else .refused .flashTableIllFormed)) s

/-- FLASH_RESET_READ (R251): `ResetRead(CHIP.family, FLASH_BASE)` (R244). -/
def execFlashResetRead (s : State) : Answer :=
  command (encode .flashResetRead)
    (whenOpen (whenModed (whenChip fun c s =>
      s.launch [resetRead s.flashParams.bytes (amdStyle c.family) s.flashBase]))) s

/-- FLASH_SELECT_AREA (R252): geometry only, no JTAG traffic. An area code above 4 makes the word illegal (R95,
R97). -/
def execFlashSelectArea (area : BitVec 4) (s : State) : Answer :=
  if area ≤ customArea then
    command (encode (.flashSelectArea area))
      (whenOpen (whenChip fun _ s => s.launch [.selectArea area])) s
  else illegalCommand (encode (.flashSelectArea area)) s

/-- FLASH_ERASE_BLOCK (R253): `PROGRESS <- ADDR; EraseBlock(ADDR)`. -/
def execFlashEraseBlock (s : State) : Answer :=
  command (encode .flashEraseBlock)
    (whenOpen (whenModed (whenChip fun _ s =>
      { s with progress := s.addr }.launch [.eraseBlock s.addr]))) s

/-- FLASH_ERASE_AREA (R254): `EraseArea(ADDR, LEN)` (R242, R243). -/
def execFlashEraseArea (s : State) : Answer :=
  command (encode .flashEraseArea)
    (whenOpen (whenModed (whenChip fun _ s => s.launch [.eraseArea s.addr s.len]))) s

/-- FLASH_WRITE_WORD (R255): `WriteFlash(ADDR, DATA)` (R245). -/
def execFlashWriteWord (s : State) : Answer :=
  command (encode .flashWriteWord)
    (whenOpen (whenModed (whenChip fun _ s => s.launch [.writeFlash s.addr s.data]))) s

end Sys2Proof.Machine
end

