-- ==== Sys2Proof/Machine/RawTap.lean ====
section
/-! DEFINITION. The raw TAP commands (40_tap.md R142 to R145). -/

namespace Sys2Proof.Machine

/-- CLOCK (R142): allowed in any tracked TAP state. -/
def execClock (tms tdi sample : Bool) (s : State) : Answer :=
  command (encode (.clock tms tdi sample)) (whenOpen (State.launch [.rawClock tms tdi sample])) s

/-- RESET_TAP (R143): works from any tracked TAP state. -/
def execResetTap (s : State) : Answer := command (encode .resetTap) (whenOpen (State.launch [.resetTap])) s

/-- SET_IR (R144): the instruction is DATA. -/
def execSetIr (s : State) : Answer :=
  command (encode .setIr) (whenOpen fun s => s.launch [.setIr s.data]) s

/-- SHIFT_DR32 (R145): `RESULT <- ShiftData32(DATA)`. -/
def execShiftDr32 (s : State) : Answer :=
  command (encode .shiftDr32) (whenOpen fun s => s.launch [.shiftDr s.data, .setResult]) s

end Sys2Proof.Machine
end

