-- ==== Sys2Proof/Machine/Session.lean ====
section
/-! DEFINITION. The session commands (41_session.md R160 to R164). -/

namespace Sys2Proof.Machine

/-- INIT (R160): the two configuration checks, in their order, before any state change; then the session reset, the
bring-up traffic and the mode. It is allowed with LINK_OPEN = 0, and an open session is replaced (R163). -/
def execInit (s : State) : Answer :=
  command (encode .init)
    (fun s =>
      if s.forceDma && s.forcePracc then .next (s.raise s.badConfig)
      else if !s.irLengthLegal then .next (s.raise s.badConfig)
      else s.sessionReset.launch [.resetTap, .setIr s.ejtag.irImpcode, .shiftDr 0, .initEnd]) s

/-- SHUTDOWN (R162): ResetTap needs no precondition. -/
def execShutdown (s : State) : Answer :=
  command (encode .shutdown) (whenOpen (State.launch [.resetTap, .shutdownEnd])) s

end Sys2Proof.Machine
end

