-- ==== Sys2Proof/Machine/Dispatch.lean ====
section
/-! DEFINITION. One arm per command: its meaning (30_encoding.md R93). -/

namespace Sys2Proof.Machine

/-- The write of this command's word to CMD (30_encoding.md R94). -/
def exec (i : Instr) (s : State) : Host.Outcome State Fault Refusal :=
  match i with
  | .clock tms tdi sample => Sys2Proof.Machine.execClock tms tdi sample s
  | .resetTap => Sys2Proof.Machine.execResetTap s
  | .setIr => Sys2Proof.Machine.execSetIr s
  | .shiftDr32 => Sys2Proof.Machine.execShiftDr32 s
  | .init => Sys2Proof.Machine.execInit s
  | .shutdown => Sys2Proof.Machine.execShutdown s
  | .readWord => Sys2Proof.Machine.execReadWord s
  | .readHalf => Sys2Proof.Machine.execReadHalf s
  | .writeWord => Sys2Proof.Machine.execWriteWord s
  | .writeHalf => Sys2Proof.Machine.execWriteHalf s
  | .dmaReadWord => Sys2Proof.Machine.execDmaReadWord s
  | .dmaReadHalf => Sys2Proof.Machine.execDmaReadHalf s
  | .dmaWriteWord => Sys2Proof.Machine.execDmaWriteWord s
  | .dmaWriteHalf => Sys2Proof.Machine.execDmaWriteHalf s
  | .praccReadWord => Sys2Proof.Machine.execPraccReadWord s
  | .praccReadHalf => Sys2Proof.Machine.execPraccReadHalf s
  | .praccWriteWord => Sys2Proof.Machine.execPraccWriteWord s
  | .praccWriteHalf => Sys2Proof.Machine.execPraccWriteHalf s
  | .flashProbe => Sys2Proof.Machine.execFlashProbe s
  | .flashResetRead => Sys2Proof.Machine.execFlashResetRead s
  | .flashSelectArea area => Sys2Proof.Machine.execFlashSelectArea area s
  | .flashEraseBlock => Sys2Proof.Machine.execFlashEraseBlock s
  | .flashEraseArea => Sys2Proof.Machine.execFlashEraseArea s
  | .flashWriteWord => Sys2Proof.Machine.execFlashWriteWord s

end Sys2Proof.Machine
end

