-- ==== Sys2Proof/Machine/HostPort.lean ====
section
/-! DEFINITION. The host side: the register map, reads and writes (30_encoding.md R90, R91, R94), power-on reset
(70_reset_and_hazards.md R300), and one action of the host. -/

namespace Sys2Proof.Machine

/-- The registers of the host map (30_encoding.md R90). -/
inductive Reg where
  | config
  | tckDelay
  | cmd
  | addr
  | data
  | len
  | status
  | result
  | errAddr
  | errData
  | flashId
  | flashInfo
  | flashSize
  | flashBase
  | areaStart
  | areaLen
  | blockCount
  | blockSel
  | blockAddr
  | progress
  | eraseFailed
  | clockCount
  | tapStates
  | irCache
  | mboxAddr
  | mboxData
deriving DecidableEq, Repr

/-- All of them, in the order of their offsets. -/
def allRegs : List Reg :=
  [.config, .tckDelay, .cmd, .addr, .data, .len, .status, .result, .errAddr, .errData, .flashId, .flashInfo,
   .flashSize, .flashBase, .areaStart, .areaLen, .blockCount, .blockSel, .blockAddr, .progress, .eraseFailed,
   .clockCount, .tapStates, .irCache, .mboxAddr, .mboxData]

/-- The offset of a register (R90). -/
def regOffset : Reg → Word
  | .config => 0x00
  | .tckDelay => 0x04
  | .cmd => 0x08
  | .addr => 0x0C
  | .data => 0x10
  | .len => 0x14
  | .status => 0x18
  | .result => 0x1C
  | .errAddr => 0x20
  | .errData => 0x24
  | .flashId => 0x28
  | .flashInfo => 0x2C
  | .flashSize => 0x30
  | .flashBase => 0x34
  | .areaStart => 0x38
  | .areaLen => 0x3C
  | .blockCount => 0x40
  | .blockSel => 0x44
  | .blockAddr => 0x48
  | .progress => 0x4C
  | .eraseFailed => 0x50
  | .clockCount => 0x54
  | .tapStates => 0x58
  | .irCache => 0x5C
  | .mboxAddr => 0x60
  | .mboxData => 0x64

/-- The register at an offset, if there is one (R91). -/
def regAt (offset : Word) : Option Reg := allRegs.find? fun r => regOffset r == offset

/-- BLOCK_COUNT (10_state.md R35). -/
def State.blockCount (s : State) : Word := BitVec.ofNat 32 s.blockMap.length

/-- BLOCK_ADDR: `BLOCK_MAP[BLOCK_SEL]` when `BLOCK_SEL < BLOCK_COUNT`, else 0 (10_state.md R35). -/
def State.blockAddr (s : State) : Word := s.blockMap[s.blockSel.toNat]?.getD 0

/-- What the host reads of a register. -/
def State.readReg (s : State) : Reg → Word
  | .config => s.configWord
  | .tckDelay => s.tckDelay
  | .cmd => s.cmd
  | .addr => s.addr
  | .data => s.data
  | .len => s.len
  | .status => s.statusWord
  | .result => s.result
  | .errAddr => s.errAddr
  | .errData => s.errData
  | .flashId => s.flashId
  | .flashInfo => s.flashInfo
  | .flashSize => s.flashSize
  | .flashBase => s.flashBase
  | .areaStart => s.areaStart
  | .areaLen => s.areaLen
  | .blockCount => s.blockCount
  | .blockSel => s.blockSel
  | .blockAddr => s.blockAddr
  | .progress => s.progress
  | .eraseFailed => s.eraseFailed
  | .clockCount => s.io.clockCount
  | .tapStates => s.io.tapStates.setWidth 32
  | .irCache => s.irCache
  | .mboxAddr => s.mboxAddr
  | .mboxData => s.mboxData

/-- The word at an offset: 0 where there is no register (R91). -/
def State.readOffset (s : State) (offset : Word) : Word :=
  match regAt offset with
  | some r => s.readReg r
  | none => 0

/-- A host read: no side effect on the block, allowed while BUSY (R91). Only the host's own word changes (log
entry 9). -/
def State.hostRead (offset : Word) (s : State) : State := { s with hostRdata := s.readOffset offset }

/-- A write to an operand or configuration register: dropped with OVERRUN while BUSY (10_state.md R24). -/
def State.whenIdle (write : State → State) (s : State) : State :=
  if s.busy then { s with overrun := true } else write s

/-- A host write to a register other than CMD (R91). CONFIG keeps its reserved bits 0 and clears the IR cache
(10_state.md R22, R37); a write to a read-only register is ignored. -/
def State.writeReg (r : Reg) (v : Word) (s : State) : State :=
  match r with
  | .config => s.whenIdle fun s => { s with config := v &&& configMask, irCacheValid := false }
  | .tckDelay => s.whenIdle fun s => { s with tckDelay := v }
  | .addr => s.whenIdle fun s => { s with addr := v }
  | .data => s.whenIdle fun s => { s with data := v }
  | .len => s.whenIdle fun s => { s with len := v }
  | .blockSel => s.whenIdle fun s => { s with blockSel := v }
  | .status => s.writeStatus v
  | .cmd => s
  | .result => s
  | .errAddr => s
  | .errData => s
  | .flashId => s
  | .flashInfo => s
  | .flashSize => s
  | .flashBase => s
  | .areaStart => s
  | .areaLen => s
  | .blockCount => s
  | .blockAddr => s
  | .progress => s
  | .eraseFailed => s
  | .clockCount => s
  | .tapStates => s
  | .irCache => s
  | .mboxAddr => s
  | .mboxData => s

/-- A host write to CMD: the command the word encodes, or INVALID_COMMAND (R94, R95). -/
def commandWrite (w : Word) (s : State) : Answer :=
  match decode w with
  | .ok i => exec i s
  | .error _ => illegalCommand w s

/-- A host write at an offset: ignored where there is no register (R91). -/
def hostWrite (offset v : Word) (s : State) : Answer :=
  match regAt offset with
  | some .cmd => commandWrite v s
  | some r => .next (s.writeReg r v)
  | none => .next s

/-- Power-on reset (70_reset_and_hazards.md R300): every piece of the block's state at its reset value. The
parameters, the environment's inputs, the host's actions and the trace are no state of the block (log entry 22). -/
def State.powerOn (s : State) : State :=
  { State.reset with
    params := s.params
    io := { Io.reset with
      statusIn := s.io.statusIn, statusDraws := s.io.statusDraws, trace := s.io.trace }
    cancelIn := s.cancelIn
    cancelDraws := s.cancelDraws
    freeDraws := s.freeDraws
    hostQueue := s.hostQueue
    hostRdata := s.hostRdata
    pace := s.pace }

/-- With no action of the host to serve, a running command goes on for one pace; an idle block waits. -/
def State.resume (s : State) : State := drive s.pace s

/-- One step (log entries 5 and 6): serve the host's next action if there is one, else go on with the running
command. `WAIT` stands until BUSY = 0 (30_encoding.md R99), and the command goes on meanwhile. -/
def hostStep (s : State) : Answer :=
  match s.hostQueue with
  | [] => .next s.resume
  | .wait :: q => .next (if s.busy then s.resume else { s with hostQueue := q })
  | .write offset v :: q => hostWrite offset v { s with hostQueue := q }
  | .read offset :: q => .next (State.hostRead offset { s with hostQueue := q })
  | .powerOn :: q => .next (State.powerOn { s with hostQueue := q })

/-! ### Programs (30_encoding.md R99, R100) -/

/-- `REG = value`. -/
def setReg (r : Reg) (v : Word) : HostAction := .write (regOffset r) v

/-- `CMD mnemonic [args]`: write CMD with the word of the command. -/
def cmdAction (i : Instr) : HostAction := setReg .cmd (encode i)

/-- The pseudo-instructions (R100). -/
inductive Pseudo where
  | clockPulse (tms tdi : Bool)
  | resetTap
  | setInstruction (ir : Word)
  | shiftData32 (v : Word)
  | readWord (a : Word)
  | readHalf (a : Word)
  | writeWord (a v : Word)
  | writeHalf (a v : Word)
  | probeFlash
  | selectArea (area : BitVec 4)
  | selectCustom (w s n : Word)
  | eraseArea (s n : Word)
  | writeFlashWord (a v : Word)
  | shutdown
deriving DecidableEq, Repr

/-- Their expansions (R100). -/
def expandPseudo : Pseudo → List HostAction
  | .clockPulse tms tdi => [cmdAction (.clock tms tdi true), .wait]
  | .resetTap => [cmdAction .resetTap, .wait]
  | .setInstruction ir => [setReg .data ir, cmdAction .setIr, .wait]
  | .shiftData32 v => [setReg .data v, cmdAction .shiftDr32, .wait]
  | .readWord a => [setReg .addr a, cmdAction .readWord, .wait]
  | .readHalf a => [setReg .addr a, cmdAction .readHalf, .wait]
  | .writeWord a v => [setReg .addr a, setReg .data v, cmdAction .writeWord, .wait]
  | .writeHalf a v => [setReg .addr a, setReg .data v, cmdAction .writeHalf, .wait]
  | .probeFlash => [cmdAction .flashProbe, .wait]
  | .selectArea area => [cmdAction (.flashSelectArea area), .wait]
  | .selectCustom w s n =>
    [setReg .data w, setReg .addr s, setReg .len n, cmdAction (.flashSelectArea customArea), .wait]
  | .eraseArea s n => [setReg .addr s, setReg .len n, cmdAction .flashEraseArea, .wait]
  | .writeFlashWord a v => [setReg .addr a, setReg .data v, cmdAction .flashWriteWord, .wait]
  | .shutdown => [cmdAction .shutdown, .wait]

end Sys2Proof.Machine
end

