-- ==== Sys2Proof/Machine/Step.lean ====
section
/-! DEFINITION. One step of the machine, and how the host's checks place a command. -/

namespace Sys2Proof.Machine

/-- One step: the host's next action, or one pace of the running command. -/
def step (s : State) : Host.Outcome State Fault Refusal := hostStep s

/-- `s`, idle, with the write of this command word as the host's next action. The block fetches no instructions
(20_memory.md R77): a command comes to it as a host write to CMD (log entry 7). -/
def State.withFetchWord (s : State) (nbits w : Nat) : State :=
  { s with
    busy := false
    cont := []
    hostQueue := .write (regOffset .cmd) (BitVec.ofNat 32 (w % 2 ^ nbits)) :: s.hostQueue }

end Sys2Proof.Machine
end

