-- ==== Sys2Proof/Machine/Memory.lean ====
section
/-! DEFINITION. Byte memory of the reference target (20_memory.md R60): a list of (address, byte) pairs in one
canonical form, addresses strictly rising and no entry equal to what an unlisted address reads as. The block itself
has no memory; this is the environment's (log entry 20). -/

namespace Sys2Proof.Machine

/-- The canonical form, for the byte an unlisted address reads as. -/
def memoryWf (unlisted : Byte) (m : List Host.Cell) : Bool :=
  decide (m.Pairwise fun a b => a.1 < b.1) && m.all fun c => c.2 != unlisted

/-- The byte at an address. -/
def memoryRead (unlisted : Byte) (m : List Host.Cell) (a : Nat) : Byte :=
  match m with
  | [] => unlisted
  | (x, b) :: rest => if x = a then b else memoryRead unlisted rest a

/-- The memory with one byte written; writing what an unlisted address reads as removes the entry. -/
def memoryWrite (unlisted : Byte) (m : List Host.Cell) (a : Nat) (v : Byte) : List Host.Cell :=
  match m with
  | [] => if v = unlisted then [] else [(a, v)]
  | (x, b) :: rest =>
    if a < x then if v = unlisted then (x, b) :: rest else (a, v) :: (x, b) :: rest
    else if a = x then if v = unlisted then rest else (a, v) :: rest
    else (x, b) :: memoryWrite unlisted rest a v

/-- A half-word. DESIGN CHOICE (log entry 29): its byte at the lower address is the less significant one. R65 and R67
order the half-words of a word, and say nothing of the bytes of a half-word. -/
def memoryReadHalf (unlisted : Byte) (m : List Host.Cell) (a : Word) : Half :=
  memoryRead unlisted m (a + 1).toNat ++ memoryRead unlisted m a.toNat

/-- The memory with one half-word written. -/
def memoryWriteHalf (unlisted : Byte) (m : List Host.Cell) (a : Word) (v : Half) : List Host.Cell :=
  memoryWrite unlisted (memoryWrite unlisted m a.toNat (v.extractLsb' 0 8)) (a + 1).toNat (v.extractLsb' 8 8)

/-- Every byte of a range set to what an unlisted address reads as: its entries are dropped. -/
def memoryClear (m : List Host.Cell) (lo hi : Nat) : List Host.Cell :=
  m.filter fun c => decide (c.1 < lo) || decide (hi ≤ c.1)

end Sys2Proof.Machine
end

