-- ==== Sys2Proof/Machine/Target.lean ====
section
/-! DEFINITION. A reference target: an environment the block's sequences have their described effects on
(20_memory.md R80 to R84). No step of the machine uses it: the block takes every TDO bit as a free input, and this
target is one source of such inputs among all others (log entry 20). The contract comes from general knowledge
where the spec says so. What the rules leave open of it and this target settles, log entry 29 lists; what is read from
several of them together, log entry 30. -/

namespace Sys2Proof.Machine

/-! ### Flash chip (R82, R83) -/

/-- Where the chip is in a command sequence. -/
inductive FlashMode where
  /-- array reads -/
  | readArray
  /-- identifiers: vendor at half-word 0, device at half-word 1 -/
  | readId
  /-- AMD/SST: the first unlock cycle has come; `erase` when the erase-setup byte came before -/
  | unlocked1 (erase : Bool)
  /-- AMD/SST: the unlock pair has come -/
  | unlocked2 (erase : Bool)
  /-- AMD/SST: erase-setup has come -/
  | eraseSetup
  /-- AMD/SST: program-setup has come; BSC/SCS: the write command has come -/
  | programSetup
  /-- AMD/SST: an embedded operation, done after this many more reads; the half-word its completion is polled for:
  0xFFFF for an erase, the programmed half for a program -/
  | embedded (reads : Nat) (polledFor : Half)
  /-- BSC/SCS: the unlock-block command has come -/
  | unlockSetup
  /-- BSC/SCS: the block-erase command has come -/
  | intelEraseSetup
  /-- BSC/SCS: reads give the status register, ready after this many more reads -/
  | status (reads : Nat)
deriving DecidableEq, Repr

/-- A flash chip mapped at a window base. An unlisted cell reads 0xFF, an erased one. -/
structure FlashChip where
  descriptor : FlashDescriptor
  base : Word
  mode : FlashMode
  cells : List Host.Cell
  /-- the starts of the blocks that are locked (BSC/SCS) -/
  locked : List Nat
  /-- reads an embedded operation stays busy for -/
  latency : Nat
deriving DecidableEq, Repr

/-- The erased byte. -/
def erasedByte : Byte := 0xFF

/-- The extent of the block that holds an address: the first block start at or below it that no later one is. -/
def blockExtent : List Region → Nat → Nat → Option (Nat × Nat)
  | [], _, _ => none
  | r :: rs, start, a =>
    let stop := start + r.count.toNat * r.blockSize.toNat
    if start ≤ a ∧ a < stop then
      let lo := start + (a - start) / r.blockSize.toNat * r.blockSize.toNat
      some (lo, lo + r.blockSize.toNat)
    else blockExtent rs stop a

/-- The block of the chip an address is in. -/
def FlashChip.blockAt (c : FlashChip) (a : Word) : Option (Nat × Nat) :=
  blockExtent c.descriptor.regions c.base.toNat a.toNat

/-- The block at an address is locked: R82 gives AMD and SST chips no locks. -/
def FlashChip.lockedAt (c : FlashChip) (a : Word) : Bool :=
  !amdStyle c.descriptor.family &&
    match c.blockAt a with
    | some (lo, _) => c.locked.contains lo
    | none => false

/-- The chip with the block at an address unlocked (R83). -/
def FlashChip.unlock (c : FlashChip) (a : Word) : FlashChip :=
  match c.blockAt a with
  | some (lo, _) => { c with locked := c.locked.filter (· != lo) }
  | none => c

/-- The chip with the block at an address erased. DESIGN CHOICE (log entry 29): a locked block keeps its cells, and
no rule says what a chip does with the erase of one. -/
def FlashChip.erase (c : FlashChip) (a : Word) : FlashChip :=
  if c.lockedAt a then c
  else
    match c.blockAt a with
    | some (lo, hi) => { c with cells := memoryClear c.cells lo hi }
    | none => c

/-- The chip with a half-word programmed: programming only clears bits (70_reset_and_hazards.md R312). DESIGN CHOICE
(log entry 29): a locked block keeps its cells. -/
def FlashChip.programHalf (c : FlashChip) (a : Word) (v : Half) : FlashChip :=
  if c.lockedAt a then c
  else { c with cells := memoryWriteHalf erasedByte c.cells a (memoryReadHalf erasedByte c.cells a &&& v) }

/-- A half-word read, and what it does to the chip (R82, R83).
DESIGN CHOICES (log entry 29). A read in the middle of a command sequence (`unlocked1`, `unlocked2`, `eraseSetup`,
`programSetup`, `unlockSetup`, `intelEraseSetup`) returns any value by R71, R78 and R305: this chip gives the array.
In identifier mode every half-word but those at offsets 0 and 2, the one at EXT_ID_OFFSET among them, is 0. While an
embedded operation runs, every half-word of the chip, not the polled one alone, reads as the polled-for value with
bit 7 inverted, so that it is never that value (R82, R312). It runs for `latency` reads, a program over cells that are
not erased too (R82, R312: it may never complete); after them the chip is in read mode and takes commands, and the cell
holds what the program left, so that the block's poll for the programmed half never succeeds. A status that is ready has
STATUS_READY's bits and no other set (R83 gives bit 7 alone), one that is not ready is 0. -/
def FlashChip.readHalf (p : FlashParams) (c : FlashChip) (a : Word) : Half × FlashChip :=
  match c.mode with
  | .readId =>
    (if a = c.base then c.descriptor.vendor
      else if a = c.base + 2 then c.descriptor.device else 0, c)
  | .embedded 0 _ => (memoryReadHalf erasedByte c.cells a, { c with mode := .readArray })
  | .embedded (n + 1) v => (v ^^^ 0x0080, { c with mode := .embedded n v })
  | .status 0 => (p.bytes.statusReady, c)
  | .status (n + 1) => (0, { c with mode := .status n })
  | .readArray => (memoryReadHalf erasedByte c.cells a, c)
  | .unlocked1 _ => (memoryReadHalf erasedByte c.cells a, c)
  | .unlocked2 _ => (memoryReadHalf erasedByte c.cells a, c)
  | .eraseSetup => (memoryReadHalf erasedByte c.cells a, c)
  | .programSetup => (memoryReadHalf erasedByte c.cells a, c)
  | .unlockSetup => (memoryReadHalf erasedByte c.cells a, c)
  | .intelEraseSetup => (memoryReadHalf erasedByte c.cells a, c)

/-- One AMD/SST command cycle (R82). The reset command returns the chip to read mode in every state but
`programSetup`, where the value written is the data of the program. DESIGN CHOICES (log entry 29): the cells take
their new contents at the last cycle of the sequence; a cycle out of sequence returns the chip to read mode from the middle
of a sequence, and changes nothing in identifier mode; a cycle other than reset during an embedded operation is ignored;
a command value is compared in all sixteen bits. -/
def FlashChip.amdWrite (p : FlashParams) (c : FlashChip) (a : Word) (v : Half) : FlashChip :=
  let b := p.bytes
  let is (x : Byte) : Bool := v == x.setWidth 16
  let at1 : Bool := a == unlock1 c.descriptor.family c.base
  let at2 : Bool := a == unlock2 c.descriptor.family c.base
  match c.mode with
  | .programSetup => { c.programHalf a v with mode := .embedded c.latency v }
  | .unlocked1 erase => { c with mode := if at2 && is b.unlock2 then .unlocked2 erase else .readArray }
  | .unlocked2 false =>
    { c with
      mode :=
        if at1 && is b.autoselect then .readId
        else if at1 && is b.eraseSetup then .eraseSetup
        else if at1 && is b.program then .programSetup
        else .readArray }
  | .unlocked2 true =>
    if is b.sectorErase then { c.erase a with mode := .embedded c.latency 0xFFFF }
    else { c with mode := .readArray }
  | .eraseSetup => { c with mode := if at1 && is b.unlock1 then .unlocked1 true else .readArray }
  | .embedded _ _ => if is b.reset then { c with mode := .readArray } else c
  | .readArray => if at1 && is b.unlock1 then { c with mode := .unlocked1 false } else c
  | .readId =>
    if is b.reset then { c with mode := .readArray }
    else if at1 && is b.unlock1 then { c with mode := .unlocked1 false } else c
  | .unlockSetup => { c with mode := .readArray }
  | .intelEraseSetup => { c with mode := .readArray }
  | .status _ => { c with mode := .readArray }

/-- The values that return a BSC/SCS chip to read mode: read-array (R83), and the AMD/SST reset. DEDUCED (log entry 30):
the AMD attempt of a probe puts such a chip in identifier mode and closes with the AMD/SST reset, after which R78, R231
and R232 have the chip in read mode. -/
def readsArray (b : FlashBytes) (v : Half) : Bool :=
  v == b.readArray.setWidth 16 || v == b.reset.setWidth 16

/-- The second cycle of a two-cycle BSC/SCS command: the confirm value has the command's effect, read-array returns
the chip to read mode (R83). DESIGN CHOICE (log entry 29): any other value abandons the command, and the chip reads as
its status. -/
def FlashChip.confirmed (p : FlashParams) (c : FlashChip) (v : Half) (effect : FlashChip) : FlashChip :=
  if v == p.bytes.confirm.setWidth 16 then effect
  else if readsArray p.bytes v then { c with mode := .readArray }
  else { c with mode := .status 0 }

/-- One BSC/SCS command cycle (R83). DESIGN CHOICES (log entry 29): R83 has reads return the status after an erase or
program command, and says nothing of the unlock pair: after it this chip reads as its status too, and ready; the cells
take their new contents at the last cycle of the command; a value that is no command is ignored; a command is accepted
while the status is not ready, and ends that wait. -/
def FlashChip.intelWrite (p : FlashParams) (c : FlashChip) (a : Word) (v : Half) : FlashChip :=
  let b := p.bytes
  let is (x : Byte) : Bool := v == x.setWidth 16
  match c.mode with
  | .programSetup => { c.programHalf a v with mode := .status c.latency }
  | .unlockSetup => c.confirmed p v { c.unlock a with mode := .status 0 }
  | .intelEraseSetup => c.confirmed p v { c.erase a with mode := .status c.latency }
  | _ =>
    if readsArray b v then { c with mode := .readArray }
    else if is b.readId then { c with mode := .readId }
    else if is b.unlockBlock then { c with mode := .unlockSetup }
    else if is b.blockErase then { c with mode := .intelEraseSetup }
    else if is b.write then { c with mode := .programSetup }
    else c

/-- A half-word write to the chip: a command cycle, not a store (20_memory.md R71). -/
def FlashChip.writeHalf (p : FlashParams) (c : FlashChip) (a : Word) (v : Half) : FlashChip :=
  if amdStyle c.descriptor.family then c.amdWrite p a v else c.intelWrite p a v

/-! ### The target's bus -/

/-- RAM and at most one flash chip. An unlisted RAM byte reads 0. -/
structure Bus where
  ram : List Host.Cell
  flash : Option FlashChip
deriving DecidableEq, Repr

/-- The chip answers at an address of its window. -/
def FlashChip.covers (c : FlashChip) (a : Word) : Bool :=
  decide (c.base.toNat ≤ a.toNat) && decide (a.toNat < c.base.toNat + c.descriptor.size.toNat)

/-- A half-word read on the bus. -/
def Bus.readHalf (p : FlashParams) (b : Bus) (a : Word) : Half × Bus :=
  match b.flash with
  | some c =>
    if c.covers a then ((c.readHalf p a).1, { b with flash := some (c.readHalf p a).2 })
    else (memoryReadHalf 0 b.ram a, b)
  | none => (memoryReadHalf 0 b.ram a, b)

/-- A half-word write on the bus. -/
def Bus.writeHalf (p : FlashParams) (b : Bus) (a : Word) (v : Half) : Bus :=
  match b.flash with
  | some c =>
    if c.covers a then { b with flash := some (c.writeHalf p a v) }
    else { b with ram := memoryWriteHalf 0 b.ram a v }
  | none => { b with ram := memoryWriteHalf 0 b.ram a v }

/-- A read of a width: a word is two half-words, the lower address less significant (20_memory.md R67). A half-word
comes back in its lane of the 32-bit word (R64). DESIGN CHOICE (log entry 29): the other lane, which R64 and R81 leave
open, is 0. -/
def Bus.read (p : FlashParams) (b : Bus) (a : Word) : Width → Word × Bus
  | .half => ((b.readHalf p a).1.setWidth 32 <<< (if a.getLsbD 1 then 16 else 0), (b.readHalf p a).2)
  | .word =>
    (((b.readHalf p a).2.readHalf p (a + 2)).1 ++ (b.readHalf p a).1, ((b.readHalf p a).2.readHalf p (a + 2)).2)

/-- A write of a width: a half-word is the lane of the word that the address selects (R66). -/
def Bus.write (p : FlashParams) (b : Bus) (a v : Word) : Width → Bus
  | .half => b.writeHalf p a ((lane v a).extractLsb' 0 16)
  | .word => (b.writeHalf p a (v.extractLsb' 0 16)).writeHalf p (a + 2) (v.extractLsb' 16 16)

/-! ### The halted CPU (R84) -/

/-- An access of the CPU to the probe-serviced segment. -/
inductive CpuAccess where
  | read (a : Word)
  | write (a d : Word)
deriving DecidableEq, Repr

/-- What the CPU does next in the micro-program it runs. -/
inductive CpuOp where
  /-- fetch the word at this index of the micro-program -/
  | fetch (k : Nat)
  /-- read VADDR_REG into the address register -/
  | takeAddr
  /-- read VDATA_REG into the data register -/
  | takeData
  /-- load at the address register into the data register -/
  | load (w : Width)
  /-- store the data register at the address register -/
  | store (w : Width)
  /-- write the data register to VDATA_REG -/
  | giveData
deriving DecidableEq, Repr

/-- The halted CPU: its two registers and what is left of the micro-program, the pending operation first. With
nothing left it fetches DEBUG_VECTOR. -/
structure Cpu where
  addrReg : Word
  dataReg : Word
  ops : List CpuOp
deriving DecidableEq, Repr

/-- What each micro-program does after its first fetch: its other fetches, then what R84 says of it. DESIGN CHOICE (log
entry 29): every fetch comes before the micro-program's other accesses, whose order R84 gives. -/
def moduleOps (m : ModuleKind) (n : Nat) : List CpuOp :=
  (List.range (n - 1)).map (fun k => .fetch (k + 1)) ++
  match m with
  | .readWord => [.takeAddr, .load .word, .giveData]
  | .readHalf => [.takeAddr, .load .half, .giveData]
  | .writeWord => [.takeAddr, .takeData, .store .word]
  | .writeHalf => [.takeAddr, .takeData, .store .half]

/-- The words of each micro-program (30_encoding.md R115). -/
def moduleText (ms : ModuleParams) : ModuleKind → List Word
  | .readWord => ms.readWord
  | .writeWord => ms.writeWord
  | .readHalf => ms.readHalf
  | .writeHalf => ms.writeHalf

/-- The micro-program the CPU runs once the first word has been served: the one the block serves, `serving`. When the
block serves none (a host that serves the CPU by raw shifts), the only one that begins with this word; two that do
cannot be told apart by it, since the words are opaque (30_encoding.md R115), and then none (log entry 29). -/
def routine (ms : ModuleParams) (serving : Option ModuleKind) (v : Word) : Option ModuleKind :=
  match serving with
  | some m => some m
  | none =>
    match [.readWord, .writeWord, .readHalf, .writeHalf].filter fun m => (moduleText ms m).head? = some v with
    | [m] => some m
    | _ => none

/-- The probe-serviced segment. DESIGN CHOICE (log entry 29): it runs from the lowest location that R63 lists up. -/
def inSegment (e : EjtagParams) (a : Word) : Bool :=
  decide (e.debugVector ≤ a) || decide (e.vaddrReg ≤ a) || decide (e.vdataReg ≤ a)

/-- The value a store of a width writes: bits 15:0 of the register for a half-word (R84). -/
def storeValue (w : Width) (v : Word) : Word :=
  match w with
  | .word => v
  | .half => v &&& 0xFFFF

/-- The access the CPU has pending. A load or store stays in the micro-program's operations only when it is an access
to the segment. -/
def Cpu.pending (e : EjtagParams) (c : Cpu) : CpuAccess :=
  match c.ops with
  | .fetch k :: _ => .read (e.debugVector + BitVec.ofNat 32 (4 * k))
  | .takeAddr :: _ => .read e.vaddrReg
  | .takeData :: _ => .read e.vdataReg
  | .giveData :: _ => .write e.vdataReg c.dataReg
  | .load _ :: _ => .read c.addrReg
  | .store w :: _ => .write c.addrReg (storeValue w c.dataReg)
  | [] => .read e.debugVector

/-- The accesses the micro-program makes by itself, once their turn comes: loads and stores on the bus. One to the
segment is left pending for the probe (R84). DESIGN CHOICE (log entry 29): every other address goes to the bus as it is,
the same bus that DMA uses; R61, R62 and R84 leave its translation to the target. -/
def runBusOps (e : EjtagParams) (p : FlashParams) : List CpuOp → Cpu → Bus → Cpu × Bus
  | .load w :: ops, c, b =>
    if inSegment e c.addrReg then ({ c with ops := .load w :: ops }, b)
    else
      runBusOps e p ops { c with dataReg := readValue w (b.read p c.addrReg w).1 c.addrReg }
        (b.read p c.addrReg w).2
  | .store w :: ops, c, b =>
    if inSegment e c.addrReg then ({ c with ops := .store w :: ops }, b)
    else
      runBusOps e p ops c
        (match w with
         | .word => b.write p c.addrReg c.dataReg .word
         | .half => b.writeHalf p c.addrReg (c.dataReg.extractLsb' 0 16))
  | ops, c, b => ({ c with ops := ops }, b)

/-- The probe has completed the pending access; for a read it has served `v` (R84). DESIGN CHOICE (log entry 29): a
half-word load from the segment takes bits 15:0 of DATA. -/
def Cpu.complete (ps : Params) (serving : Option ModuleKind) (v : Word) (c : Cpu) (b : Bus) : Cpu × Bus :=
  match c.ops with
  | [] =>
    match routine ps.modules serving v with
    | some m => runBusOps ps.ejtag ps.flash (moduleOps m (moduleText ps.modules m).length) c b
    | none => (c, b)
  | .takeAddr :: ops => runBusOps ps.ejtag ps.flash ops { c with addrReg := v } b
  | .takeData :: ops => runBusOps ps.ejtag ps.flash ops { c with dataReg := v } b
  | .load w :: ops => runBusOps ps.ejtag ps.flash ops { c with dataReg := storeValue w v } b
  | _ :: ops => runBusOps ps.ejtag ps.flash ops c b

/-! ### The TAP and its registers (R80, R81) -/

/-- The target as the block reaches it. -/
structure Target where
  tap : TapState
  /-- the target's own instruction-register length -/
  irLength : Nat
  ir : Word
  /-- the shift register between TDI and TDO -/
  shift : Word
  idcode : Word
  impcode : Word
  address : Word
  data : Word
  /-- the last value written to CONTROL -/
  control : Word
  /-- CONTROL captures that still show DSTRT = 1 -/
  dmaLeft : Nat
  derr : Bool
  /-- how many CONTROL captures an access stays in progress for -/
  dmaLatency : Nat
  /-- every access fails (the always-error mock) -/
  alwaysErr : Bool
  bus : Bus
  cpu : Option Cpu
  /-- the micro-program the block serves, while it runs one -/
  serving : Option ModuleKind
deriving DecidableEq, Repr

/-- CONTROL as it is captured: PROBEN as written, PRACC and PRNW from the halted CPU (PRACC as written when there is
none), DSTRT while an access is in progress, DERR when it failed (R81, R84). DESIGN CHOICES (log entry 29): no other bit
reads back as it was written, PROBTRAP among them; DERR shows the failure from the start of the access to the start of
the next one. -/
def Target.controlWord (e : EjtagParams) (t : Target) : Word :=
  (t.control &&& bitAt e.control.proben)
    ||| (match t.cpu with
         | none => t.control &&& bitAt e.control.pracc
         | some c =>
           bitAt e.control.pracc |||
             (match c.pending e with | .write _ _ => bitAt e.control.prnw | .read _ => 0))
    ||| (if t.dmaLeft = 0 then 0 else bitAt e.control.dstrt)
    ||| (if t.derr then bitAt e.control.derr else 0)

/-- What the selected data register holds at Capture-DR. With a CPU access pending, ADDRESS holds its address and,
for a write, DATA its data (R84). DEDUCED (log entry 30): they do so as long as the access is pending, whatever an
Update-DR or a DMA access has put there, since R195 has the next RunModule find the access it left pending, after a read
of ADDRESS whose Update-DR wrote 0 there. DESIGN CHOICE (log entry 29): R80 does not say what an instruction code that selects
none of the five registers captures; this target captures 0. -/
def Target.selected (e : EjtagParams) (t : Target) : Word :=
  if t.ir = e.irIdcode then t.idcode
  else if t.ir = e.irImpcode then t.impcode
  else if t.ir = e.irAddress then
    match t.cpu with
    | none => t.address
    | some c => match c.pending e with | .read a => a | .write a _ => a
  else if t.ir = e.irData then
    match t.cpu with
    | none => t.data
    | some c => match c.pending e with | .read _ => t.data | .write _ d => d
  else if t.ir = e.irControl then t.controlWord e
  else 0

/-- One DMA access, started by a CONTROL update (R81). DESIGN CHOICES (log entry 29): the access takes effect at its
start, one that fails too, and DSTRT reads 1 for `dmaLatency` captures; a size that is neither word nor half-word (R108:
byte and tri-byte, which a host can shift by SHIFT_DR32) is done as a half-word; an address not aligned to the size goes
to the bus as it is. -/
def Target.dmaAccess (e : EjtagParams) (p : FlashParams) (t : Target) : Target :=
  let w : Width := if (t.control >>> e.control.dsz).extractLsb' 0 2 = e.control.dszWord then .word else .half
  let t := { t with dmaLeft := t.dmaLatency, derr := t.alwaysErr }
  if t.control.getLsbD e.control.drwn then
    { t with data := (t.bus.read p t.address w).1, bus := (t.bus.read p t.address w).2 }
  else { t with bus := t.bus.write p t.address t.data w }

/-- The probe clears PrAcc: the pending CPU access, if there is a CPU, is completed with DATA (R84). -/
def Target.completePending (ps : Params) (t : Target) : Target :=
  match t.cpu with
  | none => t
  | some cpu =>
    { t with
      cpu := some (cpu.complete ps t.serving t.data t.bus).1
      bus := (cpu.complete ps t.serving t.data t.bus).2 }

/-- A CONTROL update: PRACC written 0 completes the pending CPU access (R84), and DMAACC and DSTRT written 1 start a
DMA access (R81). DESIGN CHOICES (log entry 29): one word that does both completes the CPU access first; R311 leaves a
start while an access is in progress undefined, and this target starts a fresh access at once. -/
def Target.controlUpdate (ps : Params) (v : Word) (t : Target) : Target :=
  let c := ps.ejtag.control
  let t := { t with control := v }
  let t := if v.getLsbD c.pracc then t else t.completePending ps
  if v.getLsbD c.dmaacc && v.getLsbD c.dstrt then t.dmaAccess ps.ejtag ps.flash else t

/-- Update-DR: the shift register is written to the selected register (R80), IDCODE and IMPCODE among them: R140 says
of every read that it writes 0 there. DESIGN CHOICE (log entry 29): with an instruction code that selects none of the
five registers, nothing is written. -/
def Target.updateDr (ps : Params) (t : Target) : Target :=
  let e := ps.ejtag
  if t.ir = e.irIdcode then { t with idcode := t.shift }
  else if t.ir = e.irImpcode then { t with impcode := t.shift }
  else if t.ir = e.irAddress then { t with address := t.shift }
  else if t.ir = e.irData then { t with data := t.shift }
  else if t.ir = e.irControl then t.controlUpdate ps t.shift
  else t

/-- The bit presented on TDO: bit 0 of the shift register, in every state of the TAP (R80). -/
def Target.tdo (t : Target) : Bool := t.shift.getLsbD 0

/-- What the state the TAP is in does on a rising edge (R80): capture and shift. DESIGN CHOICE (log entry 29): R80 does
not say what Capture-IR loads; this target loads 1. -/
def Target.onEdge (e : EjtagParams) (tdi : Bool) (t : Target) : Target :=
  match t.tap with
  | .captureDr =>
    { t with shift := t.selected e, dmaLeft := if t.ir = e.irControl then t.dmaLeft - 1 else t.dmaLeft }
  | .shiftDr => { t with shift := (t.shift >>> 1) ||| (if tdi then bitAt 31 else 0) }
  | .captureIr => { t with shift := 1 }
  | .shiftIr => { t with shift := (t.shift >>> 1) ||| (if tdi then bitAt (t.irLength - 1) else 0) }
  | _ => t

/-- What entering a state does (R80): update, and IDCODE in Test-Logic-Reset. -/
def Target.onEntry (ps : Params) (t : Target) : Target :=
  match t.tap with
  | .updateDr => t.updateDr ps
  | .updateIr => { t with ir := maskIr t.shift t.irLength }
  | .testLogicReset => { t with ir := ps.ejtag.irIdcode }
  | _ => t

/-- One rising edge (R80): the bit presented before it, and the target after it. -/
def Target.clock (ps : Params) (tms tdi : Bool) (t : Target) : Bool × Target :=
  let u := t.onEdge ps.ejtag tdi
  (t.tdo, Target.onEntry ps { u with tap := tapNext1 u.tap tms })

/-- A status byte that shows this TDO level. -/
def statusByte (p : PinMap) (tdo : Bool) : Byte := if tdo ^^ p.tdoInverted then (1 : Byte) <<< p.tdo.val else 0

/-- The status bytes the block reads over a list of clocks, and the target after them. -/
def Target.answers (ps : Params) (p : PinMap) : List Clk → Target → List Byte × Target
  | [], t => ([], t)
  | c :: cs, t =>
    let (tdo, t) := t.clock ps c.tms c.tdi
    let (bs, t) := Target.answers ps p cs t
    (if c.tdo.isSome then statusByte p tdo :: bs else bs, t)

/-! ### The closed loop -/

/-- The micro-program the running command is in: that of the first task of RunModule's loop. -/
def servingModule : List Task → Option ModuleKind
  | [] => none
  | .moduleLoop m :: _ => some m
  | .praccPoll m :: _ => some m
  | .praccPollTest m :: _ => some m
  | .praccServe m _ :: _ => some m
  | .praccStore m _ :: _ => some m
  | .praccCommit m _ _ :: _ => some m
  | _ :: ts => servingModule ts

/-- One task of the block against the target. The clocks a task drives do not depend on what it samples, so a dry
run gives them; the target answers them, and the task runs on its answers. -/
def closedTick (s : State) (t : Target) : State × Target :=
  let dry := tick { s with io := { s.io with trace := [], statusIn := [] } }
  let clocks := clockView s.pins dry.io.trace.reverse
  let (bytes, t) := { t with serving := servingModule s.cont }.answers s.params s.pins clocks
  (tick { s with io := { s.io with statusIn := bytes } }, t)

/-- A running command against the target for at most `n` tasks. -/
def closedDrive : Nat → State → Target → State × Target
  | 0, s, t => (s, t)
  | n + 1, s, t => if s.busy then closedDrive n (closedTick s t).1 (closedTick s t).2 else (s, t)

end Sys2Proof.Machine
end

