-- ==== Sys2Proof/Safety.lean ====
section
/-! DEFINITION. The words claims are stated in: what holds of every reachable state (`State.Inv`), when a command can
run, the inputs still to come, and what a run of clocks, of shifts, of target accesses and of flash operations does to
a state, each written from the rules as one closed expression. The machine uses none of it. -/

namespace Sys2Proof.Machine

/-! ### The invariant -/

/-- FLASH_ID, FLASH_INFO and FLASH_SIZE show the identified chip, and are 0 when there is none (10_state.md R32). -/
def State.ChipShown (s : State) : Prop :=
  match s.chip with
  | none => s.flashId = 0 ∧ s.flashInfo = 0 ∧ s.flashSize = 0 ∧ s.blockMap = []
  | some c => s.flashId = idWord c.vendor c.device ∧ s.flashInfo = familyCode c.family ∧ s.flashSize = c.size

/-- What every state of a run from reset satisfies, and every step keeps:
the reserved bits of CONFIG are 0 (10_state.md R22); some TAP state is possible (R38); MODE is NONE exactly outside a
session (R43, 42_transaction.md R170); an idle block has no tasks; the retry counter is at most 16 (R46); the flash
registers show the chip (R32); BLOCK_MAP is within its capacity (R35); a valid IR cache holds an instruction masked to
IR_LENGTH bits (R37). -/
def State.Inv (s : State) : Prop :=
  s.config &&& configMask = s.config ∧ s.io.tapStates ≠ 0 ∧ (s.linkOpen = true ↔ s.mode ≠ .none) ∧
    (s.busy = false → s.cont = []) ∧ s.retries ≤ Config.dmaRetryCap ∧ s.ChipShown ∧
    s.blockMap.length ≤ s.flashParams.maxBlocks ∧
    (s.irCacheValid = true → maskIr s.irCache s.irLength = s.irCache)

/-! ### Command words -/

/-- The 24 opcodes (30_encoding.md R93). -/
def opcodes : List Byte :=
  [0x01, 0x02, 0x03, 0x04, 0x08, 0x09, 0x10, 0x11, 0x12, 0x13, 0x14, 0x15, 0x16, 0x17, 0x18, 0x19, 0x1A, 0x1B,
   0x20, 0x21, 0x22, 0x23, 0x24, 0x25]

/-- `Legal(w)` (30_encoding.md R95). -/
def LegalWord (w : Word) : Prop :=
  w.extractLsb' 0 8 ∈ opcodes ∧ w.extractLsb' 12 20 = 0 ∧
    (w.extractLsb' 0 8 = 0x01 → w.getLsbD 11 = false) ∧
    (w.extractLsb' 0 8 = 0x22 → w.extractLsb' 8 4 ≤ 4) ∧
    (w.extractLsb' 0 8 ≠ 0x01 → w.extractLsb' 0 8 ≠ 0x22 → w.extractLsb' 8 4 = 0)

/-- The offsets of the host registers a write changes, CMD and STATUS apart (30_encoding.md R90). -/
def writableOffsets : List Word := [0x00, 0x04, 0x0C, 0x10, 0x14, 0x44]

/-- The offsets of the read-only host registers (30_encoding.md R90). -/
def readOnlyOffsets : List Word :=
  [0x1C, 0x20, 0x24, 0x28, 0x2C, 0x30, 0x34, 0x38, 0x3C, 0x40, 0x48, 0x4C, 0x50, 0x54, 0x58, 0x5C, 0x60, 0x64]

/-! ### When a command can run -/

/-- Idle, in an open session: a command word is accepted and NOT_OPEN does not arise. -/
def State.Ready (s : State) : Prop := s.busy = false ∧ s.linkOpen = true

/-- The preconditions of both shifts hold (40_tap.md R138). -/
def State.Shiftable (s : State) : Prop := s.irLengthLegal = true ∧ s.io.tapStates = tapIdle

/-- The state after the end of command `i` with an error code (30_encoding.md R94): CMD, ERR, the Done event, BUSY = 0. -/
def State.ended (i : Instr) (code : ErrCode) (s : State) : State :=
  { s with
    cmd := encode i
    busy := false
    err := code
    cont := []
    io := { s.io with trace := .done (encode i) code.code :: s.io.trace } }

/-- The state after the end of command `i` with an error (60_exceptions.md R271). -/
def State.failed (i : Instr) (e : CmdError) (s : State) : State :=
  { s with errAddr := e.addr, errData := e.data }.ended i e.code

/-! ### Inputs still to come -/

/-- The `k`-th status byte to be read from now on: queued, or a free one (10_state.md R52). -/
def Io.statusByte (io : Io) (k : Nat) : Byte :=
  io.statusIn[k]?.getD (Config.freeStatusByte (io.statusDraws + (k - io.statusIn.length)))

/-- The word the `k`-th data-register shift from now on captures, first bit least significant (40_tap.md R139). -/
def State.captured (s : State) (k : Nat) : Word :=
  wordOfBits ((List.range 32).map fun i => tdoBit s.pins (s.io.statusByte (32 * k + i)))

/-- The level of CANCEL at the `k`-th consultation from now on (10_state.md R53). -/
def State.cancelLevel (s : State) (k : Nat) : Bool :=
  s.cancelIn[k]?.getD (Config.freeCancel (s.cancelDraws + (k - s.cancelIn.length)))

/-- CANCEL = 0 at the next `n` consultations. -/
def State.Quiet (s : State) (n : Nat) : Prop := ∀ k < n, s.cancelLevel k = false

/-- `n` levels of CANCEL have been drawn. -/
def State.drawn (n : Nat) (s : State) : State :=
  { s with cancelIn := s.cancelIn.drop n, cancelDraws := s.cancelDraws + (n - s.cancelIn.length) }

/-- DSTRT, DERR, PRACC and PRNW of a CONTROL word (30_encoding.md R108). -/
def State.dstrt (s : State) (c : Word) : Bool := c.getLsbD s.ctl.dstrt
def State.derr (s : State) (c : Word) : Bool := c.getLsbD s.ctl.derr
def State.praccBit (s : State) (c : Word) : Bool := c.getLsbD s.ctl.pracc
def State.prnw (s : State) (c : Word) : Bool := c.getLsbD s.ctl.prnw

/-! ### Clocks -/

/-- One clock: its TMS and TDI, and whether it samples TDO (40_tap.md R132). -/
structure Pulse where
  tms : Bool
  tdi : Bool
  sample : Bool
deriving DecidableEq, Repr

/-- How many of the clocks read the status line. -/
def samples (cs : List Pulse) : Nat := cs.countP (·.sample)

/-- The events of a list of clocks in the order they happen: the two control bytes of each, and the status byte of a
sampled one, the next of those to come from number `k` on (40_tap.md R132, 10_state.md R57). -/
def Io.events (p : PinMap) (io : Io) : Nat → List Pulse → List Event
  | _, [] => []
  | k, c :: cs =>
    .ctrlWrite (lowByte p c.tms c.tdi) :: .ctrlWrite (highByte p c.tms c.tdi) ::
      (if c.sample then .statusRead (io.statusByte k) :: io.events p (k + 1) cs else io.events p k cs)

/-- What a list of clocks does to the TAP driver's part of the state (40_tap.md R131, R132). -/
def Io.after (p : PinMap) (cs : List Pulse) (io : Io) : Io where
  latch := (cs.getLast?.map fun c => highByte p c.tms c.tdi).getD io.latch
  tapStates := cs.foldl (fun states c => tapNext states c.tms) io.tapStates
  clockCount := io.clockCount + BitVec.ofNat 32 cs.length
  statusIn := io.statusIn.drop (samples cs)
  statusDraws := io.statusDraws + (samples cs - io.statusIn.length)
  trace := (io.events p 0 cs).reverse ++ io.trace

/-- ResetTap: five clocks with TMS = 1, one with TMS = 0 (40_tap.md R133). -/
def resetPulses : List Pulse := List.replicate 5 ⟨true, false, false⟩ ++ [⟨false, false, false⟩]

/-- The clocks of an instruction-register shift of `l` bits (40_tap.md R136). -/
def irPulses (m : Word) (l : Nat) : List Pulse :=
  [⟨true, false, false⟩, ⟨true, false, false⟩, ⟨false, false, false⟩, ⟨false, false, false⟩]
    ++ (List.range l).map (fun i => ⟨i + 1 == l, m.getLsbD i, false⟩)
    ++ [⟨true, false, false⟩, ⟨false, false, false⟩]

/-- The clocks of ShiftData32 (40_tap.md R139). -/
def drPulses (v : Word) : List Pulse :=
  [⟨true, false, false⟩, ⟨false, false, false⟩, ⟨false, false, false⟩]
    ++ (List.range 32).map (fun i => ⟨i + 1 == 32, v.getLsbD i, true⟩)
    ++ [⟨true, false, false⟩, ⟨false, false, false⟩]

/-! ### Shifts -/

/-- A call of SetInstruction or of ShiftData32. -/
inductive Shift where
  | ir (code : Word)
  | dr (v : Word)
deriving DecidableEq, Repr

/-- What shifts change: the driver's part, and the IR cache. -/
structure Port where
  io : Io
  irCache : Word
  irCacheValid : Bool
deriving DecidableEq, Repr

/-- One shift where its preconditions hold: nothing on a cache hit (40_tap.md R136), else its clocks. -/
def Port.shift (p : PinMap) (l : Nat) (q : Port) : Shift → Port
  | .ir code =>
    if q.irCacheValid = true ∧ q.irCache = maskIr code l then q
    else { io := q.io.after p (irPulses (maskIr code l) l), irCache := maskIr code l, irCacheValid := true }
  | .dr v => { q with io := q.io.after p (drPulses v) }

/-- A list of shifts. -/
def State.traffic (xs : List Shift) (s : State) : Port :=
  xs.foldl (Port.shift s.pins s.irLength) { io := s.io, irCache := s.irCache, irCacheValid := s.irCacheValid }

/-- The state after a list of shifts. -/
def State.moved (xs : List Shift) (s : State) : State :=
  { s with
    io := (s.traffic xs).io
    irCache := (s.traffic xs).irCache
    irCacheValid := (s.traffic xs).irCacheValid }

/-! ### Target accesses -/

/-- A call of MemRead or MemWrite, or of one of the paths below them (42_transaction.md R170). -/
inductive Act where
  | read (a : Word) (w : Width)
  | write (a : Word) (w : Width) (v : Word)
deriving DecidableEq, Repr

/-- The address of an access. -/
def Act.addr : Act → Word
  | .read a _ => a
  | .write a _ _ => a

/-- Its width. -/
def Act.width : Act → Width
  | .read _ w => w
  | .write _ w _ => w

/-- The access of a command and the path it takes: by MODE, by DMA, or by Processor Access (42_transaction.md R200 to
R211). Other commands are no single access. -/
def State.accessOf (s : State) : Instr → Option (Act × Mode)
  | .readWord => some (.read s.addr .word, s.mode)
  | .readHalf => some (.read s.addr .half, s.mode)
  | .writeWord => some (.write s.addr .word s.data, s.mode)
  | .writeHalf => some (.write s.addr .half s.data, s.mode)
  | .dmaReadWord => some (.read s.addr .word, .dma)
  | .dmaReadHalf => some (.read s.addr .half, .dma)
  | .dmaWriteWord => some (.write s.addr .word s.data, .dma)
  | .dmaWriteHalf => some (.write s.addr .half s.data, .dma)
  | .praccReadWord => some (.read s.addr .word, .pracc)
  | .praccReadHalf => some (.read s.addr .half, .pracc)
  | .praccWriteWord => some (.write s.addr .word s.data, .pracc)
  | .praccWriteHalf => some (.write s.addr .half s.data, .pracc)
  | _ => none

/-- The access is a read: its command ends by writing RESULT. -/
def Act.isRead : Act → Bool
  | .read _ _ => true
  | .write _ _ _ => false

/-- The operand it reports when it is misaligned (42_transaction.md R171). -/
def Act.operand : Act → Word
  | .read _ _ => 0
  | .write _ _ v => v

/-- One access of the halted CPU to the probe-serviced segment, as the block sees it. -/
inductive StubAccess where
  | read (a : Word)
  | write (a d : Word)
deriving DecidableEq, Repr

/-- How the environment lets an access go. A number of polls counts the polls that do not end the wait. -/
inductive Pass where
  /-- fast DMA (42_transaction.md R178) -/
  | fast
  /-- careful DMA: attempts that end with DERR, with their extra polls, then one that succeeds (R173, R174, R176) -/
  | careful (failed : List Nat) (polls : Nat)
  /-- careful DMA: sixteen attempts that end with DERR, then a seventeenth (R176, R177) -/
  | corrupted (failed : List Nat) (polls : Nat)
  /-- careful DMA: attempts that end with DERR, then one that is cancelled after some polls (R175) -/
  | cancelled (failed : List Nat) (polls : Nat)
  /-- Processor Access: the accesses of the CPU, with the extra polls before each, then the second read at
  DEBUG_VECTOR (R190) -/
  | pracc (script : List (Nat × StubAccess)) (polls : Nat)
deriving DecidableEq, Repr

/-- The path of a pass. -/
def Pass.mode : Pass → Mode
  | .fast => .dma
  | .careful _ _ => .dma
  | .corrupted _ _ => .dma
  | .cancelled _ _ => .dma
  | .pracc _ _ => .pracc

/-- The pass ends without an error. -/
def Pass.ok : Pass → Bool
  | .fast => true
  | .careful _ _ => true
  | .corrupted _ _ => false
  | .cancelled _ _ => false
  | .pracc _ _ => true

/-! ### DMA Access (42_transaction.md R172 to R182) -/

/-- The shifts of an attempt up to its start. -/
def State.startShifts (s : State) : Act → List Shift
  | .read a w => [.ir s.ejtag.irAddress, .dr a, .ir s.ejtag.irControl, .dr (ctlStart s.ctl true w)]
  | .write a w v =>
    [.ir s.ejtag.irAddress, .dr a, .ir s.ejtag.irData, .dr v, .ir s.ejtag.irControl, .dr (ctlStart s.ctl false w)]

/-- How many words they capture. -/
def Act.startWords : Act → Nat
  | .read _ _ => 2
  | .write _ _ _ => 3

/-- Polls of DSTRT (R175). -/
def State.pollShifts (s : State) (n : Nat) : List Shift := List.replicate n (.dr (ctlDmaPoll s.ctl))

/-- The shifts of an attempt after its polls: the data of a read, and the clear. -/
def State.clearShifts (s : State) : Act → List Shift
  | .read _ _ => [.ir s.ejtag.irData, .dr 0, .ir s.ejtag.irControl, .dr (ctlDmaClear s.ctl)]
  | .write _ _ _ => [.dr (ctlDmaClear s.ctl)]

/-- A whole careful attempt with `k` extra polls: it captures `k + 5` words, the last of them at the clear. -/
def State.attempt (s : State) (x : Act) (k : Nat) : List Shift :=
  s.startShifts x ++ s.pollShifts (k + 1) ++ s.clearShifts x

/-- The words careful attempts capture, by their extra polls. -/
def wordsOf (failed : List Nat) : Nat := (failed.map (· + 5)).sum

/-- The polls careful attempts make. -/
def pollsOf (failed : List Nat) : Nat := (failed.map (· + 1)).sum

/-- From word `n` on, `k` polls capture DSTRT = 1 and the next one DSTRT = 0. -/
def State.PollEnds (s : State) (n k : Nat) : Prop :=
  (∀ j < k, s.dstrt (s.captured (n + j)) = true) ∧ s.dstrt (s.captured (n + k)) = false

/-- From word `n` on, attempts with these extra polls all end with DERR = 1. -/
def State.Fails (s : State) (x : Act) : Nat → List Nat → Prop
  | _, [] => True
  | n, k :: ks =>
    s.PollEnds (n + x.startWords) k ∧ s.derr (s.captured (n + k + 4)) = true ∧ s.Fails x (n + k + 5) ks

/-- The last data an attempt from word `n` on sees: the value read, lane-corrected, or the value written (R177). -/
def State.seen (s : State) (n k : Nat) : Act → Word
  | .read a w => readValue w (s.captured (n + k + 3)) a
  | .write _ _ v => v

/-! ### Processor Access (42_transaction.md R190 to R199) -/

/-- The micro-program of an access (R197). -/
def Act.module : Act → ModuleKind
  | .read _ w => readModule w
  | .write _ w _ => writeModule w

/-- The two mailboxes and STUB_ANOMALY. -/
structure Mail where
  addr : Word
  data : Word
  anomaly : Bool
deriving DecidableEq, Repr

/-- The mailboxes as an access loads them (R197). -/
def State.loadMail (s : State) : Act → Mail
  | .read a _ => { addr := Config.praccVaddr a, data := 0, anomaly := s.stubAnomaly }
  | .write a w v => { addr := Config.praccVaddr a, data := readValue w v a, anomaly := s.stubAnomaly }

/-- What a read of the CPU is served, and whether it is an anomaly: the micro-program's word at or above the vector,
else a mailbox, else 0 (R193, R194). -/
def State.served (s : State) (m : ModuleKind) (mail : Mail) (a : Word) : Word × Bool :=
  if s.ejtag.debugVector ≤ a then
    if (a - s.ejtag.debugVector).toNat / 4 < (s.moduleWords m).length then
      ((s.moduleWords m).getD ((a - s.ejtag.debugVector).toNat / 4) 0, false)
    else (0, true)
  else if a = s.ejtag.vaddrReg then (mail.addr, false)
  else if a = s.ejtag.vdataReg then (mail.data, false)
  else (0, true)

/-- The mailboxes after an access of the CPU (R194, R196; a write to VADDR_REG is no anomaly: log entry 28). -/
def State.mailAfter (s : State) (m : ModuleKind) (mail : Mail) : StubAccess → Mail
  | .read a => { mail with anomaly := mail.anomaly || (s.served m mail a).2 }
  | .write a d =>
    if a = s.ejtag.vaddrReg then { mail with addr := d }
    else if a = s.ejtag.vdataReg then { mail with data := d }
    else { mail with anomaly := true }

/-- The shifts that find a pending access after `q` extra polls and read its address (R191). -/
def State.pendingShifts (s : State) (q : Nat) : List Shift :=
  .ir s.ejtag.irControl :: List.replicate (q + 1) (.dr (ctlPraccPoll s.ctl)) ++ [.ir s.ejtag.irAddress, .dr 0]

/-- The shifts that serve an access: DATA, then CONTROL with the pending bit cleared (R190). -/
def State.serveShifts (s : State) (m : ModuleKind) (mail : Mail) : StubAccess → List Shift
  | .read a => [.ir s.ejtag.irData, .dr (s.served m mail a).1, .ir s.ejtag.irControl, .dr (ctlPraccDone s.ctl)]
  | .write _ _ => [.ir s.ejtag.irData, .dr 0, .ir s.ejtag.irControl, .dr (ctlPraccDone s.ctl)]

/-- All the shifts of a script, and the mailboxes after it. -/
def State.scriptRun (s : State) (m : ModuleKind) : Mail → List (Nat × StubAccess) → List Shift × Mail
  | mail, [] => ([], mail)
  | mail, (q, x) :: r =>
    (s.pendingShifts q ++ s.serveShifts m mail x ++ (s.scriptRun m (s.mailAfter m mail x) r).1,
      (s.scriptRun m (s.mailAfter m mail x) r).2)

/-- From word `n` on, `q` polls capture PRACC = 0, the next one PRACC = 1 with this direction, and the address is this
one (R191). -/
def State.Pending (s : State) (n q : Nat) (isWrite : Bool) (a : Word) : Prop :=
  (∀ j < q, s.praccBit (s.captured (n + j)) = false) ∧ s.praccBit (s.captured (n + q)) = true ∧
    s.prnw (s.captured (n + q)) = isWrite ∧ s.captured (n + q + 1) = a

/-- From word `n` on, the CPU makes these accesses; each takes `q + 4` words. -/
def State.Makes (s : State) : Nat → List (Nat × StubAccess) → Prop
  | _, [] => True
  | n, (q, .read a) :: r => s.Pending n q false a ∧ s.Makes (n + q + 4) r
  | n, (q, .write a d) :: r => s.Pending n q true a ∧ s.captured (n + q + 2) = d ∧ s.Makes (n + q + 4) r

/-- The words a script captures. -/
def scriptWords (script : List (Nat × StubAccess)) : Nat := (script.map (·.1 + 4)).sum

/-! ### The effect of an access -/

/-- The inputs to come let the access go in this way. -/
def State.Allows (x : Act) (s : State) : Pass → Prop
  | .fast => s.fast = true
  | .careful ks k =>
    s.fast = false ∧ ks.length ≤ 16 ∧ s.Fails x 0 ks ∧ s.PollEnds (wordsOf ks + x.startWords) k ∧
      s.derr (s.captured (wordsOf ks + k + 4)) = false ∧ s.Quiet (pollsOf ks + k + 1)
  | .corrupted ks k =>
    s.fast = false ∧ ks.length = 16 ∧ s.Fails x 0 ks ∧ s.PollEnds (wordsOf ks + x.startWords) k ∧
      s.derr (s.captured (wordsOf ks + k + 4)) = true ∧ s.Quiet (pollsOf ks + k + 1)
  | .cancelled ks k =>
    s.fast = false ∧ ks.length ≤ 16 ∧ s.Fails x 0 ks ∧
      (∀ j < k, s.dstrt (s.captured (wordsOf ks + x.startWords + j)) = true) ∧
      s.Quiet (pollsOf ks + k) ∧ s.cancelLevel (pollsOf ks + k) = true
  | .pracc script q =>
    s.Makes 0 script ∧ (script.map Prod.snd).count (.read s.ejtag.debugVector) = 1 ∧
      s.Pending (scriptWords script) q false s.ejtag.debugVector

/-- The state after an access that goes in this way, its shifts done and the value it returns in `acc`. A pass that
ends with an error leaves the state it meets the error in. -/
def State.access (x : Act) (s : State) : Pass → State
  | .fast =>
    { s.moved (s.startShifts x ++ s.clearShifts x) with
      retries := 16
      possibleCorruption := s.possibleCorruption || s.dstrt (s.captured 3)
      acc := match x with | .read a w => readValue w (s.captured 2) a | .write _ _ _ => s.captured 3 }
  | .careful ks k =>
    { (s.moved (ks.flatMap (s.attempt x) ++ s.attempt x k)).drawn (pollsOf ks + k + 1) with
      retries := 16 - ks.length
      acc := match x with
        | .read _ _ => s.seen (wordsOf ks) k x
        | .write _ _ _ => s.captured (wordsOf ks + k + 4) }
  | .corrupted ks k =>
    { (s.moved (ks.flatMap (s.attempt x) ++ s.attempt x k)).drawn (pollsOf ks + k + 1) with
      retries := 0
      acc := s.captured (wordsOf ks + k + 4) }
  | .cancelled ks k =>
    { (s.moved (ks.flatMap (s.attempt x) ++ s.startShifts x ++ s.pollShifts k)).drawn (pollsOf ks + k + 1) with
      retries := 16 - ks.length
      acc := s.captured (wordsOf ks + x.startWords + k - 1) }
  | .pracc script q =>
    { s.moved ((s.scriptRun x.module (s.loadMail x) script).1 ++ s.pendingShifts q) with
      mboxAddr := (s.scriptRun x.module (s.loadMail x) script).2.addr
      mboxData := (s.scriptRun x.module (s.loadMail x) script).2.data
      stubAnomaly := (s.scriptRun x.module (s.loadMail x) script).2.anomaly
      hits := 2
      acc := match x with
        | .read _ .word => (s.scriptRun x.module (s.loadMail x) script).2.data
        | .read _ .half => (s.scriptRun x.module (s.loadMail x) script).2.data &&& 0xFFFF
        | .write _ _ _ => s.ejtag.debugVector }

/-- A bound on the tasks an access takes (log entry 6). -/
def Pass.tasks : Pass → Nat
  | .fast => 12
  | .careful ks k => 16 + 3 * k + (ks.map (14 + 3 * ·)).sum
  | .corrupted ks k => 16 + 3 * k + (ks.map (14 + 3 * ·)).sum
  | .cancelled ks k => 16 + 3 * k + (ks.map (14 + 3 * ·)).sum
  | .pracc script q => 12 + 3 * q + (script.map (14 + 3 * ·.1)).sum

/-! ### Accesses that end with an error -/

/-- How an access by MODE ends with an error other than USER_CANCELLED. -/
inductive Stop where
  /-- careful DMA: seventeen attempts that end with DERR (R176, R177) -/
  | corrupted (failed : List Nat) (polls : Nat)
  /-- before any clock (R171) -/
  | misaligned
  /-- at the first shift (40_tap.md R138) -/
  | unshiftable
deriving DecidableEq, Repr

/-- The access ends in this way. -/
def State.Stops (x : Act) (s : State) : Stop → Prop
  | .corrupted ks k =>
    s.mode = .dma ∧ Machine.misaligned x.addr x.width = false ∧ s.Shiftable ∧ s.Allows x (.corrupted ks k)
  | .misaligned => Machine.misaligned x.addr x.width = true
  | .unshiftable => s.mode ≠ .none ∧ Machine.misaligned x.addr x.width = false ∧ ¬ s.Shiftable

/-- The state an access has come to at its first shift: the retry counter loaded, or the mailboxes (10_state.md R46,
42_transaction.md R197). -/
def State.beforeShift (x : Act) (s : State) : State :=
  match s.mode with
  | .none => s
  | .dma => { s with retries := 16 }
  | .pracc => { s with mboxAddr := (s.loadMail x).addr, mboxData := (s.loadMail x).data, hits := 0 }

/-- The error of a shift whose preconditions do not hold, in their order (40_tap.md R138). -/
def State.shiftError (s : State) : CmdError :=
  if s.irLengthLegal = false then ⟨.invalidConfig, 0, s.configWord⟩
  else ⟨.tapState, 0, s.io.tapStates.setWidth 32⟩

/-- The state the access meets its error in. -/
def State.stopState (x : Act) (s : State) : Stop → State
  | .corrupted ks k => s.access x (.corrupted ks k)
  | .misaligned => s
  | .unshiftable => s.beforeShift x

/-- Its error (R171, R177). -/
def State.stopError (x : Act) (s : State) : Stop → CmdError
  | .corrupted ks k => ⟨.transactionCorrupted, x.addr, s.seen (wordsOf ks) k x⟩
  | .misaligned => ⟨.misaligned, x.addr, x.operand⟩
  | .unshiftable => s.shiftError

/-- A bound on its tasks. -/
def Stop.tasks : Stop → Nat
  | .corrupted ks k => (Pass.corrupted ks k).tasks
  | .misaligned => 1
  | .unshiftable => 5

/-! ### Flash operations (43_flash.md R220 to R245) -/

/-- One half-word operation of the engine on the chip: a write, or a completion poll. -/
inductive Op where
  | write (a v : Word)
  | poll (a : Word) (cond : PollCond)
deriving DecidableEq, Repr

/-- A command cycle (R220). -/
def Op.cmd (a : Word) (c : Byte) : Op := .write a (rep c)

/-- The unlock pair and a command (R225). -/
def unlockOps (b : FlashBytes) (f : Family) (base : Word) (c : Byte) : List Op :=
  [.cmd (unlock1 f base) b.unlock1, .cmd (unlock2 f base) b.unlock2, .cmd (unlock1 f base) c]

/-- The operations of a block erase (R237, R238). -/
def State.eraseOps (s : State) (f : Family) (b : Word) : List Op :=
  let c := s.flashParams.bytes
  if amdStyle f then
    unlockOps c f s.flashBase c.eraseSetup
      ++ [.cmd (unlock1 f s.flashBase) c.unlock1, .cmd (unlock2 f s.flashBase) c.unlock2, .cmd b c.sectorErase,
          .poll b .allOnes]
  else [.cmd b c.unlockBlock, .cmd b c.confirm, .cmd b c.blockErase, .cmd b c.confirm, .poll b .ready]

/-- The operations that program one half of a word (R240, R241). -/
def State.programHalfOps (s : State) (f : Family) (a v : Word) (k : Nat) : List Op :=
  let c := s.flashParams.bytes
  let ak := a + BitVec.ofNat 32 (2 * k)
  if amdStyle f then unlockOps c f s.flashBase c.program ++ [.write ak v, .poll ak (.equals (programHalf v k))]
  else [.cmd ak c.write, .write ak v, .poll ak .ready]

/-- The operations of a word program: the low half, then the high half (R240, R241). -/
def State.programOps (s : State) (f : Family) (a v : Word) : List Op :=
  s.programHalfOps f a v 0 ++ s.programHalfOps f a v 1

/-- An access the engine makes by MODE goes in this way without an error. -/
def State.Goes (x : Act) (p : Pass) (s : State) : Prop :=
  p.mode = s.mode ∧ misaligned x.addr x.width = false ∧ p.ok = true ∧ s.Allows x p

/-- A completion poll: CANCEL is drawn before each read (R239). -/
def State.polled (a : Word) (ps : List Pass) (s : State) : State :=
  ps.foldl (fun s p => (s.drawn 1).access (.read a .half) p) s

/-- A completion poll whose last read, and no other, satisfies the condition, with CANCEL = 0 throughout. -/
def State.PollGoes (a : Word) (cond : PollCond) : List Pass → State → Prop
  | [], _ => False
  | p :: ps, s =>
    s.cancelLevel 0 = false ∧ (s.drawn 1).Goes (.read a .half) p ∧
      pollHolds s.flashParams ((s.drawn 1).access (.read a .half) p).acc cond = ps.isEmpty ∧
      (ps = [] ∨ ((s.drawn 1).access (.read a .half) p).PollGoes a cond ps)

/-- A completion poll none of whose reads satisfies the condition, with CANCEL = 0 before each. -/
def State.PollMisses (a : Word) (cond : PollCond) : List Pass → State → Prop
  | [], _ => True
  | p :: ps, s =>
    s.cancelLevel 0 = false ∧ (s.drawn 1).Goes (.read a .half) p ∧
      pollHolds s.flashParams ((s.drawn 1).access (.read a .half) p).acc cond = false ∧
      ((s.drawn 1).access (.read a .half) p).PollMisses a cond ps

/-- The state after operations, each with the passes of its accesses. -/
def State.opsRun : List (Op × List Pass) → State → State
  | [], s => s
  | (.write a v, ps) :: r, s => (ps.foldl (fun s p => s.access (.write a .half v) p) s).opsRun r
  | (.poll a _, ps) :: r, s => (s.polled a ps).opsRun r

/-- The operations go in this way: one pass for each write, and at least one for each poll. -/
def State.OpsGo : List (Op × List Pass) → State → Prop
  | [], _ => True
  | (.write a v, [p]) :: r, s =>
    s.Goes (.write a .half v) p ∧ (s.access (.write a .half v) p).OpsGo r
  | (.write _ _, _) :: _, _ => False
  | (.poll a cond, ps) :: r, s => s.PollGoes a cond ps ∧ (s.polled a ps).OpsGo r

/-- A bound on the tasks operations take. -/
def opsTasks (run : List (Op × List Pass)) : Nat := (run.map fun r => 1 + (r.2.map (·.tasks + 2)).sum).sum

/-- How far operations go before an access that ends with an error: whole operations, then the write of `next`, or the
next read of its completion poll after some reads. -/
structure Reach where
  run : List (Op × List Pass)
  next : Op
  reads : List Pass
deriving DecidableEq, Repr

/-- The access that comes next. -/
def Reach.act (r : Reach) : Act :=
  match r.next with
  | .write a v => .write a .half v
  | .poll a _ => .read a .half

/-- The state it comes in. -/
def State.reached (r : Reach) (s : State) : State :=
  match r.next with
  | .write _ _ => s.opsRun r.run
  | .poll a _ => ((s.opsRun r.run).polled a r.reads).drawn 1

/-- The operations go so far. Nothing but a first write is reached where no shift can be made. -/
def State.ReachGoes (ops : List Op) (r : Reach) (s : State) : Prop :=
  (r.run.map Prod.fst ++ [r.next]) <+: ops ∧ (s.Shiftable ∨ r.run = []) ∧ s.OpsGo r.run ∧
    match r.next with
    | .write _ _ => r.reads = []
    | .poll a cond =>
      s.Shiftable ∧ (s.opsRun r.run).PollMisses a cond r.reads ∧
        ((s.opsRun r.run).polled a r.reads).cancelLevel 0 = false

/-- A bound on the tasks so far. -/
def Reach.tasks (r : Reach) : Nat := opsTasks r.run + (r.reads.map (·.tasks + 2)).sum + 2

/-! ### Erase areas (43_flash.md R243) -/

/-- How the erase of one block goes. -/
inductive BlockRun where
  /-- all its operations -/
  | done (run : List (Op × List Pass))
  /-- some of its operations, then a write, or a read of its completion poll, that ends with an error -/
  | stopped (reach : Reach) (stop : Stop)
  /-- none: the block start is odd -/
  | misaligned
deriving DecidableEq, Repr

/-- The progress report of a block (R243). -/
def State.reports (i : Nat) (b : Word) (s : State) : State :=
  { s with progress := b, io := { s.io with trace := .progress i b :: s.io.trace } }

/-- The state after one block. -/
def State.blockRun (s : State) : BlockRun → State
  | .done run => s.opsRun run
  | .stopped r stop => { (s.reached r).stopState r.act stop with eraseFailed := s.eraseFailed + 1 }
  | .misaligned => { s with eraseFailed := s.eraseFailed + 1 }

/-- The error of one block. -/
def State.blockError (b : Word) (s : State) : BlockRun → Option CmdError
  | .done _ => none
  | .stopped r stop => some ((s.reached r).stopError r.act stop)
  | .misaligned => some { code := .misaligned, addr := b, data := 0 }

/-- The block goes in this way. -/
def State.BlockGoes (f : Family) (b : Word) (s : State) : BlockRun → Prop
  | .done run =>
    Machine.misaligned b .half = false ∧ s.Shiftable ∧ run.map Prod.fst = s.eraseOps f b ∧ s.OpsGo run
  | .stopped r stop =>
    Machine.misaligned b .half = false ∧ s.ReachGoes (s.eraseOps f b) r ∧ (s.reached r).Stops r.act stop
  | .misaligned => Machine.misaligned b .half = true

/-- The state after the blocks from number `i` on. -/
def State.areaRun : Nat → List (Word × BlockRun) → State → State
  | _, [], s => s
  | i, (b, r) :: rs, s => State.areaRun (i + 1) rs ((s.reports i b).blockRun r)

/-- The last block error, if there is one. -/
def State.areaError : Nat → Option CmdError → List (Word × BlockRun) → State → Option CmdError
  | _, e, [], _ => e
  | i, e, (b, r) :: rs, s =>
    State.areaError (i + 1) (((s.reports i b).blockError b r).orElse fun _ => e) rs ((s.reports i b).blockRun r)

/-- The blocks go in this way. -/
def State.AreaGoes (f : Family) : Nat → List (Word × BlockRun) → State → Prop
  | _, [], _ => True
  | i, (b, r) :: rs, s =>
    (s.reports i b).BlockGoes f b r ∧ State.AreaGoes f (i + 1) rs ((s.reports i b).blockRun r)

/-- A bound on the tasks of one block. -/
def BlockRun.tasks : BlockRun → Nat
  | .done run => 8 + opsTasks run
  | .stopped r stop => 8 + r.tasks + stop.tasks
  | .misaligned => 2

/-! ### Probe (43_flash.md R224 to R232) -/

/-- How one attempt goes: a pass for each access. `extended` counts only where the id is ambiguous (R229). -/
structure AttemptRun where
  enter : List Pass
  vendor : Pass
  device : Pass
  extended : Pass
  reset : Pass
deriving DecidableEq, Repr

/-- The writes that enter ID mode (R225 to R227). -/
def State.enterOps (s : State) : Attempt → List Op
  | .amd => unlockOps s.flashParams.bytes .amd s.flashParams.baseSmall s.flashParams.bytes.autoselect
  | .sst => unlockOps s.flashParams.bytes .sst s.flashParams.baseSmall s.flashParams.bytes.autoselect
  | .intel => [.cmd s.flashParams.baseSmall s.flashParams.bytes.readId]

/-- The reset-to-read write of an attempt, a window or a chip family (R244). -/
def State.resetWrite (s : State) (amd : Bool) (base : Word) : Act :=
  .write base .half (rep (if amd then s.flashParams.bytes.reset else s.flashParams.bytes.readArray))

/-- The attempts other than the direct read-ID one use the AMD reset. -/
def Attempt.amdReset : Attempt → Bool
  | .amd => true
  | .sst => true
  | .intel => false

/-- The state after an attempt entered ID mode and read the vendor id. -/
def State.afterVendor (k : Attempt) (r : AttemptRun) (s : State) : State :=
  (s.opsRun ((s.enterOps k).zip (r.enter.map fun p => [p]))).access (.read s.flashParams.baseSmall .half) r.vendor

/-- The vendor id (R228). -/
def State.vendorId (k : Attempt) (r : AttemptRun) (s : State) : Half := (s.afterVendor k r).acc.extractLsb' 0 16

/-- The state after the device id was read. -/
def State.afterDevice (k : Attempt) (r : AttemptRun) (s : State) : State :=
  (s.afterVendor k r).access (.read (s.flashParams.baseSmall + 2) .half) r.device

/-- The true device id is to be read again (R229). -/
def State.ambiguous (k : Attempt) (r : AttemptRun) (s : State) : Bool :=
  (s.vendorId k r).extractLsb' 0 8 == 0x01 &&
    (s.afterDevice k r).acc.extractLsb' 0 16 == s.flashParams.ambigDeviceId

/-- The state after all the reads of an attempt. -/
def State.afterIds (k : Attempt) (r : AttemptRun) (s : State) : State :=
  if s.ambiguous k r then
    (s.afterDevice k r).access (.read (s.flashParams.baseSmall + s.flashParams.extIdOffset) .half) r.extended
  else s.afterDevice k r

/-- The device id after disambiguation (R229). -/
def State.deviceId (k : Attempt) (r : AttemptRun) (s : State) : Half := (s.afterIds k r).acc.extractLsb' 0 16

/-- The state after an attempt and its reset-to-read (R231). -/
def State.afterAttempt (k : Attempt) (r : AttemptRun) (s : State) : State :=
  (s.afterIds k r).access (s.resetWrite k.amdReset s.flashParams.baseSmall) r.reset

/-- The attempt goes in this way. -/
def State.AttemptGoes (k : Attempt) (r : AttemptRun) (s : State) : Prop :=
  r.enter.length = (s.enterOps k).length ∧
    s.OpsGo ((s.enterOps k).zip (r.enter.map fun p => [p])) ∧
    (s.opsRun ((s.enterOps k).zip (r.enter.map fun p => [p]))).Goes (.read s.flashParams.baseSmall .half) r.vendor ∧
    (s.afterVendor k r).Goes (.read (s.flashParams.baseSmall + 2) .half) r.device ∧
    (s.ambiguous k r = true →
      (s.afterDevice k r).Goes (.read (s.flashParams.baseSmall + s.flashParams.extIdOffset) .half) r.extended) ∧
    (s.afterIds k r).Goes (s.resetWrite k.amdReset s.flashParams.baseSmall) r.reset

/-- The order of the attempts of a round (R224). -/
def Attempt.next : Attempt → Attempt
  | .amd => .sst
  | .sst => .intel
  | .intel => .amd

/-- The state after attempts from kind `k` on, the kind that comes next, and the last ids read, `last` if none. -/
def State.missRun : Attempt → Word → List AttemptRun → State → State × Attempt × Word
  | k, last, [], s => (s, k, last)
  | k, _, r :: rs, s =>
    State.missRun k.next (idWord (s.vendorId k r) (s.deviceId k r)) rs (s.afterAttempt k r)

/-- Attempts from kind `k` on that go in these ways and find no chip of FLASH_TABLE (R230). -/
def State.Misses : Attempt → List AttemptRun → State → Prop
  | _, [], _ => True
  | k, r :: rs, s =>
    s.AttemptGoes k r ∧ lookupChip s.flashParams (s.vendorId k r) (s.deviceId k r) = none ∧
      State.Misses k.next rs (s.afterAttempt k r)

/-- A bound on the tasks of an attempt. -/
def AttemptRun.tasks (r : AttemptRun) : Nat :=
  16 + (r.enter.map (·.tasks)).sum + r.vendor.tasks + r.device.tasks + r.extended.tasks + r.reset.tasks

/-- The state an attempt has entered ID mode in. -/
def State.entered (k : Attempt) (r : AttemptRun) (s : State) : State :=
  s.opsRun ((s.enterOps k).zip (r.enter.map fun p => [p]))

/-- The attempt enters ID mode in this way. -/
def State.AttemptEnters (k : Attempt) (r : AttemptRun) (s : State) : Prop :=
  r.enter.length = (s.enterOps k).length ∧ s.OpsGo ((s.enterOps k).zip (r.enter.map fun p => [p]))

/-- An attempt that goes in the way of `r` comes to this access, in this state: a read of an id, or its
reset-to-read. -/
inductive State.AttemptComes (k : Attempt) (r : AttemptRun) (s : State) : Act → State → Prop where
  | vendor :
    s.AttemptEnters k r → s.AttemptComes k r (.read s.flashParams.baseSmall .half) (s.entered k r)
  | device :
    s.AttemptEnters k r → (s.entered k r).Goes (.read s.flashParams.baseSmall .half) r.vendor →
      s.AttemptComes k r (.read (s.flashParams.baseSmall + 2) .half) (s.afterVendor k r)
  | extended :
    s.AttemptEnters k r → (s.entered k r).Goes (.read s.flashParams.baseSmall .half) r.vendor →
      (s.afterVendor k r).Goes (.read (s.flashParams.baseSmall + 2) .half) r.device → s.ambiguous k r = true →
      s.AttemptComes k r (.read (s.flashParams.baseSmall + s.flashParams.extIdOffset) .half) (s.afterDevice k r)
  | reset :
    s.AttemptEnters k r → (s.entered k r).Goes (.read s.flashParams.baseSmall .half) r.vendor →
      (s.afterVendor k r).Goes (.read (s.flashParams.baseSmall + 2) .half) r.device →
      (s.ambiguous k r = true →
        (s.afterDevice k r).Goes (.read (s.flashParams.baseSmall + s.flashParams.extIdOffset) .half) r.extended) →
      s.AttemptComes k r (s.resetWrite k.amdReset s.flashParams.baseSmall) (s.afterIds k r)

/-! ### Accesses of the flash commands -/

/-- The state with no chip that FLASH_PROBE starts in (43_flash.md R250). -/
def State.unprobed (s : State) : State :=
  { s with chip := none, flashId := 0, flashInfo := 0, flashSize := 0, flashBase := 0, blockMap := [], result := 0 }

/-- After attempts that find no chip, a probe from `s` comes to an attempt of kind `k` in the state `t`. -/
def State.ProbeComes (misses : List AttemptRun) (k : Attempt) (s t : State) : Prop :=
  s.params.tableWf = true ∧ (misses = [] ∨ s.Shiftable) ∧ misses.length < 3 * s.flashParams.probeRounds ∧
    State.Misses .amd misses s.unprobed ∧ ∃ last, State.missRun .amd 0 misses s.unprobed = (t, k, last)

/-- A flash command other than FLASH_ERASE_AREA, begun in the idle state `s` with its chip identified, comes within
`n` tasks to this access, in this state (43_flash.md R224, R237 to R241, R244). -/
inductive State.ComesTo (s : State) : Instr → Nat → Act → State → Prop where
  | resetRead (c : FlashDescriptor) :
    s.chip = some c → s.ComesTo .flashResetRead 1 (s.resetWrite (amdStyle c.family) s.flashBase) s
  | eraseBlock (c : FlashDescriptor) (r : Reach) :
    s.chip = some c → misaligned s.addr .half = false →
      { s with progress := s.addr }.ReachGoes (s.eraseOps c.family s.addr) r →
      s.ComesTo .flashEraseBlock (r.tasks + 2) r.act ({ s with progress := s.addr }.reached r)
  | writeWord (c : FlashDescriptor) (r : Reach) :
    s.chip = some c → misaligned s.addr .word = false →
      s.ReachGoes (s.programOps c.family s.addr s.data) r →
      s.ComesTo .flashWriteWord (r.tasks + 2) r.act (s.reached r)
  | probeEnter (misses : List AttemptRun) (k : Attempt) (t : State) (r : Reach) :
    s.ProbeComes misses k t → t.ReachGoes (t.enterOps k) r →
      s.ComesTo .flashProbe ((misses.map (·.tasks)).sum + r.tasks + 4) r.act (t.reached r)
  | probeIds (misses : List AttemptRun) (k : Attempt) (t : State) (r : AttemptRun) (x : Act) (u : State) :
    s.Shiftable → s.ProbeComes misses k t → t.AttemptComes k r x u →
      s.ComesTo .flashProbe ((misses.map (·.tasks)).sum + r.tasks + 4) x u

end Sys2Proof.Machine
end

