-- ==== Sys2Proof/Certificates/Slice0/Obligations.lean ====
section
/-! DEFINITION. The statements for the provers. A statement's docstring names the rules it formalises. In the
statements about commands, `State.ended` and `State.failed` are the end of a command (30_encoding.md R94, 60_exceptions.md
R271), `Io.after` is what a list of clocks does, and `State.access` is what one target access does (Safety.lean). The
bounds on `pace` are the model's own (log entry 6): they say how many tasks one step must be allowed for the command
to end within it. -/

open Sys2Proof Sys2Proof.Machine

/-! ### Encoding -/

/-- R92, R93, R96, R97: the words that decode to a command are exactly its encoding, if it is well-formed. -/
def Obligations.DecodeEncodeAgree : Prop :=
  ∀ (w : Word) (i : Instr), decode w = .ok i ↔ i.wf = true ∧ encode i = w

/-- R95: the decoder accepts exactly the legal words, and an illegal word written to CMD while idle ends at once with
INVALID_COMMAND, changing CMD, STATUS.ERR and the trace only (the field `cont` of an idle block is empty already). -/
def Obligations.IllegalWords : Prop :=
  (∀ w : Word, (∃ i, decode w = .ok i) ↔ LegalWord w) ∧
    ∀ (w : Word) (s : State) (q : List HostAction), ¬ LegalWord w → s.busy = false →
      s.hostQueue = .write 0x08 w :: q →
        step s = .next { s with
          hostQueue := q
          cmd := w
          err := .invalidCommand
          cont := []
          io := { s.io with trace := .done w 5 :: s.io.trace } }

/-- R92, R93, R96, R97: words written out from the tables decode to their commands. -/
def Obligations.SampleWords : Prop :=
  decode 0x00000101 = .ok (.clock true false false) ∧ decode 0x00000701 = .ok (.clock true true true) ∧
    decode 0x00000003 = .ok .setIr ∧ decode 0x00000008 = .ok .init ∧ decode 0x00000010 = .ok .readWord ∧
    decode 0x00000017 = .ok .dmaWriteHalf ∧ decode 0x0000001A = .ok .praccWriteWord ∧
    decode 0x00000422 = .ok (.flashSelectArea 4) ∧ decode 0x00000024 = .ok .flashEraseArea

/-! ### Steps, host accesses, reset -/

/-- R94: a host write of a word that decodes to `i` is one step that runs `i`, with the action taken off the queue. -/
def Obligations.StepRunsDecoded : Prop :=
  ∀ (s : State) (w : Word) (i : Instr) (q : List HostAction),
    s.hostQueue = .write 0x08 w :: q → decode w = .ok i → step s = exec i { s with hostQueue := q }

/-- R90: what the host reads at each offset. -/
def Obligations.RegisterMap : Prop :=
  ∀ (s : State) (a : Word) (q : List HostAction), s.hostQueue = .read a :: q →
    step s = .next { s with
      hostQueue := q
      hostRdata :=
        if a = 0x00 then s.config &&& 0x00000F3F else if a = 0x04 then s.tckDelay else if a = 0x08 then s.cmd
        else if a = 0x0C then s.addr else if a = 0x10 then s.data else if a = 0x14 then s.len
        else if a = 0x18 then s.statusWord else if a = 0x1C then s.result else if a = 0x20 then s.errAddr
        else if a = 0x24 then s.errData else if a = 0x28 then s.flashId else if a = 0x2C then s.flashInfo
        else if a = 0x30 then s.flashSize else if a = 0x34 then s.flashBase else if a = 0x38 then s.areaStart
        else if a = 0x3C then s.areaLen else if a = 0x40 then BitVec.ofNat 32 s.blockMap.length
        else if a = 0x44 then s.blockSel
        else if a = 0x48 then (if h : s.blockSel.toNat < s.blockMap.length then s.blockMap[s.blockSel.toNat] else 0)
        else if a = 0x4C then s.progress else if a = 0x50 then s.eraseFailed else if a = 0x54 then s.io.clockCount
        else if a = 0x58 then s.io.tapStates.setWidth 32 else if a = 0x5C then s.irCache
        else if a = 0x60 then s.mboxAddr else if a = 0x64 then s.mboxData else 0 }

/-- R29, R270: the bits of the STATUS word, and the codes that its MODE and ERR fields hold. -/
def Obligations.StatusBits : Prop :=
  [Mode.none, .dma, .pracc].map Mode.code = [0, 1, 2] ∧
    [ErrCode.none, .transactionCorrupted, .userCancelled, .chipNotDetected, .chipSelectionInvalid, .invalidCommand,
      .notOpen, .tapState, .misaligned, .invalidConfig, .blockmapOverflow].map ErrCode.code =
      [0, 1, 2, 3, 4, 5, 6, 7, 8, 9, 10] ∧
    ∀ s : State, s.statusWord.getLsbD 0 = s.busy ∧ s.statusWord.getLsbD 1 = s.linkOpen ∧
      s.statusWord.extractLsb' 2 2 = s.mode.code ∧ s.statusWord.getLsbD 4 = s.possibleCorruption ∧
      s.statusWord.getLsbD 5 = s.overrun ∧ s.statusWord.getLsbD 6 = s.stubAnomaly ∧
      s.statusWord.getLsbD 7 = s.chip.isSome ∧ s.statusWord.extractLsb' 8 8 = s.err.code ∧
      s.statusWord.getLsbD 16 = s.irCacheValid ∧ s.statusWord.extractLsb' 17 15 = 0

/-- R91: a read has no side effect, whether busy or not; no other offset holds a register; reserved fields read 0 and
ignore writes; read-only registers ignore writes; STATUS is write-1-to-clear in bits 5 and 6.
The model's reading of R91: a STATUS write takes effect while BUSY too (log entry 19), and an offset that is not a
multiple of 4 is one that holds no register (log entry 26). -/
def Obligations.HostAccessRules : Prop :=
  (∀ (s : State) (a : Word) (q : List HostAction), s.hostQueue = .read a :: q →
    ∃ v, step s = .next { s with hostQueue := q, hostRdata := v } ∧
      (a ∉ writableOffsets → a ∉ readOnlyOffsets → a ≠ 0x08 → a ≠ 0x18 → v = 0) ∧
      (a = 0x00 → v &&& 0xFFFFF0C0 = 0) ∧ (a = 0x18 → v.extractLsb' 17 15 = 0) ∧
      (a = 0x58 → v.extractLsb' 16 16 = 0) ∧ (a = 0x2C → s.Inv → v.extractLsb' 3 29 = 0)) ∧
    (∀ (s : State) (a v : Word) (q : List HostAction), s.hostQueue = .write a v :: q →
      a ∉ writableOffsets → a ≠ 0x08 → a ≠ 0x18 → step s = .next { s with hostQueue := q }) ∧
    (∀ (s : State) (v : Word) (q : List HostAction), s.hostQueue = .write 0x18 v :: q →
      step s = .next { s with
        hostQueue := q
        overrun := s.overrun && !v.getLsbD 5
        stubAnomaly := s.stubAnomaly && !v.getLsbD 6 }) ∧
    ∀ (s : State) (v : Word) (q : List HostAction), s.hostQueue = .write 0x00 v :: q → s.busy = false →
      step s = .next { s with hostQueue := q, config := v &&& 0x00000F3F, irCacheValid := false }

/-- R23, R25 to R28: the other operand and configuration registers take the value the host writes while idle. -/
def Obligations.OperandWrites : Prop :=
  ∀ (s : State) (a v : Word) (q : List HostAction), s.hostQueue = .write a v :: q → s.busy = false →
    (a = 0x04 → step s = .next { s with hostQueue := q, tckDelay := v }) ∧
      (a = 0x0C → step s = .next { s with hostQueue := q, addr := v }) ∧
      (a = 0x10 → step s = .next { s with hostQueue := q, data := v }) ∧
      (a = 0x14 → step s = .next { s with hostQueue := q, len := v }) ∧
      (a = 0x44 → step s = .next { s with hostQueue := q, blockSel := v })

/-- R24: CMD starts the command its word encodes while idle and reads back the word; while BUSY, writes to CMD and
to the operand and configuration registers are dropped and set OVERRUN. A command met while BUSY changes nothing else. -/
def Obligations.BusyDropsWrites : Prop :=
  (∀ (i : Instr) (s : State), s.busy = true → exec i s = .next { s with overrun := true }) ∧
  (∀ (s : State) (a v : Word) (q : List HostAction), s.hostQueue = .write a v :: q → s.busy = true →
    a = 0x08 ∨ a ∈ writableOffsets → step s = .next { s with hostQueue := q, overrun := true }) ∧
    (∀ (s t : State) (w : Word) (i : Instr) (q : List HostAction), s.hostQueue = .write 0x08 w :: q →
      s.busy = false → decode w = .ok i →
        step s = exec i { s with hostQueue := q } ∧ (step s = .next t → t.cmd = w ∧ t.overrun = s.overrun)) ∧
    (∀ (s t : State) (w : Word) (q : List HostAction), s.hostQueue = .write 0x08 w :: q →
      s.busy = false → ¬ LegalWord w → step s = .next t → t.cmd = w ∧ t.overrun = s.overrun) ∧
    (∀ (s : State) (q : List HostAction), s.hostQueue = .read 0x08 :: q →
      step s = .next { s with hostQueue := q, hostRdata := s.cmd }) ∧
    State.reset.cmd = 0

/-- R55: the state after power-on reset, which drives no JTAG clock. -/
def Obligations.ResetValues : Prop :=
  State.reset.config = 0 ∧ State.reset.tckDelay = 0 ∧ State.reset.cmd = 0 ∧ State.reset.addr = 0 ∧
    State.reset.data = 0 ∧ State.reset.len = 0 ∧ State.reset.blockSel = 0 ∧ State.reset.statusWord = 0 ∧
    State.reset.busy = false ∧ State.reset.linkOpen = false ∧ State.reset.mode = .none ∧
    State.reset.possibleCorruption = false ∧ State.reset.overrun = false ∧ State.reset.stubAnomaly = false ∧
    State.reset.irCacheValid = false ∧ State.reset.err = .none ∧ State.reset.result = 0 ∧
    State.reset.errAddr = 0 ∧ State.reset.errData = 0 ∧ State.reset.flashId = 0 ∧ State.reset.flashInfo = 0 ∧
    State.reset.flashSize = 0 ∧ State.reset.flashBase = 0 ∧ State.reset.areaStart = 0 ∧ State.reset.areaLen = 0 ∧
    State.reset.blockMap = [] ∧ State.reset.blockCount = 0 ∧ State.reset.progress = 0 ∧
    State.reset.eraseFailed = 0 ∧ State.reset.io.clockCount = 0 ∧ State.reset.io.tapStates = 0xFFFF ∧
    State.reset.irCache = 0 ∧ State.reset.mboxAddr = 0 ∧ State.reset.mboxData = 0 ∧ State.reset.chip = none ∧
    State.reset.io.latch = 0x00 ∧ State.reset.retries = 16 ∧ State.reset.hits = 0 ∧
    ∀ (s : State) (q : List HostAction), s.hostQueue = .powerOn :: q →
      ∃ t, step s = .next t ∧ t.io.trace = s.io.trace ∧ t.io.clockCount = 0

/-- R300: power-on reset, at any time, puts every register and field to its reset value and drives no clock; the
parameters are not touched. The inputs to come, the trace and the rest of the host's actions are the model's own
fields and stay (log entry 22). -/
def Obligations.PowerOnReset : Prop :=
  ∀ (s : State) (q : List HostAction), s.hostQueue = .powerOn :: q →
    step s = .next { State.reset with
      params := s.params
      io := { State.reset.io with
        statusIn := s.io.statusIn, statusDraws := s.io.statusDraws, trace := s.io.trace }
      cancelIn := s.cancelIn
      cancelDraws := s.cancelDraws
      freeDraws := s.freeDraws
      hostQueue := q
      hostRdata := s.hostRdata
      pace := s.pace }

/-- The model's choice (log entry 6): how many tasks a step carries out does not matter, a run of `m + n` tasks is a
run of `n` after a run of `m`; a step with no host action to serve carries out one pace of the running command. -/
def Obligations.PaceDoesNotMatter : Prop :=
  (∀ (m n : Nat) (s : State), drive (m + n) s = drive n (drive m s)) ∧
    ∀ s : State, s.hostQueue = [] → step s = .next (drive s.pace s)

/-! ### The TAP Driver -/

/-- R111, R130: the codes of the sixteen states, the transition table, and five transitions with TMS = 1 reach
Test-Logic-Reset from every state. -/
def Obligations.TapTransitions : Prop :=
  ([.testLogicReset, .runTestIdle, .selectDrScan, .captureDr, .shiftDr, .exit1Dr, .pauseDr, .exit2Dr, .updateDr,
      .selectIrScan, .captureIr, .shiftIr, .exit1Ir, .pauseIr, .exit2Ir, .updateIr] : List TapState).map tapCode =
    [0, 1, 2, 3, 4, 5, 6, 7, 8, 9, 10, 11, 12, 13, 14, 15] ∧
  (∀ e ∈ ([(.testLogicReset, .runTestIdle, .testLogicReset), (.runTestIdle, .runTestIdle, .selectDrScan),
      (.selectDrScan, .captureDr, .selectIrScan), (.captureDr, .shiftDr, .exit1Dr),
      (.shiftDr, .shiftDr, .exit1Dr), (.exit1Dr, .pauseDr, .updateDr), (.pauseDr, .pauseDr, .exit2Dr),
      (.exit2Dr, .shiftDr, .updateDr), (.updateDr, .runTestIdle, .selectDrScan),
      (.selectIrScan, .captureIr, .testLogicReset), (.captureIr, .shiftIr, .exit1Ir),
      (.shiftIr, .shiftIr, .exit1Ir), (.exit1Ir, .pauseIr, .updateIr), (.pauseIr, .pauseIr, .exit2Ir),
      (.exit2Ir, .shiftIr, .updateIr), (.updateIr, .runTestIdle, .selectDrScan)] :
      List (TapState × TapState × TapState)),
    tapNext1 e.1 false = e.2.1 ∧ tapNext1 e.1 true = e.2.2) ∧
    ∀ t : TapState, (List.replicate 5 true).foldl tapNext1 t = .testLogicReset

/-- R131: the tracked set after a clock is the image of the set before it, for an unsampled and a sampled clock; an
unknown state is known after five clocks with TMS = 1. -/
def Obligations.TrackedSet : Prop :=
  (∀ (states : BitVec 16) (tms : Bool) (t : TapState),
    (tapNext states tms).getLsbD (tapCode t) = true ↔
      ∃ u, states.getLsbD (tapCode u) = true ∧ tapNext1 u tms = t) ∧
    (List.replicate 5 true).foldl tapNext 0xFFFF = 0x0001 ∧
    ∀ (w : Wire) (tms tdi : Bool) (io : Io),
      (io.clock w tms tdi).tapStates = tapNext io.tapStates tms ∧
        (io.sampledClock w tms tdi).2.tapStates = tapNext io.tapStates tms

/-- R112, R132: the bits of the two control bytes of a clock. -/
def Obligations.ControlBytes : Prop :=
  ∀ (p : PinMap) (tms tdi : Bool) (k : Fin 8),
    (lowByte p tms tdi).getLsbD k.val = (tms && k == p.tms || tdi && k == p.tdi) ∧
      (highByte p tms tdi).getLsbD k.val = (tms && k == p.tms || tdi && k == p.tdi || k == p.tck)

/-- R132, R142: CLOCK, in an open session and out of one, for every tracked TAP state. -/
def Obligations.ClockCommand : Prop :=
  ∀ (tms tdi sample : Bool) (s : State), s.busy = false → 2 ≤ s.pace →
    exec (.clock tms tdi sample) s = .next (
      if s.linkOpen = true then
        { s with
          io := s.io.after s.pins [⟨tms, tdi, sample⟩]
          irCacheValid := false
          result :=
            if sample = true then (BitVec.ofBool (tdoBit s.pins (s.io.statusByte 0))).setWidth 32
            else s.result }.ended (.clock tms tdi sample) .none
      else s.failed (.clock tms tdi sample) ⟨.notOpen, 0, encode (.clock tms tdi sample)⟩)

/-- R133, R143: RESET_TAP drives its six clocks from every tracked state and ends in Run-Test/Idle. -/
def Obligations.ResetTapCommand : Prop :=
  ∀ s : State, s.busy = false → 2 ≤ s.pace →
    exec .resetTap s = .next (
        if s.linkOpen = true then
          { s with io := s.io.after s.pins resetPulses, irCacheValid := false }.ended .resetTap .none
        else s.failed .resetTap ⟨.notOpen, 0, 0x00000002⟩) ∧
      (s.io.after s.pins resetPulses).clockCount = s.io.clockCount + 6 ∧
      (s.io.tapStates ≠ 0 → (s.io.after s.pins resetPulses).tapStates = 0x0002)

/-- R136, R137, R138, R144: SET_IR, its preconditions in their order, the cache hit and the shift of
IR_LENGTH + 6 clocks. -/
def Obligations.SetIrCommand : Prop :=
  ∀ s : State, s.busy = false → 2 ≤ s.pace →
    exec .setIr s = .next (
        if s.linkOpen = false then s.failed .setIr ⟨.notOpen, 0, 0x00000003⟩
        else if ¬ (1 ≤ s.irLength ∧ s.irLength ≤ 32) then s.failed .setIr ⟨.invalidConfig, 0, s.configWord⟩
        else if s.io.tapStates ≠ 0x0002 then s.failed .setIr ⟨.tapState, 0, s.io.tapStates.setWidth 32⟩
        else if s.irCacheValid = true ∧ s.irCache = BitVec.ofNat 32 (s.data.toNat % 2 ^ s.irLength) then
          s.ended .setIr .none
        else
          { s with
            io := s.io.after s.pins (irPulses (BitVec.ofNat 32 (s.data.toNat % 2 ^ s.irLength)) s.irLength)
            irCache := BitVec.ofNat 32 (s.data.toNat % 2 ^ s.irLength)
            irCacheValid := true }.ended .setIr .none) ∧
      (1 ≤ s.irLength → s.io.tapStates = 0x0002 → ∀ m,
        (s.io.after s.pins (irPulses m s.irLength)).tapStates = 0x0002 ∧
          (irPulses m s.irLength).length = s.irLength + 6)

/-- R139, R145: SHIFT_DR32, its precondition, and the 37 clocks that capture the word the target presents. R138 and R145
have no check of IR_LENGTH here, R274 and I6 speak of one at a DR shift: that an illegal IR_LENGTH does not stop the
command is the model's reading (log entry 28). -/
def Obligations.ShiftDrCommand : Prop :=
  ∀ s : State, s.busy = false → 3 ≤ s.pace →
    exec .shiftDr32 s = .next (
        if s.linkOpen = false then s.failed .shiftDr32 ⟨.notOpen, 0, 0x00000004⟩
        else if s.io.tapStates ≠ 0x0002 then s.failed .shiftDr32 ⟨.tapState, 0, s.io.tapStates.setWidth 32⟩
        else
          { s with
            io := s.io.after s.pins (drPulses s.data)
            acc := s.captured 0
            result := s.captured 0 }.ended .shiftDr32 .none) ∧
      (∀ i < 32, (s.captured 0).getLsbD i = tdoBit s.pins (s.io.statusByte i)) ∧
      (s.io.after s.pins (drPulses s.data)).clockCount = s.io.clockCount + 37 ∧
      (s.io.tapStates = 0x0002 → (s.io.after s.pins (drPulses s.data)).tapStates = 0x0002)

/-! ### Session -/

/-- R160, R161: INIT. The two checks come before any change; else the session is reset, the bring-up clocks are
driven and the feature register selects the mode. (`tapStates` names some state in every state of a run.) -/
def Obligations.InitCommand : Prop :=
  ∀ s : State, s.busy = false → s.io.tapStates ≠ 0 → 5 ≤ s.pace →
    exec .init s = .next (
      if s.forceDma = true ∧ s.forcePracc = true then s.failed .init ⟨.invalidConfig, 0, s.configWord⟩
      else if ¬ (1 ≤ s.irLength ∧ s.irLength ≤ 32) then s.failed .init ⟨.invalidConfig, 0, s.configWord⟩
      else
        { s with
          io := s.io.after s.pins (resetPulses ++
            irPulses (maskIr s.ejtag.irImpcode s.irLength) s.irLength ++ drPulses 0)
          irCache := maskIr s.ejtag.irImpcode s.irLength
          irCacheValid := true
          acc := s.captured 0
          result := s.captured 0
          linkOpen := true
          mode :=
            if s.forceDma = true then .dma
            else if s.forcePracc = true then .pracc
            else if (s.captured 0).getLsbD s.ejtag.impcodeNoDmaBit = false then .dma
            else .pracc
          possibleCorruption := false
          stubAnomaly := false
          mboxAddr := 0
          mboxData := 0
          chip := none
          flashId := 0
          flashInfo := 0
          flashSize := 0
          flashBase := 0
          areaStart := 0
          areaLen := 0
          blockMap := []
          progress := 0
          eraseFailed := 0 }.ended .init .none)

/-- R162: SHUTDOWN, from every tracked TAP state. -/
def Obligations.ShutdownCommand : Prop :=
  ∀ s : State, s.busy = false → 3 ≤ s.pace →
    exec .shutdown s = .next (
      if s.linkOpen = true then
        { s with
          io := s.io.after s.pins resetPulses
          linkOpen := false
          mode := .none
          irCacheValid := false }.ended .shutdown .none
      else s.failed .shutdown ⟨.notOpen, 0, 0x00000009⟩)

/-- R273: every command but INIT needs LINK_OPEN = 1. (CMD holds the word then too: log entry 16.) -/
def Obligations.NotOpen : Prop :=
  ∀ (i : Instr) (s : State), i ≠ .init → i.wf = true → s.busy = false → s.linkOpen = false →
    exec i s = .next (s.failed i ⟨.notOpen, 0, encode i⟩)

/-! ### Target accesses -/

/-- R68, R171: which addresses are misaligned; and a misaligned access ends with MISALIGNED before any clock of its
own: the twelve access commands, FLASH_ERASE_BLOCK (which has written PROGRESS already, R253; log entry 14), FLASH_WRITE_WORD, and
any access that a flash command comes to, such as the first unlock write, or FLASH_RESET_READ's write, with an odd
FLASH_BASE. (In an erase area such an error ends one block: FlashEraseAreaCommand.) PrAcc mode rests on log
entry 28: the retry counter, STUB_ANOMALY. -/
def Obligations.MisalignedAccess : Prop :=
  (∀ a : Word, (misaligned a .word = true ↔ a.extractLsb' 0 2 ≠ 0) ∧
    (misaligned a .half = true ↔ a.extractLsb' 0 1 ≠ 0)) ∧
  (∀ (i : Instr) (x : Act) (m : Mode) (s : State), s.accessOf i = some (x, m) → m ≠ .none → s.Ready → 1 ≤ s.pace →
    misaligned x.addr x.width = true →
      exec i s = .next (s.failed i ⟨.misaligned, x.addr, match x with | .read _ _ => 0 | .write _ _ v => v⟩)) ∧
    (∀ (i : Instr) (n : Nat) (x : Act) (s t : State), s.Ready → s.mode ≠ .none → s.ComesTo i n x t →
      n + 1 ≤ s.pace → misaligned x.addr x.width = true →
        exec i s =
          .next (t.failed i ⟨.misaligned, x.addr, match x with | .read _ _ => 0 | .write _ _ v => v⟩)) ∧
    ∀ (c : FlashDescriptor) (s : State), s.Ready → s.mode ≠ .none → s.chip = some c → 1 ≤ s.pace →
      (s.addr.getLsbD 0 = true →
        exec .flashEraseBlock s =
          .next ({ s with progress := s.addr }.failed .flashEraseBlock ⟨.misaligned, s.addr, 0⟩)) ∧
      (s.addr.getLsbD 0 = true ∨ s.addr.getLsbD 1 = true →
        exec .flashWriteWord s = .next (s.failed .flashWriteWord ⟨.misaligned, s.addr, s.data⟩))

/-- R138 at an access: a DMA access with an illegal IR_LENGTH or from a TAP state other than Run-Test/Idle ends without
a clock, its retry counter already loaded (R46); a PrAcc access too, its mailboxes already loaded (R197, R272). The
first access of a flash command ends the command in the same way (in an erase area, one block:
FlashEraseAreaCommand). That a PrAcc access leaves the retry counter as it was is the model's reading of R46 and R176
(log entry 28). -/
def Obligations.AccessPreconditions : Prop :=
  (∀ (i : Instr) (n : Nat) (x : Act) (s t : State), s.Ready → s.mode ≠ .none → s.ComesTo i n x t →
    n + 5 ≤ s.pace → misaligned x.addr x.width = false → ¬ t.Shiftable →
      exec i s = .next ((match s.mode with
          | .pracc => { t with mboxAddr := (t.loadMail x).addr, mboxData := (t.loadMail x).data, hits := 0 }
          | _ => { t with retries := 16 }).failed i
        (if s.irLengthLegal = false then ⟨.invalidConfig, 0, s.configWord⟩
          else ⟨.tapState, 0, s.io.tapStates.setWidth 32⟩))) ∧
  ∀ (i : Instr) (x : Act) (m : Mode) (s : State), s.accessOf i = some (x, m) → s.Ready → 5 ≤ s.pace →
    misaligned x.addr x.width = false → ¬ s.Shiftable →
      (m = .dma →
        exec i s = .next ({ s with retries := 16 }.failed i
          (if s.irLengthLegal = false then ⟨.invalidConfig, 0, s.configWord⟩
            else ⟨.tapState, 0, s.io.tapStates.setWidth 32⟩))) ∧
      (m = .pracc →
        exec i s = .next ({ s with
            mboxAddr := (s.loadMail x).addr, mboxData := (s.loadMail x).data, hits := 0 }.failed i
          (if s.irLengthLegal = false then ⟨.invalidConfig, 0, s.configWord⟩
            else ⟨.tapState, 0, s.io.tapStates.setWidth 32⟩)))

/-- R178, R179, R180, R181, R182: a fast DMA access completes whatever the target presents. The retry counter is
loaded as for every DMA access (R46, R176), and not used. -/
def Obligations.FastDmaAccess : Prop :=
  ∀ (i : Instr) (x : Act) (s : State), s.accessOf i = some (x, .dma) → s.Ready → s.Shiftable → s.fast = true →
    misaligned x.addr x.width = false → Pass.fast.tasks + 2 ≤ s.pace →
      exec i s = .next ({ s.access x .fast with
        result := if x.isRead then (s.access x .fast).acc else s.result }.ended i .none)

/-- R173, R174, R175, R176, R180, R181: a careful DMA access whose first attempts end with DERR = 1, sixteen of them
at most, and whose next attempt ends with DERR = 0 completes, after any number of polls at each. -/
def Obligations.CarefulDmaAccess : Prop :=
  ∀ (i : Instr) (x : Act) (failed : List Nat) (polls : Nat) (s : State), s.accessOf i = some (x, .dma) →
    s.Ready → s.Shiftable → misaligned x.addr x.width = false → s.Allows x (.careful failed polls) →
    (Pass.careful failed polls).tasks + 2 ≤ s.pace →
      exec i s = .next ({ s.access x (.careful failed polls) with
        result := if x.isRead then (s.access x (.careful failed polls)).acc else s.result }.ended i .none)

/-- R176, R177: seventeen attempts that end with DERR = 1 end the access with TRANSACTION_CORRUPTED, the address and
the last data seen, which a read command also writes to RESULT; any access that a flash command comes to ends the
command so, with RESULT as it is then (in an erase area, one block: FlashEraseAreaCommand). -/
def Obligations.CorruptedDmaAccess : Prop :=
  (∀ (i : Instr) (n : Nat) (x : Act) (failed : List Nat) (polls : Nat) (s t : State), s.Ready → s.mode = .dma →
    s.ComesTo i n x t → t.Shiftable → misaligned x.addr x.width = false → t.Allows x (.corrupted failed polls) →
    n + (Pass.corrupted failed polls).tasks ≤ s.pace →
      exec i s = .next ((t.access x (.corrupted failed polls)).failed i
        ⟨.transactionCorrupted, x.addr, t.seen (wordsOf failed) polls x⟩)) ∧
  ∀ (i : Instr) (x : Act) (failed : List Nat) (polls : Nat) (s : State), s.accessOf i = some (x, .dma) →
    s.Ready → s.Shiftable → misaligned x.addr x.width = false → s.Allows x (.corrupted failed polls) →
    (Pass.corrupted failed polls).tasks + 2 ≤ s.pace →
      exec i s = .next ({ s.access x (.corrupted failed polls) with
        result := if x.isRead then s.seen (wordsOf failed) polls x else s.result }.failed i
          ⟨.transactionCorrupted, x.addr, s.seen (wordsOf failed) polls x⟩)

/-- R175, R276: CANCEL = 1 before a poll of DSTRT ends the access with USER_CANCELLED, the address and the last value
polled (0 before the first poll), CONTROL left as it is and RESULT unchanged; any access that a flash command comes to
ends the command so (for FLASH_ERASE_AREA: FlashEraseAreaCommand). -/
def Obligations.CancelledDmaAccess : Prop :=
  (∀ (i : Instr) (n : Nat) (x : Act) (failed : List Nat) (polls : Nat) (s t : State), s.Ready → s.mode = .dma →
    s.ComesTo i n x t → t.Shiftable → misaligned x.addr x.width = false → t.Allows x (.cancelled failed polls) →
    n + (Pass.cancelled failed polls).tasks ≤ s.pace →
      exec i s = .next ((t.access x (.cancelled failed polls)).failed i
        ⟨.userCancelled, x.addr,
          if polls = 0 then 0 else t.captured (wordsOf failed + x.startWords + polls - 1)⟩)) ∧
  ∀ (i : Instr) (x : Act) (failed : List Nat) (polls : Nat) (s : State), s.accessOf i = some (x, .dma) →
    s.Ready → s.Shiftable → misaligned x.addr x.width = false → s.Allows x (.cancelled failed polls) →
    (Pass.cancelled failed polls).tasks + 2 ≤ s.pace →
      exec i s = .next ((s.access x (.cancelled failed polls)).failed i
        ⟨.userCancelled, x.addr,
          if polls = 0 then 0 else s.captured (wordsOf failed + x.startWords + polls - 1)⟩)

/-- R190 to R197: a Processor Access over any script of CPU accesses that reads DEBUG_VECTOR once and then again. That it
leaves the retry counter as it was is the model's reading of R46 and R176, and that a CPU write to VADDR_REG is no
anomaly its reading of R190, R194 and R196 against I20 (log entry 28). -/
def Obligations.ProcessorAccess : Prop :=
  ∀ (i : Instr) (x : Act) (script : List (Nat × StubAccess)) (polls : Nat) (s : State),
    s.accessOf i = some (x, .pracc) → s.Ready → s.Shiftable → misaligned x.addr x.width = false →
    s.Allows x (.pracc script polls) → (Pass.pracc script polls).tasks + 2 ≤ s.pace →
      exec i s = .next ({ s.access x (.pracc script polls) with
        result := if x.isRead then (s.access x (.pracc script polls)).acc else s.result }.ended i .none)

/-- R175, R288: a careful DMA access whose polls go on capturing DSTRT = 1, without a cancellation, is BUSY without an
error after any number of tasks. -/
def Obligations.DmaSpins : Prop :=
  ∀ (i : Instr) (x : Act) (s : State), s.accessOf i = some (x, .dma) → s.Ready → s.Shiftable → s.fast = false →
    misaligned x.addr x.width = false → s.Quiet s.pace →
    (∀ k < s.pace, s.dstrt (s.captured (x.startWords + k)) = true) →
      ∃ t, exec i s = .next t ∧ t.busy = true ∧ t.err = .none ∧ t.result = s.result

/-- R191, R198, R288: a Processor Access to a CPU that never has an access pending is BUSY without an error after any
number of tasks, whatever CANCEL is. -/
def Obligations.PraccSpins : Prop :=
  ∀ (i : Instr) (x : Act) (s : State), s.accessOf i = some (x, .pracc) → s.Ready → s.Shiftable →
    misaligned x.addr x.width = false → (∀ k < s.pace, s.praccBit (s.captured k) = false) →
      ∃ t, exec i s = .next t ∧ t.busy = true ∧ t.err = .none ∧ t.result = s.result ∧
        t.cancelIn = s.cancelIn ∧ t.cancelDraws = s.cancelDraws

/-- R170: the model's fault for an access by MODE when MODE = NONE in an open session, which the rule says cannot
occur (log entry 13). -/
def Obligations.NoModeFaults : Prop :=
  ∀ (i : Instr) (s : State), s.Ready → s.mode = .none →
    i ∈ [.readWord, .readHalf, .writeWord, .writeHalf, .flashProbe, .flashResetRead, .flashEraseBlock,
      .flashEraseArea, .flashWriteWord] → exec i s = .fault .accessWithoutMode

/-- The default parameters a block has after power-on: the CONTROL words of R109 with the bit positions of R108, the
instruction codes of R101, the no-DMA bit of R110, the probe-serviced addresses of 00_scope.md R9, the standard pin
map of R112, the flash values of R113. The defaults are general knowledge, not the source's: log entry 1 (PRESUMED). -/
def Obligations.ControlWords : Prop :=
  (ctlStart State.reset.ctl true .word = 0x00068B00 ∧ ctlStart State.reset.ctl true .half = 0x00068A80 ∧
    ctlStart State.reset.ctl false .word = 0x00068900 ∧ ctlStart State.reset.ctl false .half = 0x00068880 ∧
    ctlDmaPoll State.reset.ctl = 0x00048000 ∧ ctlDmaClear State.reset.ctl = 0x00048000 ∧
    ctlPraccPoll State.reset.ctl = 0x0004C000 ∧ ctlPraccDone State.reset.ctl = 0x0000C000) ∧
  (State.reset.ctl.prnw = 19 ∧ State.reset.ctl.pracc = 18 ∧ State.reset.ctl.dmaacc = 17 ∧
    State.reset.ctl.proben = 15 ∧ State.reset.ctl.probtrap = 14 ∧ State.reset.ctl.dstrt = 11 ∧
    State.reset.ctl.derr = 10 ∧ State.reset.ctl.drwn = 9 ∧ State.reset.ctl.dsz = 7 ∧
    State.reset.ctl.dszWord = 0b10 ∧ State.reset.ctl.dszHalf = 0b01) ∧
  (State.reset.ejtag.irIdcode = 0x01 ∧ State.reset.ejtag.irImpcode = 0x03 ∧ State.reset.ejtag.irAddress = 0x08 ∧
    State.reset.ejtag.irData = 0x09 ∧ State.reset.ejtag.irControl = 0x0A ∧
    State.reset.ejtag.impcodeNoDmaBit = 14 ∧ State.reset.ejtag.debugVector = 0xFF200200 ∧
    State.reset.ejtag.vaddrReg = 0xFF200000 ∧ State.reset.ejtag.vdataReg = 0xFF200004) ∧
  State.reset.params.pinsStandard = { tdi := 0, tck := 1, tms := 2, tdo := 4, tdoInverted := false } ∧
  State.reset.flashParams.bytes =
    { unlock1 := 0xAA, unlock2 := 0x55, autoselect := 0x90, eraseSetup := 0x80, sectorErase := 0x30, program := 0xA0
      reset := 0xF0, readId := 0x90, unlockBlock := 0x60, confirm := 0xD0, blockErase := 0x20, write := 0x40
      readArray := 0xFF, statusReady := 0x0080 }

/-- R180: the lane of a half-word read, and a word read unchanged. -/
def Obligations.LaneRule : Prop :=
  ∀ raw addr : Word,
    readValue .half raw addr = (raw >>> (16 * (addr.extractLsb' 1 1).toNat)) &&& 0xFFFF ∧
      readValue .word raw addr = raw

/-- R193: what a read of the CPU is served, and with R194 when it is an anomaly. -/
def Obligations.ServeRule : Prop :=
  ∀ (s : State) (m : ModuleKind) (a : Word),
    (s.ejtag.debugVector ≤ a →
      (∀ h : (a - s.ejtag.debugVector).toNat / 4 < (s.moduleWords m).length,
        s.serve m a = ((s.moduleWords m)[(a - s.ejtag.debugVector).toNat / 4], false)) ∧
      ((s.moduleWords m).length ≤ (a - s.ejtag.debugVector).toNat / 4 → s.serve m a = (0, true))) ∧
    (a < s.ejtag.debugVector →
      (a = s.ejtag.vaddrReg → s.serve m a = (s.mboxAddr, false)) ∧
      (a ≠ s.ejtag.vaddrReg → a = s.ejtag.vdataReg → s.serve m a = (s.mboxData, false)) ∧
      (a ≠ s.ejtag.vaddrReg → a ≠ s.ejtag.vdataReg → s.serve m a = (0, true)))

/-! ### Flash -/

/-- R221: a command value stands in both lanes, and every lane of it is the value. -/
def Obligations.Replication : Prop :=
  ∀ (c : Byte) (a : Word), rep c = c.setWidth 32 * 0x00010001 ∧ readValue .half (rep c) a = c.setWidth 32

/-- R222: the unlock addresses. -/
def Obligations.UnlockAddresses : Prop :=
  ∀ (f : Family) (base : Word),
    unlock1 f base = base + 2 * Config.unlockAddr1 f ∧ unlock2 f base = base + 2 * Config.unlockAddr2 f ∧
      unlock1 .amd base = base + 0xAAA ∧ unlock2 .amd base = base + 0x554 ∧
      unlock1 .sst base = base + 0xAAAA ∧ unlock2 .sst base = base + 0x5554

/-- R236: a map that does not wrap starts at the window base, has as many blocks as the regions count, rises strictly,
and within a region steps by its block size. -/
def Obligations.BlockMapRule : Prop :=
  ∀ (draw : Nat) (before : List Region) (r : Region) (after : List Region) (base : Word),
    (before ++ r :: after).all (fun r => r.count == 0 || r.blockSize != 0) = true →
    base.toNat + ((before ++ r :: after).map fun r => r.count.toNat * r.blockSize.toNat).sum ≤ 2 ^ 32 →
      (buildMap draw (before ++ r :: after) base).length = totalBlocks (before ++ r :: after) ∧
      (buildMap draw (before ++ r :: after) base).Pairwise (fun a b => a.toNat < b.toNat) ∧
      (∀ a, (buildMap draw (before ++ r :: after) base).head? = some a → a = base) ∧
      ∀ k < r.count.toNat,
        (buildMap draw (before ++ r :: after) base)[totalBlocks before + k]? =
          some (base + BitVec.ofNat 32
            ((before.map fun r => r.count.toNat * r.blockSize.toNat).sum + k * r.blockSize.toNat))

/-- R242: the blocks an erase area selects, in map order, the end of the range not wrapped. -/
def Obligations.SelectRule : Prop :=
  ∀ (map : List Word) (start n : Word),
    (selectBlocks map start n).Sublist map ∧
      ∀ b, b ∈ selectBlocks map start n ↔
        b ∈ map ∧ start.toNat ≤ b.toNat ∧ b.toNat < start.toNat + n.toNat

/-- R233: the window base, from the chip size, and FLASH_BASE_SMALL as the block has it after power-on (the default
the spec reads from the source's end-to-end property, R72; log entry 1). -/
def Obligations.WindowBaseRule : Prop :=
  ∀ (p : FlashParams) (size : Word),
    (0x00800000 ≤ size → windowBase p size = p.baseLarge) ∧
      (size < 0x00800000 → windowBase p size = p.baseSmall) ∧ State.reset.flashParams.baseSmall = 0x1FC00000

/-- R245: a flash command other than FLASH_PROBE with no chip ends with CHIP_NOT_DETECTED, before any other check of its
operands. -/
def Obligations.NoChip : Prop :=
  ∀ (i : Instr) (s : State), s.Ready → s.mode ≠ .none → s.chip = none → i.wf = true →
    (i ∈ [.flashResetRead, .flashEraseBlock, .flashEraseArea, .flashWriteWord] ∨ ∃ area, i = .flashSelectArea area) →
      exec i s = .next (s.failed i ⟨.chipNotDetected, 0, 0⟩)

/-- R244, R251: FLASH_RESET_READ is one command cycle at FLASH_BASE, in DMA and in PrAcc mode. PrAcc mode rests on log
entry 28: the retry counter, STUB_ANOMALY. -/
def Obligations.FlashResetReadCommand : Prop :=
  ∀ (c : FlashDescriptor) (p : Pass) (s : State), s.Ready → s.Shiftable → s.chip = some c →
    s.Goes (s.resetWrite (amdStyle c.family) s.flashBase) p → p.tasks + 2 ≤ s.pace →
      exec .flashResetRead s =
        .next ((s.access (s.resetWrite (amdStyle c.family) s.flashBase) p).ended .flashResetRead .none)

/-- R234, R235, R252: FLASH_SELECT_AREA, named and CUSTOM, without a clock; after an error nothing has changed. Two
points of CUSTOM rest on the model's reading: a map that would wrap past 2^32 has free values (log entry 10, `freeDraws`
with them), and the block count is compared with MAX_BLOCKS, and reported, without wrapping (log entry 11). -/
def Obligations.FlashSelectAreaCommand : Prop :=
  ∀ (area : BitVec 4) (c : FlashDescriptor) (s : State), s.Ready → s.chip = some c → area ≤ 4 → 2 ≤ s.pace →
    exec (.flashSelectArea area) s = .next (
      if area = 4 then
        if s.flashParams.maxBlocks < totalBlocks c.regions then
          s.failed (.flashSelectArea area)
            ⟨.blockmapOverflow, s.data, BitVec.ofNat 32 (totalBlocks c.regions)⟩
        else
          { s with
            flashBase := s.data
            areaStart := s.addr
            areaLen := s.len
            blockMap := buildMap s.freeDraws c.regions s.data
            freeDraws := s.freeDraws + 1 }.ended (.flashSelectArea area) .none
      else
        match s.flashParams.areas.find? fun e => e.size == c.size && e.area == area with
        | some e => { s with areaStart := e.start, areaLen := e.length }.ended (.flashSelectArea area) .none
        | none => s.failed (.flashSelectArea area) ⟨.chipSelectionInvalid, c.size, area.setWidth 32⟩)

/-- R97: an illegal area code gives INVALID_COMMAND, the command as a word of its own (log entry 17). -/
def Obligations.IllegalAreaCode : Prop :=
  ∀ (area : BitVec 4) (s : State), s.busy = false → 4 < area →
    exec (.flashSelectArea area) s = .next { s with
      cmd := encode (.flashSelectArea area)
      err := .invalidCommand
      cont := []
      io := { s.io with trace := .done (encode (.flashSelectArea area)) 5 :: s.io.trace } }

/-- R237, R238, R239, R253: FLASH_ERASE_BLOCK with its family's operations, in DMA and in PrAcc mode, after any
number of completion polls; which families those of AMD and SST are for (R245), and when the two erase polls are
satisfied. PrAcc mode rests on log
entry 28: the retry counter, STUB_ANOMALY. -/
def Obligations.FlashEraseBlockCommand : Prop :=
  (∀ f : Family, amdStyle f = true ↔ f = .amd ∨ f = .sst) ∧
  (∀ (p : FlashParams) (v : Word), (pollHolds p v .allOnes = true ↔ v = 0xFFFF) ∧
    (pollHolds p v .ready = true ↔ v &&& p.bytes.statusReady.setWidth 32 ≠ 0)) ∧
  ∀ (c : FlashDescriptor) (run : List (Op × List Pass)) (s : State), s.Ready → s.Shiftable → s.chip = some c →
    misaligned s.addr .half = false → run.map Prod.fst = s.eraseOps c.family s.addr →
    { s with progress := s.addr }.OpsGo run → opsTasks run + 4 ≤ s.pace →
      exec .flashEraseBlock s = .next (({ s with progress := s.addr }.opsRun run).ended .flashEraseBlock .none)

/-- R239, R240, R241, R255: FLASH_WRITE_WORD with its family's operations, low half first, in DMA and in PrAcc
mode, after any number of completion polls; which half a program writes and polls for, and when that poll is
satisfied. PrAcc mode rests on log
entry 28: the retry counter, STUB_ANOMALY. -/
def Obligations.FlashWriteWordCommand : Prop :=
  (∀ (v : Word) (k : Nat), (programHalf v k).setWidth 32 = (v >>> (16 * k)) &&& 0xFFFF) ∧
  (∀ (p : FlashParams) (v : Word) (h : Half), pollHolds p v (.equals h) = true ↔ v = h.setWidth 32) ∧
  ∀ (c : FlashDescriptor) (run : List (Op × List Pass)) (s : State), s.Ready → s.Shiftable → s.chip = some c →
    misaligned s.addr .word = false → run.map Prod.fst = s.programOps c.family s.addr s.data →
    s.OpsGo run → opsTasks run + 4 ≤ s.pace →
      exec .flashWriteWord s = .next ((s.opsRun run).ended .flashWriteWord .none)

/-- R239, R276: CANCEL = 1 before a read of a completion poll ends FLASH_ERASE_BLOCK and FLASH_WRITE_WORD with
USER_CANCELLED, the address polled and the last value read (0 before the first read); what was done stays done
(R272), and a half not yet written is not. R288: while the poll goes on missing and CANCEL stays 0 the command is
BUSY, without an error, after any number of tasks (each read takes at least one). PrAcc mode rests on log
entry 28: the retry counter, STUB_ANOMALY. -/
def Obligations.FlashPollCancelled : Prop :=
  (∀ (c : FlashDescriptor) (run : List (Op × List Pass)) (a : Word) (cond : PollCond) (reads : List Pass)
    (s : State), s.Ready → s.Shiftable → s.mode ≠ .none → s.chip = some c → s.pace ≤ reads.length →
    (misaligned s.addr .half = false → (run.map Prod.fst ++ [.poll a cond]) <+: s.eraseOps c.family s.addr →
      { s with progress := s.addr }.OpsGo run → ({ s with progress := s.addr }.opsRun run).PollMisses a cond reads →
        ∃ t, exec .flashEraseBlock s = .next t ∧ t.busy = true ∧ t.err = .none) ∧
    (misaligned s.addr .word = false → (run.map Prod.fst ++ [.poll a cond]) <+: s.programOps c.family s.addr s.data →
      s.OpsGo run → (s.opsRun run).PollMisses a cond reads →
        ∃ t, exec .flashWriteWord s = .next t ∧ t.busy = true ∧ t.err = .none)) ∧
  ∀ (c : FlashDescriptor) (run : List (Op × List Pass)) (a : Word) (cond : PollCond) (reads : List Pass)
    (s : State), s.Ready → s.Shiftable → s.mode ≠ .none → s.chip = some c →
    opsTasks run + (reads.map (·.tasks + 2)).sum + 4 ≤ s.pace →
    (∀ t : State, t = { s with progress := s.addr }.opsRun run →
      misaligned s.addr .half = false → (run.map Prod.fst ++ [.poll a cond]) <+: s.eraseOps c.family s.addr →
      { s with progress := s.addr }.OpsGo run → t.PollMisses a cond reads →
      (t.polled a reads).cancelLevel 0 = true →
        exec .flashEraseBlock s = .next (((t.polled a reads).drawn 1).failed .flashEraseBlock
          ⟨.userCancelled, a, if reads = [] then 0 else (t.polled a reads).acc⟩)) ∧
    ∀ t : State, t = s.opsRun run →
      misaligned s.addr .word = false →
      (run.map Prod.fst ++ [.poll a cond]) <+: s.programOps c.family s.addr s.data →
      s.OpsGo run → t.PollMisses a cond reads → (t.polled a reads).cancelLevel 0 = true →
        exec .flashWriteWord s = .next (((t.polled a reads).drawn 1).failed .flashWriteWord
          ⟨.userCancelled, a, if reads = [] then 0 else (t.polled a reads).acc⟩)

/-- R242, R243, R254: FLASH_ERASE_AREA over any selection, each block erased, or ended by an error: a write or a read
of its completion poll that ends with TRANSACTION_CORRUPTED, with MISALIGNED (an odd start, an odd window base) or at
a shift that cannot be made. The loop goes on past a block error, counts it, and reports the last one at the end. A
cancellation ends the whole command inside a block: at its completion poll, or at the start-bit poll of one of its DMA
accesses. PrAcc mode rests on log
entry 28: the retry counter, STUB_ANOMALY. -/
def Obligations.FlashEraseAreaCommand : Prop :=
  (∀ (c : FlashDescriptor) (done : List (Word × BlockRun)) (b : Word) (rest : List Word) (s s₀ u : State), s.Ready →
    s.Shiftable → s.mode ≠ .none → s.chip = some c →
    done.map Prod.fst ++ b :: rest = s.blockMap.filter
      (fun b => decide (s.addr.toNat ≤ b.toNat) && decide (b.toNat < s.addr.toNat + s.len.toNat)) →
    s₀ = { s with result := BitVec.ofNat 32 (done.length + 1 + rest.length), eraseFailed := 0 } →
    State.AreaGoes c.family 0 done s₀ → u = (State.areaRun 0 done s₀).reports done.length b →
    misaligned b .half = false →
      (∀ (run : List (Op × List Pass)) (a : Word) (cond : PollCond) (reads : List Pass),
        (done.map (·.2.tasks)).sum + opsTasks run + (reads.map (·.tasks + 2)).sum + 8 ≤ s.pace →
        (run.map Prod.fst ++ [.poll a cond]) <+: u.eraseOps c.family b → u.OpsGo run →
        (u.opsRun run).PollMisses a cond reads → ((u.opsRun run).polled a reads).cancelLevel 0 = true →
          exec .flashEraseArea s = .next ((((u.opsRun run).polled a reads).drawn 1).failed .flashEraseArea
            ⟨.userCancelled, a, if reads = [] then 0 else ((u.opsRun run).polled a reads).acc⟩)) ∧
      ∀ (r : Reach) (failed : List Nat) (polls : Nat),
        (done.map (·.2.tasks)).sum + r.tasks + (Pass.cancelled failed polls).tasks + 8 ≤ s.pace → s.mode = .dma →
        u.ReachGoes (u.eraseOps c.family b) r → misaligned r.act.addr r.act.width = false →
        (u.reached r).Allows r.act (.cancelled failed polls) →
          exec .flashEraseArea s = .next (((u.reached r).access r.act (.cancelled failed polls)).failed .flashEraseArea
            ⟨.userCancelled, r.act.addr,
              if polls = 0 then 0
              else (u.reached r).captured (wordsOf failed + r.act.startWords + polls - 1)⟩)) ∧
  ∀ (c : FlashDescriptor) (blocks : List (Word × BlockRun)) (s : State), s.Ready →
    s.mode ≠ .none → s.chip = some c →
    blocks.map Prod.fst = s.blockMap.filter
      (fun b => decide (s.addr.toNat ≤ b.toNat) && decide (b.toNat < s.addr.toNat + s.len.toNat)) →
    State.AreaGoes c.family 0 blocks
      { s with result := BitVec.ofNat 32 blocks.length, eraseFailed := 0 } →
    (blocks.map (·.2.tasks)).sum + 4 ≤ s.pace →
      exec .flashEraseArea s = .next (
        match State.areaError 0 none blocks
          { s with result := BitVec.ofNat 32 blocks.length, eraseFailed := 0 } with
        | none =>
          (State.areaRun 0 blocks
            { s with result := BitVec.ofNat 32 blocks.length, eraseFailed := 0 }).ended .flashEraseArea .none
        | some e =>
          (State.areaRun 0 blocks
            { s with result := BitVec.ofNat 32 blocks.length, eraseFailed := 0 }).failed .flashEraseArea e)

/-- R224 to R232, R250: FLASH_PROBE. After attempts that find no chip, an attempt whose ids are in FLASH_TABLE
identifies the first such entry, unless its blocks are too many; the family codes of FLASH_INFO (R114). Two clauses rest
on the model's reading: a map that would wrap past 2^32 has free values (log entry 10, `freeDraws` with them), and the
block count is compared with MAX_BLOCKS without wrapping (log entry 11). PrAcc mode rests on log
entry 28: the retry counter, STUB_ANOMALY. -/
def Obligations.FlashProbeFinds : Prop :=
  [Family.amd, .sst, .bsc, .scs].map familyCode = [1, 2, 3, 4] ∧
  ∀ (misses : List AttemptRun) (r : AttemptRun) (e : FlashDescriptor) (k : Attempt) (last : Word) (s s₀ s₁ : State),
    s.Ready → s.Shiftable → s.mode ≠ .none → s.params.tableWf = true →
    s₀ = { s with
      chip := none, flashId := 0, flashInfo := 0, flashSize := 0, flashBase := 0, blockMap := [], result := 0 } →
    misses.length < 3 * s.flashParams.probeRounds → State.Misses .amd misses s₀ →
    State.missRun .amd 0 misses s₀ = (s₁, k, last) → s₁.AttemptGoes k r →
    (s.flashParams.table.find? fun e => e.vendor == s₁.vendorId k r && e.device == s₁.deviceId k r) = some e →
    (misses.map (·.tasks)).sum + r.tasks + 4 ≤ s.pace →
      exec .flashProbe s = .next (
        if s.flashParams.maxBlocks < totalBlocks e.regions then
          (s₁.afterAttempt k r).failed .flashProbe
            ⟨.blockmapOverflow, windowBase s.flashParams e.size, BitVec.ofNat 32 (totalBlocks e.regions)⟩
        else
          { s₁.afterAttempt k r with
            chip := some e
            flashId := s₁.vendorId k r ++ s₁.deviceId k r
            flashInfo := familyCode e.family
            flashSize := e.size
            flashBase := windowBase s.flashParams e.size
            blockMap := buildMap s.freeDraws e.regions (windowBase s.flashParams e.size)
            freeDraws := s.freeDraws + 1
            result := s₁.vendorId k r ++ s₁.deviceId k r }.ended .flashProbe .none)

/-- R224, R231, R250: FLASH_PROBE with no match in PROBE_ROUNDS rounds of three attempts ends with
CHIP_NOT_DETECTED, the probe's window and the last ids read. PrAcc mode rests on log
entry 28: the retry counter, STUB_ANOMALY. -/
def Obligations.FlashProbeFindsNone : Prop :=
  ∀ (misses : List AttemptRun) (k : Attempt) (last : Word) (s s₀ s₁ : State),
    s.Ready → s.Shiftable → s.mode ≠ .none → s.params.tableWf = true →
    s₀ = { s with
      chip := none, flashId := 0, flashInfo := 0, flashSize := 0, flashBase := 0, blockMap := [], result := 0 } →
    misses.length = 3 * s.flashParams.probeRounds → State.Misses .amd misses s₀ →
    State.missRun .amd 0 misses s₀ = (s₁, k, last) → (misses.map (·.tasks)).sum + 4 ≤ s.pace →
      exec .flashProbe s = .next (s₁.failed .flashProbe ⟨.chipNotDetected, s.flashParams.baseSmall, last⟩)

/-- R116: FLASH_PROBE is refused under a FLASH_TABLE with an ill-formed entry (log entry 12). -/
def Obligations.IllFormedTableRefused : Prop :=
  ∀ s : State, s.Ready → s.mode ≠ .none → s.params.tableWf = false →
    exec .flashProbe s = .refused .flashTableIllFormed

/-! ### Whole-machine rules -/

/-- R22, R32, R35, R37, R38, R43, R46, R48: the invariant holds after reset. -/
def Obligations.InvariantAtReset : Prop := State.reset.Inv

/-- R22, R32, R35, R37, R38, R43, R46, R48: every step keeps the invariant, from every state that has it. -/
def Obligations.InvariantKept : Prop := ∀ s t : State, s.Inv → step s = .next t → t.Inv

/-- R12, R22 to R28: no command, and no part of one, writes a configuration or operand register or a parameter. -/
def Obligations.OperandsKept : Prop :=
  (∀ (i : Instr) (s t : State), exec i s = .next t →
    t.params = s.params ∧ t.config = s.config ∧ t.tckDelay = s.tckDelay ∧ t.addr = s.addr ∧ t.data = s.data ∧
      t.len = s.len ∧ t.blockSel = s.blockSel) ∧
    ∀ (n : Nat) (s : State),
      (drive n s).params = s.params ∧ (drive n s).config = s.config ∧ (drive n s).tckDelay = s.tckDelay ∧
        (drive n s).addr = s.addr ∧ (drive n s).data = s.data ∧ (drive n s).len = s.len ∧
        (drive n s).blockSel = s.blockSel

/-- R41, R43: only INIT and SHUTDOWN change LINK_OPEN or MODE. -/
def Obligations.SessionKept : Prop :=
  ∀ (i : Instr) (s t : State), i ≠ .init → i ≠ .shutdown → exec i s = .next t →
    t.linkOpen = s.linkOpen ∧ t.mode = s.mode

/-- R42, R179: POSSIBLE_CORRUPTION is never cleared by a command other than INIT, and never set with FAST = 0. -/
def Obligations.CorruptionSticky : Prop :=
  ∀ (i : Instr) (s t : State), i ≠ .init → exec i s = .next t →
    (s.possibleCorruption = true → t.possibleCorruption = true) ∧
      (s.fast = false → t.possibleCorruption = s.possibleCorruption)

/-- R276: CANCEL is consulted at the DMA start-bit poll and at the flash completion poll and nowhere else, once, and
CANCEL = 1 there ends the command with USER_CANCELLED, inside an erase area too. -/
def Obligations.CancelPoints : Prop :=
  ∀ (s : State) (task : Task) (rest : List Task), s.busy = true → s.cont = task :: rest →
    (((∃ a last, task = .pollStart a last) ∨ ∃ a cond last, task = .flashPoll a cond last) →
      (tick s).cancelIn = s.cancelIn.drop 1 ∧ (tick s).cancelDraws = s.cancelDraws + (1 - s.cancelIn.length) ∧
        (s.cancelLevel 0 = true → (tick s).busy = false ∧ (tick s).err = .userCancelled ∧ (tick s).cont = []) ∧
        (s.cancelLevel 0 = false → (tick s).busy = true ∧ (tick s).err = s.err)) ∧
    ((∀ a last, task ≠ .pollStart a last) → (∀ a cond last, task ≠ .flashPoll a cond last) →
      (tick s).cancelIn = s.cancelIn ∧ (tick s).cancelDraws = s.cancelDraws)

/-- R39, R57, R272: a command adds events to the trace and takes none away, and CLOCK_COUNT counts its clocks, two
control bytes each. -/
def Obligations.ClocksCounted : Prop :=
  ∀ (i : Instr) (s t : State), exec i s = .next t →
    ∃ (events : List Event) (n : Nat),
      t.io.trace = events ++ s.io.trace ∧
        events.countP (fun | .ctrlWrite _ => true | _ => false) = 2 * n ∧
        t.io.clockCount = s.io.clockCount + BitVec.ofNat 32 n

/-- R243, R271, R278: an error ends the command with its code, address and data, goes nowhere and changes no mode; in an
erase area an error other than USER_CANCELLED is counted and kept instead, and the loop goes on. -/
def Obligations.ErrorTaken : Prop :=
  ∀ (e : CmdError) (s : State), e.code ≠ .transactionCorrupted ∨ s.cont.contains .setResult = false →
    s.raise e =
      match (if e.code = .userCancelled then none else enclosingArea s.cont) with
      | none =>
        { s with
          busy := false
          cont := []
          err := e.code
          errAddr := e.addr
          errData := e.data
          io := { s.io with trace := .done s.cmd e.code.code :: s.io.trace } }
      | some (i, rest, k) =>
        { s with eraseFailed := s.eraseFailed + 1, cont := .eraseNext i rest (some e) :: k }

/-! ### The reference target -/

/-- 20_memory.md R60: a half-word of the reference target's memory reads back, and its write leaves every other byte as
it was and the memory in its canonical form (log entry 20: the block itself has no memory). Which byte of a half-word
lies lower is the model's choice (log entry 29): R65 and R67 order the half-words of a word only. -/
def Obligations.TargetMemory : Prop :=
  ∀ (u : Byte) (m : List Host.Cell) (a : Word) (v : Half), memoryWf u m = true →
    memoryWf u (memoryWriteHalf u m a v) = true ∧
      memoryReadHalf u (memoryWriteHalf u m a v) a = v ∧
      memoryRead u (memoryWriteHalf u m a v) a.toNat = v.extractLsb' 0 8 ∧
      ∀ b : Nat, b ≠ a.toNat → b ≠ (a + 1).toNat →
        memoryRead u (memoryWriteHalf u m a v) b = memoryRead u m b
end

