-- ==== Sys2Proof/Laws/State.lean ====
section
/-! SUPPORT. One lemma per field per shared update of the state, true by rfl, so that no later proof unfolds a record
update. -/

namespace Sys2Proof.Machine

/-! ### `State.push` -/

@[simp] theorem State.push_params (ts : List Task) (s : State) : (s.push ts).params = s.params := rfl
@[simp] theorem State.push_config (ts : List Task) (s : State) : (s.push ts).config = s.config := rfl
@[simp] theorem State.push_tckDelay (ts : List Task) (s : State) : (s.push ts).tckDelay = s.tckDelay := rfl
@[simp] theorem State.push_cmd (ts : List Task) (s : State) : (s.push ts).cmd = s.cmd := rfl
@[simp] theorem State.push_addr (ts : List Task) (s : State) : (s.push ts).addr = s.addr := rfl
@[simp] theorem State.push_data (ts : List Task) (s : State) : (s.push ts).data = s.data := rfl
@[simp] theorem State.push_len (ts : List Task) (s : State) : (s.push ts).len = s.len := rfl
@[simp] theorem State.push_blockSel (ts : List Task) (s : State) : (s.push ts).blockSel = s.blockSel := rfl
@[simp] theorem State.push_busy (ts : List Task) (s : State) : (s.push ts).busy = s.busy := rfl
@[simp] theorem State.push_linkOpen (ts : List Task) (s : State) : (s.push ts).linkOpen = s.linkOpen := rfl
@[simp] theorem State.push_mode (ts : List Task) (s : State) : (s.push ts).mode = s.mode := rfl
@[simp] theorem State.push_possibleCorruption (ts : List Task) (s : State) : (s.push ts).possibleCorruption = s.possibleCorruption := rfl
@[simp] theorem State.push_overrun (ts : List Task) (s : State) : (s.push ts).overrun = s.overrun := rfl
@[simp] theorem State.push_stubAnomaly (ts : List Task) (s : State) : (s.push ts).stubAnomaly = s.stubAnomaly := rfl
@[simp] theorem State.push_err (ts : List Task) (s : State) : (s.push ts).err = s.err := rfl
@[simp] theorem State.push_irCacheValid (ts : List Task) (s : State) : (s.push ts).irCacheValid = s.irCacheValid := rfl
@[simp] theorem State.push_result (ts : List Task) (s : State) : (s.push ts).result = s.result := rfl
@[simp] theorem State.push_errAddr (ts : List Task) (s : State) : (s.push ts).errAddr = s.errAddr := rfl
@[simp] theorem State.push_errData (ts : List Task) (s : State) : (s.push ts).errData = s.errData := rfl
@[simp] theorem State.push_flashId (ts : List Task) (s : State) : (s.push ts).flashId = s.flashId := rfl
@[simp] theorem State.push_flashInfo (ts : List Task) (s : State) : (s.push ts).flashInfo = s.flashInfo := rfl
@[simp] theorem State.push_flashSize (ts : List Task) (s : State) : (s.push ts).flashSize = s.flashSize := rfl
@[simp] theorem State.push_flashBase (ts : List Task) (s : State) : (s.push ts).flashBase = s.flashBase := rfl
@[simp] theorem State.push_areaStart (ts : List Task) (s : State) : (s.push ts).areaStart = s.areaStart := rfl
@[simp] theorem State.push_areaLen (ts : List Task) (s : State) : (s.push ts).areaLen = s.areaLen := rfl
@[simp] theorem State.push_progress (ts : List Task) (s : State) : (s.push ts).progress = s.progress := rfl
@[simp] theorem State.push_eraseFailed (ts : List Task) (s : State) : (s.push ts).eraseFailed = s.eraseFailed := rfl
@[simp] theorem State.push_chip (ts : List Task) (s : State) : (s.push ts).chip = s.chip := rfl
@[simp] theorem State.push_blockMap (ts : List Task) (s : State) : (s.push ts).blockMap = s.blockMap := rfl
@[simp] theorem State.push_io (ts : List Task) (s : State) : (s.push ts).io = s.io := rfl
@[simp] theorem State.push_irCache (ts : List Task) (s : State) : (s.push ts).irCache = s.irCache := rfl
@[simp] theorem State.push_mboxAddr (ts : List Task) (s : State) : (s.push ts).mboxAddr = s.mboxAddr := rfl
@[simp] theorem State.push_mboxData (ts : List Task) (s : State) : (s.push ts).mboxData = s.mboxData := rfl
@[simp] theorem State.push_retries (ts : List Task) (s : State) : (s.push ts).retries = s.retries := rfl
@[simp] theorem State.push_hits (ts : List Task) (s : State) : (s.push ts).hits = s.hits := rfl
@[simp] theorem State.push_cont (ts : List Task) (s : State) : (s.push ts).cont = ts ++ s.cont := rfl
@[simp] theorem State.push_acc (ts : List Task) (s : State) : (s.push ts).acc = s.acc := rfl
@[simp] theorem State.push_cancelIn (ts : List Task) (s : State) : (s.push ts).cancelIn = s.cancelIn := rfl
@[simp] theorem State.push_cancelDraws (ts : List Task) (s : State) : (s.push ts).cancelDraws = s.cancelDraws := rfl
@[simp] theorem State.push_freeDraws (ts : List Task) (s : State) : (s.push ts).freeDraws = s.freeDraws := rfl
@[simp] theorem State.push_hostQueue (ts : List Task) (s : State) : (s.push ts).hostQueue = s.hostQueue := rfl
@[simp] theorem State.push_hostRdata (ts : List Task) (s : State) : (s.push ts).hostRdata = s.hostRdata := rfl
@[simp] theorem State.push_pace (ts : List Task) (s : State) : (s.push ts).pace = s.pace := rfl

/-! ### `State.ret` -/

@[simp] theorem State.ret_params (v : Word) (s : State) : (s.ret v).params = s.params := rfl
@[simp] theorem State.ret_config (v : Word) (s : State) : (s.ret v).config = s.config := rfl
@[simp] theorem State.ret_tckDelay (v : Word) (s : State) : (s.ret v).tckDelay = s.tckDelay := rfl
@[simp] theorem State.ret_cmd (v : Word) (s : State) : (s.ret v).cmd = s.cmd := rfl
@[simp] theorem State.ret_addr (v : Word) (s : State) : (s.ret v).addr = s.addr := rfl
@[simp] theorem State.ret_data (v : Word) (s : State) : (s.ret v).data = s.data := rfl
@[simp] theorem State.ret_len (v : Word) (s : State) : (s.ret v).len = s.len := rfl
@[simp] theorem State.ret_blockSel (v : Word) (s : State) : (s.ret v).blockSel = s.blockSel := rfl
@[simp] theorem State.ret_busy (v : Word) (s : State) : (s.ret v).busy = s.busy := rfl
@[simp] theorem State.ret_linkOpen (v : Word) (s : State) : (s.ret v).linkOpen = s.linkOpen := rfl
@[simp] theorem State.ret_mode (v : Word) (s : State) : (s.ret v).mode = s.mode := rfl
@[simp] theorem State.ret_possibleCorruption (v : Word) (s : State) : (s.ret v).possibleCorruption = s.possibleCorruption := rfl
@[simp] theorem State.ret_overrun (v : Word) (s : State) : (s.ret v).overrun = s.overrun := rfl
@[simp] theorem State.ret_stubAnomaly (v : Word) (s : State) : (s.ret v).stubAnomaly = s.stubAnomaly := rfl
@[simp] theorem State.ret_err (v : Word) (s : State) : (s.ret v).err = s.err := rfl
@[simp] theorem State.ret_irCacheValid (v : Word) (s : State) : (s.ret v).irCacheValid = s.irCacheValid := rfl
@[simp] theorem State.ret_result (v : Word) (s : State) : (s.ret v).result = s.result := rfl
@[simp] theorem State.ret_errAddr (v : Word) (s : State) : (s.ret v).errAddr = s.errAddr := rfl
@[simp] theorem State.ret_errData (v : Word) (s : State) : (s.ret v).errData = s.errData := rfl
@[simp] theorem State.ret_flashId (v : Word) (s : State) : (s.ret v).flashId = s.flashId := rfl
@[simp] theorem State.ret_flashInfo (v : Word) (s : State) : (s.ret v).flashInfo = s.flashInfo := rfl
@[simp] theorem State.ret_flashSize (v : Word) (s : State) : (s.ret v).flashSize = s.flashSize := rfl
@[simp] theorem State.ret_flashBase (v : Word) (s : State) : (s.ret v).flashBase = s.flashBase := rfl
@[simp] theorem State.ret_areaStart (v : Word) (s : State) : (s.ret v).areaStart = s.areaStart := rfl
@[simp] theorem State.ret_areaLen (v : Word) (s : State) : (s.ret v).areaLen = s.areaLen := rfl
@[simp] theorem State.ret_progress (v : Word) (s : State) : (s.ret v).progress = s.progress := rfl
@[simp] theorem State.ret_eraseFailed (v : Word) (s : State) : (s.ret v).eraseFailed = s.eraseFailed := rfl
@[simp] theorem State.ret_chip (v : Word) (s : State) : (s.ret v).chip = s.chip := rfl
@[simp] theorem State.ret_blockMap (v : Word) (s : State) : (s.ret v).blockMap = s.blockMap := rfl
@[simp] theorem State.ret_io (v : Word) (s : State) : (s.ret v).io = s.io := rfl
@[simp] theorem State.ret_irCache (v : Word) (s : State) : (s.ret v).irCache = s.irCache := rfl
@[simp] theorem State.ret_mboxAddr (v : Word) (s : State) : (s.ret v).mboxAddr = s.mboxAddr := rfl
@[simp] theorem State.ret_mboxData (v : Word) (s : State) : (s.ret v).mboxData = s.mboxData := rfl
@[simp] theorem State.ret_retries (v : Word) (s : State) : (s.ret v).retries = s.retries := rfl
@[simp] theorem State.ret_hits (v : Word) (s : State) : (s.ret v).hits = s.hits := rfl
@[simp] theorem State.ret_cont (v : Word) (s : State) : (s.ret v).cont = s.cont := rfl
@[simp] theorem State.ret_acc (v : Word) (s : State) : (s.ret v).acc = v := rfl
@[simp] theorem State.ret_cancelIn (v : Word) (s : State) : (s.ret v).cancelIn = s.cancelIn := rfl
@[simp] theorem State.ret_cancelDraws (v : Word) (s : State) : (s.ret v).cancelDraws = s.cancelDraws := rfl
@[simp] theorem State.ret_freeDraws (v : Word) (s : State) : (s.ret v).freeDraws = s.freeDraws := rfl
@[simp] theorem State.ret_hostQueue (v : Word) (s : State) : (s.ret v).hostQueue = s.hostQueue := rfl
@[simp] theorem State.ret_hostRdata (v : Word) (s : State) : (s.ret v).hostRdata = s.hostRdata := rfl
@[simp] theorem State.ret_pace (v : Word) (s : State) : (s.ret v).pace = s.pace := rfl

/-! ### `State.emit` -/

@[simp] theorem State.emit_params (e : Event) (s : State) : (s.emit e).params = s.params := rfl
@[simp] theorem State.emit_config (e : Event) (s : State) : (s.emit e).config = s.config := rfl
@[simp] theorem State.emit_tckDelay (e : Event) (s : State) : (s.emit e).tckDelay = s.tckDelay := rfl
@[simp] theorem State.emit_cmd (e : Event) (s : State) : (s.emit e).cmd = s.cmd := rfl
@[simp] theorem State.emit_addr (e : Event) (s : State) : (s.emit e).addr = s.addr := rfl
@[simp] theorem State.emit_data (e : Event) (s : State) : (s.emit e).data = s.data := rfl
@[simp] theorem State.emit_len (e : Event) (s : State) : (s.emit e).len = s.len := rfl
@[simp] theorem State.emit_blockSel (e : Event) (s : State) : (s.emit e).blockSel = s.blockSel := rfl
@[simp] theorem State.emit_busy (e : Event) (s : State) : (s.emit e).busy = s.busy := rfl
@[simp] theorem State.emit_linkOpen (e : Event) (s : State) : (s.emit e).linkOpen = s.linkOpen := rfl
@[simp] theorem State.emit_mode (e : Event) (s : State) : (s.emit e).mode = s.mode := rfl
@[simp] theorem State.emit_possibleCorruption (e : Event) (s : State) : (s.emit e).possibleCorruption = s.possibleCorruption := rfl
@[simp] theorem State.emit_overrun (e : Event) (s : State) : (s.emit e).overrun = s.overrun := rfl
@[simp] theorem State.emit_stubAnomaly (e : Event) (s : State) : (s.emit e).stubAnomaly = s.stubAnomaly := rfl
@[simp] theorem State.emit_err (e : Event) (s : State) : (s.emit e).err = s.err := rfl
@[simp] theorem State.emit_irCacheValid (e : Event) (s : State) : (s.emit e).irCacheValid = s.irCacheValid := rfl
@[simp] theorem State.emit_result (e : Event) (s : State) : (s.emit e).result = s.result := rfl
@[simp] theorem State.emit_errAddr (e : Event) (s : State) : (s.emit e).errAddr = s.errAddr := rfl
@[simp] theorem State.emit_errData (e : Event) (s : State) : (s.emit e).errData = s.errData := rfl
@[simp] theorem State.emit_flashId (e : Event) (s : State) : (s.emit e).flashId = s.flashId := rfl
@[simp] theorem State.emit_flashInfo (e : Event) (s : State) : (s.emit e).flashInfo = s.flashInfo := rfl
@[simp] theorem State.emit_flashSize (e : Event) (s : State) : (s.emit e).flashSize = s.flashSize := rfl
@[simp] theorem State.emit_flashBase (e : Event) (s : State) : (s.emit e).flashBase = s.flashBase := rfl
@[simp] theorem State.emit_areaStart (e : Event) (s : State) : (s.emit e).areaStart = s.areaStart := rfl
@[simp] theorem State.emit_areaLen (e : Event) (s : State) : (s.emit e).areaLen = s.areaLen := rfl
@[simp] theorem State.emit_progress (e : Event) (s : State) : (s.emit e).progress = s.progress := rfl
@[simp] theorem State.emit_eraseFailed (e : Event) (s : State) : (s.emit e).eraseFailed = s.eraseFailed := rfl
@[simp] theorem State.emit_chip (e : Event) (s : State) : (s.emit e).chip = s.chip := rfl
@[simp] theorem State.emit_blockMap (e : Event) (s : State) : (s.emit e).blockMap = s.blockMap := rfl
@[simp] theorem State.emit_io_latch (e : Event) (s : State) : (s.emit e).io.latch = s.io.latch := rfl
@[simp] theorem State.emit_io_tapStates (e : Event) (s : State) : (s.emit e).io.tapStates = s.io.tapStates := rfl
@[simp] theorem State.emit_io_clockCount (e : Event) (s : State) : (s.emit e).io.clockCount = s.io.clockCount := rfl
@[simp] theorem State.emit_io_statusIn (e : Event) (s : State) : (s.emit e).io.statusIn = s.io.statusIn := rfl
@[simp] theorem State.emit_io_statusDraws (e : Event) (s : State) : (s.emit e).io.statusDraws = s.io.statusDraws := rfl
@[simp] theorem State.emit_io_trace (e : Event) (s : State) : (s.emit e).io.trace = e :: s.io.trace := rfl
@[simp] theorem State.emit_irCache (e : Event) (s : State) : (s.emit e).irCache = s.irCache := rfl
@[simp] theorem State.emit_mboxAddr (e : Event) (s : State) : (s.emit e).mboxAddr = s.mboxAddr := rfl
@[simp] theorem State.emit_mboxData (e : Event) (s : State) : (s.emit e).mboxData = s.mboxData := rfl
@[simp] theorem State.emit_retries (e : Event) (s : State) : (s.emit e).retries = s.retries := rfl
@[simp] theorem State.emit_hits (e : Event) (s : State) : (s.emit e).hits = s.hits := rfl
@[simp] theorem State.emit_cont (e : Event) (s : State) : (s.emit e).cont = s.cont := rfl
@[simp] theorem State.emit_acc (e : Event) (s : State) : (s.emit e).acc = s.acc := rfl
@[simp] theorem State.emit_cancelIn (e : Event) (s : State) : (s.emit e).cancelIn = s.cancelIn := rfl
@[simp] theorem State.emit_cancelDraws (e : Event) (s : State) : (s.emit e).cancelDraws = s.cancelDraws := rfl
@[simp] theorem State.emit_freeDraws (e : Event) (s : State) : (s.emit e).freeDraws = s.freeDraws := rfl
@[simp] theorem State.emit_hostQueue (e : Event) (s : State) : (s.emit e).hostQueue = s.hostQueue := rfl
@[simp] theorem State.emit_hostRdata (e : Event) (s : State) : (s.emit e).hostRdata = s.hostRdata := rfl
@[simp] theorem State.emit_pace (e : Event) (s : State) : (s.emit e).pace = s.pace := rfl

/-! ### `State.finish` -/

@[simp] theorem State.finish_params (s : State) : (s.finish).params = s.params := rfl
@[simp] theorem State.finish_config (s : State) : (s.finish).config = s.config := rfl
@[simp] theorem State.finish_tckDelay (s : State) : (s.finish).tckDelay = s.tckDelay := rfl
@[simp] theorem State.finish_cmd (s : State) : (s.finish).cmd = s.cmd := rfl
@[simp] theorem State.finish_addr (s : State) : (s.finish).addr = s.addr := rfl
@[simp] theorem State.finish_data (s : State) : (s.finish).data = s.data := rfl
@[simp] theorem State.finish_len (s : State) : (s.finish).len = s.len := rfl
@[simp] theorem State.finish_blockSel (s : State) : (s.finish).blockSel = s.blockSel := rfl
@[simp] theorem State.finish_busy (s : State) : (s.finish).busy = false := rfl
@[simp] theorem State.finish_linkOpen (s : State) : (s.finish).linkOpen = s.linkOpen := rfl
@[simp] theorem State.finish_mode (s : State) : (s.finish).mode = s.mode := rfl
@[simp] theorem State.finish_possibleCorruption (s : State) : (s.finish).possibleCorruption = s.possibleCorruption := rfl
@[simp] theorem State.finish_overrun (s : State) : (s.finish).overrun = s.overrun := rfl
@[simp] theorem State.finish_stubAnomaly (s : State) : (s.finish).stubAnomaly = s.stubAnomaly := rfl
@[simp] theorem State.finish_err (s : State) : (s.finish).err = s.err := rfl
@[simp] theorem State.finish_irCacheValid (s : State) : (s.finish).irCacheValid = s.irCacheValid := rfl
@[simp] theorem State.finish_result (s : State) : (s.finish).result = s.result := rfl
@[simp] theorem State.finish_errAddr (s : State) : (s.finish).errAddr = s.errAddr := rfl
@[simp] theorem State.finish_errData (s : State) : (s.finish).errData = s.errData := rfl
@[simp] theorem State.finish_flashId (s : State) : (s.finish).flashId = s.flashId := rfl
@[simp] theorem State.finish_flashInfo (s : State) : (s.finish).flashInfo = s.flashInfo := rfl
@[simp] theorem State.finish_flashSize (s : State) : (s.finish).flashSize = s.flashSize := rfl
@[simp] theorem State.finish_flashBase (s : State) : (s.finish).flashBase = s.flashBase := rfl
@[simp] theorem State.finish_areaStart (s : State) : (s.finish).areaStart = s.areaStart := rfl
@[simp] theorem State.finish_areaLen (s : State) : (s.finish).areaLen = s.areaLen := rfl
@[simp] theorem State.finish_progress (s : State) : (s.finish).progress = s.progress := rfl
@[simp] theorem State.finish_eraseFailed (s : State) : (s.finish).eraseFailed = s.eraseFailed := rfl
@[simp] theorem State.finish_chip (s : State) : (s.finish).chip = s.chip := rfl
@[simp] theorem State.finish_blockMap (s : State) : (s.finish).blockMap = s.blockMap := rfl
@[simp] theorem State.finish_io_latch (s : State) : (s.finish).io.latch = s.io.latch := rfl
@[simp] theorem State.finish_io_tapStates (s : State) : (s.finish).io.tapStates = s.io.tapStates := rfl
@[simp] theorem State.finish_io_clockCount (s : State) : (s.finish).io.clockCount = s.io.clockCount := rfl
@[simp] theorem State.finish_io_statusIn (s : State) : (s.finish).io.statusIn = s.io.statusIn := rfl
@[simp] theorem State.finish_io_statusDraws (s : State) : (s.finish).io.statusDraws = s.io.statusDraws := rfl
@[simp] theorem State.finish_io_trace (s : State) : (s.finish).io.trace = .done s.cmd s.err.code :: s.io.trace := rfl
@[simp] theorem State.finish_irCache (s : State) : (s.finish).irCache = s.irCache := rfl
@[simp] theorem State.finish_mboxAddr (s : State) : (s.finish).mboxAddr = s.mboxAddr := rfl
@[simp] theorem State.finish_mboxData (s : State) : (s.finish).mboxData = s.mboxData := rfl
@[simp] theorem State.finish_retries (s : State) : (s.finish).retries = s.retries := rfl
@[simp] theorem State.finish_hits (s : State) : (s.finish).hits = s.hits := rfl
@[simp] theorem State.finish_cont (s : State) : (s.finish).cont = [] := rfl
@[simp] theorem State.finish_acc (s : State) : (s.finish).acc = s.acc := rfl
@[simp] theorem State.finish_cancelIn (s : State) : (s.finish).cancelIn = s.cancelIn := rfl
@[simp] theorem State.finish_cancelDraws (s : State) : (s.finish).cancelDraws = s.cancelDraws := rfl
@[simp] theorem State.finish_freeDraws (s : State) : (s.finish).freeDraws = s.freeDraws := rfl
@[simp] theorem State.finish_hostQueue (s : State) : (s.finish).hostQueue = s.hostQueue := rfl
@[simp] theorem State.finish_hostRdata (s : State) : (s.finish).hostRdata = s.hostRdata := rfl
@[simp] theorem State.finish_pace (s : State) : (s.finish).pace = s.pace := rfl

/-! ### `State.accept` -/

@[simp] theorem State.accept_params (w : Word) (s : State) : (s.accept w).params = s.params := rfl
@[simp] theorem State.accept_config (w : Word) (s : State) : (s.accept w).config = s.config := rfl
@[simp] theorem State.accept_tckDelay (w : Word) (s : State) : (s.accept w).tckDelay = s.tckDelay := rfl
@[simp] theorem State.accept_cmd (w : Word) (s : State) : (s.accept w).cmd = w := rfl
@[simp] theorem State.accept_addr (w : Word) (s : State) : (s.accept w).addr = s.addr := rfl
@[simp] theorem State.accept_data (w : Word) (s : State) : (s.accept w).data = s.data := rfl
@[simp] theorem State.accept_len (w : Word) (s : State) : (s.accept w).len = s.len := rfl
@[simp] theorem State.accept_blockSel (w : Word) (s : State) : (s.accept w).blockSel = s.blockSel := rfl
@[simp] theorem State.accept_busy (w : Word) (s : State) : (s.accept w).busy = true := rfl
@[simp] theorem State.accept_linkOpen (w : Word) (s : State) : (s.accept w).linkOpen = s.linkOpen := rfl
@[simp] theorem State.accept_mode (w : Word) (s : State) : (s.accept w).mode = s.mode := rfl
@[simp] theorem State.accept_possibleCorruption (w : Word) (s : State) : (s.accept w).possibleCorruption = s.possibleCorruption := rfl
@[simp] theorem State.accept_overrun (w : Word) (s : State) : (s.accept w).overrun = s.overrun := rfl
@[simp] theorem State.accept_stubAnomaly (w : Word) (s : State) : (s.accept w).stubAnomaly = s.stubAnomaly := rfl
@[simp] theorem State.accept_err (w : Word) (s : State) : (s.accept w).err = .none := rfl
@[simp] theorem State.accept_irCacheValid (w : Word) (s : State) : (s.accept w).irCacheValid = s.irCacheValid := rfl
@[simp] theorem State.accept_result (w : Word) (s : State) : (s.accept w).result = s.result := rfl
@[simp] theorem State.accept_errAddr (w : Word) (s : State) : (s.accept w).errAddr = s.errAddr := rfl
@[simp] theorem State.accept_errData (w : Word) (s : State) : (s.accept w).errData = s.errData := rfl
@[simp] theorem State.accept_flashId (w : Word) (s : State) : (s.accept w).flashId = s.flashId := rfl
@[simp] theorem State.accept_flashInfo (w : Word) (s : State) : (s.accept w).flashInfo = s.flashInfo := rfl
@[simp] theorem State.accept_flashSize (w : Word) (s : State) : (s.accept w).flashSize = s.flashSize := rfl
@[simp] theorem State.accept_flashBase (w : Word) (s : State) : (s.accept w).flashBase = s.flashBase := rfl
@[simp] theorem State.accept_areaStart (w : Word) (s : State) : (s.accept w).areaStart = s.areaStart := rfl
@[simp] theorem State.accept_areaLen (w : Word) (s : State) : (s.accept w).areaLen = s.areaLen := rfl
@[simp] theorem State.accept_progress (w : Word) (s : State) : (s.accept w).progress = s.progress := rfl
@[simp] theorem State.accept_eraseFailed (w : Word) (s : State) : (s.accept w).eraseFailed = s.eraseFailed := rfl
@[simp] theorem State.accept_chip (w : Word) (s : State) : (s.accept w).chip = s.chip := rfl
@[simp] theorem State.accept_blockMap (w : Word) (s : State) : (s.accept w).blockMap = s.blockMap := rfl
@[simp] theorem State.accept_io (w : Word) (s : State) : (s.accept w).io = s.io := rfl
@[simp] theorem State.accept_irCache (w : Word) (s : State) : (s.accept w).irCache = s.irCache := rfl
@[simp] theorem State.accept_mboxAddr (w : Word) (s : State) : (s.accept w).mboxAddr = s.mboxAddr := rfl
@[simp] theorem State.accept_mboxData (w : Word) (s : State) : (s.accept w).mboxData = s.mboxData := rfl
@[simp] theorem State.accept_retries (w : Word) (s : State) : (s.accept w).retries = s.retries := rfl
@[simp] theorem State.accept_hits (w : Word) (s : State) : (s.accept w).hits = s.hits := rfl
@[simp] theorem State.accept_cont (w : Word) (s : State) : (s.accept w).cont = [] := rfl
@[simp] theorem State.accept_acc (w : Word) (s : State) : (s.accept w).acc = s.acc := rfl
@[simp] theorem State.accept_cancelIn (w : Word) (s : State) : (s.accept w).cancelIn = s.cancelIn := rfl
@[simp] theorem State.accept_cancelDraws (w : Word) (s : State) : (s.accept w).cancelDraws = s.cancelDraws := rfl
@[simp] theorem State.accept_freeDraws (w : Word) (s : State) : (s.accept w).freeDraws = s.freeDraws := rfl
@[simp] theorem State.accept_hostQueue (w : Word) (s : State) : (s.accept w).hostQueue = s.hostQueue := rfl
@[simp] theorem State.accept_hostRdata (w : Word) (s : State) : (s.accept w).hostRdata = s.hostRdata := rfl
@[simp] theorem State.accept_pace (w : Word) (s : State) : (s.accept w).pace = s.pace := rfl

end Sys2Proof.Machine
end

