-- ==== Sys2Proof/Laws/Driver.lean ====
section
/-! SUPPORT. What the TAP Driver does: every clock sequence of the model is `Io.after` of its list of pulses, that
function composes, and the three sequences end in Run-Test/Idle. -/

namespace Sys2Proof.Machine

/-! ### Composition -/

@[simp] theorem samples_nil : samples [] = 0 := rfl
@[simp] theorem samples_append (cs ds : List Pulse) : samples (cs ++ ds) = samples cs + samples ds := by
  simp [samples]

@[simp] theorem Io.after_nil (p : PinMap) (io : Io) : io.after p [] = io := by
  simp [Io.after, Io.events, samples]

@[simp] theorem Io.after_tapStates (p : PinMap) (cs : List Pulse) (io : Io) :
    (io.after p cs).tapStates = cs.foldl (fun states c => tapNext states c.tms) io.tapStates := rfl
@[simp] theorem Io.after_clockCount (p : PinMap) (cs : List Pulse) (io : Io) :
    (io.after p cs).clockCount = io.clockCount + BitVec.ofNat 32 cs.length := rfl

/-- Reading on: byte `k` after a list of clocks is byte `samples + k` before it. -/
theorem Io.statusByte_after (p : PinMap) (cs : List Pulse) (io : Io) (k : Nat) :
    (io.after p cs).statusByte k = io.statusByte (samples cs + k) := by
  simp only [Io.statusByte, Io.after, List.getElem?_drop, List.length_drop]
  congr 2
  omega

theorem Io.events_congr (p : PinMap) {io io' : Io} (k k' : Nat) (cs : List Pulse)
    (h : ∀ j, io.statusByte (k + j) = io'.statusByte (k' + j)) : io.events p k cs = io'.events p k' cs := by
  induction cs generalizing k k' with
  | nil => rfl
  | cons c cs ih =>
    simp only [Io.events]
    split
    · rw [ih (k + 1) (k' + 1) (fun j => by
        have := h (1 + j)
        rwa [← Nat.add_assoc, ← Nat.add_assoc] at this)]
      have := h 0
      simp only [Nat.add_zero] at this
      rw [this]
    · rw [ih k k' h]

theorem Io.events_append (p : PinMap) (io : Io) (k : Nat) (cs ds : List Pulse) :
    io.events p k (cs ++ ds) = io.events p k cs ++ io.events p (k + samples cs) ds := by
  induction cs generalizing k with
  | nil => simp [Io.events]
  | cons c cs ih =>
    simp only [List.cons_append, Io.events]
    split
    · rename_i h
      rw [ih]
      simp [samples, h]
      congr 1; omega
    · rename_i h
      rw [ih]
      simp [samples, h]

/-- Clocks after clocks. -/
theorem Io.after_append (p : PinMap) (cs ds : List Pulse) (io : Io) :
    io.after p (cs ++ ds) = (io.after p cs).after p ds := by
  have he : (io.after p cs).events p 0 ds = io.events p (samples cs) ds :=
    Io.events_congr p 0 (samples cs) ds fun j => by rw [Nat.zero_add, Io.statusByte_after]
  have hl : ((cs ++ ds).getLast?.map fun c => highByte p c.tms c.tdi).getD io.latch =
      (ds.getLast?.map fun c => highByte p c.tms c.tdi).getD
        ((cs.getLast?.map fun c => highByte p c.tms c.tdi).getD io.latch) := by
    rw [List.getLast?_append]
    cases ds.getLast? <;> simp
  have hd : (io.after p cs).after p ds =
      { latch := (ds.getLast?.map fun c => highByte p c.tms c.tdi).getD (io.after p cs).latch
        tapStates := ds.foldl (fun states c => tapNext states c.tms) (io.after p cs).tapStates
        clockCount := (io.after p cs).clockCount + BitVec.ofNat 32 ds.length
        statusIn := (io.after p cs).statusIn.drop (samples ds)
        statusDraws := (io.after p cs).statusDraws + (samples ds - (io.after p cs).statusIn.length)
        trace := ((io.after p cs).events p 0 ds).reverse ++ (io.after p cs).trace } := rfl
  rw [hd, he]
  simp only [Io.after, hl, List.foldl_append, List.length_append, BitVec.ofNat_add, samples_append,
    List.drop_drop, List.length_drop, Io.events_append, Nat.zero_add, List.reverse_append, List.append_assoc,
    Io.mk.injEq, true_and, and_true]
  refine ⟨by rw [BitVec.add_assoc], by omega⟩

/-! ### The model's clocks -/

theorem Io.clock_eq (w : Wire) (tms tdi : Bool) (io : Io) :
    io.clock w tms tdi = io.after w.pins [⟨tms, tdi, false⟩] := by
  simp [Io.after, Io.events, samples]; rfl

theorem Io.sampledClock_eq (w : Wire) (tms tdi : Bool) (io : Io) :
    io.sampledClock w tms tdi = (tdoBit w.pins (io.statusByte 0), io.after w.pins [⟨tms, tdi, true⟩]) := by
  have hp : (io.phases w tms tdi).statusIn = io.statusIn := rfl
  unfold Io.sampledClock Io.readStatus Io.takeStatus
  rw [hp]
  cases h : io.statusIn with
  | nil => simp [Io.after, Io.events, samples, Io.statusByte, h]; exact ⟨rfl, rfl⟩
  | cons b bs => simp [Io.after, Io.events, samples, Io.statusByte, h]; rfl

/-- Unsampled clocks as pulses. -/
def quietPulses (cs : List (Bool × Bool)) : List Pulse := cs.map fun c => ⟨c.1, c.2, false⟩

/-- Sampled clocks as pulses. -/
def sampledPulses (cs : List (Bool × Bool)) : List Pulse := cs.map fun c => ⟨c.1, c.2, true⟩

theorem samples_quiet (cs : List (Bool × Bool)) : samples (quietPulses cs) = 0 := by
  simp [samples, quietPulses, List.countP_eq_zero]

theorem samples_sampled (cs : List (Bool × Bool)) : samples (sampledPulses cs) = cs.length := by
  simp [samples, sampledPulses, List.countP_map, Function.comp_def]

theorem Io.clocks_eq (w : Wire) (cs : List (Bool × Bool)) (io : Io) :
    io.clocks w cs = io.after w.pins (quietPulses cs) := by
  induction cs generalizing io with
  | nil => exact (Io.after_nil _ _).symm
  | cons c cs ih =>
    have hc : quietPulses (c :: cs) = [⟨c.1, c.2, false⟩] ++ quietPulses cs := rfl
    rw [hc, Io.after_append, ← Io.clock_eq]
    exact ih _

theorem Io.shift_eq (w : Wire) (cs : List (Bool × Bool)) (io : Io) :
    Io.shift w cs io =
      ((List.range cs.length).map fun i => tdoBit w.pins (io.statusByte i),
        io.after w.pins (sampledPulses cs)) := by
  induction cs generalizing io with
  | nil => simp [Io.shift, sampledPulses]
  | cons c cs ih =>
    have hc : sampledPulses (c :: cs) = [⟨c.1, c.2, true⟩] ++ sampledPulses cs := rfl
    have hs : samples [(⟨c.1, c.2, true⟩ : Pulse)] = 1 := rfl
    simp only [Io.shift, ih, Io.sampledClock_eq]
    rw [hc, Io.after_append]
    simp only [Io.statusByte_after, hs, List.length_cons, List.range_succ_eq_map, List.map_cons, List.map_map,
      Prod.mk.injEq, and_true, List.cons.injEq, true_and]
    apply List.map_congr_left
    intro i _
    simp [Nat.add_comm]

/-! ### The three sequences -/

theorem quietPulses_reset : quietPulses resetClocks = resetPulses := rfl

theorem quietPulses_ir (m : Word) (l : Nat) : quietPulses (irClocks m l) = irPulses m l := by
  simp [quietPulses, irClocks, irPulses, irEntry, dataClocks, shiftExit]

theorem Io.shiftDr_eq (w : Wire) (v : Word) (io : Io) :
    io.shiftDr w v =
      (wordOfBits ((List.range 32).map fun i => tdoBit w.pins (io.statusByte i)), io.after w.pins (drPulses v)) := by
  have hl : (dataClocks v 32).length = 32 := by simp [dataClocks]
  have hq : samples (quietPulses drEntry) = 0 := samples_quiet _
  unfold Io.shiftDr
  simp only [Io.clocks_eq, Io.shift_eq, hl, Io.statusByte_after, hq, Nat.zero_add, ← Io.after_append]
  simp [quietPulses, sampledPulses, drEntry, dataClocks, shiftExit, drPulses, Function.comp_def]

theorem samples_irPulses (m : Word) (l : Nat) : samples (irPulses m l) = 0 := by
  rw [← quietPulses_ir, samples_quiet]

theorem samples_drPulses (v : Word) : samples (drPulses v) = 32 := by
  simp [drPulses, samples, List.countP_map, Function.comp_def]

theorem irPulses_length (m : Word) (l : Nat) : (irPulses m l).length = l + 6 := by
  simp [irPulses]

theorem drPulses_length (v : Word) : (drPulses v).length = 37 := by simp [drPulses]

/-! ### The TAP paths -/

/-- The TAP path of a list of clocks. -/
def tapPath (states : BitVec 16) (cs : List Pulse) : BitVec 16 :=
  cs.foldl (fun states c => tapNext states c.tms) states

theorem tapPath_append (states : BitVec 16) (cs ds : List Pulse) :
    tapPath states (cs ++ ds) = tapPath (tapPath states cs) ds := by simp [tapPath]

/-- Data clocks that do not raise TMS stay in a state that TMS = 0 stays in. -/
theorem tapPath_stay (t : TapState) (h : tapNext (tapOnly t) false = tapOnly t) (cs : List Pulse)
    (hc : ∀ c ∈ cs, c.tms = false) : tapPath (tapOnly t) cs = tapOnly t := by
  induction cs with
  | nil => rfl
  | cons c cs ih =>
    simp only [tapPath, List.foldl_cons] at *
    rw [hc c (by simp), h]
    exact ih fun d hd => hc d (by simp [hd])

/-- The data clocks of a shift take the TAP from its shift state to the one TMS = 1 leads to. -/
theorem tapPath_data (t : TapState) (h : tapNext (tapOnly t) false = tapOnly t) (n : Nat) (v : Word) (b : Bool) :
    tapPath (tapOnly t) ((List.range (n + 1)).map fun i => (⟨i + 1 == n + 1, v.getLsbD i, b⟩ : Pulse)) =
      tapNext (tapOnly t) true := by
  rw [List.range_succ, List.map_append, tapPath_append, tapPath_stay t h]
  · simp [tapPath]
  · intro c hc
    simp only [List.mem_map, List.mem_range] at hc
    obtain ⟨i, hi, rfl⟩ := hc
    simp; omega

theorem tapPath_irPulses (m : Word) (l : Nat) (hl : 1 ≤ l) : tapPath tapIdle (irPulses m l) = tapIdle := by
  obtain ⟨n, rfl⟩ : ∃ n, l = n + 1 := ⟨l - 1, by omega⟩
  rw [irPulses, tapPath_append, tapPath_append]
  have h1 : tapPath tapIdle [⟨true, false, false⟩, ⟨true, false, false⟩, ⟨false, false, false⟩,
      ⟨false, false, false⟩] = tapOnly .shiftIr := by decide
  rw [h1, tapPath_data .shiftIr (by decide)]
  decide

theorem tapPath_drPulses (v : Word) : tapPath tapIdle (drPulses v) = tapIdle := by
  rw [drPulses, tapPath_append, tapPath_append]
  have h1 : tapPath tapIdle [⟨true, false, false⟩, ⟨false, false, false⟩, ⟨false, false, false⟩] =
      tapOnly .shiftDr := by decide
  rw [h1, tapPath_data .shiftDr (by decide) 31]
  decide

end Sys2Proof.Machine
end

