-- ==== Sys2Proof/Laws/Run.lean ====
section
/-! SUPPORT. Running tasks: how runs compose, the shell of a command, errors, and what the two shift primitives do as
one list of shifts. -/

namespace Sys2Proof.Machine

/-! ### Runs -/

@[simp] theorem drive_zero (s : State) : drive 0 s = s := rfl

theorem drive_idle (n : Nat) (s : State) (h : s.busy = false) : drive n s = s := by
  cases n <;> simp [drive, h]

theorem drive_busy (n : Nat) (s : State) (h : s.busy = true) : drive (n + 1) s = drive n (tick s) := by
  simp [drive, h]

/-- At most `n` tasks lead from `s` to `t`, whatever comes after. -/
def Reaches (n : Nat) (s t : State) : Prop := ∃ m ≤ n, ∀ k, drive (m + k) s = drive k t

theorem Reaches.refl (s : State) : Reaches 0 s s := ⟨0, Nat.le_refl 0, fun k => by rw [Nat.zero_add]⟩

theorem Reaches.trans {a b : Nat} {s t u : State} (h₁ : Reaches a s t) (h₂ : Reaches b t u) :
    Reaches (a + b) s u := by
  obtain ⟨m, hm, h₁⟩ := h₁
  obtain ⟨n, hn, h₂⟩ := h₂
  exact ⟨m + n, by omega, fun k => by rw [Nat.add_assoc, h₁, h₂]⟩

theorem Reaches.mono {a b : Nat} {s t : State} (h : Reaches a s t) (hab : a ≤ b) : Reaches b s t := by
  obtain ⟨m, hm, h⟩ := h
  exact ⟨m, by omega, h⟩

theorem tick_cons {s : State} {t : Task} {k : List Task} (h : s.cont = t :: k) :
    tick s = runTask t { s with cont := k } := by unfold tick; rw [h]

theorem tick_nil {s : State} (h : s.cont = []) : tick s = s.finish := by unfold tick; rw [h]

/-- A busy block carries out its next task. -/
theorem reaches_task {s : State} {t : Task} {k : List Task} (hb : s.busy = true) (h : s.cont = t :: k) :
    Reaches 1 s (runTask t { s with cont := k }) := ⟨1, Nat.le_refl 1, fun m => by
  rw [Nat.add_comm, drive_busy m s hb, tick_cons h]⟩

/-- A busy block with no task left ends its command. -/
theorem reaches_finish {s : State} (hb : s.busy = true) (h : s.cont = []) : Reaches 1 s s.finish :=
  ⟨1, Nat.le_refl 1, fun m => by rw [Nat.add_comm, drive_busy m s hb, tick_nil h]⟩

/-- A run that ends idle is the whole run, at any pace that is long enough. -/
theorem drive_of_reaches {n pace : Nat} {s t : State} (h : Reaches n s t) (ht : t.busy = false) (hn : n ≤ pace) :
    drive pace s = t := by
  obtain ⟨m, hm, h⟩ := h
  obtain ⟨k, rfl⟩ := Nat.exists_eq_add_of_le (Nat.le_trans hm hn)
  rw [h, drive_idle k t ht]

/-! ### The shell -/

theorem command_idle (w : Word) (body : State → Answer) {s : State} (h : s.busy = false) :
    command w body s = body (s.accept w) := by simp [command, h]

theorem command_busy (w : Word) (body : State → Answer) {s : State} (h : s.busy = true) :
    command w body s = .next { s with overrun := true } := by simp [command, h]

theorem whenOpen_open (body : State → Answer) {s : State} (h : s.linkOpen = true) : whenOpen body s = body s := by
  simp [whenOpen, h]

theorem whenModed_moded (body : State → Answer) {s : State} (h : s.mode ≠ .none) : whenModed body s = body s := by
  simp [whenModed, h]

theorem whenChip_some (body : FlashDescriptor → State → Answer) {s : State} {c : FlashDescriptor}
    (h : s.chip = some c) : whenChip body s = body c s := by simp [whenChip, h]

/-! ### Errors -/

/-- Outside an erase area, and for a cancellation, an error ends the command. -/
theorem raise_ends (e : CmdError) (s : State) (h : e.code = .userCancelled ∨ enclosingArea s.cont = none) :
    s.raise e = s.endWithError e := by
  unfold State.raise
  split
  · rfl
  · rcases h with h | h
    · contradiction
    · rw [h]

/-- Everything an error that ends a command does. -/
theorem endWithError_eq (e : CmdError) (s : State) :
    s.endWithError e =
      { s with
        busy := false
        cont := []
        err := e.code
        errAddr := e.addr
        errData := e.data
        result := if e.code = .transactionCorrupted ∧ s.returnsValue then e.data else s.result
        io := { s.io with trace := .done s.cmd e.code.code :: s.io.trace } } := rfl

/-- Everything an error inside an erase area does: the failure is counted and the loop goes on. -/
theorem raise_in_area (e : CmdError) (s : State) {i : Nat} {rest : List Word} {k : List Task}
    (hc : e.code ≠ .userCancelled) (h : enclosingArea s.cont = some (i, rest, k)) :
    s.raise e = { s with eraseFailed := s.eraseFailed + 1, cont := .eraseNext i rest (some e) :: k } := by
  unfold State.raise; rw [if_neg hc, h]

/-- Of the tasks left, an error that is not TRANSACTION_CORRUPTED sees only the enclosing erase area. -/
theorem raise_cont (e : CmdError) (s : State) {k l : List Task} (he : e.code ≠ .transactionCorrupted)
    (h : enclosingArea l = enclosingArea k) :
    State.raise e { s with cont := l } = State.raise e { s with cont := k } := by
  unfold State.raise
  split
  · rw [endWithError_eq, endWithError_eq]; simp [he]
  · simp only [h]
    split
    · rfl
    · rw [endWithError_eq, endWithError_eq]; simp [he]

/-! ### The shift primitives as shifts -/

theorem traffic_append (xs ys : List Shift) (s : State) :
    s.traffic (xs ++ ys) = (s.moved xs).traffic ys := by
  simp only [State.traffic, List.foldl_append]
  rfl

theorem moved_nil (s : State) : s.moved [] = s := rfl

theorem moved_append (xs ys : List Shift) (s : State) : s.moved (xs ++ ys) = (s.moved xs).moved ys := by
  simp only [State.moved, traffic_append]

/-- SetInstruction where both preconditions hold. -/
theorem setInstruction_eq (ir : Word) (s : State) (h : s.Shiftable) : s.setInstruction ir = s.moved [.ir ir] := by
  obtain ⟨hl, ht⟩ := h
  unfold State.setInstruction State.moved State.traffic
  rw [if_neg (by simp [hl]), if_neg (by simp [ht])]
  simp only [List.foldl, Port.shift]
  by_cases hc : s.irCacheValid = true ∧ s.irCache = maskIr ir s.irLength
  · rw [if_pos (by simp [State.irCached, hc.1, hc.2])]
    rw [if_pos hc]
  · rw [if_neg (by simpa [State.irCached] using hc)]
    simp [hc, State.shiftIr, Io.clocks_eq, quietPulses_ir]
    rfl

/-- SetInstruction where one of its preconditions does not hold. -/
theorem setInstruction_raise (ir : Word) (s : State) (h : ¬ s.Shiftable) : s.setInstruction ir = s.raise s.shiftError := by
  unfold State.setInstruction State.shiftError
  by_cases hl : s.irLengthLegal = true
  · have ht : s.io.tapStates ≠ tapIdle := fun ht => h ⟨hl, ht⟩
    rw [if_neg (by simp [hl]), if_pos ht, if_neg (by simp [hl])]
    rfl
  · rw [if_pos (by simpa using hl), if_pos (by simpa using hl)]
    rfl

theorem shiftError_code (s : State) : s.shiftError.code ≠ .transactionCorrupted := by
  unfold State.shiftError; split <;> simp

/-- ShiftData32 where its precondition holds. -/
theorem shiftData32_eq (v : Word) (s : State) (ht : s.io.tapStates = tapIdle) :
    s.shiftData32 v = { s.moved [.dr v] with acc := s.captured 0 } := by
  unfold State.shiftData32
  rw [if_neg (by simp [ht]), Io.shiftDr_eq]
  simp only [State.moved, State.traffic, List.foldl, Port.shift, State.captured, Nat.mul_zero, Nat.zero_add]
  rfl

theorem ShiftIdle_ir (p : PinMap) (l : Nat) (code : Word) (q : Port) (hl : 1 ≤ l) (h : q.io.tapStates = tapIdle) :
    (q.shift p l (.ir code)).io.tapStates = tapIdle := by
  simp only [Port.shift]
  split
  · exact h
  · simp only [Io.after_tapStates, h]; exact tapPath_irPulses _ _ hl

theorem ShiftIdle_dr (p : PinMap) (l : Nat) (v : Word) (q : Port) (h : q.io.tapStates = tapIdle) :
    (q.shift p l (.dr v)).io.tapStates = tapIdle := by
  simp only [Port.shift, Io.after_tapStates, h]; exact tapPath_drPulses _

theorem irLength_pos {s : State} (h : s.irLengthLegal = true) : 1 ≤ s.irLength := by
  simp only [State.irLengthLegal, Bool.and_eq_true, decide_eq_true_eq] at h
  exact h.1

/-- Shifts keep a block that can shift able to. -/
theorem shiftable_moved (xs : List Shift) (s : State) (h : s.Shiftable) : (s.moved xs).Shiftable := by
  refine ⟨h.1, ?_⟩
  have hl := irLength_pos h.1
  show (s.traffic xs).io.tapStates = tapIdle
  have key : ∀ (xs : List Shift) (q : Port), q.io.tapStates = tapIdle →
      (xs.foldl (Port.shift s.pins s.irLength) q).io.tapStates = tapIdle := by
    intro xs
    induction xs with
    | nil => exact fun q h => h
    | cons x xs ih =>
      intro q hq
      apply ih
      cases x with
      | ir code => exact ShiftIdle_ir _ _ _ _ hl hq
      | dr v => exact ShiftIdle_dr _ _ _ _ hq
  exact key xs _ h.2

/-! ### Reading on -/

/-- How many words shifts capture. -/
def words (xs : List Shift) : Nat := xs.countP fun | .ir _ => false | .dr _ => true

@[simp] theorem words_append (xs ys : List Shift) : words (xs ++ ys) = words xs + words ys := by simp [words]
@[simp] theorem words_nil : words [] = 0 := rfl
@[simp] theorem words_ir (c : Word) (xs : List Shift) : words (.ir c :: xs) = words xs := by simp [words]
@[simp] theorem words_dr (v : Word) (xs : List Shift) : words (.dr v :: xs) = words xs + 1 := by simp [words]
@[simp] theorem words_polls (n : Nat) (v : Word) : words (List.replicate n (.dr v)) = n := by
  simp [words, List.countP_replicate]

theorem statusByte_shift (p : PinMap) (l : Nat) (q : Port) (x : Shift) (k : Nat) :
    (q.shift p l x).io.statusByte k = q.io.statusByte (32 * words [x] + k) := by
  cases x with
  | ir code =>
    simp only [Port.shift]
    split
    · simp
    · simp [Io.statusByte_after, samples_irPulses]
  | dr v => simp [Port.shift, Io.statusByte_after, samples_drPulses]

/-- After shifts that captured `n` words, word `k` to come is word `n + k` of before. -/
theorem captured_moved (xs : List Shift) (s : State) (k : Nat) :
    (s.moved xs).captured k = s.captured (words xs + k) := by
  have key : ∀ (xs : List Shift) (q : Port) (j : Nat),
      (xs.foldl (Port.shift s.pins s.irLength) q).io.statusByte j = q.io.statusByte (32 * words xs + j) := by
    intro xs
    induction xs with
    | nil => intro q j; simp
    | cons x xs ih =>
      intro q j
      rw [List.foldl_cons, ih, statusByte_shift]
      congr 1
      have : words (x :: xs) = words [x] + words xs := by rw [← words_append]; rfl
      omega
  unfold State.captured
  congr 1
  apply List.map_congr_left
  intro i _
  show tdoBit s.pins ((s.traffic xs).io.statusByte (32 * k + i)) = _
  rw [State.traffic, key]
  show tdoBit s.pins (s.io.statusByte _) = _
  congr 2
  omega

/-! ### Cancellations drawn -/

theorem drawCancel_eq (s : State) : s.drawCancel = (s.cancelLevel 0, s.drawn 1) := by
  unfold State.drawCancel State.cancelLevel State.drawn
  cases h : s.cancelIn with
  | nil => simp
  | cons c cs => simp

theorem drawn_zero (s : State) : s.drawn 0 = s := by simp [State.drawn]

theorem drawn_drawn (a b : Nat) (s : State) : (s.drawn a).drawn b = s.drawn (a + b) := by
  simp only [State.drawn, List.drop_drop, List.length_drop]
  congr 1
  omega

theorem cancelLevel_drawn (n k : Nat) (s : State) : (s.drawn n).cancelLevel k = s.cancelLevel (n + k) := by
  simp only [State.cancelLevel, State.drawn, List.getElem?_drop, List.length_drop]
  congr 2
  omega

end Sys2Proof.Machine
end

