-- ==== Sys2Proof/Laws/Access.lean ====
section
/-! SUPPORT. DMA accesses as runs of tasks: each pass of `State.access` is what the tasks of the access lead to, within
the bound `Pass.tasks`. -/

namespace Sys2Proof.Machine

/-! ### States on the way -/

/-- `s` after shifts `xs` and `n` draws of CANCEL, with `r` retries left, tasks `k` to do, and `v` returned. -/
def State.on (xs : List Shift) (n r : Nat) (k : List Task) (v : Word) (s : State) : State :=
  { (s.moved xs).drawn n with retries := r, cont := k, acc := v }

theorem on_zero (s : State) : s.on [] 0 s.retries s.cont s.acc = s := by
  simp only [State.on, moved_nil, drawn_zero]

/-- A change of the tasks alone. -/
theorem on_cont (l : List Task) (s : State) : { s with cont := l } = s.on [] 0 s.retries l s.acc := by
  simp only [State.on, moved_nil, drawn_zero]

theorem on_moved (xs ys : List Shift) (n r : Nat) (k : List Task) (v : Word) (s : State) :
    (s.on xs n r k v).moved ys = s.on (xs ++ ys) n r k v := by
  have h : (s.on xs n r k v).traffic ys = s.traffic (xs ++ ys) := by rw [traffic_append]; rfl
  unfold State.moved
  rw [h]
  rfl

theorem on_captured (xs : List Shift) (n r : Nat) (k : List Task) (v : Word) (s : State) (j : Nat) :
    (s.on xs n r k v).captured j = s.captured (words xs + j) := captured_moved xs s j

theorem on_drawn (xs : List Shift) (m n r : Nat) (k : List Task) (v : Word) (s : State) :
    (s.on xs n r k v).drawn m = s.on xs (n + m) r k v := by
  have h := drawn_drawn n m (s.moved xs)
  simp only [State.on, State.drawn] at *
  injection h with h1
  simp only [State.mk.injEq, true_and, and_true] at *
  constructor <;> assumption

theorem on_cancelLevel (xs : List Shift) (n r : Nat) (k : List Task) (v : Word) (s : State) (j : Nat) :
    (s.on xs n r k v).cancelLevel j = s.cancelLevel (n + j) := cancelLevel_drawn n j s

theorem on_shiftable (xs : List Shift) (n r : Nat) (k : List Task) (v : Word) {s : State} (h : s.Shiftable) :
    (s.on xs n r k v).Shiftable := shiftable_moved xs s h

@[simp] theorem on_acc (xs : List Shift) (n r : Nat) (k : List Task) (v : Word) (s : State) :
    (s.on xs n r k v).acc = v := rfl
@[simp] theorem on_ctl (xs : List Shift) (n r : Nat) (k : List Task) (v : Word) (s : State) :
    (s.on xs n r k v).ctl = s.ctl := rfl
@[simp] theorem on_ejtag (xs : List Shift) (n r : Nat) (k : List Task) (v : Word) (s : State) :
    (s.on xs n r k v).ejtag = s.ejtag := rfl
@[simp] theorem on_fast (xs : List Shift) (n r : Nat) (k : List Task) (v : Word) (s : State) :
    (s.on xs n r k v).fast = s.fast := rfl
@[simp] theorem on_push (xs : List Shift) (n r : Nat) (k ts : List Task) (v : Word) (s : State) :
    (s.on xs n r k v).push ts = s.on xs n r (ts ++ k) v := rfl
@[simp] theorem on_ret (xs : List Shift) (n r : Nat) (k : List Task) (v u : Word) (s : State) :
    (s.on xs n r k v).ret u = s.on xs n r k u := rfl

@[simp] theorem loadRetries_on (xs : List Shift) (n r : Nat) (k : List Task) (v : Word) (s : State) :
    (s.on xs n r k v).loadRetries = s.on xs n 16 k v := rfl

theorem getLsbD_dstrt (s : State) (c : Word) : c.getLsbD s.ctl.dstrt = s.dstrt c := rfl
theorem getLsbD_derr (s : State) (c : Word) : c.getLsbD s.ctl.derr = s.derr c := rfl
theorem getLsbD_pracc (s : State) (c : Word) : c.getLsbD s.ctl.pracc = s.praccBit c := rfl
theorem getLsbD_prnw (s : State) (c : Word) : c.getLsbD s.ctl.prnw = s.prnw c := rfl

/-- One task of a busy state on the way. -/
theorem reaches_on {s : State} (hb : s.busy = true) (xs : List Shift) (n r : Nat) (t : Task) (k : List Task)
    (v : Word) : Reaches 1 (s.on xs n r (t :: k) v) (runTask t (s.on xs n r k v)) :=
  reaches_task (s := s.on xs n r (t :: k) v) hb rfl

/-- The first task of a busy state with these tasks. -/
theorem reaches_start {s : State} (hb : s.busy = true) (t : Task) (k : List Task) :
    Reaches 1 { s with cont := t :: k } (runTask t (s.on [] 0 s.retries k s.acc)) := by
  rw [← on_cont]
  exact reaches_task (s := { s with cont := t :: k }) hb rfl

/-! ### Shifts as tasks -/

/-- The tasks of a list of shifts. -/
def shiftTasks (xs : List Shift) : List Task := xs.map fun | .ir c => .setIr c | .dr v => .shiftDr v

/-- The value returned by the last data-register shift of a list. -/
def State.lastWord (ys xs : List Shift) (v : Word) (s : State) : Word :=
  if words xs = 0 then v else s.captured (words ys + words xs - 1)

theorem reaches_shifts {s : State} (hb : s.busy = true) (hs : s.Shiftable) (xs ys : List Shift) (n r : Nat)
    (k : List Task) (v : Word) :
    Reaches xs.length (s.on ys n r (shiftTasks xs ++ k) v) (s.on (ys ++ xs) n r k (s.lastWord ys xs v)) := by
  induction xs generalizing ys v with
  | nil => simpa [shiftTasks, State.lastWord] using Reaches.refl (s.on ys n r k v)
  | cons x xs ih =>
    have h1 : Reaches 1 (s.on ys n r (shiftTasks (x :: xs) ++ k) v)
        (s.on (ys ++ [x]) n r (shiftTasks xs ++ k) (s.lastWord ys [x] v)) := by
      cases x with
      | ir c =>
        have h := reaches_on hb ys n r (.setIr c) (shiftTasks xs ++ k) v
        simp only [runTask] at h
        rw [setInstruction_eq c _ (on_shiftable ys n r _ v hs), on_moved] at h
        exact h
      | dr w =>
        have h := reaches_on hb ys n r (.shiftDr w) (shiftTasks xs ++ k) v
        simp only [runTask] at h
        rw [shiftData32_eq w _ (on_shiftable ys n r _ v hs).2, on_moved, on_captured] at h
        have hv : s.lastWord ys [.dr w] v = s.captured (words ys) := by simp [State.lastWord]
        rw [hv]
        exact h
    have h2 := ih (ys ++ [x]) (s.lastWord ys [x] v)
    have h12 := h1.trans h2
    have hv : s.lastWord (ys ++ [x]) xs (s.lastWord ys [x] v) = s.lastWord ys (x :: xs) v := by
      have hw : words (x :: xs) = words [x] + words xs := by rw [← words_append]; rfl
      unfold State.lastWord
      rw [words_append, hw]
      by_cases h : words xs = 0
      · simp [h]
      · rw [if_neg h, if_neg (by omega), Nat.add_assoc]
    rw [hv, List.append_assoc] at h12
    simpa [Nat.add_comm] using h12

/-! ### The start-bit poll (R175) -/

theorem reaches_pollStart {s : State} (hb : s.busy = true) (xs : List Shift) (n r : Nat)
    (a l v : Word) (k : List Task) (hc : s.cancelLevel n = false) :
    Reaches 1 (s.on xs n r (.pollStart a l :: k) v)
      (s.on xs (n + 1) r (.shiftDr (ctlDmaPoll s.ctl) :: .pollTest a :: k) v) := by
  have h := reaches_on hb xs n r (.pollStart a l) k v
  simp only [runTask, State.pollStart, drawCancel_eq, on_cancelLevel, Nat.add_zero, hc, on_drawn, on_push,
    on_ctl, Bool.false_eq_true, if_false] at h
  exact h

theorem reaches_poll {s : State} (hb : s.busy = true) (hs : s.Shiftable) (xs : List Shift) (n r : Nat)
    (a l v : Word) (k : List Task) (hc : s.cancelLevel n = false) :
    Reaches 3 (s.on xs n r (.pollStart a l :: k) v)
      (s.on (xs ++ s.pollShifts 1) (n + 1) r
        (if s.dstrt (s.captured (words xs)) then .pollStart a (s.captured (words xs)) :: k else k)
        (s.captured (words xs))) := by
  have h1 := reaches_pollStart hb xs n r a l v k hc
  have h2 := reaches_shifts hb hs [.dr (ctlDmaPoll s.ctl)] xs (n + 1) r (.pollTest a :: k) v
  have hw : s.lastWord xs [.dr (ctlDmaPoll s.ctl)] v = s.captured (words xs) := by simp [State.lastWord]
  rw [hw] at h2
  have h3 := reaches_on hb (xs ++ [.dr (ctlDmaPoll s.ctl)]) (n + 1) r (.pollTest a) k (s.captured (words xs))
  simp only [runTask, State.pollTest, on_acc, on_ctl, on_push, getLsbD_dstrt] at h3
  have h := (h1.trans h2).trans h3
  by_cases hd : s.dstrt (s.captured (words xs)) = true
  · simp only [hd, if_true] at h ⊢
    exact h
  · simp only [hd, Bool.false_eq_true, if_false] at h ⊢
    exact h

theorem pollShifts_succ (s : State) (q : Nat) : s.pollShifts (q + 1) = s.pollShifts 1 ++ s.pollShifts q := by
  simp [State.pollShifts, List.replicate_succ]

theorem words_pollShifts (s : State) (q : Nat) : words (s.pollShifts q) = q := words_polls _ _

/-- A poll that ends. -/
theorem reaches_polls {s : State} (hb : s.busy = true) (hs : s.Shiftable) (q : Nat) (xs : List Shift) (n r : Nat)
    (a l v : Word) (k : List Task) (hp : s.PollEnds (words xs) q)
    (hc : ∀ j < q + 1, s.cancelLevel (n + j) = false) :
    Reaches (3 * (q + 1)) (s.on xs n r (.pollStart a l :: k) v)
      (s.on (xs ++ s.pollShifts (q + 1)) (n + q + 1) r k (s.captured (words xs + q))) := by
  induction q generalizing xs n l v with
  | zero =>
    have h := reaches_poll hb hs xs n r a l v k (hc 0 (by omega))
    rw [if_neg (by simpa using hp.2)] at h
    simpa using h
  | succ q ih =>
    have h := reaches_poll hb hs xs n r a l v k (hc 0 (by omega))
    rw [if_pos (by simpa using hp.1 0 (by omega))] at h
    have h2 := ih (xs ++ s.pollShifts 1) (n + 1) (s.captured (words xs)) (s.captured (words xs)) (by
      rw [words_append, words_pollShifts]
      refine ⟨fun j hj => ?_, ?_⟩
      · have := hp.1 (1 + j) (by omega)
        rwa [← Nat.add_assoc] at this
      · have := hp.2
        rwa [Nat.add_comm q 1, ← Nat.add_assoc] at this) (fun j hj => by
      have := hc (1 + j) (by omega)
      rwa [← Nat.add_assoc] at this)
    have h3 := h.trans h2
    rw [List.append_assoc, ← pollShifts_succ, words_append, words_pollShifts] at h3
    have e1 : n + 1 + q + 1 = n + (q + 1) + 1 := by omega
    have e2 : words xs + 1 + q = words xs + (q + 1) := by omega
    rw [e1, e2] at h3
    exact h3.mono (by omega)

/-- A poll that is cancelled after `q` polls. -/
theorem reaches_cancel {s : State} (hb : s.busy = true) (hs : s.Shiftable) (q : Nat) (xs : List Shift) (n r : Nat)
    (a l v : Word) (k : List Task) (hp : ∀ j < q, s.dstrt (s.captured (words xs + j)) = true)
    (hq : ∀ j < q, s.cancelLevel (n + j) = false) (hc : s.cancelLevel (n + q) = true) :
    Reaches (3 * q + 1) (s.on xs n r (.pollStart a l :: k) v)
      ((s.on (xs ++ s.pollShifts q) (n + q + 1) r k
        (if q = 0 then v else s.captured (words xs + q - 1))).raise
        { code := .userCancelled, addr := a, data := if q = 0 then l else s.captured (words xs + q - 1) }) := by
  induction q generalizing xs n l v with
  | zero =>
    have h := reaches_on hb xs n r (.pollStart a l) k v
    have hc' : s.cancelLevel n = true := hc
    simp only [runTask, State.pollStart, drawCancel_eq, on_cancelLevel, Nat.add_zero, hc', on_drawn,
      if_true] at h
    simpa [State.pollShifts] using h
  | succ q ih =>
    have h := reaches_poll hb hs xs n r a l v k (hq 0 (by omega))
    rw [if_pos (by simpa using hp 0 (by omega))] at h
    have h2 := ih (xs ++ s.pollShifts 1) (n + 1) (s.captured (words xs)) (s.captured (words xs)) (fun j hj => by
      rw [words_append, words_pollShifts, Nat.add_assoc]
      exact hp (1 + j) (by omega)) (fun j hj => by
      rw [Nat.add_assoc]; exact hq (1 + j) (by omega)) (by
      rw [Nat.add_assoc, Nat.add_comm 1 q]; exact hc)
    have h3 := h.trans h2
    rw [List.append_assoc, ← pollShifts_succ, words_append, words_pollShifts] at h3
    have e1 : n + 1 + q + 1 = n + (q + 1) + 1 := by omega
    have e2 : ∀ x : Word, (if q = 0 then s.captured (words xs) else s.captured (words xs + 1 + q - 1)) =
        if q + 1 = 0 then x else s.captured (words xs + (q + 1) - 1) := by
      intro x
      rw [if_neg (by omega : ¬ q + 1 = 0)]
      split
      · rename_i hq; subst hq; simp
      · congr 1; omega
    rw [e1, e2 v] at h3
    have e3 := e2 l
    rw [e2 v] at e3
    simp only [if_neg (by omega : ¬ q + 1 = 0)] at h3 ⊢
    exact h3.mono (by omega)

/-! ### One careful attempt (R173, R174) -/

/-- The task of an attempt. -/
def attemptTask : Act → Task
  | .read a w => .dmaReadAttempt a w
  | .write a w v => .dmaWriteAttempt a w v

theorem words_start (s : State) (x : Act) : words (s.startShifts x) = x.startWords := by
  cases x <;> rfl

theorem words_attempt (s : State) (x : Act) (q : Nat) : words (s.attempt x q) = q + 5 := by
  unfold State.attempt
  rw [words_append, words_append, words_start, words_pollShifts]
  cases x <;> simp [State.clearShifts, Act.startWords] <;> omega

/-- A read attempt whose poll ends, up to its error test. -/
theorem reaches_readAttempt {s : State} (hb : s.busy = true) (hs : s.Shiftable) (a : Word) (w : Width) (q : Nat)
    (xs : List Shift) (n r : Nat) (v : Word) (k : List Task) (hp : s.PollEnds (words xs + 2) q)
    (hc : ∀ j < q + 1, s.cancelLevel (n + j) = false) :
    Reaches (14 + 3 * q) (s.on xs n r (.dmaReadAttempt a w :: k) v)
      ((s.on (xs ++ s.attempt (.read a w) q) (n + q + 1) r k (s.captured (words xs + q + 4))).dmaReadCheck a w
        (s.captured (words xs + q + 3))) := by
  have h0 := reaches_on hb xs n r (.dmaReadAttempt a w) k v
  simp only [runTask, State.dmaReadAttempt, on_push, on_ejtag] at h0
  have e0 : (s.on xs n r k v).dmaReadStart a w ++
      [.pollStart a 0, .setIr s.ejtag.irData, .shiftDr 0, .dmaReadClear a w] ++ k =
      shiftTasks (s.startShifts (.read a w)) ++ (.pollStart a 0 ::
        .setIr s.ejtag.irData :: .shiftDr 0 :: .dmaReadClear a w :: k) := rfl
  rw [e0] at h0
  have h1 := reaches_shifts hb hs (s.startShifts (.read a w)) xs n r (.pollStart a 0 ::
    .setIr s.ejtag.irData :: .shiftDr 0 :: .dmaReadClear a w :: k) v
  have hw1 : words (xs ++ s.startShifts (.read a w)) = words xs + 2 := by rw [words_append]; rfl
  have h2 := reaches_polls hb hs q (xs ++ s.startShifts (.read a w)) n r a 0
    (s.lastWord xs (s.startShifts (.read a w)) v)
    (.setIr s.ejtag.irData :: .shiftDr 0 :: .dmaReadClear a w :: k) (by rw [hw1]; exact hp) hc
  have h3 := reaches_shifts hb hs [.ir s.ejtag.irData, .dr 0]
    (xs ++ s.startShifts (.read a w) ++ s.pollShifts (q + 1)) (n + q + 1) r (.dmaReadClear a w :: k)
    (s.captured (words (xs ++ s.startShifts (.read a w)) + q))
  have hw3 : words (xs ++ s.startShifts (.read a w) ++ s.pollShifts (q + 1)) = words xs + q + 3 := by
    rw [words_append, hw1, words_pollShifts]; omega
  have hv3 : ∀ u, s.lastWord (xs ++ s.startShifts (.read a w) ++ s.pollShifts (q + 1))
      [.ir s.ejtag.irData, .dr 0] u = s.captured (words xs + q + 3) := by
    intro u; unfold State.lastWord; rw [hw3]; simp
  rw [hv3] at h3
  have h4 := reaches_on hb (xs ++ s.startShifts (.read a w) ++ s.pollShifts (q + 1) ++
    [.ir s.ejtag.irData, .dr 0]) (n + q + 1) r (.dmaReadClear a w) k (s.captured (words xs + q + 3))
  simp only [runTask, State.dmaReadClear, on_push, on_ejtag, on_ctl, on_acc] at h4
  have h5 := reaches_shifts hb hs [.ir s.ejtag.irControl, .dr (ctlDmaClear s.ctl)]
    (xs ++ s.startShifts (.read a w) ++ s.pollShifts (q + 1) ++ [.ir s.ejtag.irData, .dr 0]) (n + q + 1) r
    (.dmaReadCheck a w (s.captured (words xs + q + 3)) :: k) (s.captured (words xs + q + 3))
  have hv5 : ∀ u, s.lastWord (xs ++ s.startShifts (.read a w) ++ s.pollShifts (q + 1) ++
      [.ir s.ejtag.irData, .dr 0]) [.ir s.ejtag.irControl, .dr (ctlDmaClear s.ctl)] u =
      s.captured (words xs + q + 4) := by
    intro u; unfold State.lastWord; rw [words_append, hw3]; simp
  have hxs : xs ++ s.startShifts (.read a w) ++ s.pollShifts (q + 1) ++ [.ir s.ejtag.irData, .dr 0] ++
      [.ir s.ejtag.irControl, .dr (ctlDmaClear s.ctl)] = xs ++ s.attempt (.read a w) q := by
    simp [State.attempt, State.clearShifts]
  rw [hv5, hxs] at h5
  have h6 := reaches_on hb (xs ++ s.attempt (.read a w) q) (n + q + 1) r
    (.dmaReadCheck a w (s.captured (words xs + q + 3))) k (s.captured (words xs + q + 4))
  simp only [runTask] at h6
  have h := (((((h0.trans h1).trans h2).trans h3).trans h4).trans h5).trans h6
  refine Reaches.mono h ?_
  simp only [List.length_cons, List.length_nil, State.startShifts]
  omega

/-- A write attempt whose poll ends, up to its error test. -/
theorem reaches_writeAttempt {s : State} (hb : s.busy = true) (hs : s.Shiftable) (a : Word) (w : Width) (u : Word)
    (q : Nat) (xs : List Shift) (n r : Nat) (v : Word) (k : List Task) (hp : s.PollEnds (words xs + 3) q)
    (hc : ∀ j < q + 1, s.cancelLevel (n + j) = false) :
    Reaches (14 + 3 * q) (s.on xs n r (.dmaWriteAttempt a w u :: k) v)
      ((s.on (xs ++ s.attempt (.write a w u) q) (n + q + 1) r k
        (s.captured (words xs + q + 4))).dmaWriteCheck a w u) := by
  have h0 := reaches_on hb xs n r (.dmaWriteAttempt a w u) k v
  simp only [runTask, State.dmaWriteAttempt, on_push, on_ctl] at h0
  have e0 : (s.on xs n r k v).dmaWriteStart a w u ++
      [.pollStart a 0, .shiftDr (ctlDmaClear s.ctl), .dmaWriteCheck a w u] ++ k =
      shiftTasks (s.startShifts (.write a w u)) ++ (.pollStart a 0 ::
        .shiftDr (ctlDmaClear s.ctl) :: .dmaWriteCheck a w u :: k) := rfl
  rw [e0] at h0
  have h1 := reaches_shifts hb hs (s.startShifts (.write a w u)) xs n r (.pollStart a 0 ::
    .shiftDr (ctlDmaClear s.ctl) :: .dmaWriteCheck a w u :: k) v
  have hw1 : words (xs ++ s.startShifts (.write a w u)) = words xs + 3 := by rw [words_append]; rfl
  have h2 := reaches_polls hb hs q (xs ++ s.startShifts (.write a w u)) n r a 0
    (s.lastWord xs (s.startShifts (.write a w u)) v)
    (.shiftDr (ctlDmaClear s.ctl) :: .dmaWriteCheck a w u :: k) (by rw [hw1]; exact hp) hc
  have h3 := reaches_shifts hb hs [.dr (ctlDmaClear s.ctl)]
    (xs ++ s.startShifts (.write a w u) ++ s.pollShifts (q + 1)) (n + q + 1) r (.dmaWriteCheck a w u :: k)
    (s.captured (words (xs ++ s.startShifts (.write a w u)) + q))
  have hw3 : words (xs ++ s.startShifts (.write a w u) ++ s.pollShifts (q + 1)) = words xs + q + 4 := by
    rw [words_append, hw1, words_pollShifts]; omega
  have hv3 : ∀ z, s.lastWord (xs ++ s.startShifts (.write a w u) ++ s.pollShifts (q + 1))
      [.dr (ctlDmaClear s.ctl)] z = s.captured (words xs + q + 4) := by
    intro z; unfold State.lastWord; rw [hw3]; simp
  have hxs : xs ++ s.startShifts (.write a w u) ++ s.pollShifts (q + 1) ++ [.dr (ctlDmaClear s.ctl)] =
      xs ++ s.attempt (.write a w u) q := by
    simp [State.attempt, State.clearShifts]
  rw [hv3, hxs] at h3
  have h6 := reaches_on hb (xs ++ s.attempt (.write a w u) q) (n + q + 1) r
    (.dmaWriteCheck a w u) k (s.captured (words xs + q + 4))
  simp only [runTask] at h6
  have h := (((h0.trans h1).trans h2).trans h3).trans h6
  refine Reaches.mono h ?_
  simp only [List.length_cons, List.length_nil, State.startShifts]
  omega

/-- The error test at the end of an attempt (R173, R174). -/
def State.checked (x : Act) (s : State) (raw : Word) : State :=
  match x with
  | .read a w => s.dmaReadCheck a w raw
  | .write a w v => s.dmaWriteCheck a w v

/-- An attempt whose poll ends, up to its error test. -/
theorem reaches_attempt {s : State} (hb : s.busy = true) (hs : s.Shiftable) (x : Act) (q : Nat) (xs : List Shift)
    (n r : Nat) (v : Word) (k : List Task) (hp : s.PollEnds (words xs + x.startWords) q)
    (hc : ∀ j < q + 1, s.cancelLevel (n + j) = false) :
    Reaches (14 + 3 * q) (s.on xs n r (attemptTask x :: k) v)
      ((s.on (xs ++ s.attempt x q) (n + q + 1) r k (s.captured (words xs + q + 4))).checked x
        (s.captured (words xs + q + 3))) := by
  cases x with
  | read a w => exact reaches_readAttempt hb hs a w q xs n r v k hp hc
  | write a w u => exact reaches_writeAttempt hb hs a w u q xs n r v k hp hc

/-- The error test with DERR = 1: a retry, with the last data seen. -/
theorem checked_derr (x : Act) (s : State) (xs : List Shift) (n r m q : Nat) (k : List Task)
    (h : s.derr (s.captured (m + q + 4)) = true) :
    (s.on xs n r k (s.captured (m + q + 4))).checked x (s.captured (m + q + 3)) =
      (s.on xs n r k (s.captured (m + q + 4))).retry x.addr (s.seen m q x) (attemptTask x) := by
  cases x <;>
    simp only [State.checked, State.dmaReadCheck, State.dmaWriteCheck, on_acc, on_ctl, getLsbD_derr, h, if_true] <;>
    rfl

/-- The value a successful attempt returns. -/
def State.attemptValue (s : State) (m q : Nat) : Act → Word
  | .read a w => s.seen m q (.read a w)
  | .write _ _ _ => s.captured (m + q + 4)

/-- The error test with DERR = 0. -/
theorem checked_ok (x : Act) (s : State) (xs : List Shift) (n r m q : Nat) (k : List Task)
    (h : s.derr (s.captured (m + q + 4)) = false) :
    (s.on xs n r k (s.captured (m + q + 4))).checked x (s.captured (m + q + 3)) =
      s.on xs n r k (s.attemptValue m q x) := by
  cases x <;>
    simp only [State.checked, State.dmaReadCheck, State.dmaWriteCheck, on_acc, on_ctl, getLsbD_derr, h,
      Bool.false_eq_true, if_false, on_ret] <;>
    rfl

/-! ### Retries (R176) -/

theorem retry_succ (a d : Word) (t : Task) (r : Nat) (s : State) (h : s.retries = r + 1) :
    s.retry a d t = { s with retries := r, cont := t :: s.cont } := by
  unfold State.retry; rw [h]; rfl

theorem retry_zero (a d : Word) (t : Task) (s : State) (h : s.retries = 0) :
    s.retry a d t = s.raise { code := .transactionCorrupted, addr := a, data := d } := by
  unfold State.retry; rw [h]

/-- Attempts that end with DERR, as long as retries are left. -/
theorem reaches_fails {s : State} (hb : s.busy = true) (hs : s.Shiftable) (x : Act) (ks : List Nat)
    (xs : List Shift) (n r : Nat) (v : Word) (k : List Task) (hf : s.Fails x (words xs) ks)
    (hc : ∀ j < pollsOf ks, s.cancelLevel (n + j) = false) :
    ∃ u, Reaches ((ks.map (14 + 3 * ·)).sum) (s.on xs n (r + ks.length) (attemptTask x :: k) v)
      (s.on (xs ++ ks.flatMap (s.attempt x)) (n + pollsOf ks) r (attemptTask x :: k) u) := by
  induction ks generalizing xs n v with
  | nil => exact ⟨v, by simpa [pollsOf] using Reaches.refl _⟩
  | cons q ks ih =>
    obtain ⟨h1, h2, h3⟩ := hf
    have hq : pollsOf (q :: ks) = q + 1 + pollsOf ks := by simp [pollsOf]
    have ha := reaches_attempt hb hs x q xs n (r + (q :: ks).length) v k h1
      (fun j hj => hc j (by omega))
    rw [checked_derr _ _ _ _ _ _ _ _ h2, retry_succ _ _ _ (r + ks.length) _ rfl] at ha
    obtain ⟨u, hu⟩ := ih (xs ++ s.attempt x q) (n + q + 1) (s.captured (words xs + q + 4)) (by
      rw [words_append, words_attempt, ← Nat.add_assoc]; exact h3) (fun j hj => by
      have := hc (q + 1 + j) (by omega)
      rw [← this]; congr 1; omega)
    refine ⟨u, ?_⟩
    have := ha.trans hu
    rw [List.append_assoc] at this
    rw [hq, List.flatMap_cons]
    have e : n + q + 1 + pollsOf ks = n + (q + 1 + pollsOf ks) := by omega
    rw [e] at this
    simpa using this

theorem words_attempts (s : State) (x : Act) (ks : List Nat) :
    words (ks.flatMap (s.attempt x)) = wordsOf ks := by
  induction ks with
  | nil => rfl
  | cons q ks ih => rw [List.flatMap_cons, words_append, ih, words_attempt]; simp [wordsOf]

/-! ### A whole DMA access -/

/-- The task of a DMA access. -/
def dmaTask : Act → Task
  | .read a w => .dmaRead a w
  | .write a w v => .dmaWrite a w v

/-- A careful access begins with its first attempt and sixteen retries. -/
theorem reaches_careful {s : State} (hb : s.busy = true) (x : Act) (k : List Task) (hf : s.fast = false) :
    Reaches 1 { s with cont := dmaTask x :: k } (s.on [] 0 16 (attemptTask x :: k) s.acc) := by
  have h := reaches_start hb (dmaTask x) k
  cases x <;>
    simp only [dmaTask, runTask, State.dmaRead, State.dmaWrite, on_fast, hf, Bool.false_eq_true, if_false,
      loadRetries_on, on_push] at h <;>
    exact h

theorem reaches_fastRead {s : State} (hb : s.busy = true) (hs : s.Shiftable) (a : Word) (w : Width)
    (k : List Task) (hf : s.fast = true) :
    Reaches 11 { s with cont := .dmaRead a w :: k } { s.access (.read a w) .fast with cont := k } := by
  have h0 := reaches_start hb (.dmaRead a w) k
  simp only [runTask, State.dmaRead, on_fast, hf, if_true, loadRetries_on, on_push, on_ejtag] at h0
  have e0 : State.dmaReadStart a w (s.on [] 0 s.retries k s.acc) ++
      [.setIr s.ejtag.irData, .shiftDr 0, .fastReadClear a w] ++ k =
      shiftTasks (s.startShifts (.read a w) ++ [.ir s.ejtag.irData, .dr 0]) ++ (.fastReadClear a w :: k) := rfl
  rw [e0] at h0
  have h1 := reaches_shifts hb hs (s.startShifts (.read a w) ++ [.ir s.ejtag.irData, .dr 0]) [] 0 16
    (.fastReadClear a w :: k) s.acc
  have hv1 : s.lastWord [] (s.startShifts (.read a w) ++ [.ir s.ejtag.irData, .dr 0]) s.acc = s.captured 2 := by
    simp [State.lastWord, words_start, Act.startWords]
  rw [hv1, List.nil_append] at h1
  have h2 := reaches_on hb (s.startShifts (.read a w) ++ [.ir s.ejtag.irData, .dr 0]) 0 16
    (.fastReadClear a w) k (s.captured 2)
  simp only [runTask, State.fastReadClear, on_push, on_ejtag, on_ctl, on_acc] at h2
  have h3 := reaches_shifts hb hs [.ir s.ejtag.irControl, .dr (ctlDmaClear s.ctl)]
    (s.startShifts (.read a w) ++ [.ir s.ejtag.irData, .dr 0]) 0 16
    (.fastReadEnd a w (s.captured 2) :: k) (s.captured 2)
  have hv3 : s.lastWord (s.startShifts (.read a w) ++ [.ir s.ejtag.irData, .dr 0])
      [.ir s.ejtag.irControl, .dr (ctlDmaClear s.ctl)] (s.captured 2) = s.captured 3 := by
    simp [State.lastWord, words_start, Act.startWords]
  have hxs : s.startShifts (.read a w) ++ [.ir s.ejtag.irData, .dr 0] ++
      [.ir s.ejtag.irControl, .dr (ctlDmaClear s.ctl)] = s.startShifts (.read a w) ++ s.clearShifts (.read a w) := by
    simp [State.clearShifts]
  rw [hv3, hxs] at h3
  have h4 := reaches_on hb (s.startShifts (.read a w) ++ s.clearShifts (.read a w)) 0 16
    (.fastReadEnd a w (s.captured 2)) k (s.captured 3)
  simp only [runTask, State.fastReadEnd] at h4
  have e4 : (State.fastCheck (s.on (s.startShifts (.read a w) ++ s.clearShifts (.read a w)) 0 16 k
      (s.captured 3))).ret (readValue w (s.captured 2) a) = { s.access (.read a w) .fast with cont := k } := by
    unfold State.on
    rw [drawn_zero]
    rfl
  rw [e4] at h4
  exact (((h0.trans h1).trans h2).trans h3).trans h4

theorem reaches_fastWrite {s : State} (hb : s.busy = true) (hs : s.Shiftable) (a : Word) (w : Width) (u : Word)
    (k : List Task) (hf : s.fast = true) :
    Reaches 11 { s with cont := .dmaWrite a w u :: k } { s.access (.write a w u) .fast with cont := k } := by
  have h0 := reaches_start hb (.dmaWrite a w u) k
  simp only [runTask, State.dmaWrite, on_fast, hf, if_true, loadRetries_on, on_push, on_ctl] at h0
  have e0 : State.dmaWriteStart a w u (s.on [] 0 s.retries k s.acc) ++
      [.shiftDr (ctlDmaClear s.ctl), .fastWriteEnd] ++ k =
      shiftTasks (s.startShifts (.write a w u) ++ s.clearShifts (.write a w u)) ++ (.fastWriteEnd :: k) := rfl
  rw [e0] at h0
  have h1 := reaches_shifts hb hs (s.startShifts (.write a w u) ++ s.clearShifts (.write a w u)) [] 0 16
    (.fastWriteEnd :: k) s.acc
  have hv1 : s.lastWord [] (s.startShifts (.write a w u) ++ s.clearShifts (.write a w u)) s.acc = s.captured 3 := by
    simp [State.lastWord, words_start, Act.startWords, State.clearShifts]
  rw [hv1, List.nil_append] at h1
  have h4 := reaches_on hb (s.startShifts (.write a w u) ++ s.clearShifts (.write a w u)) 0 16
    .fastWriteEnd k (s.captured 3)
  simp only [runTask] at h4
  have e4 : State.fastCheck (s.on (s.startShifts (.write a w u) ++ s.clearShifts (.write a w u)) 0 16 k
      (s.captured 3)) = { s.access (.write a w u) .fast with cont := k } := by
    unfold State.on
    rw [drawn_zero]
    rfl
  rw [e4] at h4
  exact Reaches.mono ((h0.trans h1).trans h4) (by simp [State.startShifts, State.clearShifts])

/-- The failed attempts of a careful access, from its beginning. -/
theorem reaches_failed {s : State} (hb : s.busy = true) (hs : s.Shiftable) (x : Act) (ks : List Nat)
    (k : List Task) (hf : s.fast = false) (hn : ks.length ≤ 16) (ha : s.Fails x 0 ks) (hq : s.Quiet (pollsOf ks)) :
    ∃ u, Reaches (1 + (ks.map (14 + 3 * ·)).sum) { s with cont := dmaTask x :: k }
      (s.on (ks.flatMap (s.attempt x)) (pollsOf ks) (16 - ks.length) (attemptTask x :: k) u) := by
  obtain ⟨u, h⟩ := reaches_fails hb hs x ks [] 0 (16 - ks.length) s.acc k ha
    (fun j hj => by rw [Nat.zero_add]; exact hq j hj)
  rw [Nat.sub_add_cancel hn, List.nil_append, Nat.zero_add] at h
  exact ⟨u, (reaches_careful hb x k hf).trans h⟩

/-- A DMA access that ends without an error. -/
theorem reaches_dma_ok {s : State} (hb : s.busy = true) (hs : s.Shiftable) (x : Act) (p : Pass) (k : List Task)
    (hm : p.mode = .dma) (ho : p.ok = true) (ha : s.Allows x p) :
    Reaches (p.tasks - 1) { s with cont := dmaTask x :: k } { s.access x p with cont := k } := by
  cases p with
  | fast =>
    cases x with
    | read a w => exact reaches_fastRead hb hs a w k ha
    | write a w u => exact reaches_fastWrite hb hs a w u k ha
  | careful ks q =>
    obtain ⟨hf, hn, h1, h2, h3, h4⟩ := ha
    obtain ⟨u, h⟩ := reaches_failed hb hs x ks k hf hn h1 (fun j hj => h4 j (by omega))
    have hp := reaches_attempt hb hs x q (ks.flatMap (s.attempt x)) (pollsOf ks) (16 - ks.length) u k
      (by rw [words_attempts]; exact h2) (fun j hj => h4 (pollsOf ks + j) (by omega))
    rw [words_attempts, checked_ok _ _ _ _ _ _ _ _ h3] at hp
    have e : s.on (ks.flatMap (s.attempt x) ++ s.attempt x q) (pollsOf ks + q + 1) (16 - ks.length) k
        (s.attemptValue (wordsOf ks) q x) = { s.access x (.careful ks q) with cont := k } := by
      cases x <;> rfl
    rw [e] at hp
    exact Reaches.mono (h.trans hp) (by simp only [Pass.tasks]; omega)
  | corrupted ks q => cases ho
  | cancelled ks q => cases ho
  | pracc script q => cases hm

/-- The error an access that goes in this way ends with (R175, R177). -/
def State.accessError (x : Act) (s : State) : Pass → Option CmdError
  | .fast => none
  | .careful _ _ => none
  | .corrupted ks k => some { code := .transactionCorrupted, addr := x.addr, data := s.seen (wordsOf ks) k x }
  | .cancelled ks k =>
    some
      { code := .userCancelled
        addr := x.addr
        data := if k = 0 then 0 else s.captured (wordsOf ks + x.startWords + k - 1) }
  | .pracc _ _ => none

theorem raise_cancelled (s : State) (k l : List Task) (a d : Word) :
    State.raise { code := .userCancelled, addr := a, data := d } { s with cont := l } =
      State.raise { code := .userCancelled, addr := a, data := d } { s with cont := k } := by
  rw [raise_ends _ _ (.inl rfl), raise_ends _ _ (.inl rfl), endWithError_eq, endWithError_eq]
  simp

/-- A DMA access that ends with an error. -/
theorem reaches_dma_err {s : State} (hb : s.busy = true) (hs : s.Shiftable) (x : Act) (p : Pass) (k : List Task)
    (e : CmdError) (he : s.accessError x p = some e) (ha : s.Allows x p) :
    Reaches (p.tasks - 1) { s with cont := dmaTask x :: k } (State.raise e { s.access x p with cont := k }) := by
  cases p with
  | fast => cases he
  | careful ks q => cases he
  | pracc script q => cases he
  | corrupted ks q =>
    obtain ⟨hf, hn, h1, h2, h3, h4⟩ := ha
    obtain ⟨u, h⟩ := reaches_failed hb hs x ks k hf (by omega) h1 (fun j hj => h4 j (by omega))
    rw [hn] at h
    have hp := reaches_attempt hb hs x q (ks.flatMap (s.attempt x)) (pollsOf ks) 0 u k
      (by rw [words_attempts]; exact h2) (fun j hj => h4 (pollsOf ks + j) (by omega))
    rw [words_attempts, checked_derr _ _ _ _ _ _ _ _ h3, retry_zero _ _ _ _ rfl] at hp
    cases he
    exact Reaches.mono (h.trans hp) (by simp only [Pass.tasks]; omega)
  | cancelled ks q =>
    obtain ⟨hf, hn, h1, h2, h3, h4⟩ := ha
    obtain ⟨u, h⟩ := reaches_failed hb hs x ks k hf hn h1 (fun j hj => h3 j (by omega))
    cases he
    have hw : words (ks.flatMap (s.attempt x) ++ s.startShifts x) = wordsOf ks + x.startWords := by
      rw [words_append, words_attempts, words_start]
    have key : ∀ rest : List Task,
        Reaches 1 (s.on (ks.flatMap (s.attempt x)) (pollsOf ks) (16 - ks.length) (attemptTask x :: k) u)
          (s.on (ks.flatMap (s.attempt x)) (pollsOf ks) (16 - ks.length)
            (shiftTasks (s.startShifts x) ++ (.pollStart x.addr 0 :: rest)) u) →
        Reaches (Pass.tasks (.cancelled ks q) - 1) { s with cont := dmaTask x :: k }
          (State.raise
            { code := .userCancelled
              addr := x.addr
              data := if q = 0 then 0 else s.captured (wordsOf ks + x.startWords + q - 1) }
            { s.access x (.cancelled ks q) with cont := k }) := by
      intro rest h0
      have h1 := reaches_shifts hb hs (s.startShifts x) (ks.flatMap (s.attempt x)) (pollsOf ks) (16 - ks.length)
        (.pollStart x.addr 0 :: rest) u
      have hv : s.lastWord (ks.flatMap (s.attempt x)) (s.startShifts x) u =
          s.captured (wordsOf ks + x.startWords - 1) := by
        unfold State.lastWord
        rw [words_attempts, words_start, if_neg]
        cases x <;> simp [Act.startWords]
      rw [hv] at h1
      have hx := reaches_cancel hb hs q (ks.flatMap (s.attempt x) ++ s.startShifts x) (pollsOf ks)
        (16 - ks.length) x.addr 0 (s.captured (wordsOf ks + x.startWords - 1)) rest
        (by rw [hw]; exact h2) (fun j hj => h3 _ (by omega)) h4
      rw [hw] at hx
      have hacc : (if q = 0 then s.captured (wordsOf ks + x.startWords - 1) else
          s.captured (wordsOf ks + x.startWords + q - 1)) = s.captured (wordsOf ks + x.startWords + q - 1) := by
        split
        · rename_i hq; rw [hq]; rfl
        · rfl
      rw [hacc] at hx
      have ec := raise_cancelled (s.on (ks.flatMap (s.attempt x) ++ s.startShifts x ++ s.pollShifts q)
        (pollsOf ks + q + 1) (16 - ks.length) k (s.captured (wordsOf ks + x.startWords + q - 1))) k rest x.addr
        (if q = 0 then 0 else s.captured (wordsOf ks + x.startWords + q - 1))
      have hx' : Reaches (3 * q + 1) _ (State.raise _ (s.on _ _ _ k _)) := ec ▸ hx
      refine Reaches.mono (((h.trans h0).trans h1).trans hx') ?_
      have hl : (s.startShifts x).length ≤ 6 := by cases x <;> simp [State.startShifts]
      simp only [Pass.tasks]
      omega
    cases x with
    | read a w =>
      refine key (.setIr s.ejtag.irData :: .shiftDr 0 :: .dmaReadClear a w :: k) ?_
      have h0 := reaches_on hb (ks.flatMap (s.attempt (.read a w))) (pollsOf ks) (16 - ks.length)
        (.dmaReadAttempt a w) k u
      simp only [runTask, State.dmaReadAttempt, on_push, on_ejtag] at h0
      exact h0
    | write a w z =>
      refine key (.shiftDr (ctlDmaClear s.ctl) :: .dmaWriteCheck a w z :: k) ?_
      have h0 := reaches_on hb (ks.flatMap (s.attempt (.write a w z))) (pollsOf ks) (16 - ks.length)
        (.dmaWriteAttempt a w z) k u
      simp only [runTask, State.dmaWriteAttempt, on_push, on_ctl] at h0
      exact h0

end Sys2Proof.Machine
end

