-- ==== Sys2Proof/Laws/Pracc.lean ====
section
/-! SUPPORT. Processor Access as runs of tasks: a pass of the Debug Stub Executor over any script of CPU accesses is
what `State.access` says, within the bound `Pass.tasks`. -/

namespace Sys2Proof.Machine

/-! ### States inside RunModule -/

/-- The block with these mailboxes and this many hits. -/
def State.withMail (mail : Mail) (h : Nat) (s : State) : State :=
  { s with mboxAddr := mail.addr, mboxData := mail.data, stubAnomaly := mail.anomaly, hits := h }

@[simp] theorem withMail_captured (mail : Mail) (h : Nat) (s : State) (j : Nat) :
    (s.withMail mail h).captured j = s.captured j := rfl
@[simp] theorem withMail_ctl (mail : Mail) (h : Nat) (s : State) : (s.withMail mail h).ctl = s.ctl := rfl
@[simp] theorem withMail_ejtag (mail : Mail) (h : Nat) (s : State) : (s.withMail mail h).ejtag = s.ejtag := rfl
@[simp] theorem on_hits (xs : List Shift) (n r : Nat) (k : List Task) (v : Word) (s : State) :
    (s.on xs n r k v).hits = s.hits := rfl

/-- The value served is the one of the rule. -/
theorem serve_eq (m : ModuleKind) (mail : Mail) (h : Nat) (xs : List Shift) (n r : Nat) (k : List Task) (v a : Word)
    (s : State) : ((s.withMail mail h).on xs n r k v).serve m a = s.served m mail a := by
  unfold State.serve State.served
  by_cases h1 : s.ejtag.debugVector ≤ a
  · rw [if_pos h1, if_pos (by exact h1)]
    have e : State.moduleWords ((s.withMail mail h).on xs n r k v) m = s.moduleWords m := by cases m <;> rfl
    rw [e]
    show (match (s.moduleWords m)[(a - s.ejtag.debugVector).toNat / 4]? with
      | some v => (v, false) | none => (0, true)) = _
    by_cases h2 : (a - s.ejtag.debugVector).toNat / 4 < (s.moduleWords m).length
    · rw [if_pos h2, List.getElem?_eq_getElem h2, List.getD_eq_getElem _ _ h2]
    · rw [if_neg h2, List.getElem?_eq_none (by omega)]
  · rw [if_neg h1, if_neg (by exact h1)]
    rfl

/-! ### The poll (R191) -/

theorem reaches_praccPoll {s : State} (hb : s.busy = true) (hs : s.Shiftable) (m : ModuleKind) (xs : List Shift)
    (n r : Nat) (v : Word) (k : List Task) :
    Reaches 3 (s.on xs n r (.praccPoll m :: k) v)
      (s.on (xs ++ [.dr (ctlPraccPoll s.ctl)]) n r
        (if s.praccBit (s.captured (words xs)) then
          .setIr s.ejtag.irAddress :: .shiftDr 0 :: .praccServe m (s.prnw (s.captured (words xs))) :: k
         else .praccPoll m :: k)
        (s.captured (words xs))) := by
  have h1 := reaches_on hb xs n r (.praccPoll m) k v
  simp only [runTask, State.praccPoll, on_push, on_ctl] at h1
  have h2 := reaches_shifts hb hs [.dr (ctlPraccPoll s.ctl)] xs n r (.praccPollTest m :: k) v
  have hw : s.lastWord xs [.dr (ctlPraccPoll s.ctl)] v = s.captured (words xs) := by simp [State.lastWord]
  rw [hw] at h2
  have h3 := reaches_on hb (xs ++ [.dr (ctlPraccPoll s.ctl)]) n r (.praccPollTest m) k (s.captured (words xs))
  simp only [runTask, State.praccPollTest, on_acc, on_ctl, on_ejtag, on_push, getLsbD_pracc, getLsbD_prnw] at h3
  have h := (h1.trans h2).trans h3
  by_cases hd : s.praccBit (s.captured (words xs)) = true
  · simp only [hd, if_true] at h ⊢
    exact h
  · simp only [hd, Bool.false_eq_true, if_false] at h ⊢
    exact h

theorem reaches_praccPolls {s : State} (hb : s.busy = true) (hs : s.Shiftable) (m : ModuleKind) (q : Nat)
    (xs : List Shift) (n r : Nat) (v : Word) (k : List Task)
    (hp : ∀ j < q, s.praccBit (s.captured (words xs + j)) = false)
    (hq : s.praccBit (s.captured (words xs + q)) = true) :
    Reaches (3 * (q + 1)) (s.on xs n r (.praccPoll m :: k) v)
      (s.on (xs ++ List.replicate (q + 1) (.dr (ctlPraccPoll s.ctl))) n r
        (.setIr s.ejtag.irAddress :: .shiftDr 0 :: .praccServe m (s.prnw (s.captured (words xs + q))) :: k)
        (s.captured (words xs + q))) := by
  induction q generalizing xs v with
  | zero =>
    have h := reaches_praccPoll hb hs m xs n r v k
    rw [if_pos (by simpa using hq)] at h
    exact h
  | succ q ih =>
    have h := reaches_praccPoll hb hs m xs n r v k
    rw [if_neg (by have := hp 0 (by omega); simpa using this)] at h
    have hw : words (xs ++ [Shift.dr (ctlPraccPoll s.ctl)]) = words xs + 1 := by simp
    have h2 := ih (xs ++ [.dr (ctlPraccPoll s.ctl)]) (s.captured (words xs)) (fun j hj => by
      rw [hw, Nat.add_assoc]; exact hp (1 + j) (by omega)) (by
      rw [hw, Nat.add_assoc, Nat.add_comm 1 q]; exact hq)
    have h3 := h.trans h2
    have e : words xs + 1 + q = words xs + (q + 1) := by omega
    rw [hw, e, List.append_assoc, List.singleton_append, ← List.replicate_succ] at h3
    exact h3.mono (by omega)

theorem words_pendingShifts (s : State) (q : Nat) : words (s.pendingShifts q) = q + 2 := by
  unfold State.pendingShifts
  rw [List.cons_append, words_ir, words_append, words_polls]
  rfl

/-- One iteration up to the access: it is pending, and its address has been read. -/
theorem reaches_pending {s : State} (hb : s.busy = true) (hs : s.Shiftable) (m : ModuleKind) (q : Nat)
    (isWrite : Bool) (a : Word) (xs : List Shift) (n r : Nat) (v : Word) (k : List Task)
    (hp : s.Pending (words xs) q isWrite a) :
    Reaches (7 + 3 * q) (s.on xs n r (.moduleLoop m :: k) v)
      (s.on (xs ++ s.pendingShifts q) n r (.praccServe m isWrite :: k) a) := by
  obtain ⟨h1, h2, h3, h4⟩ := hp
  have g0 := reaches_on hb xs n r (.moduleLoop m) k v
  simp only [runTask, State.moduleLoop, on_push, on_ejtag] at g0
  have g1 := reaches_shifts hb hs [.ir s.ejtag.irControl] xs n r (.praccPoll m :: k) v
  have hw1 : words (xs ++ [Shift.ir s.ejtag.irControl]) = words xs := by simp
  have hv1 : s.lastWord xs [.ir s.ejtag.irControl] v = v := by simp [State.lastWord]
  rw [hv1] at g1
  have g2 := reaches_praccPolls hb hs m q (xs ++ [.ir s.ejtag.irControl]) n r v k (by rw [hw1]; exact h1)
    (by rw [hw1]; exact h2)
  rw [hw1, h3] at g2
  have g3 := reaches_shifts hb hs [.ir s.ejtag.irAddress, .dr 0]
    (xs ++ [.ir s.ejtag.irControl] ++ List.replicate (q + 1) (.dr (ctlPraccPoll s.ctl))) n r
    (.praccServe m isWrite :: k) (s.captured (words xs + q))
  have hv3 : s.lastWord (xs ++ [.ir s.ejtag.irControl] ++ List.replicate (q + 1) (.dr (ctlPraccPoll s.ctl)))
      [.ir s.ejtag.irAddress, .dr 0] (s.captured (words xs + q)) = a := by
    rw [← h4]
    unfold State.lastWord
    rw [words_append, hw1, words_polls]
    simp
    congr 1
  have hxs : xs ++ [.ir s.ejtag.irControl] ++ List.replicate (q + 1) (.dr (ctlPraccPoll s.ctl)) ++
      [.ir s.ejtag.irAddress, .dr 0] = xs ++ s.pendingShifts q := by
    simp [State.pendingShifts]
  rw [hv3, hxs] at g3
  refine Reaches.mono (((g0.trans g1).trans g2).trans g3) ?_
  simp only [List.length_cons, List.length_nil]
  omega

/-! ### Serving an access -/

theorem praccServe_read (m : ModuleKind) {s : State} (h : s.acc ≠ s.ejtag.debugVector) :
    s.praccServe m false = s.serveRead m s.acc := by simp [State.praccServe, h]

theorem praccServe_hit (m : ModuleKind) {s : State} (h : s.acc = s.ejtag.debugVector) (hh : s.hits + 1 ≠ 2) :
    s.praccServe m false = State.serveRead m s.acc { s with hits := s.hits + 1 } := by
  simp only [State.praccServe, if_pos h, if_neg hh, Bool.false_eq_true, if_false]

theorem praccServe_end (m : ModuleKind) {s : State} (h : s.acc = s.ejtag.debugVector) (hh : s.hits + 1 = 2) :
    s.praccServe m false = { s with hits := s.hits + 1 } := by
  simp only [State.praccServe, if_pos h, if_pos hh, Bool.false_eq_true, if_false]

theorem praccCommit_addr (m : ModuleKind) (d : Word) {s : State} {a : Word} (h : a = s.ejtag.vaddrReg) :
    s.praccCommit m a d = State.push [.moduleLoop m] { s with mboxAddr := d } := by
  simp only [State.praccCommit, if_pos h]

theorem praccCommit_data (m : ModuleKind) (d : Word) {s : State} {a : Word} (h : a ≠ s.ejtag.vaddrReg)
    (h' : a = s.ejtag.vdataReg) :
    s.praccCommit m a d = State.push [.moduleLoop m] { s with mboxData := d } := by
  simp only [State.praccCommit, if_neg h, if_pos h']

theorem praccCommit_none (m : ModuleKind) (d : Word) {s : State} {a : Word} (h : a ≠ s.ejtag.vaddrReg)
    (h' : a ≠ s.ejtag.vdataReg) :
    s.praccCommit m a d = State.push [.moduleLoop m] { s with stubAnomaly := true } := by
  simp only [State.praccCommit, if_neg h, if_neg h']

theorem reaches_serveRead {s : State} (hb : s.busy = true) (hs : s.Shiftable) (m : ModuleKind) (mail : Mail)
    (h : Nat) (a : Word) (xs : List Shift) (n r : Nat) (k : List Task)
    (hh : h + (if a = s.ejtag.debugVector then 1 else 0) ≠ 2 ∨ a ≠ s.ejtag.debugVector) :
    ∃ u, Reaches 5 ((s.withMail mail h).on xs n r (.praccServe m false :: k) a)
      ((s.withMail (s.mailAfter m mail (.read a)) (h + if a = s.ejtag.debugVector then 1 else 0)).on
        (xs ++ s.serveShifts m mail (.read a)) n r (.moduleLoop m :: k) u) := by
  have hb' : (s.withMail mail h).busy = true := hb
  have g0 := reaches_on hb' xs n r (.praccServe m false) k a
  simp only [runTask] at g0
  have key : Reaches 1 ((s.withMail mail h).on xs n r (.praccServe m false :: k) a)
      (((s.withMail mail (h + if a = s.ejtag.debugVector then 1 else 0)).on xs n r k a).serveRead m a) := by
    by_cases ha : a = s.ejtag.debugVector
    · have hne : ¬ (h + 1 = 2) := by
        rcases hh with hh | hh
        · simpa [ha] using hh
        · exact absurd ha hh
      rw [praccServe_hit m (by exact ha) (by exact hne)] at g0
      rw [if_pos ha]
      exact g0
    · rw [praccServe_read m (by exact ha)] at g0
      rw [if_neg ha]
      exact g0
  generalize (h + if a = s.ejtag.debugVector then 1 else 0) = h' at key ⊢
  have e : ((s.withMail mail h').on xs n r k a).serveRead m a =
      (s.withMail (s.mailAfter m mail (.read a)) h').on xs n r
        (shiftTasks (s.serveShifts m mail (.read a)) ++ (.moduleLoop m :: k)) a := by
    unfold State.serveRead
    rw [serve_eq]
    rfl
  rw [e] at key
  have hb'' : (s.withMail (s.mailAfter m mail (.read a)) h').busy = true := hb
  have hs'' : (s.withMail (s.mailAfter m mail (.read a)) h').Shiftable := hs
  exact ⟨_, key.trans (reaches_shifts hb'' hs'' (s.serveShifts m mail (.read a)) xs n r (.moduleLoop m :: k) a)⟩

theorem reaches_serveWrite {s : State} (hb : s.busy = true) (hs : s.Shiftable) (m : ModuleKind) (mail : Mail)
    (h : Nat) (a d : Word) (xs : List Shift) (n r : Nat) (k : List Task) (hd : s.captured (words xs) = d) :
    ∃ u, Reaches 7 ((s.withMail mail h).on xs n r (.praccServe m true :: k) a)
      ((s.withMail (s.mailAfter m mail (.write a d)) h).on
        (xs ++ s.serveShifts m mail (.write a d)) n r (.moduleLoop m :: k) u) := by
  have hb' : (s.withMail mail h).busy = true := hb
  have hs' : (s.withMail mail h).Shiftable := hs
  have g0 := reaches_on hb' xs n r (.praccServe m true) k a
  simp only [runTask, State.praccServe, on_acc, on_ejtag, withMail_ejtag, on_push, if_true] at g0
  have g1 := reaches_shifts hb' hs' [.ir s.ejtag.irData, .dr 0] xs n r (.praccStore m a :: k) a
  have hv1 : (s.withMail mail h).lastWord xs [.ir s.ejtag.irData, .dr 0] a = d := by
    rw [← hd]; simp [State.lastWord]
  rw [hv1] at g1
  have g2 := reaches_on hb' (xs ++ [.ir s.ejtag.irData, .dr 0]) n r (.praccStore m a) k d
  simp only [runTask, State.praccStore, on_acc, on_ejtag, on_ctl, withMail_ejtag, withMail_ctl, on_push] at g2
  have g3 := reaches_shifts hb' hs' [.ir s.ejtag.irControl, .dr (ctlPraccDone s.ctl)]
    (xs ++ [.ir s.ejtag.irData, .dr 0]) n r (.praccCommit m a d :: k) d
  have hxs : xs ++ [.ir s.ejtag.irData, .dr 0] ++ [.ir s.ejtag.irControl, .dr (ctlPraccDone s.ctl)] =
      xs ++ s.serveShifts m mail (.write a d) := by
    simp [State.serveShifts]
  rw [hxs] at g3
  generalize (s.withMail mail h).lastWord (xs ++ [.ir s.ejtag.irData, .dr 0])
    [.ir s.ejtag.irControl, .dr (ctlPraccDone s.ctl)] d = u at g3
  have g4 := reaches_on hb' (xs ++ s.serveShifts m mail (.write a d)) n r (.praccCommit m a d) k u
  simp only [runTask] at g4
  have e : State.praccCommit m a d ((s.withMail mail h).on (xs ++ s.serveShifts m mail (.write a d)) n r k u) =
      (s.withMail (s.mailAfter m mail (.write a d)) h).on (xs ++ s.serveShifts m mail (.write a d)) n r
        (.moduleLoop m :: k) u := by
    by_cases h1 : a = s.ejtag.vaddrReg
    · have em : s.mailAfter m mail (.write a d) = { mail with addr := d } := by simp [State.mailAfter, h1]
      rw [praccCommit_addr m d (by exact h1), em]; rfl
    · by_cases h2 : a = s.ejtag.vdataReg
      · have em : s.mailAfter m mail (.write a d) = { mail with data := d } := by
          simp only [State.mailAfter, if_neg h1, if_pos h2]
        rw [praccCommit_data m d (by exact h1) (by exact h2), em]; rfl
      · have em : s.mailAfter m mail (.write a d) = { mail with anomaly := true } := by
          simp only [State.mailAfter, if_neg h1, if_neg h2]
        rw [praccCommit_none m d (by exact h1) (by exact h2), em]; rfl
  rw [e] at g4
  exact ⟨u, Reaches.mono ((((g0.trans g1).trans g2).trans g3).trans g4) (by simp)⟩

theorem words_serveShifts (s : State) (m : ModuleKind) (mail : Mail) (x : StubAccess) :
    words (s.serveShifts m mail x) = 2 := by
  cases x <;> rfl

/-! ### A script -/

/-- Hits of a script. -/
def State.hitsOf (s : State) (script : List (Nat × StubAccess)) : Nat :=
  (script.map Prod.snd).count (.read s.ejtag.debugVector)

theorem reaches_script {s : State} (hb : s.busy = true) (hs : s.Shiftable) (m : ModuleKind)
    (script : List (Nat × StubAccess)) (mail : Mail) (h : Nat) (xs : List Shift) (n r : Nat) (v : Word)
    (k : List Task) (hm : s.Makes (words xs) script) (hc : h + s.hitsOf script ≤ 1) :
    ∃ u, Reaches ((script.map (14 + 3 * ·.1)).sum) ((s.withMail mail h).on xs n r (.moduleLoop m :: k) v)
      ((s.withMail (s.scriptRun m mail script).2 (h + s.hitsOf script)).on
        (xs ++ (s.scriptRun m mail script).1) n r (.moduleLoop m :: k) u) := by
  induction script generalizing mail h xs v with
  | nil => exact ⟨v, by simpa [State.scriptRun, State.hitsOf] using Reaches.refl _⟩
  | cons y script ih =>
    obtain ⟨q, x⟩ := y
    have hb' : (s.withMail mail h).busy = true := hb
    have hs' : (s.withMail mail h).Shiftable := hs
    have hcount : s.hitsOf ((q, x) :: script) =
        s.hitsOf script + if x = .read s.ejtag.debugVector then 1 else 0 := by
      simp [State.hitsOf, List.count_cons]
    have step : ∃ u, Reaches (14 + 3 * q) ((s.withMail mail h).on xs n r (.moduleLoop m :: k) v)
        ((s.withMail (s.mailAfter m mail x) (h + if x = .read s.ejtag.debugVector then 1 else 0)).on
          (xs ++ (s.pendingShifts q ++ s.serveShifts m mail x)) n r (.moduleLoop m :: k) u) ∧
        s.Makes (words xs + q + 4) script := by
      cases x with
      | read a =>
        obtain ⟨hp, hr⟩ := hm
        have g1 := reaches_pending hb' hs' m q false a xs n r v k hp
        have hif : (if StubAccess.read a = .read s.ejtag.debugVector then 1 else 0) =
            (if a = s.ejtag.debugVector then 1 else 0 : Nat) := by
          by_cases ha : a = s.ejtag.debugVector <;> simp [ha]
        rw [hif] at hcount ⊢
        obtain ⟨u, g2⟩ := reaches_serveRead hb hs m mail h a (xs ++ s.pendingShifts q) n r k (by
          left; omega)
        refine ⟨u, ?_, hr⟩
        rw [← List.append_assoc]
        exact Reaches.mono (g1.trans g2) (by omega)
      | write a d =>
        obtain ⟨hp, hd, hr⟩ := hm
        have g1 := reaches_pending hb' hs' m q true a xs n r v k hp
        obtain ⟨u, g2⟩ := reaches_serveWrite hb hs m mail h a d (xs ++ s.pendingShifts q) n r k (by
          rw [words_append, words_pendingShifts]; exact hd)
        refine ⟨u, ?_, hr⟩
        rw [← List.append_assoc]
        exact Reaches.mono (g1.trans g2) (by omega)
    obtain ⟨u, g, hr⟩ := step
    obtain ⟨u', g'⟩ := ih (s.mailAfter m mail x) (h + if x = .read s.ejtag.debugVector then 1 else 0)
      (xs ++ (s.pendingShifts q ++ s.serveShifts m mail x)) u (by
        rw [words_append, words_append, words_pendingShifts, words_serveShifts]
        exact hr) (by omega)
    refine ⟨u', ?_⟩
    have e : h + s.hitsOf ((q, x) :: script) =
        h + (if x = .read s.ejtag.debugVector then 1 else 0) + s.hitsOf script := by omega
    rw [e]
    have g2 := g.trans g'
    rw [List.append_assoc] at g2
    exact g2

/-! ### A whole pass -/

/-- The task of a PrAcc access. -/
def praccTask : Act → Task
  | .read a w => .praccRead a w
  | .write a w v => .praccWrite a w v

theorem words_script (s : State) (m : ModuleKind) (mail : Mail) (script : List (Nat × StubAccess)) :
    words (s.scriptRun m mail script).1 = scriptWords script := by
  induction script generalizing mail with
  | nil => rfl
  | cons y script ih =>
    obtain ⟨q, x⟩ := y
    simp only [State.scriptRun]
    rw [words_append, words_append, ih, words_pendingShifts, words_serveShifts]
    simp [scriptWords]

/-- RunModule from its start to its second hit. -/
theorem reaches_module {s : State} (hb : s.busy = true) (hs : s.Shiftable) (m : ModuleKind) (mail : Mail) (h : Nat)
    (script : List (Nat × StubAccess)) (q : Nat) (v : Word) (k : List Task) (hm : s.Makes 0 script)
    (hc : s.hitsOf script = 1) (hp : s.Pending (scriptWords script) q false s.ejtag.debugVector) :
    Reaches (9 + 3 * q + (script.map (14 + 3 * ·.1)).sum)
      ((s.withMail mail h).on [] 0 s.retries (.runModule m :: k) v)
      ((s.withMail (s.scriptRun m mail script).2 2).on
        ((s.scriptRun m mail script).1 ++ s.pendingShifts q) 0 s.retries k s.ejtag.debugVector) := by
  have hb' : (s.withMail mail h).busy = true := hb
  have g0 := reaches_on hb' [] 0 s.retries (.runModule m) k v
  simp only [runTask, State.runModule] at g0
  have e0 : State.push [.moduleLoop m] { (s.withMail mail h).on [] 0 s.retries k v with hits := 0 } =
      (s.withMail mail 0).on [] 0 s.retries (.moduleLoop m :: k) v := rfl
  rw [e0] at g0
  obtain ⟨u, g1⟩ := reaches_script hb hs m script mail 0 [] 0 s.retries v k hm (by omega)
  rw [List.nil_append, Nat.zero_add, hc] at g1
  have hb1 : (s.withMail (s.scriptRun m mail script).2 1).busy = true := hb
  have hs1 : (s.withMail (s.scriptRun m mail script).2 1).Shiftable := hs
  have g2 := reaches_pending hb1 hs1 m q false s.ejtag.debugVector (s.scriptRun m mail script).1 0 s.retries u k
    (by rw [words_script]; exact hp)
  have g3 := reaches_on hb1 ((s.scriptRun m mail script).1 ++ s.pendingShifts q) 0 s.retries
    (.praccServe m false) k s.ejtag.debugVector
  simp only [runTask] at g3
  rw [praccServe_end m (by rfl) (by rfl)] at g3
  have g3' : Reaches 1 _ ((s.withMail (s.scriptRun m mail script).2 2).on
    ((s.scriptRun m mail script).1 ++ s.pendingShifts q) 0 s.retries k s.ejtag.debugVector) := g3
  exact Reaches.mono (((g0.trans g1).trans g2).trans g3') (by omega)

/-- A PrAcc access. -/
theorem reaches_pracc {s : State} (hb : s.busy = true) (hs : s.Shiftable) (x : Act) (p : Pass) (k : List Task)
    (hm : p.mode = .pracc) (ha : s.Allows x p) :
    Reaches (p.tasks - 1) { s with cont := praccTask x :: k } { s.access x p with cont := k } := by
  cases p with
  | fast => cases hm
  | careful ks q => cases hm
  | corrupted ks q => cases hm
  | cancelled ks q => cases hm
  | pracc script q =>
    obtain ⟨h1, h2, h3⟩ := ha
    have g0 := reaches_start hb (praccTask x) k
    cases x with
    | read a w =>
      simp only [praccTask, runTask, State.praccRead] at g0
      have e0 : State.push [.runModule (readModule w), .praccReadEnd w]
          { s.on [] 0 s.retries k s.acc with mboxAddr := Config.praccVaddr a, mboxData := 0 } =
          (s.withMail (s.loadMail (.read a w)) s.hits).on [] 0 s.retries
            (.runModule (readModule w) :: .praccReadEnd w :: k) s.acc := rfl
      rw [e0] at g0
      have g1 := reaches_module hb hs (readModule w) (s.loadMail (.read a w)) s.hits script q s.acc
        (.praccReadEnd w :: k) h1 h2 h3
      have hb2 : (s.withMail (s.scriptRun (readModule w) (s.loadMail (.read a w)) script).2 2).busy = true := hb
      have g2 := reaches_on hb2 ((s.scriptRun (readModule w) (s.loadMail (.read a w)) script).1 ++
        s.pendingShifts q) 0 s.retries (.praccReadEnd w) k s.ejtag.debugVector
      cases w with
      | word =>
        have e2 : (s.withMail (s.scriptRun (readModule .word) (s.loadMail (.read a .word)) script).2 2).on
            ((s.scriptRun (readModule .word) (s.loadMail (.read a .word)) script).1 ++ s.pendingShifts q) 0 s.retries k
            (s.scriptRun (readModule .word) (s.loadMail (.read a .word)) script).2.data =
            { s.access (.read a .word) (.pracc script q) with cont := k } := by
          unfold State.on
          rw [drawn_zero]
          rfl
        have g2' : Reaches 1 _ ((s.withMail (s.scriptRun (readModule .word) (s.loadMail (.read a .word)) script).2 2).on
            ((s.scriptRun (readModule .word) (s.loadMail (.read a .word)) script).1 ++ s.pendingShifts q) 0 s.retries k
            (s.scriptRun (readModule .word) (s.loadMail (.read a .word)) script).2.data) := g2
        rw [e2] at g2'
        exact Reaches.mono ((g0.trans g1).trans g2') (by simp only [Pass.tasks]; omega)
      | half =>
        have e2 : (s.withMail (s.scriptRun (readModule .half) (s.loadMail (.read a .half)) script).2 2).on
            ((s.scriptRun (readModule .half) (s.loadMail (.read a .half)) script).1 ++ s.pendingShifts q) 0 s.retries k
            ((s.scriptRun (readModule .half) (s.loadMail (.read a .half)) script).2.data &&& 0xFFFF) =
            { s.access (.read a .half) (.pracc script q) with cont := k } := by
          unfold State.on
          rw [drawn_zero]
          rfl
        have g2' : Reaches 1 _ ((s.withMail (s.scriptRun (readModule .half) (s.loadMail (.read a .half)) script).2 2).on
            ((s.scriptRun (readModule .half) (s.loadMail (.read a .half)) script).1 ++ s.pendingShifts q) 0 s.retries k
            ((s.scriptRun (readModule .half) (s.loadMail (.read a .half)) script).2.data &&& 0xFFFF)) := g2
        rw [e2] at g2'
        exact Reaches.mono ((g0.trans g1).trans g2') (by simp only [Pass.tasks]; omega)
    | write a w v =>
      simp only [praccTask, runTask, State.praccWrite] at g0
      have e0 : State.push [.runModule (writeModule w)]
          { s.on [] 0 s.retries k s.acc with mboxAddr := Config.praccVaddr a, mboxData := readValue w v a } =
          (s.withMail (s.loadMail (.write a w v)) s.hits).on [] 0 s.retries
            (.runModule (writeModule w) :: k) s.acc := rfl
      rw [e0] at g0
      have g1 := reaches_module hb hs (writeModule w) (s.loadMail (.write a w v)) s.hits script q s.acc k h1 h2 h3
      have e2 : (s.withMail (s.scriptRun (writeModule w) (s.loadMail (.write a w v)) script).2 2).on
          ((s.scriptRun (writeModule w) (s.loadMail (.write a w v)) script).1 ++ s.pendingShifts q) 0 s.retries k
          s.ejtag.debugVector = { s.access (.write a w v) (.pracc script q) with cont := k } := by
        unfold State.on
        rw [drawn_zero]
        rfl
      rw [e2] at g1
      exact Reaches.mono (g0.trans g1) (by simp only [Pass.tasks]; omega)

end Sys2Proof.Machine
end

