-- ==== Sys2Proof/Laws/Flash.lean ====
section
/-! SUPPORT. Accesses by MODE, completion polls and sequences of flash operations as runs of tasks, and the frame they
all keep. -/

namespace Sys2Proof.Machine

/-! ### The frame of target traffic -/

/-- `t` differs from `s` only in what target accesses may change. -/
def Framed (s t : State) : Prop :=
  t = { s with
    io := t.io, irCache := t.irCache, irCacheValid := t.irCacheValid, acc := t.acc, retries := t.retries,
    possibleCorruption := t.possibleCorruption, cancelIn := t.cancelIn, cancelDraws := t.cancelDraws,
    mboxAddr := t.mboxAddr, mboxData := t.mboxData, stubAnomaly := t.stubAnomaly, hits := t.hits }

theorem Framed.eq {s t : State} (h : Framed s t) : t = { s with
    io := t.io, irCache := t.irCache, irCacheValid := t.irCacheValid, acc := t.acc, retries := t.retries,
    possibleCorruption := t.possibleCorruption, cancelIn := t.cancelIn, cancelDraws := t.cancelDraws,
    mboxAddr := t.mboxAddr, mboxData := t.mboxData, stubAnomaly := t.stubAnomaly, hits := t.hits } := h

theorem Framed.refl (s : State) : Framed s s := rfl

theorem Framed.trans {s t u : State} (h₁ : Framed s t) (h₂ : Framed t u) : Framed s u := by
  unfold Framed at *
  rw [h₂, h₁]

theorem Framed.busy {s t : State} (h : Framed s t) : t.busy = s.busy := by have e := congrArg State.busy h.eq; exact e
theorem Framed.mode {s t : State} (h : Framed s t) : t.mode = s.mode := by have e := congrArg State.mode h.eq; exact e
theorem Framed.chip {s t : State} (h : Framed s t) : t.chip = s.chip := by have e := congrArg State.chip h.eq; exact e
theorem Framed.flashBase {s t : State} (h : Framed s t) : t.flashBase = s.flashBase := by have e := congrArg State.flashBase h.eq; exact e
theorem Framed.params {s t : State} (h : Framed s t) : t.params = s.params := by have e := congrArg State.params h.eq; exact e
theorem Framed.flashParams {s t : State} (h : Framed s t) : t.flashParams = s.flashParams := by
  have e := congrArg State.flashParams h.eq; exact e
theorem Framed.pace {s t : State} (h : Framed s t) : t.pace = s.pace := by have e := congrArg State.pace h.eq; exact e
theorem Framed.cmd {s t : State} (h : Framed s t) : t.cmd = s.cmd := by have e := congrArg State.cmd h.eq; exact e
theorem Framed.err {s t : State} (h : Framed s t) : t.err = s.err := by have e := congrArg State.err h.eq; exact e
theorem Framed.result {s t : State} (h : Framed s t) : t.result = s.result := by have e := congrArg State.result h.eq; exact e
theorem Framed.eraseFailed {s t : State} (h : Framed s t) : t.eraseFailed = s.eraseFailed := by
  have e := congrArg State.eraseFailed h.eq; exact e
theorem Framed.irLength {s t : State} (h : Framed s t) : t.irLength = s.irLength := by have e := congrArg State.irLength h.eq; exact e
theorem Framed.irLengthLegal {s t : State} (h : Framed s t) : t.irLengthLegal = s.irLengthLegal := by
  have e := congrArg State.irLengthLegal h.eq; exact e

theorem access_framed (x : Act) (p : Pass) (s : State) : Framed s (s.access x p) := by
  cases p <;> rfl

theorem drawn_framed (n : Nat) (s : State) : Framed s (s.drawn n) := rfl

theorem polled_framed (a : Word) (ps : List Pass) (s : State) : Framed s (s.polled a ps) := by
  induction ps generalizing s with
  | nil => exact Framed.refl s
  | cons p ps ih =>
    exact ((drawn_framed 1 s).trans (access_framed _ p _)).trans (ih _)

theorem writes_framed (a v : Word) (ps : List Pass) (s : State) :
    Framed s (ps.foldl (fun s p => s.access (.write a .half v) p) s) := by
  induction ps generalizing s with
  | nil => exact Framed.refl s
  | cons p ps ih => exact (access_framed _ p _).trans (ih _)

theorem opsRun_framed (run : List (Op × List Pass)) (s : State) : Framed s (s.opsRun run) := by
  induction run generalizing s with
  | nil => exact Framed.refl s
  | cons r run ih =>
    obtain ⟨op, ps⟩ := r
    cases op with
    | write a v => exact (writes_framed a v ps s).trans (ih _)
    | poll a cond => exact (polled_framed a ps s).trans (ih _)

theorem access_shiftable (x : Act) (p : Pass) {s : State} (h : s.Shiftable) : (s.access x p).Shiftable := by
  cases p <;> exact ⟨h.1, (shiftable_moved _ s h).2⟩

theorem drawn_shiftable (n : Nat) {s : State} (h : s.Shiftable) : (s.drawn n).Shiftable := h

theorem polled_shiftable (a : Word) (ps : List Pass) {s : State} (h : s.Shiftable) : (s.polled a ps).Shiftable := by
  induction ps generalizing s with
  | nil => exact h
  | cons p ps ih => exact ih (access_shiftable _ p (drawn_shiftable 1 h))

theorem writes_shiftable (a v : Word) (ps : List Pass) {s : State} (h : s.Shiftable) :
    (ps.foldl (fun s p => s.access (.write a .half v) p) s).Shiftable := by
  induction ps generalizing s with
  | nil => exact h
  | cons p ps ih => exact ih (access_shiftable _ p h)

theorem opsRun_shiftable (run : List (Op × List Pass)) {s : State} (h : s.Shiftable) : (s.opsRun run).Shiftable := by
  induction run generalizing s with
  | nil => exact h
  | cons r run ih =>
    obtain ⟨op, ps⟩ := r
    cases op with
    | write a v => exact ih (writes_shiftable a v ps h)
    | poll a cond => exact ih (polled_shiftable a ps h)

/-! ### Accesses by MODE (R170) -/

/-- The task of an access by MODE. -/
def memTask : Act → Task
  | .read a w => .memRead a w
  | .write a w v => .memWrite a w v

theorem memTask_dma (x : Act) (k : List Task) {s : State} (hm : s.mode = .dma)
    (ha : misaligned x.addr x.width = false) :
    runTask (memTask x) { s with cont := k } = { s with cont := dmaTask x :: k } := by
  cases x <;> simp only [Act.addr, Act.width] at ha <;>
    simp [memTask, runTask, State.memRead, State.memWrite, ha, hm, State.push, dmaTask]

theorem memTask_pracc (x : Act) (k : List Task) {s : State} (hm : s.mode = .pracc)
    (ha : misaligned x.addr x.width = false) :
    runTask (memTask x) { s with cont := k } = { s with cont := praccTask x :: k } := by
  cases x <;> simp only [Act.addr, Act.width] at ha <;>
    simp [memTask, runTask, State.memRead, State.memWrite, ha, hm, State.push, praccTask]

theorem memTask_misaligned (x : Act) (k : List Task) {s : State} (ha : misaligned x.addr x.width = true) :
    runTask (memTask x) { s with cont := k } =
      State.raise (misalignedError x.addr x.operand) { s with cont := k } := by
  cases x <;> simp only [Act.addr, Act.width] at ha <;>
    simp [memTask, runTask, State.memRead, State.memWrite, ha, Act.addr, Act.operand]

theorem reaches_cont {s : State} (hb : s.busy = true) (t : Task) (k : List Task) :
    Reaches 1 { s with cont := t :: k } (runTask t { s with cont := k }) :=
  reaches_task (s := { s with cont := t :: k }) hb rfl

/-- An access by MODE that ends without an error. -/
theorem reaches_act_ok {s : State} (hb : s.busy = true) (hs : s.Shiftable) (x : Act) (p : Pass) (k : List Task)
    (hg : s.Goes x p) : Reaches p.tasks { s with cont := memTask x :: k } { s.access x p with cont := k } := by
  obtain ⟨hm, ha, ho, hall⟩ := hg
  have h0 := reaches_cont hb (memTask x) k
  have h1 : 1 ≤ p.tasks := by cases p <;> simp only [Pass.tasks] <;> omega
  by_cases hp : p.mode = .dma
  · rw [memTask_dma x k (by rw [← hm, hp]) ha] at h0
    exact Reaches.mono (h0.trans (reaches_dma_ok hb hs x p k hp ho hall)) (by omega)
  · have hp' : p.mode = .pracc := by cases p <;> simp_all [Pass.mode]
    rw [memTask_pracc x k (by rw [← hm, hp']) ha] at h0
    exact Reaches.mono (h0.trans (reaches_pracc hb hs x p k hp' hall)) (by omega)

/-- An access by MODE that ends with an error of its own. -/
theorem reaches_act_err {s : State} (hb : s.busy = true) (hs : s.Shiftable) (x : Act) (p : Pass) (k : List Task)
    (e : CmdError) (hm : s.mode = .dma) (ha : misaligned x.addr x.width = false) (hall : s.Allows x p)
    (he : s.accessError x p = some e) :
    Reaches p.tasks { s with cont := memTask x :: k } (State.raise e { s.access x p with cont := k }) := by
  have h0 := reaches_cont hb (memTask x) k
  rw [memTask_dma x k hm ha] at h0
  have h1 : 1 ≤ p.tasks := by cases p <;> simp only [Pass.tasks] <;> omega
  exact Reaches.mono (h0.trans (reaches_dma_err hb hs x p k e he hall)) (by omega)

/-- The first shift of an access by MODE, where no shift can be made. -/
theorem reaches_unshiftable {s : State} (hb : s.busy = true) (x : Act) (k : List Task) (hm : s.mode ≠ .none)
    (ha : misaligned x.addr x.width = false) (hs : ¬ s.Shiftable) :
    Reaches 5 { s with cont := memTask x :: k } (State.raise s.shiftError { s.beforeShift x with cont := k }) := by
  have h0 := reaches_cont hb (memTask x) k
  have fin : ∀ (t : State) (ir : Word) (l : List Task), t.busy = true → t.io = s.io → t.config = s.config →
      enclosingArea l = enclosingArea k →
      Reaches 1 { t with cont := .setIr ir :: l } (State.raise s.shiftError { t with cont := k }) := by
    intro t ir l hb' hio hc hl
    have g := reaches_cont hb' (.setIr ir) l
    have hs' : ¬ State.Shiftable { t with cont := l } := by
      intro h
      refine hs ⟨?_, ?_⟩
      · have := h.1
        unfold State.irLengthLegal State.irLength at this ⊢
        rwa [← hc]
      · have := h.2
        rwa [← hio]
    have he : State.shiftError { t with cont := l } = s.shiftError := by
      unfold State.shiftError State.irLengthLegal State.irLength State.configWord
      simp only [hio, hc]
    have e : runTask (.setIr ir) { t with cont := l } = State.raise s.shiftError { t with cont := k } := by
      rw [← raise_cont _ _ (shiftError_code s) hl, ← he]
      exact setInstruction_raise ir _ hs'
    rw [e] at g
    exact g
  have hmode : s.mode = .dma ∨ s.mode = .pracc := by cases h : s.mode <;> simp_all
  rcases hmode with hmm | hmm
  · rw [memTask_dma x k hmm ha] at h0
    have h1 := reaches_cont hb (dmaTask x) k
    have hbs : s.beforeShift x = { s with retries := 16 } := by unfold State.beforeShift; rw [hmm]
    rw [hbs]
    cases hf : s.fast with
    | true =>
      obtain ⟨l, hl, hl'⟩ : ∃ l, runTask (dmaTask x) { s with cont := k } =
          { ({ s with retries := 16 } : State) with cont := .setIr s.ejtag.irAddress :: l } ∧
          enclosingArea l = enclosingArea k := by
        cases x <;> simp only [dmaTask, runTask, State.dmaRead, State.dmaWrite] <;> rw [if_pos (by exact hf)] <;>
          exact ⟨_, rfl, rfl⟩
      rw [hl] at h1
      have g := (h0.trans h1).trans (fin { s with retries := 16 } _ l hb rfl rfl hl')
      exact Reaches.mono g (by decide)
    | false =>
      have h2 := reaches_cont (s := { s with retries := 16 }) hb (attemptTask x) k
      have e1 : runTask (dmaTask x) { s with cont := k } =
          { ({ s with retries := 16 } : State) with cont := attemptTask x :: k } := by
        cases x <;> simp only [dmaTask, runTask, State.dmaRead, State.dmaWrite] <;>
          rw [if_neg (by show ¬ s.fast = true; simp [hf])] <;> rfl
      obtain ⟨l, hl, hl'⟩ : ∃ l, runTask (attemptTask x) { ({ s with retries := 16 } : State) with cont := k } =
          { ({ s with retries := 16 } : State) with cont := .setIr s.ejtag.irAddress :: l } ∧
          enclosingArea l = enclosingArea k := by
        cases x <;> exact ⟨_, rfl, rfl⟩
      rw [e1] at h1
      rw [hl] at h2
      have g := ((h0.trans h1).trans h2).trans (fin { s with retries := 16 } _ l hb rfl rfl hl')
      exact Reaches.mono g (by decide)
  · rw [memTask_pracc x k hmm ha] at h0
    have h1 := reaches_cont hb (praccTask x) k
    have hbs : s.beforeShift x = { s with
        mboxAddr := (s.loadMail x).addr, mboxData := (s.loadMail x).data, hits := 0 } := by
      unfold State.beforeShift; rw [hmm]
    rw [hbs]
    obtain ⟨l, hl, hl'⟩ : ∃ l, runTask (praccTask x) { s with cont := k } =
        { ({ s with mboxAddr := (s.loadMail x).addr, mboxData := (s.loadMail x).data } : State) with
          cont := .runModule x.module :: l } ∧ enclosingArea l = enclosingArea k := by
      cases x <;> exact ⟨_, rfl, rfl⟩
    rw [hl] at h1
    have h2 := reaches_cont
      (s := { s with mboxAddr := (s.loadMail x).addr, mboxData := (s.loadMail x).data }) hb (.runModule x.module) l
    have h3 := reaches_cont
      (s := { s with mboxAddr := (s.loadMail x).addr, mboxData := (s.loadMail x).data, hits := 0 }) hb
      (.moduleLoop x.module) l
    have h4 := fin { s with mboxAddr := (s.loadMail x).addr, mboxData := (s.loadMail x).data, hits := 0 }
      s.ejtag.irControl (.praccPoll x.module :: l) hb rfl rfl hl'
    have g := (((h0.trans h1).trans h2).trans h3).trans h4
    exact Reaches.mono g (by decide)

theorem stopState_framed (x : Act) (stop : Stop) (s : State) : Framed s (s.stopState x stop) := by
  cases stop with
  | corrupted ks k => exact access_framed x (.corrupted ks k) s
  | misaligned => exact Framed.refl s
  | unshiftable =>
    show Framed s (s.beforeShift x)
    unfold State.beforeShift
    split <;> rfl

theorem stopError_code (x : Act) (stop : Stop) (s : State) : (s.stopError x stop).code ≠ .userCancelled := by
  cases stop with
  | unshiftable =>
    show s.shiftError.code ≠ .userCancelled
    unfold State.shiftError
    split <;> simp
  | _ => simp [State.stopError]

/-- An access by MODE that ends with an error other than USER_CANCELLED. -/
theorem reaches_stop {s : State} (hb : s.busy = true) (x : Act) (stop : Stop) (k : List Task) (h : s.Stops x stop) :
    Reaches stop.tasks { s with cont := memTask x :: k }
      (State.raise (s.stopError x stop) { s.stopState x stop with cont := k }) := by
  cases stop with
  | corrupted ks q => exact reaches_act_err hb h.2.2.1 x (.corrupted ks q) k _ h.1 h.2.1 h.2.2.2 rfl
  | misaligned =>
    have h0 := reaches_cont hb (memTask x) k
    rw [memTask_misaligned x k h] at h0
    exact h0
  | unshiftable => exact reaches_unshiftable hb x k h.1 h.2.1 h.2.2

/-! ### Completion polls (R239) -/

theorem reaches_flashPoll {s : State} (hb : s.busy = true) (hs : s.Shiftable) (a : Word) (cond : PollCond)
    (ps : List Pass) (l : Word) (k : List Task) (hg : s.PollGoes a cond ps) :
    Reaches ((ps.map (·.tasks + 2)).sum) { s with cont := .flashPoll a cond l :: k }
      { s.polled a ps with cont := k } := by
  induction ps generalizing s l with
  | nil => exact hg.elim
  | cons p ps ih =>
    obtain ⟨hc, hgo, hh, hr⟩ := hg
    have h0 := reaches_cont hb (.flashPoll a cond l) k
    have e0 : runTask (.flashPoll a cond l) { s with cont := k } =
        { s.drawn 1 with cont := memTask (.read a .half) :: .flashPollTest a cond :: k } := by
      simp only [runTask, State.flashPoll, drawCancel_eq]
      have hc' : State.cancelLevel { s with cont := k } 0 = false := hc
      rw [hc']
      rfl
    rw [e0] at h0
    have h1 := reaches_act_ok (s := s.drawn 1) hb (drawn_shiftable 1 hs) (.read a .half) p
      (.flashPollTest a cond :: k) hgo
    have hf := (drawn_framed 1 s).trans (access_framed (.read a .half) p (s.drawn 1))
    have hs' : ((s.drawn 1).access (.read a .half) p).Shiftable :=
      access_shiftable _ p (drawn_shiftable 1 hs)
    have hsum : ((p :: ps).map (·.tasks + 2)).sum = p.tasks + 2 + (ps.map (·.tasks + 2)).sum := by simp
    generalize hu : (s.drawn 1).access (.read a .half) p = u at h1 hf hh hr hs'
    have hb' : u.busy = true := hf.busy.trans hb
    have h2 := reaches_cont hb' (.flashPollTest a cond) k
    rw [← hf.flashParams] at hh
    have e1 : s.polled a (p :: ps) = u.polled a ps := by rw [← hu]; rfl
    rw [hsum, e1]
    cases ps with
    | nil =>
      have e2 : runTask (.flashPollTest a cond) { u with cont := k } = { u with cont := k } := by
        simp only [runTask, State.flashPollTest]
        rw [if_pos (by exact hh)]
      rw [e2] at h2
      exact Reaches.mono ((h0.trans h1).trans h2) (by simp; omega)
    | cons q qs =>
      have hr' : u.PollGoes a cond (q :: qs) := by
        rcases hr with hr | hr
        · simp at hr
        · exact hr
      have e2 : runTask (.flashPollTest a cond) { u with cont := k } =
          { u with cont := .flashPoll a cond u.acc :: k } := by
        simp only [runTask, State.flashPollTest]
        rw [if_neg (by
          have hh' : pollHolds u.flashParams u.acc cond = false := hh
          intro hx
          have hx' : pollHolds u.flashParams u.acc cond = true := hx
          rw [hh'] at hx'
          cases hx')]
        rfl
      rw [e2] at h2
      have h3 := ih hb' hs' u.acc hr'
      exact Reaches.mono (((h0.trans h1).trans h2).trans h3) (by omega)

/-! ### Sequences of operations -/

/-- The task of an operation. -/
def opTask : Op → Task
  | .write a v => .memWrite a .half v
  | .poll a cond => .flashPoll a cond 0

/-- A list of tasks is a list of operations, with at most one wait after each (R281). -/
inductive Carries : List Task → List Op → Prop where
  | nil : Carries [] []
  | op (o : Op) {ts : List Task} {ops : List Op} : Carries ts ops → Carries (opTask o :: ts) (o :: ops)
  | opWait (o : Op) (n : Nat) {ts : List Task} {ops : List Op} :
    Carries ts ops → Carries (opTask o :: .wait n :: ts) (o :: ops)

theorem carries_cmd (a : Word) (c : Byte) {ts : List Task} {ops : List Op} (h : Carries ts ops) :
    Carries (flashCmd a c :: ts) (.cmd a c :: ops) := .op (.write a (rep c)) h
theorem carries_cmdWait (a : Word) (c : Byte) (n : Nat) {ts : List Task} {ops : List Op} (h : Carries ts ops) :
    Carries (flashCmd a c :: .wait n :: ts) (.cmd a c :: ops) := .opWait (.write a (rep c)) n h
theorem carries_write (a v : Word) {ts : List Task} {ops : List Op} (h : Carries ts ops) :
    Carries (.memWrite a .half v :: ts) (.write a v :: ops) := .op (.write a v) h
theorem carries_writeWait (a v : Word) (n : Nat) {ts : List Task} {ops : List Op} (h : Carries ts ops) :
    Carries (.memWrite a .half v :: .wait n :: ts) (.write a v :: ops) := .opWait (.write a v) n h
theorem carries_poll (a : Word) (c : PollCond) {ts : List Task} {ops : List Op} (h : Carries ts ops) :
    Carries (.flashPoll a c 0 :: ts) (.poll a c :: ops) := .op (.poll a c) h

theorem reaches_wait {s : State} (hb : s.busy = true) (n : Nat) (k : List Task) :
    Reaches 1 { s with cont := .wait n :: k } { s with cont := k } := reaches_cont hb (.wait n) k

/-- One operation. -/
theorem reaches_op {s : State} (hb : s.busy = true) (hs : s.Shiftable) (o : Op) (ps : List Pass) (k : List Task)
    (hg : s.OpsGo [(o, ps)]) :
    Reaches ((ps.map (·.tasks + 2)).sum) { s with cont := opTask o :: k } { s.opsRun [(o, ps)] with cont := k } := by
  cases o with
  | write a v =>
    match ps, hg with
    | [p], hg => exact Reaches.mono (reaches_act_ok hb hs (.write a .half v) p k hg.1) (by simp)
  | poll a cond => exact reaches_flashPoll hb hs a cond ps 0 k hg.1

theorem opsGo_cons (r : Op × List Pass) (run : List (Op × List Pass)) (s : State) :
    s.OpsGo (r :: run) ↔ s.OpsGo [r] ∧ (s.opsRun [r]).OpsGo run := by
  obtain ⟨o, ps⟩ := r
  cases o with
  | write a v =>
    match ps with
    | [] => simp [State.OpsGo]
    | [p] => simp [State.OpsGo, State.opsRun]
    | p :: q :: ps => simp [State.OpsGo]
  | poll a cond => simp [State.OpsGo, State.opsRun]

theorem opsRun_cons (r : Op × List Pass) (run : List (Op × List Pass)) (s : State) :
    s.opsRun (r :: run) = (s.opsRun [r]).opsRun run := by
  obtain ⟨o, ps⟩ := r
  cases o <;> rfl

/-- A sequence of operations, with its waits. -/
theorem reaches_ops {s : State} (hb : s.busy = true) (hs : s.Shiftable) (run : List (Op × List Pass))
    (ts k : List Task) (hc : Carries ts (run.map Prod.fst)) (hg : s.OpsGo run) :
    Reaches (opsTasks run) { s with cont := ts ++ k } { s.opsRun run with cont := k } := by
  induction run generalizing s ts with
  | nil =>
    cases hc
    exact Reaches.refl _
  | cons r run ih =>
    rw [opsGo_cons] at hg
    rw [opsRun_cons]
    have hf := opsRun_framed [r] s
    have hs' := opsRun_shiftable [r] hs
    have hb' : (s.opsRun [r]).busy = true := hf.busy.trans hb
    have hsum : opsTasks (r :: run) = 1 + (r.2.map (·.tasks + 2)).sum + opsTasks run := by simp [opsTasks]
    rw [List.map_cons] at hc
    obtain ⟨o, ps⟩ := r
    rw [hsum]
    cases hc with
    | op _ hc' =>
      rename_i ts'
      have h1 := reaches_op hb hs o ps (ts' ++ k) hg.1
      have h2 := ih hb' hs' ts' hc' hg.2
      exact Reaches.mono (h1.trans h2) (by simp only; omega)
    | opWait _ n hc' =>
      rename_i ts'
      have h1 := reaches_op hb hs o ps (.wait n :: (ts' ++ k)) hg.1
      have h2 := reaches_wait hb' n (ts' ++ k)
      have h3 := ih hb' hs' ts' hc' hg.2
      exact Reaches.mono ((h1.trans h2).trans h3) (by simp only; omega)

/-! ### The family sequences -/

theorem carries_eraseAmd (b : FlashBytes) (f : Family) (base a : Word) :
    Carries (eraseAmd b f base a)
      (unlockOps b f base b.eraseSetup
        ++ [.cmd (unlock1 f base) b.unlock1, .cmd (unlock2 f base) b.unlock2, .cmd a b.sectorErase,
            .poll a .allOnes]) := by
  simp only [eraseAmd, unlockCmd, unlockOps, List.cons_append, List.nil_append]
  exact carries_cmd _ _ (carries_cmd _ _ (carries_cmd _ _ (carries_cmd _ _ (carries_cmd _ _ (carries_cmd _ _ (carries_poll _ _ .nil))))))

theorem carries_eraseIntel (p : FlashParams) (a : Word) :
    Carries (eraseIntel p a)
      [.cmd a p.bytes.unlockBlock, .cmd a p.bytes.confirm, .cmd a p.bytes.blockErase, .cmd a p.bytes.confirm,
        .poll a .ready] := by
  simp only [eraseIntel]
  exact carries_cmd _ _ (carries_cmdWait _ _ _ (carries_cmd _ _ (carries_cmdWait _ _ _ (carries_poll _ _ .nil))))

theorem carries_programAmd (b : FlashBytes) (f : Family) (base a v : Word) :
    Carries (writeAmdHalf b f base a v 0 ++ writeAmdHalf b f base a v 1)
      ((unlockOps b f base b.program ++
          [.write (a + BitVec.ofNat 32 (2 * 0)) v, .poll (a + BitVec.ofNat 32 (2 * 0)) (.equals (programHalf v 0))]) ++
        (unlockOps b f base b.program ++
          [.write (a + BitVec.ofNat 32 (2 * 1)) v,
            .poll (a + BitVec.ofNat 32 (2 * 1)) (.equals (programHalf v 1))])) := by
  simp only [writeAmdHalf, unlockCmd, unlockOps, List.cons_append, List.nil_append]
  exact carries_cmd _ _ (carries_cmd _ _ (carries_cmd _ _ (carries_write _ _ (carries_poll _ _ (carries_cmd _ _ (carries_cmd _ _ (carries_cmd _ _ (carries_write _ _ (carries_poll _ _ .nil)))))))))

theorem carries_programIntel (p : FlashParams) (a v : Word) :
    Carries (writeIntelHalf p a v 0 ++ writeIntelHalf p a v 1)
      ([.cmd (a + BitVec.ofNat 32 (2 * 0)) p.bytes.write, .write (a + BitVec.ofNat 32 (2 * 0)) v,
          .poll (a + BitVec.ofNat 32 (2 * 0)) .ready] ++
        [.cmd (a + BitVec.ofNat 32 (2 * 1)) p.bytes.write, .write (a + BitVec.ofNat 32 (2 * 1)) v,
          .poll (a + BitVec.ofNat 32 (2 * 1)) .ready]) := by
  simp only [writeIntelHalf, List.cons_append, List.nil_append]
  exact carries_cmd _ _ (carries_writeWait _ _ _ (carries_poll _ _ (carries_cmd _ _ (carries_writeWait _ _ _ (carries_poll _ _ .nil)))))

end Sys2Proof.Machine
end

