-- ==== Sys2Proof/Laws/Memory.lean ====
section
/-! SUPPORT. The byte memory of the reference target: every operation keeps the canonical form, a read after a write
gives the byte written, and a write leaves every other byte as it was. -/

namespace Sys2Proof.Machine

theorem memoryWf_cons (u : Byte) (c : Host.Cell) (m : List Host.Cell) :
    memoryWf u (c :: m) = true ↔ (∀ d ∈ m, c.1 < d.1) ∧ c.2 ≠ u ∧ memoryWf u m = true := by
  simp only [memoryWf, List.pairwise_cons, List.all_cons, Bool.and_eq_true, decide_eq_true_eq, bne_iff_ne]
  tauto

/-- An address below every entry is unlisted. -/
theorem memoryRead_below (u : Byte) (m : List Host.Cell) (a : Nat) (h : ∀ d ∈ m, a < d.1) : memoryRead u m a = u := by
  induction m with
  | nil => rfl
  | cons c m ih =>
    obtain ⟨x, b⟩ := c
    have hx : a < x := h (x, b) (by simp)
    simp only [memoryRead]
    rw [if_neg (by omega), ih fun d hd => h d (by simp [hd])]

/-- A write adds at most its own address. -/
theorem memoryWrite_mem (u : Byte) (m : List Host.Cell) (a : Nat) (v : Byte) (d : Host.Cell)
    (h : d ∈ memoryWrite u m a v) : d = (a, v) ∨ d ∈ m := by
  induction m with
  | nil =>
    simp only [memoryWrite] at h
    split at h <;> simp_all
  | cons c m ih =>
    obtain ⟨x, b⟩ := c
    simp only [memoryWrite] at h
    split at h
    · split at h <;> simp_all
    · split at h
      · split at h <;> simp_all
        tauto
      · simp only [List.mem_cons] at h
        rcases h with h | h
        · simp [h]
        · rcases ih h with h | h <;> simp [h]

/-- A write keeps the canonical form. -/
theorem memoryWrite_wf (u : Byte) (m : List Host.Cell) (a : Nat) (v : Byte) (h : memoryWf u m = true) :
    memoryWf u (memoryWrite u m a v) = true := by
  induction m with
  | nil =>
    simp only [memoryWrite]
    split
    · rfl
    · rename_i hv; simp [memoryWf, hv]
  | cons c m ih =>
    obtain ⟨x, b⟩ := c
    rw [memoryWf_cons] at h
    obtain ⟨h1, h2, h3⟩ := h
    simp only [memoryWrite]
    split
    · rename_i hax
      have hall : ∀ d ∈ (x, b) :: m, a < d.1 := by
        intro d hd
        rcases List.mem_cons.1 hd with rfl | hd
        · exact hax
        · have := h1 d hd; simp only at this; omega
      have hwf : memoryWf u ((x, b) :: m) = true := (memoryWf_cons _ _ _).2 ⟨h1, h2, h3⟩
      split
      · exact hwf
      · rename_i hv; exact (memoryWf_cons _ _ _).2 ⟨hall, hv, hwf⟩
    · split
      · rename_i hx
        subst hx
        split
        · exact h3
        · rename_i hv; exact (memoryWf_cons _ _ _).2 ⟨h1, hv, h3⟩
      · refine (memoryWf_cons _ _ _).2 ⟨fun d hd => ?_, h2, ih h3⟩
        rcases memoryWrite_mem u m a v d hd with rfl | hd
        · simp only; omega
        · exact h1 d hd

/-- A read after a write gives the byte written. -/
theorem memoryRead_write (u : Byte) (m : List Host.Cell) (a : Nat) (v : Byte) (h : memoryWf u m = true) :
    memoryRead u (memoryWrite u m a v) a = v := by
  induction m with
  | nil =>
    simp only [memoryWrite]
    split
    · rename_i hv; simp [memoryRead, hv]
    · simp [memoryRead]
  | cons c m ih =>
    obtain ⟨x, b⟩ := c
    rw [memoryWf_cons] at h
    obtain ⟨h1, -, h3⟩ := h
    simp only [memoryWrite]
    split
    · rename_i hax
      split
      · rename_i hv
        rw [hv]
        refine memoryRead_below u _ a fun d hd => ?_
        rcases List.mem_cons.1 hd with rfl | hd
        · exact hax
        · have := h1 d hd; simp only at this; omega
      · simp [memoryRead]
    · split
      · rename_i hx
        subst hx
        split
        · rename_i hv; rw [hv]; exact memoryRead_below u m _ h1
        · simp [memoryRead]
      · simp only [memoryRead]
        rw [if_neg (by omega)]
        exact ih h3

/-- A write leaves every other byte as it was. -/
theorem memoryRead_write_ne (u : Byte) (m : List Host.Cell) (a b : Nat) (v : Byte) (hab : b ≠ a)
    (h : memoryWf u m = true) : memoryRead u (memoryWrite u m a v) b = memoryRead u m b := by
  induction m with
  | nil =>
    simp only [memoryWrite]
    split
    · rfl
    · simp only [memoryRead]; rw [if_neg (by omega)]
  | cons c m ih =>
    obtain ⟨x, y⟩ := c
    rw [memoryWf_cons] at h
    obtain ⟨h1, -, h3⟩ := h
    simp only [memoryWrite]
    split
    · split
      · rfl
      · simp only [memoryRead]; rw [if_neg (by omega)]
    · split
      · rename_i hx
        subst hx
        split
        · simp only [memoryRead]; rw [if_neg (by omega)]
        · simp only [memoryRead]; rw [if_neg (by omega), if_neg (by omega)]
      · simp only [memoryRead]
        split
        · rfl
        · exact ih h3

/-- Clearing a range keeps the canonical form. -/
theorem memoryClear_wf (u : Byte) (m : List Host.Cell) (lo hi : Nat) (h : memoryWf u m = true) :
    memoryWf u (memoryClear m lo hi) = true := by
  simp only [memoryWf, Bool.and_eq_true, decide_eq_true_eq] at *
  refine ⟨h.1.filter _, ?_⟩
  simp only [memoryClear, List.all_eq_true] at *
  exact fun c hc => h.2 c (List.mem_of_mem_filter hc)

/-- The bytes of a cleared range read as unlisted ones, the others as before. -/
theorem memoryRead_clear (u : Byte) (m : List Host.Cell) (lo hi a : Nat) :
    memoryRead u (memoryClear m lo hi) a = if lo ≤ a ∧ a < hi then u else memoryRead u m a := by
  induction m with
  | nil => simp [memoryClear, memoryRead]
  | cons c m ih =>
    obtain ⟨x, b⟩ := c
    simp only [memoryClear, List.filter_cons, memoryRead] at *
    by_cases hx : x = a
    · subst hx
      by_cases hr : lo ≤ x ∧ x < hi
      · rw [if_pos hr, if_neg (by simp; omega)]
        rw [ih, if_pos hr]
      · rw [if_neg hr, if_pos (by simp; omega)]
        simp [memoryRead]
    · rw [if_neg hx]
      split
      · simp only [memoryRead]; rw [if_neg hx]; exact ih
      · exact ih

end Sys2Proof.Machine
end

