-- ==== Sys2Proof/Laws/PerInstr.lean ====
section
/-! SUPPORT. Statements about every command, one lemma per constructor of `Instr`. -/

namespace Sys2Proof.Laws

/-- The opcode of each command (30_encoding.md R93). -/
def opcodeOf : Instr → Byte
  | .clock _ _ _ => 0x01
  | .resetTap => 0x02
  | .setIr => 0x03
  | .shiftDr32 => 0x04
  | .init => 0x08
  | .shutdown => 0x09
  | .readWord => 0x10
  | .readHalf => 0x11
  | .writeWord => 0x12
  | .writeHalf => 0x13
  | .dmaReadWord => 0x14
  | .dmaReadHalf => 0x15
  | .dmaWriteWord => 0x16
  | .dmaWriteHalf => 0x17
  | .praccReadWord => 0x18
  | .praccReadHalf => 0x19
  | .praccWriteWord => 0x1A
  | .praccWriteHalf => 0x1B
  | .flashProbe => 0x20
  | .flashResetRead => 0x21
  | .flashSelectArea _ => 0x22
  | .flashEraseBlock => 0x23
  | .flashEraseArea => 0x24
  | .flashWriteWord => 0x25

/-- The argument of each command (30_encoding.md R96, R97): 0 but for CLOCK and FLASH_SELECT_AREA. -/
def argOf : Instr → BitVec 4
  | .clock tms tdi sample => clockArg tms tdi sample
  | .flashSelectArea area => area
  | .resetTap => 0
  | .setIr => 0
  | .shiftDr32 => 0
  | .init => 0
  | .shutdown => 0
  | .readWord => 0
  | .readHalf => 0
  | .writeWord => 0
  | .writeHalf => 0
  | .dmaReadWord => 0
  | .dmaReadHalf => 0
  | .dmaWriteWord => 0
  | .dmaWriteHalf => 0
  | .praccReadWord => 0
  | .praccReadHalf => 0
  | .praccWriteWord => 0
  | .praccWriteHalf => 0
  | .flashProbe => 0
  | .flashResetRead => 0
  | .flashEraseBlock => 0
  | .flashEraseArea => 0
  | .flashWriteWord => 0

/-- The encoding of a command has its opcode and its argument in their fields, and 0 in the reserved one (30_encoding.md
R92). -/
def EncodeFields.Statement (i : Instr) : Prop :=
  opField (encode i) = opcodeOf i ∧ argField (encode i) = argOf i ∧ resField (encode i) = 0

theorem EncodeFields.clock (tms tdi sample : Bool) : EncodeFields.Statement (.clock tms tdi sample) := by
  cases tms <;> cases tdi <;> cases sample <;> exact ⟨rfl, rfl, rfl⟩
theorem EncodeFields.resetTap : EncodeFields.Statement .resetTap := ⟨rfl, rfl, rfl⟩
theorem EncodeFields.setIr : EncodeFields.Statement .setIr := ⟨rfl, rfl, rfl⟩
theorem EncodeFields.shiftDr32 : EncodeFields.Statement .shiftDr32 := ⟨rfl, rfl, rfl⟩
theorem EncodeFields.init : EncodeFields.Statement .init := ⟨rfl, rfl, rfl⟩
theorem EncodeFields.shutdown : EncodeFields.Statement .shutdown := ⟨rfl, rfl, rfl⟩
theorem EncodeFields.readWord : EncodeFields.Statement .readWord := ⟨rfl, rfl, rfl⟩
theorem EncodeFields.readHalf : EncodeFields.Statement .readHalf := ⟨rfl, rfl, rfl⟩
theorem EncodeFields.writeWord : EncodeFields.Statement .writeWord := ⟨rfl, rfl, rfl⟩
theorem EncodeFields.writeHalf : EncodeFields.Statement .writeHalf := ⟨rfl, rfl, rfl⟩
theorem EncodeFields.dmaReadWord : EncodeFields.Statement .dmaReadWord := ⟨rfl, rfl, rfl⟩
theorem EncodeFields.dmaReadHalf : EncodeFields.Statement .dmaReadHalf := ⟨rfl, rfl, rfl⟩
theorem EncodeFields.dmaWriteWord : EncodeFields.Statement .dmaWriteWord := ⟨rfl, rfl, rfl⟩
theorem EncodeFields.dmaWriteHalf : EncodeFields.Statement .dmaWriteHalf := ⟨rfl, rfl, rfl⟩
theorem EncodeFields.praccReadWord : EncodeFields.Statement .praccReadWord := ⟨rfl, rfl, rfl⟩
theorem EncodeFields.praccReadHalf : EncodeFields.Statement .praccReadHalf := ⟨rfl, rfl, rfl⟩
theorem EncodeFields.praccWriteWord : EncodeFields.Statement .praccWriteWord := ⟨rfl, rfl, rfl⟩
theorem EncodeFields.praccWriteHalf : EncodeFields.Statement .praccWriteHalf := ⟨rfl, rfl, rfl⟩
theorem EncodeFields.flashProbe : EncodeFields.Statement .flashProbe := ⟨rfl, rfl, rfl⟩
theorem EncodeFields.flashResetRead : EncodeFields.Statement .flashResetRead := ⟨rfl, rfl, rfl⟩
theorem EncodeFields.flashSelectArea (area : BitVec 4) : EncodeFields.Statement (.flashSelectArea area) := by
  revert area; unfold EncodeFields.Statement; decide
theorem EncodeFields.flashEraseBlock : EncodeFields.Statement .flashEraseBlock := ⟨rfl, rfl, rfl⟩
theorem EncodeFields.flashEraseArea : EncodeFields.Statement .flashEraseArea := ⟨rfl, rfl, rfl⟩
theorem EncodeFields.flashWriteWord : EncodeFields.Statement .flashWriteWord := ⟨rfl, rfl, rfl⟩

end Sys2Proof.Laws
end

