-- ==== Sys2Proof/Laws/Shell.lean ====
section
/-! SUPPORT. The shell of a command: a command runs on its accepted state, and what target traffic does there is what
it does on the state before, with CMD, BUSY, ERR and the tasks of the accepted one. Then the tasks of the flash
commands. -/

namespace Sys2Proof.Machine

/-! ### Errors at the end of a command -/

/-- An error that ends the command and is not TRANSACTION_CORRUPTED: RESULT stays. -/
theorem raise_end (e : CmdError) (he : e.code ≠ .transactionCorrupted) (s : State) (k : List Task)
    (hk : enclosingArea k = none) :
    State.raise e { s with cont := k } = { s with
      busy := false, err := e.code, errAddr := e.addr, errData := e.data, cont := [],
      io := { s.io with trace := .done s.cmd e.code.code :: s.io.trace } } := by
  rw [raise_ends _ _ (.inr hk), endWithError_eq]
  rw [if_neg (by simp [he])]

/-! ### The accepted state -/

theorem accept_script (w : Word) (s : State) (m : ModuleKind) (mail : Mail) (sc : List (Nat × StubAccess)) :
    (s.accept w).scriptRun m mail sc = s.scriptRun m mail sc := by
  induction sc generalizing mail with
  | nil => rfl
  | cons y r ih =>
    obtain ⟨q, x⟩ := y
    simp only [State.scriptRun, ih]
    cases x <;> rfl

theorem accept_makes (w : Word) (s : State) (n : Nat) (sc : List (Nat × StubAccess)) :
    (s.accept w).Makes n sc ↔ s.Makes n sc := by
  induction sc generalizing n with
  | nil => exact Iff.rfl
  | cons y r ih =>
    obtain ⟨q, x⟩ := y
    cases x <;> simp only [State.Makes, ih] <;> exact Iff.rfl

theorem accept_fails (w : Word) (s : State) (x : Act) (n : Nat) (ks : List Nat) :
    (s.accept w).Fails x n ks ↔ s.Fails x n ks := by
  induction ks generalizing n with
  | nil => exact Iff.rfl
  | cons y r ih =>
    simp only [State.Fails, ih]; exact Iff.rfl

theorem accept_access (w : Word) (s : State) (x : Act) (p : Pass) :
    (s.accept w).access x p = { s.access x p with cmd := w, busy := true, err := .none, cont := [] } := by
  cases p with
  | pracc sc q =>
    have h := accept_script w s x.module (s.loadMail x) sc
    have h' : (s.accept w).loadMail x = s.loadMail x := by cases x <;> rfl
    simp only [State.access, h', h]
    rfl
  | _ => rfl

theorem accept_allows (w : Word) (s : State) (x : Act) (p : Pass) : (s.accept w).Allows x p ↔ s.Allows x p := by
  cases p with
  | pracc sc q => simp only [State.Allows, accept_makes]; exact Iff.rfl
  | fast => exact Iff.rfl
  | _ => simp only [State.Allows, accept_fails]; exact Iff.rfl

theorem accept_drawn (w : Word) (n : Nat) (s : State) : (s.accept w).drawn n = (s.drawn n).accept w := rfl

theorem accept_access' (w : Word) (s : State) (x : Act) (p : Pass) : (s.accept w).access x p =
    (s.access x p).accept w :=
  accept_access w s x p

theorem accept_goes (w : Word) (s : State) (x : Act) (p : Pass) : (s.accept w).Goes x p ↔ s.Goes x p := by
  unfold State.Goes; rw [accept_allows]; exact Iff.rfl

theorem accept_polled (w : Word) (a : Word) (ps : List Pass) (s : State) :
    (s.accept w).polled a ps = (s.polled a ps).accept w := by
  induction ps generalizing s with
  | nil => rfl
  | cons p ps ih =>
    show (((s.accept w).drawn 1).access (.read a .half) p).polled a ps = _
    rw [accept_drawn, accept_access', ih]; rfl

theorem accept_pollGoes (w : Word) (a : Word) (c : PollCond) (ps : List Pass) (s : State) :
    (s.accept w).PollGoes a c ps ↔ s.PollGoes a c ps := by
  induction ps generalizing s with
  | nil => exact Iff.rfl
  | cons p ps ih =>
    simp only [State.PollGoes, accept_drawn, accept_access', accept_goes, ih]; exact Iff.rfl

theorem accept_pollMisses (w : Word) (a : Word) (c : PollCond) (ps : List Pass) (s : State) :
    (s.accept w).PollMisses a c ps ↔ s.PollMisses a c ps := by
  induction ps generalizing s with
  | nil => exact Iff.rfl
  | cons p ps ih =>
    simp only [State.PollMisses, accept_drawn, accept_access', accept_goes, ih]; exact Iff.rfl

theorem accept_opsRun (w : Word) (run : List (Op × List Pass)) (s : State) :
    (s.accept w).opsRun run = (s.opsRun run).accept w := by
  induction run generalizing s with
  | nil => rfl
  | cons r run ih =>
    obtain ⟨o, ps⟩ := r
    cases o with
    | poll a c => simp only [State.opsRun, accept_polled, ih]
    | write a v =>
      simp only [State.opsRun]
      have : ps.foldl (fun s p => s.access (.write a .half v) p) (s.accept w) = (ps.foldl (fun s p => s.access
          (.write a .half v) p) s).accept w := by
        induction ps generalizing s with
        | nil => rfl
        | cons p ps ih2 => simp only [List.foldl_cons, accept_access', ih2]
      rw [this, ih]

theorem accept_opsGo (w : Word) (run : List (Op × List Pass)) (s : State) :
    (s.accept w).OpsGo run ↔ s.OpsGo run := by
  induction run generalizing s with
  | nil => exact Iff.rfl
  | cons r run ih =>
    obtain ⟨o, ps⟩ := r
    cases o with
    | poll a c => simp only [State.OpsGo, accept_pollGoes, accept_polled, ih]
    | write a v =>
      match ps with
      | [] => exact Iff.rfl
      | [p] => simp only [State.OpsGo, accept_goes, accept_access', ih]
      | p :: q :: ps => exact Iff.rfl

theorem accept_reached (w : Word) (r : Reach) (s : State) : (s.accept w).reached r = (s.reached r).accept w := by
  unfold State.reached
  split
  · exact accept_opsRun w _ s
  · rw [accept_opsRun, accept_polled]; rfl

theorem accept_reachGoes (w : Word) (ops : List Op) (r : Reach) (s : State) :
    (s.accept w).ReachGoes ops r ↔ s.ReachGoes ops r := by
  unfold State.ReachGoes
  rw [accept_opsGo, accept_opsRun]
  cases r.next with
  | write a v => exact Iff.rfl
  | poll a c => simp only [accept_polled, accept_pollMisses]; exact Iff.rfl

theorem accept_stopState (w : Word) (x : Act) (stop : Stop) (s : State) :
    (s.accept w).stopState x stop = (s.stopState x stop).accept w := by
  cases stop with
  | corrupted ks k => exact accept_access' w s x (.corrupted ks k)
  | misaligned => rfl
  | unshiftable =>
    have hl : (s.accept w).loadMail x = s.loadMail x := by cases x <;> rfl
    have hm : (s.accept w).mode = s.mode := rfl
    show (s.accept w).beforeShift x = (s.beforeShift x).accept w
    unfold State.beforeShift
    rw [hl, hm]
    split <;> rfl

theorem accept_stopError (w : Word) (x : Act) (stop : Stop) (s : State) :
    (s.accept w).stopError x stop = s.stopError x stop := by
  cases stop <;> rfl

theorem accept_stops (w : Word) (x : Act) (stop : Stop) (s : State) : (s.accept w).Stops x stop ↔ s.Stops x stop := by
  cases stop with
  | corrupted ks k => simp only [State.Stops, accept_allows]; exact Iff.rfl
  | _ => exact Iff.rfl

theorem accept_blockRun (w : Word) (s : State) (r : BlockRun) : (s.accept w).blockRun r =
    (s.blockRun r).accept w := by
  cases r with
  | done run => exact accept_opsRun w run s
  | stopped r stop => simp only [State.blockRun, accept_reached, accept_stopState]; rfl
  | misaligned => rfl

theorem accept_reports (w : Word) (i : Nat) (b : Word) (s : State) : (s.accept w).reports i b =
    (s.reports i b).accept w := rfl

theorem accept_areaRun (w : Word) (i : Nat) (bs : List (Word × BlockRun)) (s : State) :
    State.areaRun i bs (s.accept w) = (State.areaRun i bs s).accept w := by
  induction bs generalizing i s with
  | nil => rfl
  | cons r rs ih => obtain ⟨b, r⟩ := r; simp only [State.areaRun, accept_reports, accept_blockRun, ih]

theorem accept_blockError (w : Word) (b : Word) (r : BlockRun) (s : State) : (s.accept w).blockError b r =
    s.blockError b r := by
  cases r <;> simp only [State.blockError, accept_reached, accept_stopError]

theorem accept_areaError (w : Word) (i : Nat) (e : Option CmdError) (bs : List (Word × BlockRun)) (s : State) :
    State.areaError i e bs (s.accept w) = State.areaError i e bs s := by
  induction bs generalizing i s e with
  | nil => rfl
  | cons r rs ih => obtain ⟨b, r⟩ := r; simp only [State.areaError, accept_reports, accept_blockRun,
      accept_blockError, ih]

theorem accept_blockGoes (w : Word) (f : Family) (b : Word) (r : BlockRun) (s : State) :
    (s.accept w).BlockGoes f b r ↔ s.BlockGoes f b r := by
  cases r <;> simp only [State.BlockGoes, accept_opsGo, accept_reachGoes, accept_reached, accept_stops] <;>
    exact Iff.rfl

theorem accept_areaGoes (w : Word) (f : Family) (i : Nat) (bs : List (Word × BlockRun)) (s : State) :
    State.AreaGoes f i bs (s.accept w) ↔ State.AreaGoes f i bs s := by
  induction bs generalizing i s with
  | nil => exact Iff.rfl
  | cons r rs ih => obtain ⟨b, r⟩ := r; simp only [State.AreaGoes, accept_reports, accept_blockRun,
      accept_blockGoes, ih]

theorem accept_afterVendor (w : Word) (k : Attempt) (r : AttemptRun) (s : State) : (s.accept w).afterVendor k r =
    (s.afterVendor k r).accept w := by
    unfold State.afterVendor; rw [← accept_access', ← accept_opsRun]; rfl

theorem accept_afterDevice (w : Word) (k : Attempt) (r : AttemptRun) (s : State) : (s.accept w).afterDevice k r =
    (s.afterDevice k r).accept w := by
    unfold State.afterDevice; rw [accept_afterVendor, ← accept_access']; rfl

theorem accept_vendorId (w : Word) (k : Attempt) (r : AttemptRun) (s : State) : (s.accept w).vendorId k r =
    s.vendorId k r := by
  unfold State.vendorId; rw [accept_afterVendor]; rfl

theorem accept_ambiguous (w : Word) (k : Attempt) (r : AttemptRun) (s : State) : (s.accept w).ambiguous k r =
    s.ambiguous k r := by
    unfold State.ambiguous; rw [accept_vendorId, accept_afterDevice]; rfl

theorem accept_afterIds (w : Word) (k : Attempt) (r : AttemptRun) (s : State) : (s.accept w).afterIds k r =
    (s.afterIds k r).accept w := by
    unfold State.afterIds; rw [accept_ambiguous]; split
    · rw [accept_afterDevice, ← accept_access']; rfl
    · exact accept_afterDevice _ _ _ _

theorem accept_deviceId (w : Word) (k : Attempt) (r : AttemptRun) (s : State) : (s.accept w).deviceId k r =
    s.deviceId k r := by
  unfold State.deviceId; rw [accept_afterIds]; rfl

theorem accept_afterAttempt (w : Word) (k : Attempt) (r : AttemptRun) (s : State) :
    (s.accept w).afterAttempt k r = (s.afterAttempt k r).accept w := by
  unfold State.afterAttempt; rw [accept_afterIds, ← accept_access']; rfl

theorem accept_attemptGoes (w : Word) (k : Attempt) (r : AttemptRun) (s : State) :
    (s.accept w).AttemptGoes k r ↔ s.AttemptGoes k r := by
  have h : (s.accept w).OpsGo (((s.accept w).enterOps k).zip (r.enter.map fun p => [p])) ↔
      s.OpsGo ((s.enterOps k).zip (r.enter.map fun p => [p])) := accept_opsGo _ _ _
  have e : (s.accept w).opsRun (((s.accept w).enterOps k).zip (r.enter.map fun p => [p])) =
      (s.opsRun ((s.enterOps k).zip (r.enter.map fun p => [p]))).accept w := accept_opsRun _ _ _
  unfold State.AttemptGoes
  rw [accept_afterVendor, accept_afterDevice, accept_ambiguous, accept_afterIds, accept_goes, accept_goes,
    accept_goes, h, e, accept_goes]
  exact Iff.rfl

theorem accept_misses (w : Word) (k : Attempt) (rs : List AttemptRun) (s : State) : State.Misses k rs
    (s.accept w) ↔ State.Misses k rs s := by
  induction rs generalizing k s with
  | nil => exact Iff.rfl
  | cons r rs ih => simp only [State.Misses, accept_attemptGoes, accept_vendorId, accept_deviceId,
      accept_afterAttempt, ih]; exact Iff.rfl

theorem accept_missRun (w : Word) (k : Attempt) (l : Word) (rs : List AttemptRun) (s : State) :
    State.missRun k l rs (s.accept w) = ((State.missRun k l rs s).1.accept w, (State.missRun k l rs s).2) := by
  induction rs generalizing k l s with
  | nil => rfl
  | cons r rs ih => simp only [State.missRun, accept_vendorId, accept_deviceId, accept_afterAttempt, ih]

/-! ### Opening a command -/

theorem launch_open {w : Word} {ts : List Task} {s : State} (hb : s.busy = false) (ho : s.linkOpen = true) :
    command w (whenOpen (State.launch ts)) s = .next (drive s.pace { s.accept w with cont := ts }) := by
  rw [command_idle _ _ hb, whenOpen_open _ (by exact ho)]; rfl

theorem launch_closed {w : Word} {body : State → Answer} {s : State} (hb : s.busy = false) (ho : s.linkOpen =
    false) :
    command w (whenOpen body) s = .next (State.raise ⟨.notOpen, 0, w⟩ (s.accept w)) := by
  rw [command_idle _ _ hb]; unfold whenOpen
  rw [if_neg (by show ¬ (s.linkOpen = true); simp [ho])]; rfl

theorem raise_accept (w : Word) (e : CmdError) (he : e.code ≠ .transactionCorrupted) (s : State) :
    State.raise e (s.accept w) = { s with
      cmd := w, busy := false, err := e.code, errAddr := e.addr, errData := e.data, cont := [],
      io := { s.io with trace := .done w e.code.code :: s.io.trace } } := by
  rw [raise_ends _ _ (.inr rfl), endWithError_eq]
  rw [if_neg (by simp [he])]
  rfl

theorem flash_shell {w : Word} {body : FlashDescriptor → State → Answer} {s : State} {c : FlashDescriptor}
    (hr : s.Ready) (hm : s.mode ≠ .none) (hc : s.chip = some c) :
    command w (whenOpen (whenModed (whenChip body))) s = body c (s.accept w) := by
  rw [command_idle _ _ hr.1, whenOpen_open _ (by exact hr.2), whenModed_moded _ (by exact hm), whenChip_some _
      (by exact hc)]

/-! ### Access commands -/

/-- The task that follows the access itself: a read writes RESULT. -/
def tailOf (x : Act) : List Task := if x.isRead then [.setResult] else []

/-- The task of an access by a path. -/
def pathTask (m : Mode) (x : Act) : Task := match m with | .pracc => praccTask x | _ => dmaTask x

/-- The first task of an access command, whose address is aligned, leads to the access itself. -/
theorem exec_access {i : Instr} {x : Act} {m : Mode} {s : State} (hi : s.accessOf i = some (x, m)) (hm : m ≠ .none)
    (hr : s.Ready) (ha : misaligned x.addr x.width = false) :
    ∃ k, exec i s = .next (drive s.pace k) ∧
      Reaches 1 k { s.accept (encode i) with cont := pathTask m x :: tailOf x } := by
  obtain ⟨hb, ho⟩ := hr
  have hidle := fun (w : Word) (body : State → Answer) => command_idle w body hb
  have hopen : ∀ (w : Word) (body : State → Answer), whenOpen body (s.accept w) = body (s.accept w) :=
    fun w body => whenOpen_open body ho
  have hmod : ∀ (w : Word) (body : State → Answer), s.mode ≠ .none → whenModed body (s.accept w) = body
      (s.accept w) :=
    fun w body h => whenModed_moded body h
  have memcase : ∀ (j : Instr) (y : Act), s.mode ≠ .none → misaligned y.addr y.width = false →
      y.addr = s.addr → Reaches 1 { s.accept (encode j) with cont := memTask y :: tailOf y }
        { s.accept (encode j) with cont := pathTask s.mode y :: tailOf y } := by
    intro j y hm ha _
    have h0 := reaches_cont (s := s.accept (encode j)) rfl (memTask y) (tailOf y)
    cases hmm : s.mode with
    | none => exact absurd hmm hm
    | dma => rw [memTask_dma y _ (by exact hmm) ha] at h0; exact h0
    | pracc => rw [memTask_pracc y _ (by exact hmm) ha] at h0; exact h0
  have chk : ∀ (j : Instr) (t : Task) (k : List Task) (a : Word) (w : Width) (v : Word), misaligned a w = false →
      Reaches 1 { s.accept (encode j) with cont := .checkAlign a w v :: t :: k }
        { s.accept (encode j) with cont := t :: k } := by
    intro j t k a w v ha
    have h0 := reaches_cont (s := s.accept (encode j)) rfl (.checkAlign a w v) (t :: k)
    simp only [runTask, State.checkAlign, ha] at h0
    exact h0
  cases i <;> simp only [State.accessOf, Option.some.injEq, Prod.mk.injEq, reduceCtorEq] at hi <;>
    obtain ⟨rfl, rfl⟩ := hi
  · exact ⟨_, by unfold exec execReadWord; rw [hidle, hopen, hmod _ _ hm]; rfl, memcase .readWord _ hm ha rfl⟩
  · exact ⟨_, by unfold exec execReadHalf; rw [hidle, hopen, hmod _ _ hm]; rfl, memcase .readHalf _ hm ha rfl⟩
  · exact ⟨_, by unfold exec execWriteWord; rw [hidle, hopen, hmod _ _ hm]; rfl, memcase .writeWord _ hm ha rfl⟩
  · exact ⟨_, by unfold exec execWriteHalf; rw [hidle, hopen, hmod _ _ hm]; rfl, memcase .writeHalf _ hm ha rfl⟩
  · exact ⟨_, by unfold exec execDmaReadWord; rw [hidle, hopen]; rfl, chk .dmaReadWord _ _ _ _ _ ha⟩
  · exact ⟨_, by unfold exec execDmaReadHalf; rw [hidle, hopen]; rfl, chk .dmaReadHalf _ _ _ _ _ ha⟩
  · exact ⟨_, by unfold exec execDmaWriteWord; rw [hidle, hopen]; rfl, chk .dmaWriteWord _ _ _ _ _ ha⟩
  · exact ⟨_, by unfold exec execDmaWriteHalf; rw [hidle, hopen]; rfl, chk .dmaWriteHalf _ _ _ _ _ ha⟩
  · exact ⟨_, by unfold exec execPraccReadWord; rw [hidle, hopen]; rfl, chk .praccReadWord _ _ _ _ _ ha⟩
  · exact ⟨_, by unfold exec execPraccReadHalf; rw [hidle, hopen]; rfl, chk .praccReadHalf _ _ _ _ _ ha⟩
  · exact ⟨_, by unfold exec execPraccWriteWord; rw [hidle, hopen]; rfl, chk .praccWriteWord _ _ _ _ _ ha⟩
  · exact ⟨_, by unfold exec execPraccWriteHalf; rw [hidle, hopen]; rfl, chk .praccWriteHalf _ _ _ _ _ ha⟩

theorem reaches_tail (x : Act) (w : Word) (t : State) :
    Reaches 2 { t with cmd := w, busy := true, err := .none, cont := tailOf x }
      { t with cmd := w, busy := false, err := .none, cont := [],
               result := if x.isRead then t.acc else t.result,
               io := { t.io with trace := .done w 0 :: t.io.trace } } := by
  cases x with
  | read a v =>
    have h0 := reaches_cont (s := { t with cmd := w, busy := true, err := .none, cont := [] }) rfl .setResult []
    have h1 := reaches_finish (s := runTask .setResult { t with cmd := w, busy := true, err := .none, cont :=
        [] }) rfl rfl
    exact h0.trans h1
  | write a v u =>
    exact Reaches.mono (reaches_finish (s := { t with cmd := w, busy := true, err := .none, cont := [] }) rfl rfl)
        (by omega)

/-! ### Flash operations -/

/-- The tasks of a block erase. -/
def State.eraseTasks (s : State) (f : Family) (b : Word) : List Task :=
  if amdStyle f then eraseAmd s.flashParams.bytes f s.flashBase b else eraseIntel s.flashParams b

/-- The tasks of a word program. -/
def State.programTasks (s : State) (f : Family) (a v : Word) : List Task :=
  if amdStyle f then
    writeAmdHalf s.flashParams.bytes f s.flashBase a v 0 ++ writeAmdHalf s.flashParams.bytes f s.flashBase a v 1
  else writeIntelHalf s.flashParams a v 0 ++ writeIntelHalf s.flashParams a v 1

theorem carries_erase (s : State) (c : FlashDescriptor) (b : Word) :
    Carries (s.eraseTasks c.family b)
      (s.eraseOps c.family b) := by
  unfold State.eraseOps State.eraseTasks
  split
  · exact carries_eraseAmd _ _ _ _
  · exact carries_eraseIntel _ _

theorem carries_program (s : State) (c : FlashDescriptor) (a v : Word) :
    Carries (s.programTasks c.family a v)
      (s.programOps c.family a v) := by
  unfold State.programOps State.programHalfOps State.programTasks
  cases h : amdStyle c.family
  · simp only [Bool.false_eq_true, if_false]; exact carries_programIntel _ _ _
  · simp only [if_true]; exact carries_programAmd _ _ _ _ _

theorem reaches_eraseBlock {s : State} (hb : s.busy = true) {c : FlashDescriptor} (hc : s.chip = some c)
    (b : Word) (k : List Task)
    (ha : misaligned b .half = false) :
    Reaches 1 { s with cont := .eraseBlock b :: k } { s with cont := (s.eraseTasks c.family b) ++ k } := by
  have h := reaches_cont hb (.eraseBlock b) k
  have e : runTask (.eraseBlock b) { s with cont := k } = { s with cont := (s.eraseTasks c.family b) ++ k } := by
    simp only [runTask, State.eraseBlock, hc, ha, State.eraseTasks]
    cases amdStyle c.family <;> rfl
  rw [e] at h; exact h

theorem reaches_writeFlash {s : State} (hb : s.busy = true) {c : FlashDescriptor} (hc : s.chip = some c)
    (a v : Word) (k : List Task)
    (ha : misaligned a .word = false) :
    Reaches 1 { s with cont := .writeFlash a v :: k } { s with cont := (s.programTasks c.family a v) ++ k } := by
  have h := reaches_cont hb (.writeFlash a v) k
  have e : runTask (.writeFlash a v) { s with cont := k } = { s with cont := (s.programTasks c.family a v) ++
      k } := by
    simp only [runTask, State.writeFlash, hc, ha, State.programTasks]
    cases amdStyle c.family <;> rfl
  rw [e] at h; exact h

theorem eraseOps_cons (s : State) (f : Family) (b : Word) : ∃ o os, s.eraseOps f b = o :: os := by
  unfold State.eraseOps; cases amdStyle f <;> exact ⟨_, _, rfl⟩

theorem programOps_cons (s : State) (f : Family) (a v : Word) : ∃ o os, s.programOps f a v = o :: os := by
  unfold State.programOps State.programHalfOps; cases amdStyle f <;> exact ⟨_, _, rfl⟩

theorem carries_split {ts : List Task} {ops : List Op} (os : List Op) (h : Carries ts (ops ++ os)) :
    ∃ ts1 ts2, ts = ts1 ++ ts2 ∧ Carries ts1 ops ∧ Carries ts2 os := by
  induction ops generalizing ts with
  | nil => exact ⟨[], ts, rfl, .nil, h⟩
  | cons o ops ih =>
    cases h with
    | op _ h =>
      obtain ⟨a, b, rfl, h1, h2⟩ := ih h
      exact ⟨_, b, rfl, .op o h1, h2⟩
    | opWait _ n h =>
      obtain ⟨a, b, rfl, h1, h2⟩ := ih h
      exact ⟨_, b, rfl, .opWait o n h1, h2⟩

theorem carries_head {ts : List Task} {o : Op} {os : List Op} (h : Carries ts (o :: os)) : ∃ k, ts =
    opTask o :: k := by
  cases h <;> exact ⟨_, rfl⟩

theorem carries_area {ts : List Task} {os : List Op} (h : Carries ts os) (k : List Task) : enclosingArea (ts ++
    k) = enclosingArea k := by
  induction h with
  | nil => rfl
  | op o _ ih => cases o <;> exact ih
  | opWait o n _ ih => cases o <;> exact ih

theorem opsGo_mode {run : List (Op × List Pass)} {s : State} {o : Op} {os : List Op} (h : s.OpsGo run)
    (hr : run.map Prod.fst = o :: os) :
    s.mode ≠ .none := by
  match run, hr with
  | (o', ps) :: run, hr =>
    have hp : ∀ p : Pass, p.mode ≠ .none := by intro p; cases p <;> simp [Pass.mode]
    cases o' with
    | write a v =>
      match ps, h with
      | [p], h => rw [← h.1.1]; exact hp p
    | poll a c =>
      match ps, h with
      | p :: ps, h =>
        have : p.mode = s.mode := h.1.2.1.1
        rw [← this]; exact hp p

/-! ### Completion polls that do not end -/

theorem reaches_pollMisses {s : State} (hb : s.busy = true) (hs : s.Shiftable) (a : Word) (cond : PollCond)
    (ps : List Pass) (l : Word) (k : List Task) (hg : s.PollMisses a cond ps) :
    Reaches ((ps.map (·.tasks + 2)).sum) { s with cont := .flashPoll a cond l :: k }
      { s.polled a ps with cont := .flashPoll a cond (if ps = [] then l else (s.polled a ps).acc) :: k } := by
  induction ps generalizing s l with
  | nil => exact Reaches.refl _
  | cons p ps ih =>
    obtain ⟨hc, hgo, hh, hr⟩ := hg
    have h0 := reaches_cont hb (.flashPoll a cond l) k
    have e0 : runTask (.flashPoll a cond l) { s with cont := k } =
        { s.drawn 1 with cont := memTask (.read a .half) :: .flashPollTest a cond :: k } := by
      simp only [runTask, State.flashPoll, drawCancel_eq]
      have hc' : State.cancelLevel { s with cont := k } 0 = false := hc
      rw [hc']
      rfl
    rw [e0] at h0
    have h1 := reaches_act_ok (s := s.drawn 1) hb (drawn_shiftable 1 hs) (.read a .half) p
      (.flashPollTest a cond :: k) hgo
    have hf := (drawn_framed 1 s).trans (access_framed (.read a .half) p (s.drawn 1))
    have hs' : ((s.drawn 1).access (.read a .half) p).Shiftable :=
      access_shiftable _ p (drawn_shiftable 1 hs)
    have hsum : ((p :: ps).map (·.tasks + 2)).sum = p.tasks + 2 + (ps.map (·.tasks + 2)).sum := by simp
    generalize hu : (s.drawn 1).access (.read a .half) p = u at h1 hf hh hr hs'
    have hb' : u.busy = true := hf.busy.trans hb
    have h2 := reaches_cont hb' (.flashPollTest a cond) k
    rw [← hf.flashParams] at hh
    have e1 : s.polled a (p :: ps) = u.polled a ps := by rw [← hu]; rfl
    rw [hsum, e1]
    have e2 : runTask (.flashPollTest a cond) { u with cont := k } =
          { u with cont := .flashPoll a cond u.acc :: k } := by
        simp only [runTask, State.flashPollTest]
        rw [if_neg (by
          have hh' : pollHolds u.flashParams u.acc cond = false := hh
          intro hx
          have hx' : pollHolds u.flashParams u.acc cond = true := hx
          rw [hh'] at hx'
          cases hx')]
        rfl
    rw [e2] at h2
    have h3 := ih hb' hs' u.acc hr
    have e3 : (if ps = [] then u.acc else (u.polled a ps).acc) = (if p :: ps = [] then l else
        (u.polled a ps).acc) := by
      cases ps <;> rfl
    rw [e3] at h3
    exact Reaches.mono (((h0.trans h1).trans h2).trans h3) (by omega)

theorem reaches_pollCancel {s : State} (hb : s.busy = true) (a : Word) (cond : PollCond) (l : Word) (k : List Task)
    (hc : s.cancelLevel 0 = true) :
    Reaches 1 { s with cont := .flashPoll a cond l :: k } (State.raise ⟨.userCancelled, a, l⟩
        { s.drawn 1 with cont := k }) := by
  have h0 := reaches_cont hb (.flashPoll a cond l) k
  have e0 : runTask (.flashPoll a cond l) { s with cont := k } = (State.raise ⟨.userCancelled, a, l⟩
      { s.drawn 1 with cont := k }) := by
      simp only [runTask, State.flashPoll, drawCancel_eq]
      have hc' : State.cancelLevel { s with cont := k } 0 = true := hc
      rw [hc']
      rfl
  rw [e0] at h0; exact h0

/-! ### Operations up to an access -/

theorem carries_tail {ts : List Task} {os : List Op} (h : Carries ts os) (k : List Task) :
    (ts ++ k).contains .setResult = k.contains .setResult := by
  induction h with
  | nil => rfl
  | op o _ ih => cases o <;> simpa [opTask] using ih
  | opWait o n _ ih => cases o <;> simpa [opTask] using ih

theorem reached_framed (r : Reach) (s : State) : Framed s (s.reached r) := by
  unfold State.reached
  split
  · exact opsRun_framed _ s
  · exact ((opsRun_framed _ s).trans (polled_framed _ _ _)).trans (drawn_framed 1 _)

/-- Operations up to the access that comes next; the tasks after it hold no erase area and no result of their own. -/
theorem reaches_reach {s : State} (hb : s.busy = true) {ops : List Op} {ts : List Task} (hc : Carries ts ops)
    (r : Reach) (k : List Task) (hg : s.ReachGoes ops r) :
    ∃ l, enclosingArea l = enclosingArea k ∧ l.contains .setResult = k.contains .setResult ∧
      Reaches r.tasks { s with cont := ts ++ k } { s.reached r with cont := memTask r.act :: l } := by
  obtain ⟨run, next, reads⟩ := r
  obtain ⟨⟨os, hos⟩, hsr, hgo, hn⟩ := hg
  rw [← hos, List.append_assoc] at hc
  obtain ⟨t1, t2, rfl, c1, c2⟩ := carries_split _ hc
  obtain ⟨k', rfl⟩ := carries_head c2
  have g1 : Reaches (opsTasks run) { s with cont := t1 ++ (opTask next :: (k' ++ k)) }
      { s.opsRun run with cont := opTask next :: (k' ++ k) } := by
    rcases hsr with hs | hr
    · exact reaches_ops hb hs run t1 _ c1 hgo
    · simp only at hr
      subst hr
      cases c1
      exact Reaches.refl _
  have hr : ({ s with cont := t1 ++ opTask next :: k' ++ k } : State) =
      { s with cont := t1 ++ (opTask next :: (k' ++ k)) } := by simp
  have ha := carries_area c2 k
  have hr' := carries_tail c2 k
  rw [hr]
  cases next with
  | write a v =>
    refine ⟨k' ++ k, ha, ?_, ?_⟩
    · simpa [opTask] using hr'
    · exact Reaches.mono g1 (by simp only [Reach.tasks]; omega)
  | poll a cond =>
    obtain ⟨hs, hmiss, hcl⟩ := hn
    have hb' : (s.opsRun run).busy = true := (opsRun_framed run s).busy.trans hb
    have g2 := reaches_pollMisses hb' (opsRun_shiftable run hs) a cond reads 0 (k' ++ k) hmiss
    have hb2 : ((s.opsRun run).polled a reads).busy = true := (polled_framed a reads _).busy.trans hb'
    have g3 := reaches_cont hb2
      (.flashPoll a cond (if reads = [] then 0 else ((s.opsRun run).polled a reads).acc)) (k' ++ k)
    have e3 : ∀ l, runTask (.flashPoll a cond l) { (s.opsRun run).polled a reads with cont := k' ++ k } =
        { ((s.opsRun run).polled a reads).drawn 1 with
          cont := memTask (.read a .half) :: .flashPollTest a cond :: (k' ++ k) } := by
      intro l
      simp only [runTask, State.flashPoll, drawCancel_eq]
      have hc' : State.cancelLevel { (s.opsRun run).polled a reads with cont := k' ++ k } 0 = false := hcl
      rw [hc']
      rfl
    rw [e3] at g3
    refine ⟨.flashPollTest a cond :: (k' ++ k), ha, ?_, ?_⟩
    · simpa [opTask] using hr'
    · exact Reaches.mono ((g1.trans g2).trans g3) (by simp only [Reach.tasks]; omega)

/-! ### One block of an erase area -/

theorem reaches_block {s : State} (hb : s.busy = true) {c : FlashDescriptor} (hc : s.chip =
    some c) (b : Word) (r : BlockRun)
    (i : Nat) (rest : List Word) (e : Option CmdError) (k : List Task) (hg : s.BlockGoes c.family b r) :
    Reaches (r.tasks - 1) { s with cont := .eraseBlock b :: .eraseNext i rest e :: k }
      { s.blockRun r with cont := .eraseNext i rest ((s.blockError b r).orElse fun _ => e) :: k } := by
  cases r with
  | done run =>
    obtain ⟨h1, hs, h2, h3⟩ := hg
    have g0 := reaches_eraseBlock hb hc b (.eraseNext i rest e :: k) h1
    have g1 := reaches_ops hb hs run _ (.eraseNext i rest e :: k) (by rw [h2]; exact carries_erase s c b) h3
    exact Reaches.mono (g0.trans g1) (by simp only [BlockRun.tasks]; omega)
  | misaligned =>
    have g0 := reaches_cont hb (.eraseBlock b) (.eraseNext i rest e :: k)
    have e0 : runTask (.eraseBlock b) { s with cont := .eraseNext i rest e :: k } = State.raise
        (misalignedError b 0) { s with cont := .eraseNext i rest e :: k } := by
      have hg' : misaligned b .half = true := hg
      simp only [runTask, State.eraseBlock, hc, hg', if_true]
    rw [e0, raise_in_area _ _ (by simp [misalignedError]) rfl] at g0
    exact g0
  | stopped r stop =>
    obtain ⟨h1, h2, h3⟩ := hg
    have g0 := reaches_eraseBlock hb hc b (.eraseNext i rest e :: k) h1
    obtain ⟨l, hl, -, g1⟩ := reaches_reach hb (carries_erase s c b) r (.eraseNext i rest e :: k) h2
    have hb' : (s.reached r).busy = true := (reached_framed r s).busy.trans hb
    have g2 := reaches_stop hb' r.act stop l h3
    have hne := stopError_code r.act stop (s.reached r)
    have hfail : ((s.reached r).stopState r.act stop).eraseFailed = s.eraseFailed :=
      ((reached_framed r s).trans (stopState_framed r.act stop _)).eraseFailed
    rw [raise_in_area _ _ hne hl] at g2
    have e2 : ({ (s.reached r).stopState r.act stop with
        eraseFailed := ((s.reached r).stopState r.act stop).eraseFailed + 1 } : State) =
        s.blockRun (.stopped r stop) := by
      rw [hfail]; rfl
    have g2' : Reaches stop.tasks { s.reached r with cont := memTask r.act :: l }
        { ({ (s.reached r).stopState r.act stop with
            eraseFailed := ((s.reached r).stopState r.act stop).eraseFailed + 1 } : State) with
          cont := .eraseNext i rest ((s.blockError b (.stopped r stop)).orElse fun _ => e) :: k } := g2
    rw [e2] at g2'
    exact Reaches.mono ((g0.trans g1).trans g2') (by simp only [BlockRun.tasks]; omega)

/-! ### One attempt of a probe -/

theorem framed_afterVendor (k : Attempt) (r : AttemptRun) (s : State) : Framed s (s.afterVendor k r) :=
  (opsRun_framed _ s).trans (access_framed _ _ _)

theorem framed_afterDevice (k : Attempt) (r : AttemptRun) (s : State) : Framed s (s.afterDevice k r) :=
  (framed_afterVendor k r s).trans (access_framed _ _ _)

theorem framed_afterIds (k : Attempt) (r : AttemptRun) (s : State) : Framed s (s.afterIds k r) := by
  unfold State.afterIds; split
  · exact (framed_afterDevice k r s).trans (access_framed _ _ _)
  · exact framed_afterDevice k r s

theorem framed_afterAttempt (k : Attempt) (r : AttemptRun) (s : State) : Framed s (s.afterAttempt k r) :=
  (framed_afterIds k r s).trans (access_framed _ _ _)

theorem shiftable_afterVendor (k : Attempt) (r : AttemptRun) {s : State} (h : s.Shiftable) :
    (s.afterVendor k r).Shiftable :=
  access_shiftable _ _ (opsRun_shiftable _ h)

theorem shiftable_afterDevice (k : Attempt) (r : AttemptRun) {s : State} (h : s.Shiftable) :
    (s.afterDevice k r).Shiftable :=
  access_shiftable _ _ (shiftable_afterVendor k r h)

theorem shiftable_afterIds (k : Attempt) (r : AttemptRun) {s : State} (h : s.Shiftable) :
    (s.afterIds k r).Shiftable := by
  unfold State.afterIds; split
  · exact access_shiftable _ _ (shiftable_afterDevice k r h)
  · exact shiftable_afterDevice k r h

theorem shiftable_afterAttempt (k : Attempt) (r : AttemptRun) {s : State} (h : s.Shiftable) :
    (s.afterAttempt k r).Shiftable :=
  access_shiftable _ _ (shiftable_afterIds k r h)

theorem carries_enter (s : State) (k : Attempt) : Carries
    (probeEnter s.flashParams.bytes s.flashParams.baseSmall k) (s.enterOps k) := by
  cases k
  · exact carries_cmd _ _ (carries_cmd _ _ (carries_cmd _ _ .nil))
  · exact carries_cmd _ _ (carries_cmd _ _ (carries_cmd _ _ .nil))
  · exact carries_cmd _ _ .nil

/-- An attempt up to its read of the vendor id. -/
theorem reaches_entered {s : State} (hb : s.busy = true) (hs : s.Shiftable) (k : Attempt) (r : AttemptRun) (n : Nat)
    (l : List Task) (hl : r.enter.length = (s.enterOps k).length)
    (hops : s.OpsGo ((s.enterOps k).zip (r.enter.map fun p => [p]))) :
    Reaches (10 + (r.enter.map (·.tasks)).sum) { s with cont := .probeAttempt k n :: l }
      { s.entered k r with cont := memTask (.read s.flashParams.baseSmall .half) :: .probeVendor k n :: l } := by
  have g0 := reaches_cont hb (.probeAttempt k n) l
  have e0 : runTask (.probeAttempt k n) { s with cont := l } = { s with
      cont := probeEnter s.flashParams.bytes s.flashParams.baseSmall k
        ++ (memTask (.read s.flashParams.baseSmall .half) :: .probeVendor k n :: l) } := by
    simp only [runTask, State.probeAttempt, State.push]
    rw [List.append_assoc]; rfl
  rw [e0] at g0
  have hmap : ((s.enterOps k).zip (r.enter.map fun p => [p])).map Prod.fst = s.enterOps k := by
    rw [List.map_fst_zip]; simp [hl]
  have g1 := reaches_ops hb hs _ _ (memTask (.read s.flashParams.baseSmall .half) :: .probeVendor k n :: l)
    (by rw [hmap]; exact carries_enter s k) hops
  have hot : ∀ (os : List Op) (ps : List Pass), os.length ≤ 3 → ps.length = os.length →
      opsTasks (os.zip (ps.map fun p => [p])) ≤ 3 * os.length + (ps.map (·.tasks)).sum := by
    intro os
    induction os with
    | nil => intro ps _ _; simp [opsTasks]
    | cons o os ih =>
      intro ps h1 h2
      cases ps with
      | nil => simp at h2
      | cons p ps =>
        have := ih ps (by simp at h1; omega) (by simpa using h2)
        simp [opsTasks] at *; omega
  have hl3 : (s.enterOps k).length ≤ 3 := by cases k <;> simp [State.enterOps, unlockOps]
  have := hot (s.enterOps k) r.enter hl3 hl
  exact Reaches.mono (g0.trans g1) (by omega)

/-- From there up to its read of the device id. -/
theorem reaches_vendor {s : State} (hb : s.busy = true) (hs : s.Shiftable) (k : Attempt) (r : AttemptRun) (n : Nat)
    (l : List Task) (hv : (s.entered k r).Goes (.read s.flashParams.baseSmall .half) r.vendor) :
    Reaches (r.vendor.tasks + 1)
      { s.entered k r with cont := memTask (.read s.flashParams.baseSmall .half) :: .probeVendor k n :: l }
      { s.afterVendor k r with
        cont := memTask (.read (s.flashParams.baseSmall + 2) .half) :: .probeDevice k n (s.vendorId k r) :: l } := by
  have hf1 : Framed s (s.entered k r) := opsRun_framed _ s
  have hs1 : (s.entered k r).Shiftable := opsRun_shiftable _ hs
  have g2 := reaches_act_ok (hf1.busy.trans hb) hs1 _ _ (.probeVendor k n :: l) hv
  have hf2 := framed_afterVendor k r s
  have g3 := reaches_cont (hf2.busy.trans hb) (.probeVendor k n) l
  have e3 : runTask (.probeVendor k n) { s.afterVendor k r with cont := l } = { s.afterVendor k r with
      cont := memTask (.read (s.flashParams.baseSmall + 2) .half) :: .probeDevice k n (s.vendorId k r) :: l } := by
    simp only [runTask, State.probeVendor]
    rw [show (({ s.afterVendor k r with cont := l } : State)).flashParams = s.flashParams from hf2.flashParams]
    rfl
  rw [e3] at g3
  exact g2.trans g3

theorem ambiguous_iff (k : Attempt) (r : AttemptRun) (s : State) : s.ambiguous k r = true ↔
    (s.vendorId k r).extractLsb' 0 8 = 0x01 ∧
      (s.afterDevice k r).acc.extractLsb' 0 16 = s.flashParams.ambigDeviceId := by
  simp [State.ambiguous]

/-- The end of an attempt begins with its reset-to-read. -/
theorem probeClose_eq {s t : State} (hf : Framed s t) (k : Attempt) (n : Nat) (v d : Half) (l : List Task) :
    ({ t with cont := l } : State).probeClose k n v d =
      { t with
        cont := memTask (s.resetWrite k.amdReset s.flashParams.baseSmall) :: .probeLookup k n v d :: l } := by
  unfold State.probeClose
  rw [show (({ t with cont := l } : State)).flashParams = s.flashParams from hf.flashParams]
  cases k <;> rfl

/-- From there up to its reset-to-read, where the ids are not ambiguous. -/
theorem reaches_device {s : State} (hb : s.busy = true) (hs : s.Shiftable) (k : Attempt) (r : AttemptRun) (n : Nat)
    (l : List Task) (hd : (s.afterVendor k r).Goes (.read (s.flashParams.baseSmall + 2) .half) r.device)
    (ha : s.ambiguous k r = false) :
    Reaches (r.device.tasks + 1)
      { s.afterVendor k r with
        cont := memTask (.read (s.flashParams.baseSmall + 2) .half) :: .probeDevice k n (s.vendorId k r) :: l }
      { s.afterIds k r with
        cont := memTask (s.resetWrite k.amdReset s.flashParams.baseSmall)
          :: .probeLookup k n (s.vendorId k r) (s.deviceId k r) :: l } := by
  have hf3 := framed_afterDevice k r s
  have g4 := reaches_act_ok ((framed_afterVendor k r s).busy.trans hb) (shiftable_afterVendor k r hs) _ _
    (.probeDevice k n (s.vendorId k r) :: l) hd
  have g5 := reaches_cont (hf3.busy.trans hb) (.probeDevice k n (s.vendorId k r)) l
  have hcond := mt (ambiguous_iff k r s).2 (by simp [ha])
  have hids : s.afterIds k r = s.afterDevice k r := by unfold State.afterIds; rw [if_neg (by simp [ha])]
  have e5 : runTask (.probeDevice k n (s.vendorId k r)) { s.afterDevice k r with cont := l } =
      { s.afterDevice k r with
        cont := memTask (s.resetWrite k.amdReset s.flashParams.baseSmall)
          :: .probeLookup k n (s.vendorId k r) (s.deviceId k r) :: l } := by
    refine Eq.trans ?_ (probeClose_eq hf3 k n (s.vendorId k r) (s.deviceId k r) l)
    simp only [runTask, State.probeDevice]
    rw [show (({ s.afterDevice k r with cont := l } : State)).flashParams = s.flashParams from hf3.flashParams]
    rw [if_neg (by exact hcond)]
    unfold State.deviceId; rw [hids]; rfl
  rw [e5] at g5
  rw [hids]
  exact g4.trans g5

/-- From there up to its read of the true device id, where they are (R229). -/
theorem reaches_ambiguous {s : State} (hb : s.busy = true) (hs : s.Shiftable) (k : Attempt) (r : AttemptRun)
    (n : Nat) (l : List Task)
    (hd : (s.afterVendor k r).Goes (.read (s.flashParams.baseSmall + 2) .half) r.device)
    (ha : s.ambiguous k r = true) :
    Reaches (r.device.tasks + 1)
      { s.afterVendor k r with
        cont := memTask (.read (s.flashParams.baseSmall + 2) .half) :: .probeDevice k n (s.vendorId k r) :: l }
      { s.afterDevice k r with
        cont := memTask (.read (s.flashParams.baseSmall + s.flashParams.extIdOffset) .half)
          :: .probeExtended k n (s.vendorId k r) :: l } := by
  have hf3 := framed_afterDevice k r s
  have g4 := reaches_act_ok ((framed_afterVendor k r s).busy.trans hb) (shiftable_afterVendor k r hs) _ _
    (.probeDevice k n (s.vendorId k r) :: l) hd
  have g5 := reaches_cont (hf3.busy.trans hb) (.probeDevice k n (s.vendorId k r)) l
  have e5 : runTask (.probeDevice k n (s.vendorId k r)) { s.afterDevice k r with cont := l } =
      { s.afterDevice k r with
        cont := memTask (.read (s.flashParams.baseSmall + s.flashParams.extIdOffset) .half)
          :: .probeExtended k n (s.vendorId k r) :: l } := by
    simp only [runTask, State.probeDevice]
    rw [show (({ s.afterDevice k r with cont := l } : State)).flashParams = s.flashParams from hf3.flashParams]
    rw [if_pos (by exact (ambiguous_iff k r s).1 ha)]
    rfl
  rw [e5] at g5
  exact g4.trans g5

/-- From there up to its reset-to-read. -/
theorem reaches_extended {s : State} (hb : s.busy = true) (hs : s.Shiftable) (k : Attempt) (r : AttemptRun)
    (n : Nat) (l : List Task) (ha : s.ambiguous k r = true)
    (hx : (s.afterDevice k r).Goes (.read (s.flashParams.baseSmall + s.flashParams.extIdOffset) .half) r.extended) :
    Reaches (r.extended.tasks + 1)
      { s.afterDevice k r with
        cont := memTask (.read (s.flashParams.baseSmall + s.flashParams.extIdOffset) .half)
          :: .probeExtended k n (s.vendorId k r) :: l }
      { s.afterIds k r with
        cont := memTask (s.resetWrite k.amdReset s.flashParams.baseSmall)
          :: .probeLookup k n (s.vendorId k r) (s.deviceId k r) :: l } := by
  have g6 := reaches_act_ok ((framed_afterDevice k r s).busy.trans hb) (shiftable_afterDevice k r hs) _ _
    (.probeExtended k n (s.vendorId k r) :: l) hx
  have hids : s.afterIds k r = (s.afterDevice k r).access
      (.read (s.flashParams.baseSmall + s.flashParams.extIdOffset) .half) r.extended := by
    unfold State.afterIds; rw [if_pos ha]
  rw [← hids] at g6
  have g7 := reaches_cont ((framed_afterIds k r s).busy.trans hb) (.probeExtended k n (s.vendorId k r)) l
  have e7 : runTask (.probeExtended k n (s.vendorId k r)) { s.afterIds k r with cont := l } = _ :=
    probeClose_eq (framed_afterIds k r s) k n (s.vendorId k r) (s.deviceId k r) l
  rw [e7] at g7
  exact g6.trans g7

/-- An attempt up to an access it comes to. -/
theorem reaches_attemptComes {s t : State} (hb : s.busy = true) (hs : s.Shiftable) (k : Attempt) (r : AttemptRun)
    (n : Nat) (l : List Task) (x : Act) (h : s.AttemptComes k r x t) :
    ∃ l', enclosingArea l' = enclosingArea l ∧ l'.contains .setResult = l.contains .setResult ∧
      Reaches (r.tasks - 2) { s with cont := .probeAttempt k n :: l } { t with cont := memTask x :: l' } := by
  cases h with
  | vendor he =>
    refine ⟨.probeVendor k n :: l, rfl, by simp, Reaches.mono (reaches_entered hb hs k r n l he.1 he.2) ?_⟩
    simp only [AttemptRun.tasks]; omega
  | device he hv =>
    have g := (reaches_entered hb hs k r n l he.1 he.2).trans (reaches_vendor hb hs k r n l hv)
    refine ⟨.probeDevice k n (s.vendorId k r) :: l, rfl, by simp, Reaches.mono g ?_⟩
    simp only [AttemptRun.tasks]; omega
  | extended he hv hd ha =>
    have g := ((reaches_entered hb hs k r n l he.1 he.2).trans (reaches_vendor hb hs k r n l hv)).trans
      (reaches_ambiguous hb hs k r n l hd ha)
    refine ⟨.probeExtended k n (s.vendorId k r) :: l, rfl, by simp, Reaches.mono g ?_⟩
    simp only [AttemptRun.tasks]; omega
  | reset he hv hd hx =>
    have g0 := (reaches_entered hb hs k r n l he.1 he.2).trans (reaches_vendor hb hs k r n l hv)
    refine ⟨.probeLookup k n (s.vendorId k r) (s.deviceId k r) :: l, rfl, by simp, ?_⟩
    cases ha : s.ambiguous k r with
    | true =>
      have g := (g0.trans (reaches_ambiguous hb hs k r n l hd ha)).trans
        (reaches_extended hb hs k r n l ha (hx ha))
      exact Reaches.mono g (by simp only [AttemptRun.tasks]; omega)
    | false =>
      exact Reaches.mono (g0.trans (reaches_device hb hs k r n l hd ha)) (by simp only [AttemptRun.tasks]; omega)

/-- A whole attempt, up to its lookup. -/
theorem reaches_probeAttempt {s : State} (hb : s.busy = true) (hs : s.Shiftable) (k : Attempt) (r : AttemptRun)
    (n : Nat) (l : List Task) (hg : s.AttemptGoes k r) :
    Reaches (r.tasks - 2) { s with cont := .probeAttempt k n :: l }
      { s.afterAttempt k r with cont := .probeLookup k n (s.vendorId k r) (s.deviceId k r) :: l } := by
  obtain ⟨hl, hops, hv, hd, hx, hr⟩ := hg
  have g0 := (reaches_entered hb hs k r n l hl hops).trans (reaches_vendor hb hs k r n l hv)
  have g1 := reaches_act_ok ((framed_afterIds k r s).busy.trans hb) (shiftable_afterIds k r hs) _ _
    (.probeLookup k n (s.vendorId k r) (s.deviceId k r) :: l) hr
  cases ha : s.ambiguous k r with
  | true =>
    have g := ((g0.trans (reaches_ambiguous hb hs k r n l hd ha)).trans
      (reaches_extended hb hs k r n l ha (hx ha))).trans g1
    exact Reaches.mono g (by simp only [AttemptRun.tasks]; omega)
  | false =>
    have g := (g0.trans (reaches_device hb hs k r n l hd ha)).trans g1
    exact Reaches.mono g (by simp only [AttemptRun.tasks]; omega)

/-! ### Attempts that find no chip -/

/-- The task that begins an attempt of a kind with this many rounds left. -/
def attemptStart (k : Attempt) (n : Nat) (last : Word) : Task :=
  match k with | .amd => .probeRound n last | _ => .probeAttempt k n

/-- How many attempts are left there. -/
def attemptsLeft : Attempt → Nat → Nat
  | .amd, n => 3 * n
  | .sst, n => 3 * n + 2
  | .intel, n => 3 * n + 1

theorem reaches_misses {s : State} (hb : s.busy = true) (hs : s.Shiftable) (rs : List AttemptRun) (k : Attempt)
    (n : Nat) (last : Word) (l : List Task) (hg : State.Misses k rs s) (hn : rs.length ≤ attemptsLeft k n) :
    ∃ m, Reaches ((rs.map (·.tasks)).sum) { s with cont := attemptStart k n last :: l }
      { (State.missRun k last rs s).1 with
        cont := attemptStart (State.missRun k last rs s).2.1 m (State.missRun k last rs s).2.2 :: l } ∧
      attemptsLeft (State.missRun k last rs s).2.1 m + rs.length = attemptsLeft k n ∧ Framed s (State.missRun k last rs s).1 ∧
      (State.missRun k last rs s).1.Shiftable := by
  induction rs generalizing s k n last with
  | nil => exact ⟨n, Reaches.refl _, by simp [State.missRun], Framed.refl s, hs⟩
  | cons r rs ih =>
    obtain ⟨h1, h2, h3⟩ := hg
    have hfa := framed_afterAttempt k r s
    obtain ⟨n', hn', hstart⟩ : ∃ n', (match k with | .amd => n = n' + 1 | _ => n = n') ∧
        Reaches 1 { s with cont := attemptStart k n last :: l } { s with cont := .probeAttempt k n' :: l } := by
      cases k with
      | amd =>
        cases n with
        | zero => simp [attemptsLeft] at hn
        | succ n =>
          exact ⟨n, rfl, reaches_cont hb (.probeRound (n+1) last) l⟩
      | sst => exact ⟨n, rfl, Reaches.mono (Reaches.refl _) (by omega)⟩
      | intel => exact ⟨n, rfl, Reaches.mono (Reaches.refl _) (by omega)⟩
    have g1 := reaches_probeAttempt hb hs k r n' l h1
    have hb' : (s.afterAttempt k r).busy = true := hfa.busy.trans hb
    have g2 := reaches_cont hb' (.probeLookup k n' (s.vendorId k r) (s.deviceId k r)) l
    have e2 : runTask (.probeLookup k n' (s.vendorId k r) (s.deviceId k r)) { s.afterAttempt k r with cont := l } =
        { s.afterAttempt k r with cont := attemptStart k.next n' (idWord (s.vendorId k r) (s.deviceId k r)) :: l } := by
      simp only [runTask, State.probeLookup]
      rw [show (({ s.afterAttempt k r with cont := l } : State)).flashParams = s.flashParams from
        hfa.flashParams, h2]
      cases k <;> rfl
    rw [e2] at g2
    obtain ⟨m, g3, hm, hf, hsh⟩ := ih hb' (shiftable_afterAttempt k r hs) k.next n'
      (idWord (s.vendorId k r) (s.deviceId k r)) h3 (by
      cases k <;> simp only [Attempt.next, attemptsLeft, List.length_cons] at * <;> omega)
    refine ⟨m, Reaches.mono (((hstart.trans g1).trans g2).trans g3) ?_, ?_, hfa.trans hf, hsh⟩
    · have : 2 ≤ r.tasks := by simp only [AttemptRun.tasks]; omega
      simp only [List.map_cons, List.sum_cons]; omega
    · simp only [State.missRun]
      cases k <;> simp only [Attempt.next, attemptsLeft, List.length_cons] at * <;> omega

theorem missRun_framed (k : Attempt) (last : Word) (rs : List AttemptRun) (s : State) :
    Framed s (State.missRun k last rs s).1 := by
  induction rs generalizing k last s with
  | nil => exact Framed.refl s
  | cons r rs ih => exact (framed_afterAttempt k r s).trans (ih _ _ _)

theorem accept_entered (w : Word) (k : Attempt) (r : AttemptRun) (s : State) :
    (s.accept w).entered k r = (s.entered k r).accept w := accept_opsRun _ _ _

theorem accept_attemptComes (w : Word) (k : Attempt) (r : AttemptRun) (x : Act) {s t : State}
    (h : s.AttemptComes k r x t) : (s.accept w).AttemptComes k r x (t.accept w) := by
  have enters : s.AttemptEnters k r → (s.accept w).AttemptEnters k r :=
    fun he => ⟨he.1, (accept_opsGo _ _ _).2 he.2⟩
  cases h with
  | vendor he =>
    rw [← accept_entered]
    exact .vendor (s := s.accept w) (enters he)
  | device he hv =>
    rw [← accept_afterVendor]
    exact .device (s := s.accept w) (enters he) (by rw [accept_entered, accept_goes]; exact hv)
  | extended he hv hd ha =>
    rw [← accept_afterDevice]
    exact .extended (s := s.accept w) (enters he) (by rw [accept_entered, accept_goes]; exact hv)
      (by rw [accept_afterVendor, accept_goes]; exact hd) (by rwa [accept_ambiguous])
  | reset he hv hd hx =>
    rw [← accept_afterIds]
    exact .reset (s := s.accept w) (enters he) (by rw [accept_entered, accept_goes]; exact hv)
      (by rw [accept_afterVendor, accept_goes]; exact hd)
      (by rw [accept_ambiguous, accept_afterDevice, accept_goes]; exact hx)

/-! ### Flash commands up to an access -/

theorem probe_start {s : State} (hr : s.Ready) (hm : s.mode ≠ .none) (ht : s.params.tableWf = true) :
    exec .flashProbe s = .next (drive s.pace
      { s.unprobed.accept (encode .flashProbe) with cont := [.probeRound s.flashParams.probeRounds 0] }) := by
  show execFlashProbe s = _
  unfold execFlashProbe
  rw [command_idle _ _ hr.1, whenOpen_open _ (by exact hr.2), whenModed_moded _ (by exact hm), if_pos (by exact ht)]
  rfl

/-- A probe up to an attempt. -/
theorem reaches_probeComes {s t : State} (misses : List AttemptRun) (k : Attempt) (h : s.ProbeComes misses k t)
    (w : Word) :
    ∃ n, Reaches ((misses.map (·.tasks)).sum + 1)
        { s.unprobed.accept w with cont := [.probeRound s.flashParams.probeRounds 0] }
        { t.accept w with cont := [.probeAttempt k n] } ∧ Framed s.unprobed t ∧ (s.Shiftable → t.Shiftable) := by
  obtain ⟨-, hs, hlen, hmiss, last, hrun⟩ := h
  rcases hs with rfl | hs
  · simp only [State.missRun, Prod.mk.injEq] at hrun
    obtain ⟨rfl, rfl, rfl⟩ := hrun
    obtain ⟨n, hn⟩ : ∃ n, s.flashParams.probeRounds = n + 1 :=
      ⟨s.flashParams.probeRounds - 1, by simp at hlen; omega⟩
    rw [hn]
    exact ⟨n, Reaches.mono (reaches_cont (s := s.unprobed.accept w) rfl (.probeRound (n + 1) 0) []) (by simp),
      Framed.refl _, id⟩
  · obtain ⟨m, g, hcnt, hf, hsh⟩ := reaches_misses (s := s.unprobed.accept w) rfl hs misses .amd
      s.flashParams.probeRounds 0 [] ((accept_misses _ _ _ _).2 hmiss) (by simp [attemptsLeft]; omega)
    rw [accept_missRun, hrun] at g hcnt hf hsh
    simp only at hcnt
    have hf' := missRun_framed .amd 0 misses s.unprobed
    rw [hrun] at hf'
    cases k with
    | amd =>
      cases m with
      | zero => simp [attemptsLeft] at hcnt; omega
      | succ n =>
        have g' := g.trans (reaches_cont (s := t.accept w) rfl (.probeRound (n + 1) last) [])
        exact ⟨n, Reaches.mono g' (by simp), hf', fun _ => hsh⟩
    | sst => exact ⟨m, Reaches.mono g (by simp), hf', fun _ => hsh⟩
    | intel => exact ⟨m, Reaches.mono g (by simp), hf', fun _ => hsh⟩

/-- A flash command that runs its tasks on an accepted state. -/
theorem flash_launch {w : Word} {body : FlashDescriptor → State → Answer} {s t : State} {c : FlashDescriptor}
    {ts : List Task} (hr : s.Ready) (hm : s.mode ≠ .none) (hc : s.chip = some c) (hp : t.pace = s.pace)
    (hbody : body c (s.accept w) = (t.accept w).launch ts) :
    command w (whenOpen (whenModed (whenChip body))) s =
      .next (drive s.pace { t.accept w with cont := ts }) := by
  rw [flash_shell hr hm hc, hbody]
  exact congrArg (fun p => Host.Outcome.next (drive p { t.accept w with cont := ts })) hp

/-- A flash command up to an access it comes to; the tasks after it hold no erase area and no result of their own. -/
theorem exec_comesTo {i : Instr} {n : Nat} {x : Act} {s t : State} (hr : s.Ready) (hm : s.mode ≠ .none)
    (h : s.ComesTo i n x t) :
    ∃ u l, exec i s = .next (drive s.pace u) ∧ enclosingArea l = none ∧ l.contains .setResult = false ∧
      Reaches n u { t.accept (encode i) with cont := memTask x :: l } := by
  cases h with
  | resetRead c hc =>
    refine ⟨_, [], flash_launch (t := s) (ts := [memTask (s.resetWrite (amdStyle c.family) s.flashBase)]) hr hm hc rfl
      rfl, rfl, rfl, Reaches.mono (Reaches.refl _) (by omega)⟩
  | eraseBlock c r hc ha hg =>
    have g0 := reaches_eraseBlock (s := { s with progress := s.addr }.accept (encode .flashEraseBlock)) rfl hc s.addr
      [] ha
    obtain ⟨l, h1, h2, g1⟩ := reaches_reach (s := { s with progress := s.addr }.accept (encode .flashEraseBlock)) rfl
      (carries_erase s c s.addr) r [] ((accept_reachGoes _ _ _ _).2 hg)
    rw [accept_reached] at g1
    exact ⟨_, l, flash_launch (t := { s with progress := s.addr }) (ts := [.eraseBlock s.addr]) hr hm hc rfl rfl, h1, h2,
      Reaches.mono (g0.trans g1) (by omega)⟩
  | writeWord c r hc ha hg =>
    have g0 := reaches_writeFlash (s := s.accept (encode .flashWriteWord)) rfl hc s.addr s.data [] ha
    obtain ⟨l, h1, h2, g1⟩ := reaches_reach (s := s.accept (encode .flashWriteWord)) rfl
      (carries_program s c s.addr s.data) r [] ((accept_reachGoes _ _ _ _).2 hg)
    rw [accept_reached] at g1
    exact ⟨_, l, flash_launch (t := s) (ts := [.writeFlash s.addr s.data]) hr hm hc rfl rfl, h1, h2,
      Reaches.mono (g0.trans g1) (by omega)⟩
  | probeEnter misses k t r hp hg =>
    obtain ⟨m, g0, -, -⟩ := reaches_probeComes misses k hp (encode .flashProbe)
    have g1 := reaches_cont (s := t.accept (encode .flashProbe)) rfl (.probeAttempt k m) []
    have e1 : runTask (.probeAttempt k m) { t.accept (encode .flashProbe) with cont := [] } =
        { t.accept (encode .flashProbe) with
          cont := probeEnter t.flashParams.bytes t.flashParams.baseSmall k
            ++ (memTask (.read t.flashParams.baseSmall .half) :: [.probeVendor k m]) } := by
      simp only [runTask, State.probeAttempt, State.push]
      rw [List.append_nil]; rfl
    rw [e1] at g1
    obtain ⟨l, h1, h2, g2⟩ := reaches_reach (s := t.accept (encode .flashProbe)) rfl
      (carries_enter t k) r (memTask (.read t.flashParams.baseSmall .half) :: [.probeVendor k m])
      ((accept_reachGoes _ _ _ _).2 hg)
    rw [accept_reached] at g2
    exact ⟨_, l, probe_start hr hm hp.1, h1, h2, Reaches.mono ((g0.trans g1).trans g2) (by omega)⟩
  | probeIds misses k t r x u hs hp hg =>
    obtain ⟨m, g0, -, hsh⟩ := reaches_probeComes misses k hp (encode .flashProbe)
    obtain ⟨l, h1, h2, g1⟩ := reaches_attemptComes (s := t.accept (encode .flashProbe)) rfl (hsh hs) k r m [] x
      (accept_attemptComes _ k r x hg)
    exact ⟨_, l, probe_start hr hm hp.1, h1, h2, Reaches.mono (g0.trans g1) (by omega)⟩

/-- The error that ends a flash command leaves the accepted state's command with it. -/
theorem raise_failed (e : CmdError) (i : Instr) (t : State) (l : List Task) (ha : enclosingArea l = none)
    (hr : l.contains .setResult = false) :
    State.raise e { t.accept (encode i) with cont := l } = t.failed i e := by
  rw [raise_ends _ _ (.inr ha), endWithError_eq]
  have h : State.returnsValue { t.accept (encode i) with cont := l } = false := hr
  rw [h, if_neg (by simp)]
  rfl

/-- A flash command that comes to an access which ends with an error other than USER_CANCELLED. -/
theorem exec_stops {i : Instr} {n : Nat} {x : Act} {stop : Stop} {s t : State} (hr : s.Ready) (hm : s.mode ≠ .none)
    (h : s.ComesTo i n x t) (hs : t.Stops x stop) (hp : n + stop.tasks ≤ s.pace) :
    exec i s = .next ((t.stopState x stop).failed i (t.stopError x stop)) := by
  obtain ⟨u, l, he, ha, hc, h0⟩ := exec_comesTo hr hm h
  have h1 := reaches_stop (s := t.accept (encode i)) rfl x stop l ((accept_stops _ _ _ _).2 hs)
  rw [accept_stopState, accept_stopError, raise_failed _ _ _ _ ha hc] at h1
  rw [he, drive_of_reaches (h0.trans h1) rfl hp]

end Sys2Proof.Machine
end

