-- ==== Sys2Proof/Tests/Slice0.lean ====
section
/-! SUPPORT. Tests: words and results taken from spec/95_test_vectors.md (each test names its section), the refusal of
ill-formed terms, and for every statement with hypotheses a witness that meets them. -/

namespace Sys2Proof.Tests

open Sys2Proof.Machine

set_option Elab.async false

/-! ### Well-formedness and decoding (L2.1) -/

theorem test_wellFormed_refuses_area5 : Instr.wf (.flashSelectArea 5) = false := by decide
theorem test_wellFormed_refuses_area15 : Instr.wf (.flashSelectArea 15) = false := by decide
theorem test_wellFormed_accepts_custom : Instr.wf (.flashSelectArea 4) = true := by decide

/-- L2.1: CLOCK and FLASH_SELECT_AREA, argument bits written out. -/
theorem test_decode_arguments :
    decode 0b0000_0000_0000_0000_0000_0000_0000_0001 = .ok (.clock false false false) ∧
      decode 0b0000_0000_0000_0000_0000_0001_0000_0001 = .ok (.clock true false false) ∧
      decode 0b0000_0000_0000_0000_0000_0010_0000_0001 = .ok (.clock false true false) ∧
      decode 0b0000_0000_0000_0000_0000_0100_0000_0001 = .ok (.clock false false true) ∧
      decode 0x00000022 = .ok (.flashSelectArea 0) ∧ decode 0x00000122 = .ok (.flashSelectArea 1) ∧
      decode 0x00000222 = .ok (.flashSelectArea 2) ∧ decode 0x00000322 = .ok (.flashSelectArea 3) ∧
      decode 0x00000422 = .ok (.flashSelectArea 4) := by decide

/-- 30_encoding.md R93: every opcode without an argument. -/
theorem test_decode_plain :
    decode 0x00000002 = .ok .resetTap ∧ decode 0x00000003 = .ok .setIr ∧ decode 0x00000004 = .ok .shiftDr32 ∧
      decode 0x00000008 = .ok .init ∧ decode 0x00000009 = .ok .shutdown ∧ decode 0x00000010 = .ok .readWord ∧
      decode 0x00000011 = .ok .readHalf ∧ decode 0x00000012 = .ok .writeWord ∧
      decode 0x00000013 = .ok .writeHalf ∧ decode 0x00000014 = .ok .dmaReadWord ∧
      decode 0x00000015 = .ok .dmaReadHalf ∧ decode 0x00000016 = .ok .dmaWriteWord ∧
      decode 0x00000017 = .ok .dmaWriteHalf ∧ decode 0x00000018 = .ok .praccReadWord ∧
      decode 0x00000019 = .ok .praccReadHalf ∧ decode 0x0000001A = .ok .praccWriteWord ∧
      decode 0x0000001B = .ok .praccWriteHalf ∧ decode 0x00000020 = .ok .flashProbe ∧
      decode 0x00000021 = .ok .flashResetRead ∧ decode 0x00000023 = .ok .flashEraseBlock ∧
      decode 0x00000024 = .ok .flashEraseArea ∧ decode 0x00000025 = .ok .flashWriteWord := by decide

/-- L2.1: the illegal words. -/
theorem test_decode_illegal :
    decode 0x00000801 = .error .illegalArgument ∧ decode 0x00000102 = .error .illegalArgument ∧
      decode 0x00001002 = .error .reservedBits ∧ decode 0x80000010 = .error .reservedBits ∧
      decode 0x00000005 = .error .unknownOpcode ∧ decode 0x00000000 = .error .unknownOpcode ∧
      decode 0x000000FF = .error .unknownOpcode ∧ decode 0x00000522 = .error .illegalArgument ∧
      decode 0x00000F22 = .error .illegalArgument ∧ decode 0x00000110 = .error .illegalArgument := by decide

/-! ### A small block -/

/-- The top-boot part of L2.7. -/
def amdChip : FlashDescriptor :=
  { vendor := 0x0001, device := 0x22F6, size := 0x00400000, family := .amd, regions := [⟨63, 0x10000⟩, ⟨8, 0x2000⟩] }

/-- An Intel-style part with two blocks. -/
def bscChip : FlashDescriptor :=
  { vendor := 0x0089, device := 0x8890, size := 0x00004000, family := .bsc, regions := [⟨2, 0x2000⟩] }

/-- A part whose table entry R116 excludes: blocks of size 0. -/
def badChip : FlashDescriptor :=
  { vendor := 1, device := 1, size := 1, family := .amd, regions := [⟨1, 0⟩] }

/-- The defaults of R9 with the test values of L2.6 to L2.8. -/
def params : Params :=
  { pinsStandard := Config.pinsStandard
    pinsAlternate := { tdi := 7, tck := 6, tms := 5, tdo := 3, tdoInverted := true }
    ejtag := Config.ejtag
    modules :=
      { readWord := [0x11111111, 0x22222222, 0x33333333, 0x44444444]
        writeWord := [0x55555555], readHalf := [0x66666666], writeHalf := [0x77777777] }
    flash :=
      { bytes := Config.flashBytes
        baseSmall := 0x1FC00000
        baseLarge := 0x1F000000
        probeRounds := 1
        ambigDeviceId := 0x227E
        extIdOffset := 0x1C
        eraseSettle := 0
        writeDelay := 0
        maxBlocks := 71
        table := [amdChip, bscChip]
        areas := [⟨0x00400000, 0, 0x1FC00000, 0x40000⟩] }
    tckDelayUnit := 0 }

/-- The status bytes that present a word: TDO is bit 4, first bit least significant. -/
def statusBytes (w : Word) : List Byte := (List.range 32).map fun i => if w.getLsbD i then 0x10 else 0x00

/-- The bits of a word made of bits. -/
theorem wordOfBits_testBit (bits : List Bool) (i : Nat) :
    (bits.foldr (fun (b : Bool) (n : Nat) => b.toNat + 2 * n) 0).testBit i = bits.getD i false := by
  induction bits generalizing i with
  | nil => simp
  | cons b bs ih =>
    cases i with
    | zero => cases b <;> simp [Nat.testBit_zero]
    | succ i =>
      rw [List.foldr_cons, Nat.testBit_succ,
        show (b.toNat + 2 * bs.foldr (fun (b : Bool) (n : Nat) => b.toNat + 2 * n) 0) / 2 =
          bs.foldr (fun (b : Bool) (n : Nat) => b.toNat + 2 * n) 0 by (cases b <;> simp); omega, ih]
      simp

/-- The status bytes of a list of words. -/
theorem statusBytes_get (ws : List Word) (k i : Nat) (h : k < ws.length) (hi : i < 32) :
    (ws.flatMap statusBytes)[32 * k + i]? = some (if ws[k].getLsbD i then 0x10 else 0x00) := by
  induction ws generalizing k with
  | nil => simp at h
  | cons w ws ih =>
    have hl : (statusBytes w).length = 32 := by simp [statusBytes]
    rw [List.flatMap_cons]
    cases k with
    | zero =>
      rw [List.getElem?_append_left (by omega)]
      simp [statusBytes, hi]
    | succ k =>
      rw [List.getElem?_append_right (by omega), hl, show 32 * (k + 1) + i - 32 = 32 * k + i by omega]
      exact ih k (by simpa using h)

/-- The words a block is fed are the words it captures. -/
theorem captured_fed (s : State) (ws : List Word) (k : Nat) (hp : s.pins = Config.pinsStandard)
    (hs : s.io.statusIn = ws.flatMap statusBytes) (h : k < ws.length) : s.captured k = ws[k] := by
  apply BitVec.eq_of_getLsbD_eq
  intro i hi
  unfold State.captured wordOfBits
  rw [BitVec.getLsbD_ofNat, wordOfBits_testBit]
  simp only [hi, decide_true, Bool.true_and, List.getD, List.getElem?_map, List.getElem?_range hi, Option.map_some,
    Option.getD_some]
  rw [Io.statusByte, hs, statusBytes_get ws k i h hi, hp]
  simp only [Option.getD_some]
  cases ws[k].getLsbD i <;> decide
/-- The driver's part in Run-Test/Idle, with words for the shifts to come. -/
def idleIo (ws : List Word) : Io := { Io.reset with tapStates := 0x0002, statusIn := ws.flatMap statusBytes }

/-- An open DMA session with IR_LENGTH 5, in careful mode. -/
def session (ws : List Word) : State :=
  { State.reset with
    params := params, config := 0x005, linkOpen := true, mode := .dma, pace := 400
    io := idleIo ws, addr := 0x80001000, data := 0xCAFEF00D, cancelIn := List.replicate 40 false }

/-- The same in fast mode. -/
def fastSession (ws : List Word) : State := { session ws with config := 0x205 }

/-- An open PrAcc session. -/
def praccSession (ws : List Word) : State := { session ws with config := 0x805, mode := .pracc }

/-- A session with a chip, its block map at the small window. -/
def flashSession (c : FlashDescriptor) (ws : List Word) : State :=
  { fastSession ws with
    addr := 0x1FC00000, data := 0xDEADBEEF, len := 0x2000, chip := some c, flashBase := 0x1FC00000
    flashId := idWord c.vendor c.device, flashInfo := familyCode c.family, flashSize := c.size
    blockMap := buildMap 0 c.regions 0x1FC00000 }

/-- A check of the next state; a fault or a refusal fails it. -/
def check (a : Answer) (p : State → Bool) : Bool :=
  match a with
  | .next s => p s
  | .fault _ => false
  | .refused _ => false

/-! ### Raw TAP commands (L2.3) -/

theorem test_clock_samples_one :
    check (exec (.clock false false true) { session [] with io := { idleIo [] with statusIn := [0x10] } }) (fun s =>
      s.result == 1 && s.io.tapStates == 0x0002 && s.io.clockCount == 1 && !s.irCacheValid &&
        s.io.trace == [.done 0x00000401 0, .statusRead 0x10, .ctrlWrite 0x02, .ctrlWrite 0x00]) = true := by
  decide +kernel

theorem test_clock_tms :
    check (exec (.clock true false false) (session [])) (fun s =>
      s.result == 0 && s.io.tapStates == 0x0004 && s.io.latch == 0x06) = true := by decide +kernel

theorem test_resetTap :
    check (exec .resetTap { session [] with io := Io.reset, irCacheValid := true }) (fun s =>
      s.io.tapStates == 0x0002 && s.io.clockCount == 6 && !s.irCacheValid && s.io.latch == 0x02) = true := by
  decide +kernel

theorem test_setIr_idcode :
    check (exec .setIr { session [] with data := 0x01 }) (fun s =>
      s.io.clockCount == 11 && s.irCache == 0x01 && s.irCacheValid &&
        (s.io.trace.drop 1).reverse == [0x04, 0x06, 0x04, 0x06, 0x00, 0x02, 0x00, 0x02, 0x01, 0x03, 0x00, 0x02, 0x00,
          0x02, 0x00, 0x02, 0x04, 0x06, 0x04, 0x06, 0x00, 0x02].map Event.ctrlWrite) = true := by decide +kernel

theorem test_setIr_masked_hit :
    check (exec .setIr { session [] with data := 0x2A, irCache := 0x0A, irCacheValid := true }) (fun s =>
      s.io.clockCount == 0 && s.irCache == 0x0A) = true := by decide +kernel

theorem test_shiftDr32 :
    check (exec .shiftDr32 (session [0x12345678])) (fun s =>
      s.result == 0x12345678 && s.io.clockCount == 37 && s.io.tapStates == 0x0002) = true := by decide +kernel

theorem test_shiftDr32_tapState :
    check (exec .shiftDr32 { session [] with io := { idleIo [] with tapStates := 0x0004 } }) (fun s =>
      s.err == .tapState && s.errAddr == 0 && s.errData == 0x00000004 && s.io.clockCount == 0) = true := by
  decide +kernel

/-! ### Session (L2.4) -/

theorem test_init_pracc :
    check (exec .init
      { State.reset with
        params := params, config := 0x005, io := { Io.reset with statusIn := statusBytes 0x00004000 } }) (fun s =>
      s.statusWord == 0x0001000A && s.result == 0x00004000 && s.irCache == 0x03 && s.io.clockCount == 54) = true := by
  decide +kernel

theorem test_init_both_forced :
    check (exec .init { State.reset with params := params, config := 0xC05 }) (fun s =>
      s.err == .invalidConfig && s.errAddr == 0 && s.errData == 0x00000C05 && !s.linkOpen) = true := by decide +kernel

theorem test_shutdown :
    check (exec .shutdown { session [] with irCacheValid := true }) (fun s =>
      s.statusWord == 0 && s.io.clockCount == 6) = true := by decide +kernel

/-! ### DMA access (L2.5). The words are what the shifts capture. -/

theorem test_readWord_careful :
    check (exec .readWord (session [0, 0, 0x00048000, 0x12345678, 0x00048000])) (fun s =>
      s.result == 0x12345678 && s.io.clockCount == 229 && s.irCache == 0x0A && s.err == .none) = true := by
  decide +kernel

theorem test_readWord_cancelled :
    check (exec .readWord { session [0, 0, 0x00048800] with cancelIn := [false, true] }) (fun s =>
      s.err == .userCancelled && s.errAddr == 0x80001000 && s.errData == 0x00048800 && s.io.clockCount == 133) = true := by
  decide +kernel

theorem test_readHalf_upper_lane :
    check (exec .readHalf { fastSession [0, 0, 0xAABBCCDD, 0x00048000] with addr := 0x1FC00002 }) (fun s =>
      s.result == 0x0000AABB && s.io.clockCount == 192) = true := by decide +kernel

theorem test_readHalf_misaligned :
    check (exec .readHalf { session [] with addr := 0x80000001, data := 7 }) (fun s =>
      s.err == .misaligned && s.errAddr == 0x80000001 && s.errData == 0 && s.io.clockCount == 0) = true := by
  decide +kernel

theorem test_writeWord_careful :
    check (exec .writeWord (session [0, 0, 0, 0x00048000, 0x00048000])) (fun s =>
      s.io.clockCount == 218 && s.err == .none && s.result == 0) = true := by decide +kernel

theorem test_writeHalf_fast_overrun :
    check (exec .writeHalf (fastSession [0, 0, 0, 0x00048800])) (fun s =>
      s.io.clockCount == 181 && s.statusWord == 0x00010016) = true := by decide +kernel

theorem test_dmaReadWord_in_pracc_mode :
    check (exec .dmaReadWord { fastSession [0, 0, 0x12345678, 0x00048400] with mode := .pracc }) (fun s =>
      s.result == 0x12345678 && !s.possibleCorruption && s.io.clockCount == 192) = true := by decide +kernel

theorem test_dmaReadHalf :
    check (exec .dmaReadHalf (fastSession [0, 0, 0xAABBCCDD, 0])) (fun s => s.result == 0x0000CCDD) = true := by
  decide +kernel

theorem test_dmaWriteWord_misaligned :
    check (exec .dmaWriteWord { session [] with addr := 0x80000003 }) (fun s =>
      s.err == .misaligned && s.errData == 0xCAFEF00D) = true := by decide +kernel

theorem test_dmaWriteHalf :
    check (exec .dmaWriteHalf { fastSession [0, 0, 0, 0] with addr := 0x80000002 }) (fun s =>
      s.io.clockCount == 181 && s.err == .none) = true := by decide +kernel

/-! ### PrAcc access (L2.6) -/

/-- CONTROL with a read, and with a write, pending. -/
def pendingRead : Word := 0x00048000
def pendingWrite : Word := 0x000C8000

/-- The words of the run of L2.6, for a module whose fetches are `fetches` and with the CPU's write `d`. -/
def cpuRun (d : Word) : List Word :=
  [pendingRead, 0xFF200200, 0, 0, pendingRead, 0xFF200204, 0, 0, pendingRead, 0xFF200000, 0, 0,
   pendingRead, 0xFF200208, 0, 0, pendingWrite, 0xFF200004, d, 0, pendingRead, 0xFF20020C, 0, 0,
   pendingRead, 0xFF200200]

theorem test_praccReadWord :
    check (exec .praccReadWord
      { session (cpuRun 0xCAFEBABE) with addr := 0x80000000, irCache := 0x03, irCacheValid := true }) (fun s =>
      s.result == 0xCAFEBABE && s.mboxData == 0xCAFEBABE && s.irCache == 0x08 && !s.stubAnomaly &&
        s.io.clockCount == 1182) = true := by decide +kernel

theorem test_praccReadHalf :
    check (exec .praccReadHalf (praccSession
      [pendingRead, 0xFF200200, 0, 0, pendingWrite, 0xFF200004, 0xFFFFBEEF, 0, pendingRead, 0xFF200200])) (fun s =>
      s.result == 0x0000BEEF && !s.stubAnomaly) = true := by decide +kernel

theorem test_praccWriteWord_anomaly :
    check (exec .praccWriteWord (praccSession
      [pendingRead, 0xFF200200, 0, 0, pendingRead, 0xFF200204, 0, 0, pendingRead, 0xFF200200])) (fun s =>
      s.stubAnomaly && s.mboxData == 0xCAFEF00D && s.err == .none) = true := by decide +kernel

theorem test_praccWriteHalf_upper :
    check (exec .praccWriteHalf
      { praccSession [pendingRead, 0xFF200200, 0, 0, pendingRead, 0xFF200200] with
        addr := 0x1FC00002, data := 0x12345678 }) (fun s => s.mboxData == 0x00001234) = true := by decide +kernel

/-! ### Flash (L2.7 to L2.10), by fast DMA: a write captures four words, a read four, its data third -/

/-- The captures of a fast access that reads `d`. -/
def fastRead (d : Word) : List Word := [0, 0, d, 0]

/-- The captures of `n` fast writes. -/
def fastWrites (n : Nat) : List Word := List.replicate (4 * n) 0

/-- The captures of an AMD attempt that reads these ids (the device id is read in the upper lane). -/
def attemptWords (writes : Nat) (vendor device : Half) : List Word :=
  fastWrites writes ++ fastRead (vendor.setWidth 32) ++ fastRead (device.setWidth 32 <<< 16) ++ fastWrites 1

theorem test_flashProbe_finds :
    check (exec .flashProbe (fastSession (attemptWords 3 0x0001 0x22F6))) (fun s =>
      s.result == 0x000122F6 && s.flashInfo == 1 && s.flashSize == 0x00400000 && s.flashBase == 0x1FC00000 &&
        s.blockMap.length == 71 && s.blockMap.getLast? == some 0x1FFFE000 && s.statusWord == 0x00010086) = true := by
  decide +kernel

theorem test_flashResetRead :
    check (exec .flashResetRead (flashSession bscChip (fastWrites 1))) (fun s =>
      s.io.clockCount == 181 && s.err == .none) = true := by decide +kernel

theorem test_flashSelectArea_named :
    check (exec (.flashSelectArea 0) (flashSession amdChip [])) (fun s =>
      s.areaStart == 0x1FC00000 && s.areaLen == 0x40000 && s.io.clockCount == 0) = true := by decide +kernel

theorem test_flashSelectArea_invalid :
    check (exec (.flashSelectArea 2) (flashSession amdChip [])) (fun s =>
      s.err == .chipSelectionInvalid && s.errAddr == 0x00400000 && s.errData == 2) = true := by decide +kernel

theorem test_flashEraseBlock_bsc :
    check (exec .flashEraseBlock (flashSession bscChip (fastWrites 4 ++ fastRead 0 ++ fastRead 0x80))) (fun s =>
      s.progress == 0x1FC00000 && s.err == .none && s.io.clockCount == 1108) = true := by decide +kernel

theorem test_flashEraseArea_one_block :
    check (exec .flashEraseArea { flashSession bscChip (fastWrites 4 ++ fastRead 0x80) with addr := 0x1FBFFFFE, len := 4 })
      (fun s => s.result == 1 && s.eraseFailed == 0 && s.progress == 0x1FC00000 && s.err == .none) = true := by
  decide +kernel

theorem test_flashEraseArea_cancelled :
    check (exec .flashEraseArea { flashSession bscChip (fastWrites 4) with cancelIn := [true] }) (fun s =>
      s.err == .userCancelled && s.errAddr == 0x1FC00000 && s.errData == 0 && s.result == 1 && s.eraseFailed == 0) =
      true := by decide +kernel

theorem test_flashWriteWord_amd :
    check (exec .flashWriteWord (flashSession amdChip
      (fastWrites 4 ++ fastRead 0x0000BEEF ++ fastWrites 4 ++ fastRead 0xDEAD0000))) (fun s =>
      s.err == .none && s.io.clockCount == 1832) = true := by decide +kernel

theorem test_flashWriteWord_misaligned :
    check (exec .flashWriteWord { flashSession amdChip [] with addr := 0x1FC00002 }) (fun s =>
      s.err == .misaligned && s.errAddr == 0x1FC00002 && s.errData == 0xDEADBEEF && s.io.clockCount == 0) = true := by
  decide +kernel

/-! ### The reference target (20_memory.md R82, R83) -/

/-- A busy AMD part does not show the programmed half, whatever its cell held (R82, R312). -/
theorem test_target_busy_is_not_done :
    (({ descriptor := amdChip, base := 0, mode := .programSetup, cells := [(0, 0x7F)], locked := [], latency := 1 } :
      FlashChip).writeHalf params.flash 0 0xFFFF |>.readHalf params.flash 0).1 ≠ 0xFFFF := by decide

/-- The unlock-block pair unlocks the block its address is in, and no other (R83). -/
theorem test_target_unlock :
    (({ descriptor := bscChip, base := 0, mode := .readArray, cells := [], locked := [0, 0x2000], latency := 1 } :
      FlashChip).writeHalf params.flash 0x2004 0x60 |>.writeHalf params.flash 0x2004 0xD0).locked = [0] := by decide

/-- The AMD attempt of a probe finds an Intel-style part and leaves it in read mode (R78, R231). -/
theorem test_target_probe_leaves_array :
    let c : FlashChip :=
      { descriptor := bscChip, base := 0, mode := .status 0, cells := [], locked := [], latency := 1 }
    let d := c.writeHalf params.flash 0xAAA 0xAA |>.writeHalf params.flash 0x554 0x55 |>.writeHalf params.flash 0xAAA 0x90
    (d.readHalf params.flash 0).1 = 0x0089 ∧ (d.writeHalf params.flash 0 0xF0).mode = .readArray := by decide

/-- One CONTROL word that clears PrAcc and starts a DMA write does both (R81, R84). -/
theorem test_target_start_and_complete :
    let t : Target :=
      { tap := .updateDr, irLength := 5, ir := 0x0A, shift := 0, idcode := 0, impcode := 0, address := 0x10
        data := 0x00000007, control := 0, dmaLeft := 0, derr := false, dmaLatency := 1, alwaysErr := false
        bus := { ram := [], flash := none }, cpu := some { addrReg := 0, dataReg := 0, ops := [.takeAddr, .giveData] }
        serving := none }
    let u := t.controlUpdate params 0x00028900
    u.cpu = some { addrReg := 7, dataReg := 0, ops := [.giveData] } ∧ u.bus.ram = [(0x10, 7)] ∧ u.dmaLeft = 1 := by decide

/-! ### Witnesses: encoding and host accesses -/

/-- An idle block after reset with one action of the host to serve. -/
def hostOn (a : HostAction) : State := { State.reset with params := params, hostQueue := [a] }

/-- The same, BUSY. -/
def busyOn (a : HostAction) : State := { hostOn a with busy := true }

theorem witness_IllegalWords :
    (∀ w ∈ ([0x05, 0x102, 0x522, 0x801, 0x1002] : List Word), ¬ LegalWord w) ∧
      (hostOn (.write 0x08 0x522)).busy = false ∧ (hostOn (.write 0x08 0x522)).hostQueue = [.write 0x08 0x522] := by
  refine ⟨fun w h => ?_, rfl, rfl⟩
  fin_cases h <;> (unfold LegalWord; decide)

theorem witness_StepRunsDecoded :
    (hostOn (.write 0x08 0x422)).hostQueue = [.write 0x08 0x422] ∧ decode 0x422 = .ok (.flashSelectArea 4) := by decide +kernel

theorem witness_RegisterMap :
    ∀ a ∈ ([0x00, 0x18, 0x48, 0x64, 0x68] : List Word), (hostOn (.read a)).hostQueue = .read a :: [] := by
  intro a _; rfl

theorem witness_HostAccessRules_read :
    ∀ a ∈ ([0x68, 0xFFC, 0x02] : List Word), (hostOn (.read a)).hostQueue = .read a :: [] ∧ a ∉ writableOffsets ∧
      a ∉ readOnlyOffsets ∧ a ≠ 0x08 ∧ a ≠ 0x18 := by
  refine fun a h => ⟨rfl, ?_⟩; fin_cases h <;> decide

theorem witness_HostAccessRules_flashInfo : State.reset.Inv := by
  refine ⟨by decide +kernel, by decide +kernel, by decide +kernel, fun _ => rfl, by decide +kernel, ⟨rfl, rfl, rfl, rfl⟩, Nat.zero_le _, by decide +kernel⟩

theorem witness_HostAccessRules_write :
    ∀ a ∈ ([0x1C, 0x64, 0x68] : List Word), (hostOn (.write a 1)).hostQueue = .write a 1 :: [] ∧
      a ∉ writableOffsets ∧ a ≠ 0x08 ∧ a ≠ 0x18 := by
  refine fun a h => ⟨rfl, ?_⟩; fin_cases h <;> decide

theorem witness_HostAccessRules_status : (hostOn (.write 0x18 0x60)).hostQueue = [.write 0x18 0x60] := rfl

theorem witness_HostAccessRules_config :
    (hostOn (.write 0x00 0xFFFFFFFF)).hostQueue = [.write 0x00 0xFFFFFFFF] ∧
      (hostOn (.write 0x00 0xFFFFFFFF)).busy = false := ⟨rfl, rfl⟩

theorem witness_OperandWrites :
    ∀ a ∈ ([0x04, 0x0C, 0x10, 0x14, 0x44] : List Word), (hostOn (.write a 9)).hostQueue = .write a 9 :: [] ∧
      (hostOn (.write a 9)).busy = false := fun _ _ => ⟨rfl, rfl⟩

theorem witness_BusyDropsWrites_busy :
    ∀ a ∈ ([0x00, 0x08, 0x44] : List Word), (busyOn (.write a 9)).hostQueue = .write a 9 :: [] ∧
      (busyOn (.write a 9)).busy = true ∧ (a = 0x08 ∨ a ∈ writableOffsets) := by
  refine fun a h => ⟨rfl, rfl, ?_⟩; fin_cases h <;> decide

theorem witness_BusyDropsWrites_idle :
    (hostOn (.write 0x08 0x10)).hostQueue = [.write 0x08 0x10] ∧ (hostOn (.write 0x08 0x10)).busy = false ∧
      decode 0x10 = .ok .readWord ∧ check (step (hostOn (.write 0x08 0x10))) (fun t => t.err == .notOpen) = true := by
  refine ⟨rfl, rfl, rfl, ?_⟩; decide +kernel

theorem witness_BusyDropsWrites_illegal :
    (hostOn (.write 0x08 0x05)).hostQueue = [.write 0x08 0x05] ∧ (hostOn (.write 0x08 0x05)).busy = false ∧
      ¬ LegalWord 0x05 ∧ check (step (hostOn (.write 0x08 0x05))) (fun t => t.cmd == 5) = true := by
  refine ⟨rfl, rfl, ?_, ?_⟩
  · unfold LegalWord; decide +kernel
  · decide +kernel

theorem witness_ResetValues_PowerOnReset : (busyOn .powerOn).hostQueue = [.powerOn] := rfl

theorem test_five_clocks_know_the_tap :
    (List.replicate 5 true).foldl tapNext 0xFFFF = 0x0001 := by decide

theorem witness_PaceDoesNotMatter : (session []).hostQueue = [] := rfl

/-! ### Witnesses: driver and session -/

theorem witness_ClockCommand : (session []).busy = false ∧ 2 ≤ (session []).pace := by decide +kernel

theorem witness_ResetTapCommand :
    { session [] with io := Io.reset }.busy = false ∧ 2 ≤ { session [] with io := Io.reset }.pace ∧
      { session [] with io := Io.reset }.io.tapStates ≠ 0 := by decide +kernel

theorem witness_SetIrCommand :
    ∀ c ∈ ([0x000, 0x001, 0x020, 0x021] : List Word), { session [] with config := c }.busy = false ∧
      2 ≤ { session [] with config := c }.pace ∧ { session [] with config := c }.io.tapStates = 0x0002 :=
  fun _ _ => ⟨rfl, by show 2 ≤ 400; decide, rfl⟩

theorem witness_SetIrCommand_length : 1 ≤ { session [] with config := 0x001 }.irLength := by decide +kernel

theorem witness_ShiftDrCommand :
    (session [1]).busy = false ∧ 3 ≤ (session [1]).pace ∧ (session [1]).io.tapStates = 0x0002 := by decide +kernel

theorem witness_InitCommand :
    ∀ c ∈ ([0x005, 0x405, 0x805, 0xC05, 0x000, 0x020, 0x021] : List Word),
      { session [] with config := c }.busy = false ∧ { session [] with config := c }.io.tapStates ≠ 0 ∧
        5 ≤ { session [] with config := c }.pace :=
  fun _ _ => ⟨rfl, by show (0x0002 : BitVec 16) ≠ 0; decide, by show 5 ≤ 400; decide⟩

theorem witness_ShutdownCommand : (session []).busy = false ∧ 3 ≤ (session []).pace := by decide +kernel

theorem witness_NotOpen :
    ∀ i ∈ [Instr.clock true true true, .flashSelectArea 4, .flashWriteWord], i ≠ .init ∧ i.wf = true ∧
      State.reset.busy = false ∧ State.reset.linkOpen = false := by decide +kernel

/-! ### Witnesses: target accesses -/

theorem session_ready (ws : List Word) : (session ws).Ready := ⟨rfl, rfl⟩

/-- IR_LENGTH is legal by CONFIG alone. -/
theorem legal_of_config (s : State) (c : Word) (h : s.config = c)
    (hc : State.irLengthLegal { State.reset with config := c } = true) : s.irLengthLegal = true := by
  unfold State.irLengthLegal State.irLength at *; rw [h]; exact hc

theorem session_shiftable (ws : List Word) : (session ws).Shiftable :=
  ⟨legal_of_config _ 0x005 rfl (by decide +kernel), rfl⟩
theorem fastSession_shiftable (ws : List Word) : (fastSession ws).Shiftable :=
  ⟨legal_of_config _ 0x205 rfl (by decide +kernel), rfl⟩
theorem praccSession_shiftable (ws : List Word) : (praccSession ws).Shiftable :=
  ⟨legal_of_config _ 0x805 rfl (by decide +kernel), rfl⟩

/-- A fast access goes. -/
theorem goes_fast (x : Act) (s : State) (hm : s.mode = .dma) (hf : s.fast = true)
    (ha : misaligned x.addr x.width = false) : s.Goes x .fast := ⟨hm.symm, ha, rfl, hf⟩

theorem witness_MisalignedAccess :
    { session [] with addr := 0x80000002 }.accessOf .readWord = some (.read 0x80000002 .word, .dma) ∧
      Mode.dma ≠ .none ∧ { session [] with addr := 0x80000002 }.Ready ∧
      1 ≤ { session [] with addr := 0x80000002 }.pace ∧ misaligned 0x80000002 .word = true :=
  ⟨rfl, by decide +kernel, ⟨rfl, rfl⟩, by decide +kernel, by decide +kernel⟩

theorem witness_MisalignedAccess_flash :
    ∀ a ∈ ([0x1FC00001, 0x1FC00002, 0x1FC00003] : List Word),
      { flashSession amdChip [] with addr := a }.Ready ∧ { flashSession amdChip [] with addr := a }.mode ≠ .none ∧
        { flashSession amdChip [] with addr := a }.chip = some amdChip ∧
        1 ≤ { flashSession amdChip [] with addr := a }.pace ∧ (a.getLsbD 0 = true ∨ a.getLsbD 1 = true) := by
  refine fun a h => ⟨⟨rfl, rfl⟩, nofun, rfl, by show 1 ≤ 400; decide, ?_⟩; fin_cases h <;> decide

theorem witness_AccessPreconditions :
    ∀ c ∈ ([0x000, 0x021, 0x200] : List Word),
      { session [] with config := c }.accessOf .readWord = some (.read 0x80001000 .word, .dma) ∧
        { session [] with config := c }.accessOf .praccReadWord = some (.read 0x80001000 .word, .pracc) ∧
        { session [] with config := c }.Ready ∧ 5 ≤ { session [] with config := c }.pace ∧
        misaligned 0x80001000 .word = false ∧ ¬ { session [] with config := c }.Shiftable := by
  refine fun c h => ⟨rfl, rfl, ⟨rfl, rfl⟩, by show 5 ≤ 400; decide +kernel, by decide +kernel, ?_⟩
  unfold State.Shiftable; fin_cases h <;> decide +kernel

theorem witness_AccessPreconditions_tap :
    ¬ { session [] with io := { idleIo [] with tapStates := 0x0001 } }.Shiftable := by
  unfold State.Shiftable; decide +kernel

theorem witness_FastDmaAccess :
    (fastSession []).accessOf .writeHalf = some (.write 0x80001000 .half 0xCAFEF00D, .dma) ∧ (fastSession []).Ready ∧
      (fastSession []).Shiftable ∧ (fastSession []).fast = true ∧ misaligned 0x80001000 .half = false ∧
      Pass.fast.tasks + 2 ≤ (fastSession []).pace :=
  ⟨rfl, ⟨rfl, rfl⟩, fastSession_shiftable [], by decide +kernel, by decide +kernel, by decide +kernel⟩

/-- A careful read whose first attempt polls twice and ends with DERR = 1. -/
def carefulWords : List Word := [0, 0, 0x00048800, 0x00048000, 1, 0x00048400, 0, 0, 0x00048000, 2, 0x00048000]

theorem witness_CarefulDmaAccess :
    (session carefulWords).accessOf .readWord = some (.read 0x80001000 .word, .dma) ∧ (session carefulWords).Ready ∧
      (session carefulWords).Shiftable ∧ misaligned 0x80001000 .word = false ∧
      (session carefulWords).Allows (.read 0x80001000 .word) (.careful [1] 0) ∧
      (Pass.careful [1] 0).tasks + 2 ≤ (session carefulWords).pace := by
  refine ⟨rfl, ⟨rfl, rfl⟩, session_shiftable _, by decide +kernel, ?_, by decide +kernel⟩
  simp only [State.Allows, State.Fails, State.PollEnds, State.Quiet]
  decide +kernel

/-- Seventeen attempts with one poll each, all ending with DERR = 1. -/
def corruptedWords : List Word := (List.replicate 17 [0, 0, 0x00048000, 0x00048000, 0x00048400]).flatten

theorem corruptedWords_captured (s : State) (hp : s.pins = Config.pinsStandard)
    (hs : s.io.statusIn = corruptedWords.flatMap statusBytes) (k : Nat) (h : k < 85) :
    s.captured k = [0, 0, 0x00048000, 0x00048000, 0x00048400].getD (k % 5) 0 := by
  rw [captured_fed _ corruptedWords k hp hs (by simpa [corruptedWords] using h)]
  clear hs
  revert k; decide

/-- They corrupt any careful access. -/
theorem corrupted_allows (s : State) (x : Act) (hp : s.pins = Config.pinsStandard)
    (hs : s.io.statusIn = corruptedWords.flatMap statusBytes) (hc : s.ctl = Config.controlBits)
    (hf : s.fast = false) (hq : s.Quiet 17) : s.Allows x (.corrupted (List.replicate 16 0) 0) := by
  have hk : ∀ j r, r < 5 → 5 * j + r < 85 →
      s.captured (5 * j + r) = [0, 0, 0x00048000, 0x00048000, 0x00048400].getD r 0 := by
    intro j r hr hj
    rw [corruptedWords_captured s hp hs _ hj, show (5 * j + r) % 5 = r by omega]
  have poll : ∀ j, j < 17 → s.PollEnds (5 * j + x.startWords) 0 := by
    refine fun j hj => ⟨fun i hi => by omega, ?_⟩
    rw [State.dstrt, hc]
    cases x <;> (rw [Nat.add_zero, Act.startWords, hk j _ (by omega) (by omega)]; decide)
  have clear : ∀ j, j < 17 → s.derr (s.captured (5 * j + 0 + 4)) = true := by
    intro j hj
    rw [State.derr, hc, Nat.add_zero, hk j 4 (by omega) (by omega)]; decide
  have fails : ∀ n j, n + j ≤ 17 → s.Fails x (5 * j) (List.replicate n 0) := by
    intro n
    induction n with
    | zero => intro j _; exact trivial
    | succ n ih => exact fun j h => ⟨poll j (by omega), clear j (by omega), ih (j + 1) (by omega)⟩
  exact ⟨hf, rfl, fails 16 0 (by omega), poll 16 (by omega), clear 16 (by omega), hq⟩

theorem witness_CorruptedDmaAccess :
    (session corruptedWords).accessOf .readWord = some (.read 0x80001000 .word, .dma) ∧
      (session corruptedWords).Ready ∧ (session corruptedWords).Shiftable ∧ misaligned 0x80001000 .word = false ∧
      (session corruptedWords).Allows (.read 0x80001000 .word) (.corrupted (List.replicate 16 0) 0) ∧
      (Pass.corrupted (List.replicate 16 0) 0).tasks + 2 ≤ (session corruptedWords).pace := by
  refine ⟨rfl, ⟨rfl, rfl⟩, session_shiftable _, by decide, corrupted_allows _ _ rfl rfl rfl rfl ?_, by decide⟩
  unfold State.Quiet; decide +kernel

/-- A careful read cancelled at its first consultation, and one cancelled at its second. -/
def cancelState (cs : List Bool) : State := { session [0, 0, 0x00048800] with cancelIn := cs }

theorem witness_CancelledDmaAccess :
    (cancelState [true]).accessOf .readWord = some (.read 0x80001000 .word, .dma) ∧ (cancelState [true]).Ready ∧
      (cancelState [true]).Shiftable ∧ misaligned 0x80001000 .word = false ∧
      (cancelState [true]).Allows (.read 0x80001000 .word) (.cancelled [] 0) ∧
      (cancelState [false, true]).Allows (.read 0x80001000 .word) (.cancelled [] 1) ∧
      (Pass.cancelled [] 1).tasks + 2 ≤ (cancelState [true]).pace := by
  refine ⟨rfl, ⟨rfl, rfl⟩, ⟨by decide +kernel, rfl⟩, by decide +kernel, ?_, ?_, by decide +kernel⟩ <;>
  · simp only [State.Allows, State.Fails, State.Quiet]
    decide +kernel

/-- The run of L2.6. -/
def cpuScript : List (Nat × StubAccess) :=
  [(0, .read 0xFF200200), (0, .read 0xFF200204), (0, .read 0xFF200000), (0, .read 0xFF200208),
   (0, .write 0xFF200004 0xCAFEBABE), (0, .read 0xFF20020C)]

theorem cpuRun_captured (k : Nat) (h : k < 26) :
    (session (cpuRun 0xCAFEBABE)).captured k = (cpuRun 0xCAFEBABE).getD k 0 := by
  have hl : k < (cpuRun 0xCAFEBABE).length := by simpa [cpuRun] using h
  rw [captured_fed _ (cpuRun 0xCAFEBABE) k rfl rfl hl]
  rw [List.getD_eq_getElem _ _ hl]

theorem witness_ProcessorAccess :
    (session (cpuRun 0xCAFEBABE)).accessOf .praccReadWord = some (.read 0x80001000 .word, .pracc) ∧
      (session (cpuRun 0xCAFEBABE)).Ready ∧ (session (cpuRun 0xCAFEBABE)).Shiftable ∧
      misaligned 0x80001000 .word = false ∧
      (session (cpuRun 0xCAFEBABE)).Allows (.read 0x80001000 .word) (.pracc cpuScript 0) ∧
      (Pass.pracc cpuScript 0).tasks + 2 ≤ (session (cpuRun 0xCAFEBABE)).pace := by
  refine ⟨rfl, ⟨rfl, rfl⟩, session_shiftable _, by decide, ?_, by decide⟩
  simp only [State.Allows, cpuScript, State.Makes, State.Pending]
  repeat' apply And.intro
  all_goals first
    | exact trivial
    | (intro j hj; omega)
    | (rw [cpuRun_captured _ (by decide)]; decide)
    | decide

theorem witness_DmaSpins :
    { session (0 :: 0 :: List.replicate 8 0x00048800) with pace := 8 }.accessOf .readWord =
        some (.read 0x80001000 .word, .dma) ∧
      { session (0 :: 0 :: List.replicate 8 0x00048800) with pace := 8 }.Ready ∧
      { session (0 :: 0 :: List.replicate 8 0x00048800) with pace := 8 }.Shiftable ∧
      { session (0 :: 0 :: List.replicate 8 0x00048800) with pace := 8 }.fast = false ∧
      { session (0 :: 0 :: List.replicate 8 0x00048800) with pace := 8 }.Quiet 8 ∧
      ∀ k < 8, { session (0 :: 0 :: List.replicate 8 0x00048800) with pace := 8 }.dstrt
        ({ session (0 :: 0 :: List.replicate 8 0x00048800) with pace := 8 }.captured (2 + k)) = true := by
  refine ⟨rfl, ⟨rfl, rfl⟩, ⟨by decide +kernel, rfl⟩, by decide +kernel, ?_, ?_⟩
  · unfold State.Quiet; decide +kernel
  · decide +kernel

theorem witness_PraccSpins :
    { praccSession (List.replicate 8 0) with pace := 8 }.accessOf .readWord =
        some (.read 0x80001000 .word, .pracc) ∧
      { praccSession (List.replicate 8 0) with pace := 8 }.Ready ∧
      { praccSession (List.replicate 8 0) with pace := 8 }.Shiftable ∧
      ∀ k < 8, { praccSession (List.replicate 8 0) with pace := 8 }.praccBit
        ({ praccSession (List.replicate 8 0) with pace := 8 }.captured k) = false := by
  refine ⟨rfl, ⟨rfl, rfl⟩, ⟨by decide +kernel, rfl⟩, ?_⟩
  decide +kernel

theorem witness_NoModeFaults :
    { session [] with mode := .none }.Ready ∧ { session [] with mode := .none }.mode = .none := ⟨⟨rfl, rfl⟩, rfl⟩

theorem witness_ServeRule :
    State.reset.ejtag.debugVector ≤ 0xFF200200 ∧ (0xFF200200 - (session []).ejtag.debugVector).toNat / 4 <
        ((session []).moduleWords .readWord).length ∧
      ((session []).moduleWords .readWord).length ≤ (0xFF200210 - (session []).ejtag.debugVector).toNat / 4 ∧
      (∀ a ∈ ([0xFF200000, 0xFF200004, 0xFF200008, 0xFF2001FF] : List Word),
        a < (session []).ejtag.debugVector) := by
  refine ⟨by decide +kernel, by decide +kernel, by decide +kernel, fun a h => ?_⟩
  fin_cases h <;> decide +kernel

/-! ### Witnesses: flash -/

theorem witness_BlockMapRule :
    ([⟨0, 0⟩, ⟨63, 0x10000⟩, ⟨8, 0x2000⟩] : List Region).all (fun r => r.count == 0 || r.blockSize != 0) = true ∧
      (0xFFC00000 : Word).toNat + (([⟨0, 0⟩, ⟨63, 0x10000⟩, ⟨8, 0x2000⟩] : List Region).map
        fun r => r.count.toNat * r.blockSize.toNat).sum = 2 ^ 32 := by decide +kernel

theorem witness_WindowBaseRule : (0x00800000 : Word) ≤ 0x00800000 ∧ (0x007FFFFF : Word) < 0x00800000 := by decide +kernel

theorem witness_NoChip :
    (fastSession []).Ready ∧ (fastSession []).mode ≠ .none ∧ (fastSession []).chip = none ∧
      (∀ i ∈ [Instr.flashResetRead, .flashSelectArea 4], i.wf = true) := ⟨⟨rfl, rfl⟩, by decide +kernel, rfl, by decide +kernel⟩

theorem witness_FlashResetReadCommand :
    (flashSession bscChip []).Ready ∧ (flashSession bscChip []).Shiftable ∧
      (flashSession bscChip []).chip = some bscChip ∧
      (flashSession bscChip []).Goes
        ((flashSession bscChip []).resetWrite (amdStyle bscChip.family) (flashSession bscChip []).flashBase) .fast ∧
      Pass.fast.tasks + 2 ≤ (flashSession bscChip []).pace :=
  ⟨⟨rfl, rfl⟩, fastSession_shiftable [], rfl, goes_fast _ _ rfl (by decide +kernel) (by decide +kernel), by decide +kernel⟩

theorem witness_FlashSelectAreaCommand :
    (flashSession amdChip []).Ready ∧ (flashSession amdChip []).chip = some amdChip ∧
      (∀ area ∈ ([0, 2, 4] : List (BitVec 4)), area ≤ 4) ∧ 2 ≤ (flashSession amdChip []).pace :=
  ⟨⟨rfl, rfl⟩, rfl, by decide +kernel, by decide +kernel⟩

/-- The same with room for one block less than the chip has. -/
def tightSession : State :=
  { flashSession amdChip [] with params := { params with flash := { params.flash with maxBlocks := 70 } } }

theorem witness_FlashSelectAreaCommand_overflow :
    tightSession.Ready ∧ tightSession.chip = some amdChip ∧ (4 : BitVec 4) ≤ 4 ∧ 2 ≤ tightSession.pace ∧
      tightSession.flashParams.maxBlocks < totalBlocks amdChip.regions :=
  ⟨⟨rfl, rfl⟩, rfl, by decide, by decide +kernel, by decide⟩

theorem witness_IllegalAreaCode :
    (session []).busy = false ∧ (4 : BitVec 4) < 5 ∧ (4 : BitVec 4) < 15 := by decide +kernel

/-- The operations of an Intel block erase with a pass for each, the poll satisfied by its second read. -/
def eraseRun (s : State) : List (Op × List Pass) :=
  (s.eraseOps .bsc s.addr).zip [[.fast], [.fast], [.fast], [.fast], [.fast, .fast]]

/-- An Intel part that is ready at the second poll. -/
def eraseState : State := flashSession bscChip (fastWrites 4 ++ fastRead 0 ++ fastRead 0x80)

theorem eraseState_run : { eraseState with progress := eraseState.addr }.OpsGo (eraseRun eraseState) := by
  refine ⟨goes_fast _ _ ?_ ?_ ?_, goes_fast _ _ ?_ ?_ ?_, goes_fast _ _ ?_ ?_ ?_, goes_fast _ _ ?_ ?_ ?_,
    ⟨?_, goes_fast _ _ ?_ ?_ ?_, ?_, .inr ⟨?_, goes_fast _ _ ?_ ?_ ?_, ?_, .inl rfl⟩⟩, trivial⟩ <;> decide +kernel

theorem witness_FlashEraseBlockCommand :
    eraseState.Ready ∧ eraseState.Shiftable ∧ eraseState.chip = some bscChip ∧
      misaligned eraseState.addr .half = false ∧
      (eraseRun eraseState).map Prod.fst = eraseState.eraseOps bscChip.family eraseState.addr ∧
      { eraseState with progress := eraseState.addr }.OpsGo (eraseRun eraseState) ∧
      opsTasks (eraseRun eraseState) + 4 ≤ eraseState.pace :=
  ⟨⟨rfl, rfl⟩, fastSession_shiftable _, rfl, by decide +kernel, by decide +kernel, eraseState_run, by decide +kernel⟩

theorem fast_framed {s t : State} (h : Framed s t) : t.fast = s.fast := by
  have e := congrArg State.fast h.eq; exact e

/-- An Intel part ready at the first poll of each half. -/
def writeState : State := flashSession bscChip (fastWrites 2 ++ fastRead 0x80 ++ fastWrites 2 ++ fastRead 0x00800000)

def writeRun : List (Op × List Pass) :=
  (writeState.programOps .bsc writeState.addr writeState.data).map fun o => (o, [.fast])

theorem witness_FlashWriteWordCommand :
    writeState.Ready ∧ writeState.Shiftable ∧ writeState.chip = some bscChip ∧
      misaligned writeState.addr .word = false ∧
      writeRun.map Prod.fst = writeState.programOps bscChip.family writeState.addr writeState.data ∧
      writeState.OpsGo writeRun ∧ opsTasks writeRun + 4 ≤ writeState.pace := by
  refine ⟨⟨rfl, rfl⟩, fastSession_shiftable _, rfl, by decide, by decide +kernel, ?_, by decide +kernel⟩
  refine ⟨goes_fast _ _ ?_ ?_ ?_, goes_fast _ _ ?_ ?_ ?_, ⟨?_, goes_fast _ _ ?_ ?_ ?_, ?_, .inl rfl⟩,
    goes_fast _ _ ?_ ?_ ?_, goes_fast _ _ ?_ ?_ ?_, ⟨?_, goes_fast _ _ ?_ ?_ ?_, ?_, .inl rfl⟩, trivial⟩ <;>
    decide +kernel

/-- An Intel part that is not ready at the first poll, and levels of CANCEL. -/
def waitState (ws : List Word) (cs : List Bool) : State := { flashSession bscChip ws with cancelIn := cs }

theorem witness_FlashPollCancelled_erase :
    (waitState [] [true]).Ready ∧ (waitState [] [true]).Shiftable ∧ (waitState [] [true]).mode ≠ .none ∧
      (waitState [] [true]).chip = some bscChip ∧ misaligned (waitState [] [true]).addr .half = false ∧
      ((((waitState [] [true]).eraseOps .bsc 0x1FC00000).take 4) ++ [.poll 0x1FC00000 .ready]) <+:
        (waitState [] [true]).eraseOps bscChip.family (waitState [] [true]).addr ∧
      { waitState [] [true] with progress := 0x1FC00000 }.OpsGo
        ((((waitState [] [true]).eraseOps .bsc 0x1FC00000).take 4).map fun o => (o, [.fast])) ∧
      ({ waitState [] [true] with progress := 0x1FC00000 }.opsRun
        ((((waitState [] [true]).eraseOps .bsc 0x1FC00000).take 4).map fun o => (o, [.fast]))).cancelLevel 0 =
        true := by
  refine ⟨⟨rfl, rfl⟩, fastSession_shiftable _, nofun, rfl, by decide, by decide +kernel, ?_, by decide +kernel⟩
  refine ⟨goes_fast _ _ ?_ ?_ ?_, goes_fast _ _ ?_ ?_ ?_, goes_fast _ _ ?_ ?_ ?_, goes_fast _ _ ?_ ?_ ?_,
    trivial⟩ <;> decide +kernel

/-- The low half of a program, up to its poll. -/
def lowHalf (s : State) : List (Op × List Pass) := ((s.programOps .bsc s.addr s.data).take 2).map fun o => (o, [.fast])

/-- CANCEL = 1 before the second read of the first poll. -/
def waitWrite : State := waitState (fastWrites 2 ++ fastRead 0) [false, true]

theorem witness_FlashPollCancelled_write :
    waitWrite.Ready ∧ waitWrite.Shiftable ∧ waitWrite.mode ≠ .none ∧ waitWrite.chip = some bscChip ∧
      misaligned waitWrite.addr .word = false ∧
      ((lowHalf waitWrite).map Prod.fst ++ [.poll 0x1FC00000 .ready]) <+:
        waitWrite.programOps bscChip.family waitWrite.addr waitWrite.data ∧
      waitWrite.OpsGo (lowHalf waitWrite) ∧
      (waitWrite.opsRun (lowHalf waitWrite)).PollMisses 0x1FC00000 .ready [.fast] ∧
      ((waitWrite.opsRun (lowHalf waitWrite)).polled 0x1FC00000 [.fast]).cancelLevel 0 = true := by
  refine ⟨⟨rfl, rfl⟩, fastSession_shiftable _, nofun, rfl, by decide, by decide +kernel,
    ⟨goes_fast _ _ ?_ ?_ ?_, goes_fast _ _ ?_ ?_ ?_, trivial⟩, ⟨?_, goes_fast _ _ ?_ ?_ ?_, ?_, trivial⟩, ?_⟩ <;>
    decide +kernel

/-- Two blocks in the area, the second with an odd start. -/
def areaState : State :=
  { flashSession bscChip (fastWrites 4 ++ fastRead 0x80) with blockMap := [0x1FC00000, 0x1FC01001, 0x1FC02000] }

def areaBlocks : List (Word × BlockRun) :=
  [(0x1FC00000, .done ((areaState.eraseOps .bsc 0x1FC00000).map fun o => (o, [.fast]))), (0x1FC01001, .misaligned)]

theorem witness_FlashEraseAreaCommand :
    areaState.Ready ∧ areaState.Shiftable ∧ areaState.mode ≠ .none ∧ areaState.chip = some bscChip ∧
      areaBlocks.map Prod.fst = areaState.blockMap.filter (fun b => decide (areaState.addr.toNat ≤ b.toNat) &&
        decide (b.toNat < areaState.addr.toNat + areaState.len.toNat)) ∧
      State.AreaGoes bscChip.family 0 areaBlocks { areaState with result := 2, eraseFailed := 0 } ∧
      (areaBlocks.map (·.2.tasks)).sum + 4 ≤ areaState.pace := by
  refine ⟨⟨rfl, rfl⟩, fastSession_shiftable _, nofun, rfl, by decide +kernel, ⟨⟨?_, ?_, ?_, ?_⟩, ?_, trivial⟩,
    by decide +kernel⟩
  · decide
  · exact ⟨legal_of_config _ 0x205 rfl (by decide +kernel), rfl⟩
  · decide +kernel
  · refine ⟨goes_fast _ _ ?_ ?_ ?_, goes_fast _ _ ?_ ?_ ?_, goes_fast _ _ ?_ ?_ ?_, goes_fast _ _ ?_ ?_ ?_,
      ⟨?_, goes_fast _ _ ?_ ?_ ?_, ?_, .inl rfl⟩, trivial⟩ <;> decide +kernel
  · show misaligned 0x1FC01001 .half = true
    decide

/-- A careful session whose first write is corrupted. -/
def badBlock : State := { flashSession bscChip corruptedWords with config := 0x005 }

/-- An Intel block erase stops in its first write. -/
def firstWrite (b : Word) : Reach := ⟨[], .write b 0x00600060, []⟩

theorem firstWrite_goes (s : State) (b : Word) (hp : s.flashParams = params.flash) :
    s.ReachGoes (s.eraseOps .bsc b) (firstWrite b) := by
  refine ⟨?_, .inr rfl, trivial, rfl⟩
  simp only [firstWrite, State.eraseOps, hp, amdStyle, List.map_nil, List.nil_append]
  exact ⟨_, rfl⟩

theorem firstWrite_reached (s : State) (b : Word) : s.reached (firstWrite b) = s := rfl

/-- Whatever access comes first in that session is corrupted. -/
theorem badBlock_corrupted (s : State) (x : Act) (hi : s.io.statusIn = badBlock.io.statusIn)
    (hp : s.pins = Config.pinsStandard) (hl : s.ctl = Config.controlBits) (hc : s.config = 0x005) (hq : s.cancelIn = List.replicate 40 false) :
    s.Allows x (.corrupted (List.replicate 16 0) 0) := by
  refine corrupted_allows s x hp hi hl (by rw [State.fast, hc]; decide) fun k hk => ?_
  have h : ∀ k < 17, (List.replicate 40 false)[k]? = some false := by decide
  rw [State.cancelLevel, hq, h k hk]; rfl

/-- A block ends with TRANSACTION_CORRUPTED in its first write. -/
theorem witness_FlashEraseAreaCommand_corrupted :
    State.AreaGoes bscChip.family 0
      [(0x1FC00000, .stopped (firstWrite 0x1FC00000) (.corrupted (List.replicate 16 0) 0))]
      { badBlock with result := 1 } :=
  ⟨⟨by decide, firstWrite_goes _ _ rfl, by
    rw [firstWrite_reached]
    exact ⟨rfl, by decide, ⟨legal_of_config _ 0x005 rfl (by decide +kernel), rfl⟩,
      badBlock_corrupted _ _ rfl rfl rfl rfl rfl⟩⟩, trivial⟩

/-- A careful session whose four writes succeed and whose first read of the completion poll is corrupted. -/
def badRead : State :=
  { flashSession bscChip ((List.replicate 4 [0, 0, 0, 0x00048000, 0x00048000]).flatten ++ corruptedWords) with
    config := 0x005 }

/-- The four writes of an Intel block erase, careful and without a retry. -/
def carefulWrites (s : State) (b : Word) : List (Op × List Pass) :=
  ((s.eraseOps .bsc b).take 4).map fun o => (o, [.careful [] 0])

/-- A block ends with TRANSACTION_CORRUPTED in a read of its completion poll. -/
theorem witness_FlashEraseAreaCommand_poll :
    State.AreaGoes bscChip.family 0
      [(0x1FC00000, .stopped ⟨carefulWrites badRead 0x1FC00000, .poll 0x1FC00000 .ready, []⟩
        (.corrupted (List.replicate 16 0) 0))] { badRead with result := 1, cancelIn := List.replicate 22 false } := by
  have hs : ({ badRead with result := 1, cancelIn := List.replicate 22 false }.reports 0 0x1FC00000).Shiftable :=
    ⟨legal_of_config _ 0x005 rfl (by decide +kernel), rfl⟩
  refine ⟨⟨by decide, ⟨by decide +kernel, .inl hs, ?_, hs, trivial, by decide +kernel⟩, rfl, by decide,
    drawn_shiftable 1 (polled_shiftable _ [] (opsRun_shiftable _ hs)), ?_⟩, trivial⟩
  · refine ⟨⟨rfl, ?_, rfl, ?_⟩, ⟨rfl, ?_, rfl, ?_⟩, ⟨rfl, ?_, rfl, ?_⟩, ⟨rfl, ?_, rfl, ?_⟩, trivial⟩
    all_goals first
      | decide +kernel
      | (simp only [State.Allows, State.Fails, State.PollEnds, State.Quiet]; decide +kernel)
  · refine corrupted_allows _ _ ?_ ?_ ?_ ?_ ?_
    all_goals first | (unfold State.Quiet; decide +kernel) | decide +kernel

/-- An odd block, then one whose first write meets an illegal IR_LENGTH. -/
theorem witness_FlashEraseAreaCommand_unshiftable :
    State.AreaGoes bscChip.family 0
      [(0x1FC00001, .misaligned), (0x1FC00002, .stopped (firstWrite 0x1FC00002) .unshiftable)]
      { flashSession bscChip [] with config := 0x000, result := 2 } := by
  refine ⟨by show misaligned 0x1FC00001 .half = true; decide,
    ⟨by decide, firstWrite_goes _ _ rfl, nofun, by decide, ?_⟩, trivial⟩
  unfold State.Shiftable; decide +kernel

/-- An AMD part at an odd window base: the first unlock write is misaligned. -/
def oddBase : State := { flashSession amdChip [] with flashBase := 0x1FC00001 }

/-- The first operation of an AMD erase there. -/
def oddUnlock : Reach := ⟨[], .write 0x1FC00AAB 0x00AA00AA, []⟩

theorem oddUnlock_goes (s : State) (hp : s.flashParams = params.flash) (hb : s.flashBase = 0x1FC00001) (b : Word) :
    s.ReachGoes (s.eraseOps .amd b) oddUnlock := by
  refine ⟨?_, .inr rfl, trivial, rfl⟩
  simp only [oddUnlock, State.eraseOps, hp, hb, amdStyle, List.map_nil, List.nil_append]
  exact ⟨_, rfl⟩

theorem witness_FlashEraseAreaCommand_misaligned :
    State.AreaGoes amdChip.family 0 [(0x1FC00000, .stopped oddUnlock .misaligned)] { oddBase with result := 1 } :=
  ⟨⟨by decide, oddUnlock_goes _ rfl rfl _, by show misaligned 0x1FC00AAB .half = true; decide⟩, trivial⟩

/-- An odd block, then one that is cancelled before the second read of its completion poll. -/
def cancelArea : State :=
  { flashSession bscChip (fastWrites 4 ++ fastRead 0) with
    blockMap := [0x1FC00001, 0x1FC01000], len := 0x1001, cancelIn := [false, true] }

/-- Its state at the start of the second block. -/
def cancelBlock : State :=
  (State.areaRun 0 [(0x1FC00001, .misaligned)] { cancelArea with result := 2, eraseFailed := 0 }).reports 1 0x1FC01000

/-- The writes of that block. -/
def cancelRun : List (Op × List Pass) :=
  ((cancelBlock.eraseOps .bsc 0x1FC01000).take 4).map fun o => (o, [.fast])

theorem witness_FlashEraseAreaCommand_cancelled :
    cancelArea.Ready ∧ cancelArea.Shiftable ∧ cancelArea.mode ≠ .none ∧ cancelArea.chip = some bscChip ∧
      [0x1FC00001] ++ 0x1FC01000 :: [] = cancelArea.blockMap.filter (fun b =>
        decide (cancelArea.addr.toNat ≤ b.toNat) && decide (b.toNat < cancelArea.addr.toNat + cancelArea.len.toNat)) ∧
      State.AreaGoes .bsc 0 [(0x1FC00001, .misaligned)] { cancelArea with result := 2, eraseFailed := 0 } ∧
      misaligned 0x1FC01000 .half = false ∧
      (BlockRun.misaligned.tasks + opsTasks cancelRun + Pass.fast.tasks + 2 + 8 ≤ cancelArea.pace) ∧
      (cancelRun.map Prod.fst ++ [.poll 0x1FC01000 .ready]) <+: cancelBlock.eraseOps .bsc 0x1FC01000 ∧
      cancelBlock.OpsGo cancelRun ∧ (cancelBlock.opsRun cancelRun).PollMisses 0x1FC01000 .ready [.fast] ∧
      ((cancelBlock.opsRun cancelRun).polled 0x1FC01000 [.fast]).cancelLevel 0 = true := by
  refine ⟨⟨rfl, rfl⟩, fastSession_shiftable _, nofun, rfl, by decide +kernel,
    ⟨by show misaligned 0x1FC00001 .half = true; decide, trivial⟩, by decide, by decide +kernel, by decide +kernel,
    ⟨goes_fast _ _ ?_ ?_ ?_, goes_fast _ _ ?_ ?_ ?_, goes_fast _ _ ?_ ?_ ?_, goes_fast _ _ ?_ ?_ ?_, trivial⟩,
    ⟨?_, goes_fast _ _ ?_ ?_ ?_, ?_, trivial⟩, ?_⟩ <;> decide +kernel

/-- A careful session with a chip, and levels of CANCEL. -/
def carefulFlash (ws : List Word) (cs : List Bool) : State :=
  { flashSession bscChip ws with config := 0x005, cancelIn := cs }

theorem carefulFlash_shiftable (ws : List Word) (cs : List Bool) : (carefulFlash ws cs).Shiftable :=
  ⟨legal_of_config _ 0x005 rfl (by decide +kernel), rfl⟩

/-- The block it begins to erase. -/
def cancelWrite : State := { carefulFlash [] [true] with result := 1, eraseFailed := 0 }.reports 0 0x1FC00000

/-- CANCEL = 1 at the first start-bit poll of the first write of a block. -/
theorem witness_FlashEraseAreaCommand_cancelledAccess :
    (carefulFlash [] [true]).Ready ∧ (carefulFlash [] [true]).Shiftable ∧ (carefulFlash [] [true]).mode = .dma ∧
      (carefulFlash [] [true]).chip = some bscChip ∧
      [] ++ 0x1FC00000 :: [] = (carefulFlash [] [true]).blockMap.filter (fun b =>
        decide ((carefulFlash [] [true]).addr.toNat ≤ b.toNat) &&
          decide (b.toNat < (carefulFlash [] [true]).addr.toNat + (carefulFlash [] [true]).len.toNat)) ∧
      cancelWrite.ReachGoes (cancelWrite.eraseOps .bsc 0x1FC00000) (firstWrite 0x1FC00000) ∧
      (cancelWrite.reached (firstWrite 0x1FC00000)).Allows (firstWrite 0x1FC00000).act (.cancelled [] 0) ∧
      (firstWrite 0x1FC00000).tasks + (Pass.cancelled [] 0).tasks + 8 ≤ (carefulFlash [] [true]).pace := by
  refine ⟨⟨rfl, rfl⟩, carefulFlash_shiftable _ _, rfl, rfl, by decide +kernel, firstWrite_goes _ _ rfl, ?_,
    by decide +kernel⟩
  simp only [State.Allows, State.Fails, State.Quiet, firstWrite_reached]
  decide +kernel

/-! ### Witnesses: accesses of the flash commands that fail -/

/-- An odd FLASH_BASE: the write of FLASH_RESET_READ, and the first unlock writes of an erase and of a program. -/
theorem witness_MisalignedAccess_comes :
    oddBase.Ready ∧ oddBase.mode ≠ .none ∧
      oddBase.ComesTo .flashResetRead 1 (.write 0x1FC00001 .half 0x00F000F0) oddBase ∧
      oddBase.ComesTo .flashEraseBlock (oddUnlock.tasks + 2) oddUnlock.act
        ({ oddBase with progress := oddBase.addr }.reached oddUnlock) ∧
      oddBase.ComesTo .flashWriteWord (oddUnlock.tasks + 2) oddUnlock.act (oddBase.reached oddUnlock) ∧
      oddUnlock.tasks + 3 ≤ oddBase.pace ∧ misaligned 0x1FC00001 .half = true ∧
      misaligned oddUnlock.act.addr oddUnlock.act.width = true :=
  ⟨⟨rfl, rfl⟩, nofun, .resetRead amdChip rfl,
    .eraseBlock amdChip oddUnlock rfl (by decide) (oddUnlock_goes { oddBase with progress := oddBase.addr } rfl rfl _),
    .writeWord amdChip oddUnlock rfl (by decide) ⟨by decide +kernel, .inr rfl, trivial, rfl⟩,
    by decide +kernel, by decide, by decide⟩

theorem resetRead_comes (s : State) (hc : s.chip = some bscChip) (hb : s.flashBase = 0x1FC00000) (hp : s.params = params) :
    s.ComesTo .flashResetRead 1 (.write 0x1FC00000 .half 0x00FF00FF) s := by
  have := State.ComesTo.resetRead bscChip hc
  simp only [State.resetWrite, State.flashParams, hb, hp] at this
  exact this

/-- The first write of a probe's first attempt. -/
def firstProbe : Reach := ⟨[], .write 0x1FC00AAA 0x00AA00AA, []⟩

theorem firstProbe_comes (s : State) (hp : s.params = params) :
    s.ComesTo .flashProbe (firstProbe.tasks + 4) firstProbe.act (s.unprobed.reached firstProbe) := by
  have h : ([] : List AttemptRun).length < 3 * s.flashParams.probeRounds := by
    simp only [State.flashParams, hp]; decide
  have := State.ComesTo.probeEnter (s := s) [] .amd s.unprobed firstProbe
    ⟨by rw [hp]; decide +kernel, .inl rfl, h, trivial, 0, rfl⟩ ⟨?_, .inr rfl, trivial, rfl⟩
  · simpa using this
  · have : s.unprobed.flashParams = params.flash := by simp only [State.flashParams, State.unprobed, hp]
    simp only [firstProbe, State.enterOps, this, List.map_nil, List.nil_append]
    exact ⟨_, rfl⟩

theorem witness_AccessPreconditions_comes :
    ∀ m ∈ [Mode.dma, .pracc], ∀ c ∈ ([0x000, 0x021, 0x200] : List Word),
      { flashSession bscChip [] with config := c, mode := m }.Ready ∧ m ≠ .none ∧
        { flashSession bscChip [] with config := c, mode := m }.ComesTo .flashResetRead 1
          (.write 0x1FC00000 .half 0x00FF00FF) { flashSession bscChip [] with config := c, mode := m } ∧
        { flashSession bscChip [] with config := c, mode := m }.ComesTo .flashProbe (firstProbe.tasks + 4)
          firstProbe.act ({ flashSession bscChip [] with config := c, mode := m }.unprobed.reached firstProbe) ∧
        ¬ { flashSession bscChip [] with config := c, mode := m }.Shiftable ∧
        misaligned firstProbe.act.addr firstProbe.act.width = false := by
  refine fun m hm c h => ⟨⟨rfl, rfl⟩, ?_, resetRead_comes _ rfl rfl rfl, firstProbe_comes _ rfl, ?_, by decide⟩
  · rintro rfl; exact absurd hm (by decide)
  · unfold State.Shiftable; fin_cases h <;> (fin_cases hm <;> decide +kernel)

theorem witness_CorruptedDmaAccess_comes :
    badBlock.Ready ∧ badBlock.mode = .dma ∧ badBlock.Shiftable ∧
      badBlock.ComesTo .flashResetRead 1 (.write 0x1FC00000 .half 0x00FF00FF) badBlock ∧
      badBlock.Allows (.write 0x1FC00000 .half 0x00FF00FF) (.corrupted (List.replicate 16 0) 0) ∧
      badBlock.ComesTo .flashProbe (firstProbe.tasks + 4) firstProbe.act (badBlock.unprobed.reached firstProbe) ∧
      (badBlock.unprobed.reached firstProbe).Allows firstProbe.act (.corrupted (List.replicate 16 0) 0) ∧
      firstProbe.tasks + 4 + (Pass.corrupted (List.replicate 16 0) 0).tasks ≤ badBlock.pace :=
  ⟨⟨rfl, rfl⟩, rfl, ⟨legal_of_config _ 0x005 rfl (by decide +kernel), rfl⟩, resetRead_comes _ rfl rfl rfl,
    badBlock_corrupted _ _ rfl rfl rfl rfl rfl, firstProbe_comes _ rfl,
    badBlock_corrupted badBlock.unprobed _ rfl rfl rfl rfl rfl, by decide⟩

/-- A careful session whose three unlock writes succeed; the read of the vendor id is cancelled. -/
def cancelIds : State :=
  carefulFlash ((List.replicate 3 [0, 0, 0, 0x00048000, 0x00048000]).flatten) [false, false, false, true]

/-- A probe attempt whose entry is careful. -/
def carefulAttempt : AttemptRun := ⟨List.replicate 3 (.careful [] 0), .fast, .fast, .fast, .fast⟩

theorem witness_CancelledDmaAccess_comes :
    cancelIds.Ready ∧ cancelIds.mode = .dma ∧ cancelIds.Shiftable ∧
      cancelIds.ComesTo .flashProbe (carefulAttempt.tasks + 4) (.read 0x1FC00000 .half)
        (cancelIds.unprobed.entered .amd carefulAttempt) ∧
      (cancelIds.unprobed.entered .amd carefulAttempt).Shiftable ∧ misaligned 0x1FC00000 .half = false ∧
      (cancelIds.unprobed.entered .amd carefulAttempt).Allows (.read 0x1FC00000 .half) (.cancelled [] 0) ∧
      carefulAttempt.tasks + 4 + (Pass.cancelled [] 0).tasks ≤ cancelIds.pace := by
  have he : cancelIds.unprobed.AttemptEnters .amd carefulAttempt := by
    refine ⟨rfl, ⟨rfl, ?_, rfl, ?_⟩, ⟨rfl, ?_, rfl, ?_⟩, ⟨rfl, ?_, rfl, ?_⟩, trivial⟩
    all_goals first
      | decide +kernel
      | (simp only [State.Allows, State.Fails, State.PollEnds, State.Quiet]; decide +kernel)
  have hs : cancelIds.unprobed.Shiftable := ⟨legal_of_config _ 0x005 rfl (by decide +kernel), rfl⟩
  refine ⟨⟨rfl, rfl⟩, rfl, carefulFlash_shiftable _ _, ?_, opsRun_shiftable _ hs, by decide, ?_, by decide +kernel⟩
  · have := State.ComesTo.probeIds (s := cancelIds) [] .amd cancelIds.unprobed carefulAttempt _ _
      (carefulFlash_shiftable _ _) ⟨by decide +kernel, .inl rfl, by decide, trivial, 0, rfl⟩ (.vendor he)
    rw [show cancelIds.unprobed.flashParams.baseSmall = 0x1FC00000 from rfl] at this
    simpa using this
  · simp only [State.Allows, State.Fails, State.Quiet]
    decide +kernel

/-- A part that is never ready, for steps of two tasks. -/
def spinState (n : Nat) : State :=
  { waitState (fastWrites n ++ fastRead 0 ++ fastRead 0) [false, false] with pace := 2 }

theorem witness_FlashPollCancelled_spins :
    (spinState 4).Ready ∧ (spinState 4).Shiftable ∧ (spinState 4).mode ≠ .none ∧ (spinState 4).chip = some bscChip ∧
      (spinState 4).pace ≤ [Pass.fast, .fast].length ∧ misaligned (spinState 4).addr .half = false ∧
      ((((spinState 4).eraseOps .bsc 0x1FC00000).take 4) ++ [.poll 0x1FC00000 .ready]) <+:
        (spinState 4).eraseOps bscChip.family (spinState 4).addr ∧
      { spinState 4 with progress := 0x1FC00000 }.OpsGo
        ((((spinState 4).eraseOps .bsc 0x1FC00000).take 4).map fun o => (o, [.fast])) ∧
      ({ spinState 4 with progress := 0x1FC00000 }.opsRun
        ((((spinState 4).eraseOps .bsc 0x1FC00000).take 4).map fun o => (o, [.fast]))).PollMisses 0x1FC00000 .ready
        [.fast, .fast] := by
  refine ⟨⟨rfl, rfl⟩, fastSession_shiftable _, nofun, rfl, by decide, by decide, by decide +kernel,
    ⟨goes_fast _ _ ?_ ?_ ?_, goes_fast _ _ ?_ ?_ ?_, goes_fast _ _ ?_ ?_ ?_, goes_fast _ _ ?_ ?_ ?_, trivial⟩,
    ⟨?_, goes_fast _ _ ?_ ?_ ?_, ?_, ?_, goes_fast _ _ ?_ ?_ ?_, ?_, trivial⟩⟩ <;> decide +kernel

theorem witness_FlashPollCancelled_spins_write :
    (spinState 2).Ready ∧ (spinState 2).Shiftable ∧ misaligned (spinState 2).addr .word = false ∧
      ((lowHalf (spinState 2)).map Prod.fst ++ [.poll 0x1FC00000 .ready]) <+:
        (spinState 2).programOps bscChip.family (spinState 2).addr (spinState 2).data ∧
      (spinState 2).OpsGo (lowHalf (spinState 2)) ∧
      ((spinState 2).opsRun (lowHalf (spinState 2))).PollMisses 0x1FC00000 .ready [.fast, .fast] := by
  refine ⟨⟨rfl, rfl⟩, fastSession_shiftable _, by decide, by decide +kernel,
    ⟨goes_fast _ _ ?_ ?_ ?_, goes_fast _ _ ?_ ?_ ?_, trivial⟩,
    ⟨?_, goes_fast _ _ ?_ ?_ ?_, ?_, ?_, goes_fast _ _ ?_ ?_ ?_, ?_, trivial⟩⟩ <;> decide +kernel

/-! ### Witnesses: probe -/

/-- An attempt by fast DMA. -/
def fastAttempt (n : Nat) : AttemptRun := ⟨List.replicate n .fast, .fast, .fast, .fast, .fast⟩

theorem fastAttempt_goes (k : Attempt) (s : State) (hm : s.mode = .dma) (hf : s.fast = true)
    (hp : s.flashParams = params.flash) : s.AttemptGoes k (fastAttempt (s.enterOps k).length) := by
  have g : ∀ (x : Act) (t : State), Framed s t → misaligned x.addr x.width = false → t.Goes x .fast :=
    fun x t h ha => goes_fast x t (h.mode.trans hm) ((fast_framed h).trans hf) ha
  have hv : Framed s (s.afterVendor k (fastAttempt (s.enterOps k).length)) :=
    (opsRun_framed _ s).trans (access_framed _ _ _)
  have hd : Framed s (s.afterDevice k (fastAttempt (s.enterOps k).length)) := hv.trans (access_framed _ _ _)
  have hi : Framed s (s.afterIds k (fastAttempt (s.enterOps k).length)) := by
    unfold State.afterIds
    split
    · exact hd.trans (access_framed _ _ _)
    · exact hd
  refine ⟨by simp [fastAttempt], ?_, g _ _ (opsRun_framed _ s) ?_, g _ _ hv ?_, fun _ => g _ _ hd ?_, g _ _ hi ?_⟩
  · cases k <;> simp only [State.enterOps, hp, unlockOps, fastAttempt, List.length_cons, List.length_nil,
      List.replicate, List.map_cons, List.map_nil, List.zip_cons_cons, List.zip_nil_right, Op.cmd]
    · exact ⟨g _ _ (Framed.refl s) (by decide), g _ _ (access_framed _ _ _) (by decide),
        g _ _ ((access_framed _ _ _).trans (access_framed _ _ _)) (by decide), trivial⟩
    · exact ⟨g _ _ (Framed.refl s) (by decide), g _ _ (access_framed _ _ _) (by decide),
        g _ _ ((access_framed _ _ _).trans (access_framed _ _ _)) (by decide), trivial⟩
    · exact ⟨g _ _ (Framed.refl s) (by decide), trivial⟩
  all_goals (simp only [State.resetWrite, Act.addr, Act.width, hp]; decide)

/-- The state FLASH_PROBE starts from. -/
def forgotten (s : State) : State :=
  { s with chip := none, flashId := 0, flashInfo := 0, flashSize := 0, flashBase := 0, blockMap := [], result := 0 }

/-- The part of L2.7 answers the first attempt. -/
def probeState : State := fastSession (attemptWords 3 0x0001 0x22F6)

theorem witness_FlashProbeFinds :
    probeState.Ready ∧ probeState.Shiftable ∧ probeState.mode ≠ .none ∧ probeState.params.tableWf = true ∧
      ([] : List AttemptRun).length < 3 * probeState.flashParams.probeRounds ∧
      State.Misses .amd [] (forgotten probeState) ∧
      State.missRun .amd 0 [] (forgotten probeState) = (forgotten probeState, .amd, 0) ∧
      (forgotten probeState).AttemptGoes .amd (fastAttempt 3) ∧
      (probeState.flashParams.table.find? fun e => e.vendor == (forgotten probeState).vendorId .amd (fastAttempt 3) &&
        e.device == (forgotten probeState).deviceId .amd (fastAttempt 3)) = some amdChip ∧
      (fastAttempt 3).tasks + 4 ≤ probeState.pace :=
  ⟨⟨rfl, rfl⟩, fastSession_shiftable _, nofun, by decide +kernel, by decide +kernel, trivial, rfl,
    fastAttempt_goes .amd _ rfl (by decide +kernel) rfl, by decide +kernel, by decide +kernel⟩

/-- No chip answers: every id read is 0xFFFF. -/
def emptyState : State :=
  fastSession (attemptWords 3 0xFFFF 0xFFFF ++ attemptWords 3 0xFFFF 0xFFFF ++ attemptWords 1 0xFFFF 0xFFFF)

/-- The three attempts of its one round. -/
def emptyRuns : List AttemptRun := [fastAttempt 3, fastAttempt 3, fastAttempt 1]

/-- The first attempt finds nothing, the second, the SST one, finds the part of L2.7. -/
def secondState : State := fastSession (attemptWords 3 0xFFFF 0xFFFF ++ attemptWords 3 0x0001 0x22F6)

/-- The state after its first attempt. -/
def secondAttempt : State := (forgotten secondState).afterAttempt .amd (fastAttempt 3)

theorem witness_FlashProbeFinds_second :
    secondState.Ready ∧ secondState.Shiftable ∧ secondState.mode ≠ .none ∧ secondState.params.tableWf = true ∧
      [fastAttempt 3].length < 3 * secondState.flashParams.probeRounds ∧
      State.Misses .amd [fastAttempt 3] (forgotten secondState) ∧
      State.missRun .amd 0 [fastAttempt 3] (forgotten secondState) =
        (secondAttempt, .sst, idWord ((forgotten secondState).vendorId .amd (fastAttempt 3))
          ((forgotten secondState).deviceId .amd (fastAttempt 3))) ∧
      secondAttempt.AttemptGoes .sst (fastAttempt 3) ∧
      (secondState.flashParams.table.find? fun e => e.vendor == secondAttempt.vendorId .sst (fastAttempt 3) &&
        e.device == secondAttempt.deviceId .sst (fastAttempt 3)) = some amdChip ∧
      (fastAttempt 3).tasks + (fastAttempt 3).tasks + 4 ≤ secondState.pace := by
  have f := framed_afterAttempt .amd (fastAttempt 3) (forgotten secondState)
  have fast : (forgotten secondState).fast = true := by decide +kernel
  refine ⟨⟨rfl, rfl⟩, fastSession_shiftable _, nofun, by decide +kernel, by decide +kernel,
    ⟨fastAttempt_goes .amd _ rfl fast rfl, ?_, trivial⟩, rfl,
    fastAttempt_goes .sst _ (f.mode.trans rfl) ((fast_framed f).trans fast) (f.flashParams.trans rfl), ?_, ?_⟩ <;>
    decide +kernel

theorem witness_FlashProbeFindsNone :
    emptyState.Ready ∧ emptyState.Shiftable ∧ emptyState.mode ≠ .none ∧ emptyState.params.tableWf = true ∧
      emptyRuns.length = 3 * emptyState.flashParams.probeRounds ∧
      State.Misses .amd emptyRuns (forgotten emptyState) ∧ (emptyRuns.map (·.tasks)).sum + 4 ≤ emptyState.pace := by
  have f1 := framed_afterAttempt .amd (fastAttempt 3) (forgotten emptyState)
  have f2 := f1.trans (framed_afterAttempt .sst (fastAttempt 3) _)
  have fast : (forgotten emptyState).fast = true := by decide +kernel
  refine ⟨⟨rfl, rfl⟩, fastSession_shiftable _, nofun, by decide +kernel, by decide +kernel,
    ⟨fastAttempt_goes .amd _ rfl fast rfl, ?_,
      fastAttempt_goes .sst _ (f1.mode.trans rfl) ((fast_framed f1).trans fast) (f1.flashParams.trans rfl), ?_,
      fastAttempt_goes .intel _ (f2.mode.trans rfl) ((fast_framed f2).trans fast) (f2.flashParams.trans rfl), ?_,
      trivial⟩, by decide +kernel⟩ <;> decide +kernel

theorem witness_IllFormedTableRefused :
    { session [] with params := { params with flash := { params.flash with table := [badChip] } } }.Ready ∧
      { session [] with params := { params with flash := { params.flash with table := [badChip] } } }.mode ≠ .none ∧
      { session [] with params := { params with flash := { params.flash with table := [badChip] } } }.params.tableWf =
        false := ⟨⟨rfl, rfl⟩, nofun, by decide +kernel⟩

/-! ### Witnesses: whole-machine rules -/

theorem witness_InvariantKept :
    (hostOn (.write 0x08 0x10)).Inv ∧ check (step (hostOn (.write 0x08 0x10))) (fun _ => true) = true := by
  refine ⟨⟨by decide, by decide, by decide, fun _ => rfl, by decide, ⟨rfl, rfl, rfl, rfl⟩, Nat.zero_le _, nofun⟩, ?_⟩
  decide +kernel

theorem witness_OperandsKept : check (exec .readWord (session [])) (fun _ => true) = true := by decide +kernel

theorem witness_SessionKept : Instr.shiftDr32 ≠ .init ∧ Instr.shiftDr32 ≠ .shutdown ∧
    check (exec .shiftDr32 (session [1])) (fun t => t.linkOpen) = true := by
  refine ⟨nofun, nofun, ?_⟩; decide +kernel

theorem witness_CorruptionSticky :
    Instr.resetTap ≠ .init ∧ { session [] with possibleCorruption := true }.possibleCorruption = true ∧
      { session [] with possibleCorruption := true }.fast = false ∧
      check (exec .resetTap { session [] with possibleCorruption := true }) (fun t => t.possibleCorruption) = true := by
  refine ⟨nofun, rfl, ?_, ?_⟩ <;> decide +kernel

/-- A running command with one task left. -/
def running (t : Task) (cs : List Bool) : State := { session [] with busy := true, cont := [t], cancelIn := cs }

theorem witness_CancelPoints :
    (∀ t ∈ [Task.pollStart 0 0, .flashPoll 0 .ready 0, .resetTap], ∀ cs : List Bool,
      (running t cs).busy = true ∧ (running t cs).cont = t :: []) ∧
      (running (.pollStart 0 0) [true]).cancelLevel 0 = true ∧ (running (.pollStart 0 0) [false]).cancelLevel 0 = false :=
  ⟨fun _ _ _ => ⟨rfl, rfl⟩, rfl, rfl⟩

theorem witness_ClocksCounted :
    check (exec .resetTap (session [])) (fun t => t.io.clockCount == 6 && t.io.trace.length == 13) = true := by
  decide +kernel

theorem witness_ErrorTaken :
    (running (.eraseNext 1 [] none) []).cont.contains .setResult = false ∧
      enclosingArea (running (.eraseNext 1 [] none) []).cont = some (1, [], []) ∧
      enclosingArea (running .setResult []).cont = none ∧ ErrCode.misaligned ≠ .transactionCorrupted := by
  decide +kernel

theorem witness_TargetMemory :
    memoryWf 0xFF [(0, 1), (3, 2), (0xFFFFFFFF, 3)] = true ∧ (0 : Nat) ≠ (0xFFFFFFFE : Word).toNat ∧
      (0 : Nat) ≠ ((0xFFFFFFFE : Word) + 1).toNat := by decide

end Sys2Proof.Tests
end

section
/-! What the host alone writes: CONFIG, the operand registers and the parameters. No task of a running command and no
shell of a command writes them (00_scope.md R12, 10_state.md R22 to R28). -/

namespace Sys2Proof.Machine

/-- The part of the state that no command writes: the parameters, CONFIG and the five operand registers. -/
structure Operands where
  params : Params
  config : Word
  tckDelay : Word
  addr : Word
  data : Word
  len : Word
  blockSel : Word

/-- A state's parameters, CONFIG and operand registers. -/
def State.operands (s : State) : Operands where
  params := s.params
  config := s.config
  tckDelay := s.tckDelay
  addr := s.addr
  data := s.data
  len := s.len
  blockSel := s.blockSel

theorem operands_eq_iff {s t : State} : t.operands = s.operands ↔
    t.params = s.params ∧ t.config = s.config ∧ t.tckDelay = s.tckDelay ∧ t.addr = s.addr ∧ t.data = s.data ∧
      t.len = s.len ∧ t.blockSel = s.blockSel := by
  simp [State.operands]

/-! ### The shared operations -/

@[simp] theorem State.push_operands (ts : List Task) (s : State) : (s.push ts).operands = s.operands := rfl

@[simp] theorem State.accept_operands (w : Word) (s : State) : (s.accept w).operands = s.operands := rfl

@[simp] theorem State.finish_operands (s : State) : s.finish.operands = s.operands := rfl

@[simp] theorem State.endInvalid_operands (s : State) : s.endInvalid.operands = s.operands := rfl

/-- An error is taken in the error registers, or counted in an erase area (R243, R271). -/
@[simp] theorem State.raise_operands (e : CmdError) (s : State) : (s.raise e).operands = s.operands := by
  unfold State.raise
  split
  · rfl
  · split <;> rfl

@[simp] theorem State.drawCancel_operands (s : State) : s.drawCancel.2.operands = s.operands := by
  unfold State.drawCancel
  split <;> rfl

/-! ### The TAP Driver -/

theorem State.rawClock_operands (tms tdi sample : Bool) (s : State) :
    (s.rawClock tms tdi sample).operands = s.operands := by
  unfold State.rawClock
  split <;> rfl

theorem State.setInstruction_operands (ir : Word) (s : State) : (s.setInstruction ir).operands = s.operands := by
  unfold State.setInstruction
  split
  · exact s.raise_operands _
  · split
    · exact s.raise_operands _
    · split <;> rfl

theorem State.shiftData32_operands (v : Word) (s : State) : (s.shiftData32 v).operands = s.operands := by
  unfold State.shiftData32
  split
  · exact s.raise_operands _
  · rfl

/-! ### Target accesses -/

theorem State.checkAlign_operands (addr : Word) (w : Width) (v : Word) (s : State) :
    (s.checkAlign addr w v).operands = s.operands := by
  unfold State.checkAlign
  split
  · exact s.raise_operands _
  · rfl

theorem State.memRead_operands (addr : Word) (w : Width) (s : State) :
    (s.memRead addr w).operands = s.operands := by
  unfold State.memRead
  split
  · exact s.raise_operands _
  · split <;> rfl

theorem State.memWrite_operands (addr : Word) (w : Width) (v : Word) (s : State) :
    (s.memWrite addr w v).operands = s.operands := by
  unfold State.memWrite
  split
  · exact s.raise_operands _
  · split <;> rfl

theorem State.dmaRead_operands (addr : Word) (w : Width) (s : State) :
    (s.dmaRead addr w).operands = s.operands := by
  unfold State.dmaRead
  split <;> rfl

theorem State.dmaWrite_operands (addr : Word) (w : Width) (v : Word) (s : State) :
    (s.dmaWrite addr w v).operands = s.operands := by
  unfold State.dmaWrite
  split <;> rfl

theorem State.retry_operands (addr d : Word) (again : Task) (s : State) :
    (s.retry addr d again).operands = s.operands := by
  unfold State.retry
  split
  · exact s.raise_operands _
  · rfl

theorem State.dmaReadCheck_operands (addr : Word) (w : Width) (raw : Word) (s : State) :
    (s.dmaReadCheck addr w raw).operands = s.operands := by
  unfold State.dmaReadCheck
  split
  · exact s.retry_operands ..
  · rfl

theorem State.dmaWriteCheck_operands (addr : Word) (w : Width) (v : Word) (s : State) :
    (s.dmaWriteCheck addr w v).operands = s.operands := by
  unfold State.dmaWriteCheck
  split
  · exact s.retry_operands ..
  · rfl

theorem State.pollStart_operands (addr last : Word) (s : State) :
    (s.pollStart addr last).operands = s.operands := by
  unfold State.pollStart
  split <;> simp

theorem State.pollTest_operands (addr : Word) (s : State) : (s.pollTest addr).operands = s.operands := by
  unfold State.pollTest
  split <;> rfl

theorem State.praccPollTest_operands (m : ModuleKind) (s : State) :
    (s.praccPollTest m).operands = s.operands := by
  unfold State.praccPollTest
  split <;> rfl

theorem State.praccServe_operands (m : ModuleKind) (isWrite : Bool) (s : State) :
    (s.praccServe m isWrite).operands = s.operands := by
  unfold State.praccServe
  split
  · rfl
  · split
    · split <;> rfl
    · rfl

theorem State.praccCommit_operands (m : ModuleKind) (a d : Word) (s : State) :
    (s.praccCommit m a d).operands = s.operands := by
  unfold State.praccCommit
  split
  · rfl
  · split <;> rfl

/-! ### The Flash Programming Engine -/

theorem State.flashPoll_operands (a : Word) (cond : PollCond) (last : Word) (s : State) :
    (s.flashPoll a cond last).operands = s.operands := by
  unfold State.flashPoll
  split <;> simp

theorem State.flashPollTest_operands (a : Word) (cond : PollCond) (s : State) :
    (s.flashPollTest a cond).operands = s.operands := by
  unfold State.flashPollTest
  split <;> rfl

theorem State.probeRound_operands (rounds : Nat) (last : Word) (s : State) :
    (s.probeRound rounds last).operands = s.operands := by
  unfold State.probeRound
  split
  · exact s.raise_operands _
  · rfl

theorem State.probeDevice_operands (k : Attempt) (rounds : Nat) (v : Half) (s : State) :
    (s.probeDevice k rounds v).operands = s.operands := by
  unfold State.probeDevice
  split <;> rfl

theorem State.identify_operands (e : FlashDescriptor) (v d : Half) (s : State) :
    (s.identify e v d).operands = s.operands := by
  unfold State.identify
  dsimp only
  split
  · exact s.raise_operands _
  · rfl

theorem State.probeLookup_operands (k : Attempt) (rounds : Nat) (v d : Half) (s : State) :
    (s.probeLookup k rounds v d).operands = s.operands := by
  unfold State.probeLookup
  split
  · exact s.identify_operands ..
  · cases k <;> rfl

theorem State.selectNamed_operands (chip : FlashDescriptor) (code : BitVec 4) (s : State) :
    (s.selectNamed chip code).operands = s.operands := by
  unfold State.selectNamed
  split
  · exact s.raise_operands _
  · rfl

theorem State.selectCustom_operands (chip : FlashDescriptor) (s : State) :
    (s.selectCustom chip).operands = s.operands := by
  unfold State.selectCustom
  split
  · exact s.raise_operands _
  · rfl

theorem State.selectArea_operands (area : BitVec 4) (s : State) : (s.selectArea area).operands = s.operands := by
  unfold State.selectArea
  split
  · exact s.raise_operands _
  · split
    · exact s.selectCustom_operands _
    · exact s.selectNamed_operands ..

theorem State.eraseBlock_operands (b : Word) (s : State) : (s.eraseBlock b).operands = s.operands := by
  unfold State.eraseBlock
  split
  · exact s.raise_operands _
  · split
    · exact s.raise_operands _
    · split <;> rfl

theorem State.eraseNext_operands (i : Nat) (rest : List Word) (fail : Option CmdError) (s : State) :
    (s.eraseNext i rest fail).operands = s.operands := by
  unfold State.eraseNext
  split
  · rfl
  · split
    · exact s.raise_operands _
    · rfl

theorem State.writeFlash_operands (a v : Word) (s : State) : (s.writeFlash a v).operands = s.operands := by
  unfold State.writeFlash
  split
  · exact s.raise_operands _
  · split
    · exact s.raise_operands _
    · split <;> rfl

/-! ### Running -/

/-- A task with a branch keeps the operands by its own lemma; every other task is one update of other fields. -/
theorem runTask_operands (t : Task) (s : State) : (runTask t s).operands = s.operands := by
  cases t with
  | rawClock tms tdi sample => exact s.rawClock_operands ..
  | setIr ir => exact s.setInstruction_operands _
  | shiftDr v => exact s.shiftData32_operands _
  | checkAlign addr w v => exact s.checkAlign_operands ..
  | memRead addr w => exact s.memRead_operands ..
  | memWrite addr w v => exact s.memWrite_operands ..
  | dmaRead addr w => exact s.dmaRead_operands ..
  | dmaReadCheck addr w raw => exact s.dmaReadCheck_operands ..
  | dmaWrite addr w v => exact s.dmaWrite_operands ..
  | dmaWriteCheck addr w v => exact s.dmaWriteCheck_operands ..
  | pollStart addr last => exact s.pollStart_operands ..
  | pollTest addr => exact s.pollTest_operands _
  | praccPollTest m => exact s.praccPollTest_operands _
  | praccServe m isWrite => exact s.praccServe_operands ..
  | praccCommit m a d => exact s.praccCommit_operands ..
  | flashPoll a cond last => exact s.flashPoll_operands ..
  | flashPollTest a cond => exact s.flashPollTest_operands ..
  | probeRound rounds last => exact s.probeRound_operands ..
  | probeDevice k rounds v => exact s.probeDevice_operands ..
  | probeLookup k rounds v d => exact s.probeLookup_operands ..
  | selectArea area => exact s.selectArea_operands _
  | eraseBlock b => exact s.eraseBlock_operands _
  | eraseNext i rest fail => exact s.eraseNext_operands ..
  | writeFlash a v => exact s.writeFlash_operands ..
  | _ => rfl

theorem tick_operands (s : State) : (tick s).operands = s.operands := by
  cases h : s.cont with
  | nil => rw [tick_nil h, State.finish_operands]
  | cons t k => rw [tick_cons h, runTask_operands]; rfl

/-- What every task keeps, a run of tasks keeps: the induction on the number of tasks, done once. -/
theorem drive_induction {P : State → Prop} (hstep : ∀ s, s.busy = true → P s → P (tick s)) (n : Nat) {s : State}
    (h : P s) : P (drive n s) := by
  induction n generalizing s with
  | zero => exact h
  | succ n ih =>
    cases hb : s.busy with
    | true => rw [drive_busy n s hb]; exact ih (hstep s hb h)
    | false => rwa [drive_idle (n + 1) s hb]

theorem drive_operands (n : Nat) (s : State) : (drive n s).operands = s.operands :=
  drive_induction (P := fun t => t.operands = s.operands) (fun t _ h => (tick_operands t).trans h) n rfl

/-! ### The shell of a command -/

/-- A piece of a command that keeps the operands in every state it answers. -/
def KeepsOperands (body : State → Answer) : Prop := ∀ ⦃s t : State⦄, body s = .next t → t.operands = s.operands

theorem keepsOperands_next {f : State → State} (hf : ∀ s, (f s).operands = s.operands) :
    KeepsOperands fun s => .next (f s) := by
  rintro s _ ⟨⟩
  exact hf s

theorem keepsOperands_fault (e : Fault) : KeepsOperands fun _ => .fault e := by
  rintro _ _ ⟨⟩

theorem keepsOperands_refused (e : Refusal) : KeepsOperands fun _ => .refused e := by
  rintro _ _ ⟨⟩

/-- A command's tasks, started after an update `f` of other fields. -/
theorem keepsOperands_launch {f : State → State} {ts : State → List Task}
    (hf : ∀ s, (f s).operands = s.operands) : KeepsOperands fun s => (f s).launch (ts s) :=
  keepsOperands_next fun s => (drive_operands ..).trans (hf s)

theorem keepsOperands_ite {c : State → Prop} [∀ s, Decidable (c s)] {a b : State → Answer} (ha : KeepsOperands a)
    (hb : KeepsOperands b) : KeepsOperands fun s => if c s then a s else b s := by
  intro s t h
  by_cases hc : c s
  · exact ha ((if_pos hc).symm.trans h)
  · exact hb ((if_neg hc).symm.trans h)

theorem keepsOperands_command {w : Word} {body : State → Answer} (h : KeepsOperands body) :
    KeepsOperands (command w body) :=
  keepsOperands_ite (keepsOperands_next fun _ => rfl) fun s _ hb => (h hb).trans (s.accept_operands w)

theorem keepsOperands_whenOpen {body : State → Answer} (h : KeepsOperands body) : KeepsOperands (whenOpen body) :=
  keepsOperands_ite h (keepsOperands_next fun s => s.raise_operands _)

theorem keepsOperands_whenModed {body : State → Answer} (h : KeepsOperands body) :
    KeepsOperands (whenModed body) :=
  keepsOperands_ite (keepsOperands_fault _) h

theorem keepsOperands_whenChip {body : FlashDescriptor → State → Answer} (h : ∀ c, KeepsOperands (body c)) :
    KeepsOperands (whenChip body) := by
  intro s t hs
  cases hc : s.chip with
  | none =>
    simp only [whenChip, hc, Host.Outcome.next.injEq] at hs
    rw [← hs, State.raise_operands]
  | some c => exact h c (whenChip_some body hc ▸ hs)

/-! ### The commands -/

/-- A command that needs an open session, and then only starts its tasks. -/
theorem keepsOperands_opened {w : Word} {ts : State → List Task} :
    KeepsOperands (command w (whenOpen fun s => s.launch (ts s))) :=
  keepsOperands_command (keepsOperands_whenOpen (keepsOperands_launch fun _ => rfl))

/-- A command that needs an open session with a mode, and then only starts its tasks. -/
theorem keepsOperands_moded {w : Word} {ts : State → List Task} :
    KeepsOperands (command w (whenOpen (whenModed fun s => s.launch (ts s)))) :=
  keepsOperands_command (keepsOperands_whenOpen (keepsOperands_whenModed (keepsOperands_launch fun _ => rfl)))

/-- A flash command that needs a chip, and starts its tasks after an update `f` of other fields. -/
theorem keepsOperands_chipped {w : Word} {f : State → State} {ts : FlashDescriptor → State → List Task}
    (hf : ∀ s, (f s).operands = s.operands) :
    KeepsOperands (command w (whenOpen (whenModed (whenChip fun c s => (f s).launch (ts c s))))) :=
  keepsOperands_command (keepsOperands_whenOpen (keepsOperands_whenModed (keepsOperands_whenChip fun _ =>
    keepsOperands_launch hf)))

theorem keepsOperands_execInit : KeepsOperands execInit := by
  have refuse : KeepsOperands fun s => .next (s.raise s.badConfig) := keepsOperands_next fun s => s.raise_operands _
  exact keepsOperands_command (keepsOperands_ite refuse (keepsOperands_ite refuse
    (keepsOperands_launch fun _ => rfl)))

theorem keepsOperands_execFlashProbe : KeepsOperands execFlashProbe :=
  keepsOperands_command (keepsOperands_whenOpen (keepsOperands_whenModed
    (keepsOperands_ite (keepsOperands_launch fun _ => rfl) (keepsOperands_refused _))))

theorem keepsOperands_execFlashSelectArea (area : BitVec 4) : KeepsOperands (execFlashSelectArea area) :=
  keepsOperands_ite
    (keepsOperands_command (keepsOperands_whenOpen (keepsOperands_whenChip fun _ => keepsOperands_launch fun _ => rfl)))
    (keepsOperands_command (keepsOperands_next State.endInvalid_operands))

theorem keepsOperands_exec (i : Instr) : KeepsOperands (exec i) := by
  cases i with
  | clock | resetTap | setIr | shiftDr32 | shutdown => exact keepsOperands_opened
  | readWord | readHalf | writeWord | writeHalf => exact keepsOperands_moded
  | dmaReadWord | dmaReadHalf | dmaWriteWord | dmaWriteHalf => exact keepsOperands_opened
  | praccReadWord | praccReadHalf | praccWriteWord | praccWriteHalf => exact keepsOperands_opened
  | flashResetRead | flashEraseArea | flashWriteWord => exact keepsOperands_chipped fun _ => rfl
  | flashEraseBlock => exact keepsOperands_chipped (f := fun s => { s with progress := s.addr }) fun _ => rfl
  | flashSelectArea area => exact keepsOperands_execFlashSelectArea area
  | flashProbe => exact keepsOperands_execFlashProbe
  | init => exact keepsOperands_execInit

/-- Settles O54: each task keeps the operands, so every run of tasks does, and so does every command. -/
theorem operandsKept : Obligations.OperandsKept := by
  unfold Obligations.OperandsKept
  exact ⟨fun i _ _ h => operands_eq_iff.1 (keepsOperands_exec i h), fun n s => operands_eq_iff.1 (drive_operands n s)⟩

end Sys2Proof.Machine
end

section
/-! What one task of a running command can do, said once: `runTask_effect` puts every task into one of a dozen
effects. The whole-machine rules are each a case split over these effects. -/

namespace Sys2Proof.Machine

/-! ### Kinds of tasks -/

/-- The tasks that open or close a session (41_session.md R160, R162). -/
def Task.endsSession : Task → Bool
  | .initEnd => true
  | .shutdownEnd => true
  | _ => false

/-- The tasks of a fast DMA access that lead to FastCheck (42_transaction.md R178, R179). -/
def Task.isFast : Task → Bool
  | .fastReadClear _ _ => true
  | .fastReadEnd _ _ _ => true
  | .fastWriteEnd => true
  | _ => false

/-- The tasks that draw CANCEL: the heads of the two poll loops (60_exceptions.md R276). -/
def Task.isPoll : Task → Bool
  | .pollStart _ _ => true
  | .flashPoll _ _ _ => true
  | _ => false

/-- Which tasks the task `x` may put on the stack: none that opens or closes a session, and none of a fast access
unless FAST = 1 or `x` is one itself. -/
def State.MayPush (s : State) (x u : Task) : Prop :=
  u.endsSession = false ∧ (u.isFast = true → s.fast = true ∨ x.isFast = true)

/-- A task that may always be put on the stack: it neither opens or closes a session nor leads to FastCheck. -/
def Task.ordinary (u : Task) : Bool := !u.endsSession && !u.isFast

theorem mayPush_of_ordinary {s : State} {x : Task} {ts : List Task} (h : ts.all Task.ordinary = true) :
    ∀ u ∈ ts, s.MayPush x u := by
  intro u hu
  have ho := List.all_eq_true.1 h u hu
  simp only [Task.ordinary, Bool.and_eq_true, Bool.not_eq_true'] at ho
  exact ⟨ho.1, fun hf => by simp [ho.2] at hf⟩

/-! ### The effects -/

/-- `t` differs from `s` at most in the result, area and progress registers, the mailboxes, the counters of an access,
the tasks and the value returned. -/
def Worked (s t : State) : Prop :=
  t = { s with
    stubAnomaly := t.stubAnomaly, result := t.result, flashBase := t.flashBase, areaStart := t.areaStart,
    areaLen := t.areaLen, progress := t.progress, eraseFailed := t.eraseFailed, mboxAddr := t.mboxAddr,
    mboxData := t.mboxData, retries := t.retries, hits := t.hits, cont := t.cont, acc := t.acc,
    freeDraws := t.freeDraws }

/-- `t` differs from `s` by clocks, and at most in RESULT, the value returned and IR_CACHE_VALID. -/
def Clocked (s t : State) : Prop :=
  ∃ cs, t = { s with
    io := s.io.after s.pins cs, irCacheValid := t.irCacheValid, result := t.result, acc := t.acc }

/-- The chip of a probe, with its registers and its block map (43_flash.md R232). -/
def State.identified (e : FlashDescriptor) (v d : Half) (s : State) : State :=
  { s with
    chip := some e
    flashId := idWord v d
    flashInfo := familyCode e.family
    flashSize := e.size
    flashBase := windowBase s.flashParams e.size
    blockMap := buildMap s.freeDraws e.regions (windowBase s.flashParams e.size)
    freeDraws := s.freeDraws + 1
    result := idWord v d }

/-- The custom area, with the block map of its window (43_flash.md R235). -/
def State.customized (c : FlashDescriptor) (s : State) : State :=
  { s with
    flashBase := s.data
    areaStart := s.addr
    areaLen := s.len
    blockMap := buildMap s.freeDraws c.regions s.data
    freeDraws := s.freeDraws + 1 }

/-- What the task `x`, already taken off the stack of `s`, can do: work on the registers of an access, end with an error,
draw CANCEL at a poll head, clock the TAP, report progress, set POSSIBLE_CORRUPTION, open or close the session, identify a
chip or map its blocks. -/
inductive Effect (x : Task) (s : State) : State → Prop where
  | work {t : State} (hw : Worked s t) (hr : t.retries ≤ max s.retries Config.dmaRetryCap)
      (hc : ∀ u ∈ t.cont, u ∈ s.cont ∨ s.MayPush x u) : Effect x s t
  | fail (e : CmdError) : Effect x s (s.endWithError e)
  | poll (ts : List Task) (hx : x.isPoll = true) (ht : ∀ u ∈ ts, s.MayPush x u) : Effect x s ((s.drawn 1).push ts)
  | cancel (e : CmdError) (hx : x.isPoll = true) : Effect x s ((s.drawn 1).endWithError e)
  | clock {t : State} (hc : Clocked s t) (hv : t.irCacheValid = true → s.irCacheValid = true) : Effect x s t
  | shiftIr (code : Word) : Effect x s (s.shiftIr code)
  | report (i : Nat) (b : Word) (ts : List Task) (ht : ∀ u ∈ ts, s.MayPush x u) :
      Effect x s ({ s.emit (.progress i b) with progress := b }.push ts)
  | fastCheck (v : Word) (hx : x.isFast = true) : Effect x s (s.fastCheck.ret v)
  | initEnd (hx : x.endsSession = true) : Effect x s s.initEnd
  | shutdownEnd (hx : x.endsSession = true) : Effect x s s.shutdownEnd
  | identify (e : FlashDescriptor) (v d : Half) (hl : lookupChip s.flashParams v d = some e)
      (hm : totalBlocks e.regions ≤ s.flashParams.maxBlocks) : Effect x s (s.identified e v d)
  | customize (c : FlashDescriptor) (hc : s.chip = some c)
      (hm : totalBlocks c.regions ≤ s.flashParams.maxBlocks) : Effect x s (s.customized c)

/-- Work that leaves the tasks and the retry counter. -/
theorem Effect.still {x : Task} {s t : State} (hw : Worked s t) (hr : t.retries = s.retries) (hc : t.cont = s.cont) :
    Effect x s t :=
  .work hw (hr ▸ Nat.le_max_left ..) fun _ hu => .inl (hc ▸ hu)

/-- Work that puts tasks on the stack and leaves the retry counter. -/
theorem Effect.pushes {x : Task} {s t : State} (ts : List Task) (hw : Worked s t) (hr : t.retries = s.retries)
    (hc : t.cont = ts ++ s.cont) (ht : ∀ u ∈ ts, s.MayPush x u) : Effect x s t :=
  .work hw (hr ▸ Nat.le_max_left ..) fun u hu =>
    (List.mem_append.1 (hc ▸ hu)).symm.imp id (ht u)

/-- Ordinary tasks put on the stack. -/
theorem effect_push (x : Task) (s : State) {ts : List Task} (h : ts.all Task.ordinary = true) :
    Effect x s (s.push ts) :=
  .pushes ts rfl rfl rfl (mayPush_of_ordinary h)

/-- The start of a DMA access: the retry counter loaded, and tasks put on the stack. -/
theorem effect_loadRetries (x : Task) (s : State) {ts : List Task} (ht : ∀ u ∈ ts, s.MayPush x u) :
    Effect x s (s.loadRetries.push ts) :=
  .work rfl (Nat.le_max_right ..) fun u hu => (List.mem_append.1 hu).symm.imp id (ht u)

theorem mem_of_enclosingArea {l k : List Task} {i : Nat} {rest : List Word}
    (h : enclosingArea l = some (i, rest, k)) : ∀ u ∈ k, u ∈ l := by
  induction l with
  | nil => cases h
  | cons t l ih =>
    intro u hu
    cases t with
    | eraseNext j r f => cases h; exact List.mem_cons_of_mem _ hu
    | _ => exact List.mem_cons_of_mem _ (ih h u hu)

/-- An error ends the command, or it is counted and the erase loop around it goes on (43_flash.md R243). -/
theorem effect_raise (x : Task) (s : State) (e : CmdError) : Effect x s (s.raise e) := by
  unfold State.raise
  split
  · exact .fail e
  · split
    · next i rest k ha =>
      refine .work rfl (Nat.le_max_left ..) fun u hu => ?_
      rcases List.mem_cons.1 hu with rfl | hk
      · exact .inr ⟨rfl, nofun⟩
      · exact .inl (mem_of_enclosingArea ha u hk)
    · exact .fail e

/-! ### The effect of each task -/

theorem rawClock_effect (x : Task) (tms tdi sample : Bool) (s : State) : Effect x s (s.rawClock tms tdi sample) := by
  unfold State.rawClock
  split
  · rw [Io.sampledClock_eq]
    exact .clock ⟨_, rfl⟩ nofun
  · rw [Io.clock_eq]
    exact .clock ⟨_, rfl⟩ nofun

theorem resetTap_effect (x : Task) (s : State) : Effect x s s.resetTap := by
  unfold State.resetTap
  rw [Io.clocks_eq]
  exact .clock ⟨_, rfl⟩ nofun

theorem setInstruction_effect (x : Task) (ir : Word) (s : State) : Effect x s (s.setInstruction ir) := by
  unfold State.setInstruction
  split
  · exact effect_raise x s _
  · split
    · exact effect_raise x s _
    · split
      · exact .still rfl rfl rfl
      · exact .shiftIr ir

theorem shiftData32_effect (x : Task) (v : Word) (s : State) : Effect x s (s.shiftData32 v) := by
  unfold State.shiftData32
  split
  · exact effect_raise x s _
  · rw [Io.shiftDr_eq]
    exact .clock ⟨_, rfl⟩ id

theorem checkAlign_effect (x : Task) (addr : Word) (w : Width) (v : Word) (s : State) :
    Effect x s (s.checkAlign addr w v) := by
  unfold State.checkAlign
  split
  · exact effect_raise x s _
  · exact .still rfl rfl rfl

theorem memRead_effect (x : Task) (addr : Word) (w : Width) (s : State) : Effect x s (s.memRead addr w) := by
  unfold State.memRead
  split
  · exact effect_raise x s _
  · split
    · exact effect_push x s rfl
    · exact effect_push x s rfl
    · exact .still rfl rfl rfl

theorem memWrite_effect (x : Task) (addr : Word) (w : Width) (v : Word) (s : State) :
    Effect x s (s.memWrite addr w v) := by
  unfold State.memWrite
  split
  · exact effect_raise x s _
  · split
    · exact effect_push x s rfl
    · exact effect_push x s rfl
    · exact .still rfl rfl rfl

/-- With FAST = 1 a task may put on the stack whatever does not open or close a session. -/
theorem mayPush_of_fast {s : State} (x : Task) (hf : s.fast = true) {ts : List Task}
    (h : ts.all (fun u => !u.endsSession) = true) : ∀ u ∈ ts, s.MayPush x u := by
  intro u hu
  have ho := List.all_eq_true.1 h u hu
  exact ⟨by simpa using ho, fun _ => .inl hf⟩

theorem dmaRead_effect (x : Task) (addr : Word) (w : Width) (s : State) : Effect x s (s.dmaRead addr w) := by
  unfold State.dmaRead
  split
  · next hf => exact effect_loadRetries x s (mayPush_of_fast x hf rfl)
  · exact effect_loadRetries x s (mayPush_of_ordinary rfl)

theorem dmaWrite_effect (x : Task) (addr : Word) (w : Width) (v : Word) (s : State) :
    Effect x s (s.dmaWrite addr w v) := by
  unfold State.dmaWrite
  split
  · next hf => exact effect_loadRetries x s (mayPush_of_fast x hf rfl)
  · exact effect_loadRetries x s (mayPush_of_ordinary rfl)

/-- The clear shift of a fast read leads on to its FastCheck. -/
theorem fastReadClear_effect (addr : Word) (w : Width) (s : State) :
    Effect (.fastReadClear addr w) s (s.fastReadClear addr w) := by
  refine .pushes _ rfl rfl rfl fun u hu => ⟨?_, fun _ => .inr rfl⟩
  revert u
  exact List.forall_mem_cons.2 ⟨rfl, List.forall_mem_cons.2 ⟨rfl, List.forall_mem_singleton.2 rfl⟩⟩

theorem retry_effect (x : Task) (addr d : Word) {again : Task} (ha : again.ordinary = true) (s : State) :
    Effect x s (s.retry addr d again) := by
  unfold State.retry
  split
  · exact effect_raise x s _
  · next n hn =>
    refine .work rfl (Nat.le_trans (Nat.le_succ n) (hn ▸ Nat.le_max_left ..)) fun u hu => ?_
    exact (List.mem_append.1 hu).symm.imp id (mayPush_of_ordinary (by simp [ha]) u)

theorem dmaReadCheck_effect (x : Task) (addr : Word) (w : Width) (raw : Word) (s : State) :
    Effect x s (s.dmaReadCheck addr w raw) := by
  unfold State.dmaReadCheck
  split
  · exact retry_effect x _ _ rfl s
  · exact .still rfl rfl rfl

theorem dmaWriteCheck_effect (x : Task) (addr : Word) (w : Width) (v : Word) (s : State) :
    Effect x s (s.dmaWriteCheck addr w v) := by
  unfold State.dmaWriteCheck
  split
  · exact retry_effect x _ _ rfl s
  · exact .still rfl rfl rfl

/-- The head of the start-bit poll: CANCEL ends the command, else one poll (42_transaction.md R175). -/
theorem pollStart_eq (addr last : Word) (s : State) : s.pollStart addr last =
    if s.cancelLevel 0 then (s.drawn 1).endWithError ⟨.userCancelled, addr, last⟩
    else (s.drawn 1).push [.shiftDr (ctlDmaPoll s.ctl), .pollTest addr] := by
  unfold State.pollStart
  rw [drawCancel_eq, raise_ends _ _ (.inl rfl)]

/-- The head of the completion poll: CANCEL ends the command, else one read (43_flash.md R239). -/
theorem flashPoll_eq (a : Word) (cond : PollCond) (last : Word) (s : State) : s.flashPoll a cond last =
    if s.cancelLevel 0 then (s.drawn 1).endWithError ⟨.userCancelled, a, last⟩
    else (s.drawn 1).push [flashRead a, .flashPollTest a cond] := by
  unfold State.flashPoll
  rw [drawCancel_eq, raise_ends _ _ (.inl rfl)]

theorem pollStart_effect (addr last : Word) (s : State) :
    Effect (.pollStart addr last) s (s.pollStart addr last) := by
  rw [pollStart_eq]
  split
  · exact .cancel _ rfl
  · exact .poll _ rfl (mayPush_of_ordinary rfl)

theorem flashPoll_effect (a : Word) (cond : PollCond) (last : Word) (s : State) :
    Effect (.flashPoll a cond last) s (s.flashPoll a cond last) := by
  rw [flashPoll_eq]
  split
  · exact .cancel _ rfl
  · exact .poll _ rfl (mayPush_of_ordinary rfl)

theorem pollTest_effect (x : Task) (addr : Word) (s : State) : Effect x s (s.pollTest addr) := by
  unfold State.pollTest
  split
  · exact effect_push x s rfl
  · exact .still rfl rfl rfl

theorem praccPollTest_effect (x : Task) (m : ModuleKind) (s : State) : Effect x s (s.praccPollTest m) := by
  unfold State.praccPollTest
  split
  · exact effect_push x s rfl
  · exact effect_push x s rfl

theorem praccServe_effect (x : Task) (m : ModuleKind) (isWrite : Bool) (s : State) :
    Effect x s (s.praccServe m isWrite) := by
  unfold State.praccServe
  split
  · exact effect_push x s rfl
  · split
    · split
      · exact .still rfl rfl rfl
      · exact .pushes _ rfl rfl rfl (mayPush_of_ordinary rfl)
    · exact .pushes _ rfl rfl rfl (mayPush_of_ordinary rfl)

theorem praccCommit_effect (x : Task) (m : ModuleKind) (a d : Word) (s : State) :
    Effect x s (s.praccCommit m a d) := by
  unfold State.praccCommit
  split
  · exact .pushes [.moduleLoop m] rfl rfl rfl (mayPush_of_ordinary rfl)
  · split
    · exact .pushes [.moduleLoop m] rfl rfl rfl (mayPush_of_ordinary rfl)
    · exact .pushes [.moduleLoop m] rfl rfl rfl (mayPush_of_ordinary rfl)

theorem flashPollTest_effect (x : Task) (a : Word) (cond : PollCond) (s : State) :
    Effect x s (s.flashPollTest a cond) := by
  unfold State.flashPollTest
  split
  · exact .still rfl rfl rfl
  · exact effect_push x s rfl

theorem probeRound_effect (x : Task) (rounds : Nat) (last : Word) (s : State) :
    Effect x s (s.probeRound rounds last) := by
  unfold State.probeRound
  split
  · exact effect_raise x s _
  · exact effect_push x s rfl

theorem probeAttempt_effect (x : Task) (k : Attempt) (rounds : Nat) (s : State) :
    Effect x s (s.probeAttempt k rounds) := by
  cases k <;> exact effect_push x s rfl

theorem probeClose_effect (x : Task) (k : Attempt) (rounds : Nat) (v d : Half) (s : State) :
    Effect x s (s.probeClose k rounds v d) := by
  cases k <;> exact effect_push x s rfl

theorem probeDevice_effect (x : Task) (k : Attempt) (rounds : Nat) (v : Half) (s : State) :
    Effect x s (s.probeDevice k rounds v) := by
  unfold State.probeDevice
  split
  · exact effect_push x s rfl
  · exact probeClose_effect x ..

theorem identify_effect (x : Task) {e : FlashDescriptor} {v d : Half} (s : State)
    (hl : lookupChip s.flashParams v d = some e) : Effect x s (s.identify e v d) := by
  unfold State.identify
  dsimp only
  split
  · exact effect_raise x s _
  · next hm => exact .identify e v d hl (Nat.not_lt.1 hm)

theorem probeLookup_effect (x : Task) (k : Attempt) (rounds : Nat) (v d : Half) (s : State) :
    Effect x s (s.probeLookup k rounds v d) := by
  unfold State.probeLookup
  split
  · next e hl => exact identify_effect x s hl
  · cases k <;> exact effect_push x s rfl

theorem selectNamed_effect (x : Task) (chip : FlashDescriptor) (code : BitVec 4) (s : State) :
    Effect x s (s.selectNamed chip code) := by
  unfold State.selectNamed
  split
  · exact effect_raise x s _
  · exact .still rfl rfl rfl

theorem selectCustom_effect (x : Task) {chip : FlashDescriptor} (s : State) (hc : s.chip = some chip) :
    Effect x s (s.selectCustom chip) := by
  unfold State.selectCustom
  split
  · exact effect_raise x s _
  · next hm => exact .customize chip hc (Nat.not_lt.1 hm)

theorem selectArea_effect (x : Task) (area : BitVec 4) (s : State) : Effect x s (s.selectArea area) := by
  unfold State.selectArea
  split
  · exact effect_raise x s _
  · next c hc =>
    split
    · exact selectCustom_effect x s hc
    · exact selectNamed_effect x ..

theorem eraseBlock_effect (x : Task) (b : Word) (s : State) : Effect x s (s.eraseBlock b) := by
  unfold State.eraseBlock
  split
  · exact effect_raise x s _
  · split
    · exact effect_raise x s _
    · split
      · exact effect_push x s rfl
      · exact effect_push x s rfl

theorem eraseNext_effect (x : Task) (i : Nat) (rest : List Word) (fail : Option CmdError) (s : State) :
    Effect x s (s.eraseNext i rest fail) := by
  unfold State.eraseNext
  split
  · exact .report i _ _ (mayPush_of_ordinary rfl)
  · split
    · exact effect_raise x s _
    · exact .still rfl rfl rfl

theorem writeFlash_effect (x : Task) (a v : Word) (s : State) : Effect x s (s.writeFlash a v) := by
  unfold State.writeFlash
  split
  · exact effect_raise x s _
  · split
    · exact effect_raise x s _
    · split
      · exact effect_push x s rfl
      · exact effect_push x s rfl

/-- What a task can do: the one case split over the tasks that the whole-machine rules rest on. -/
theorem runTask_effect (x : Task) (s : State) : Effect x s (runTask x s) := by
  cases x with
  | rawClock tms tdi sample => exact rawClock_effect ..
  | resetTap => exact resetTap_effect ..
  | setIr ir => exact setInstruction_effect ..
  | shiftDr v => exact shiftData32_effect ..
  | setResult => exact .still rfl rfl rfl
  | initEnd => exact .initEnd rfl
  | shutdownEnd => exact .shutdownEnd rfl
  | checkAlign addr w v => exact checkAlign_effect ..
  | memRead addr w => exact memRead_effect ..
  | memWrite addr w v => exact memWrite_effect ..
  | dmaRead addr w => exact dmaRead_effect ..
  | dmaReadAttempt addr w => exact effect_push _ s rfl
  | dmaReadClear addr w => exact effect_push _ s rfl
  | dmaReadCheck addr w raw => exact dmaReadCheck_effect ..
  | fastReadClear addr w => exact fastReadClear_effect ..
  | fastReadEnd addr w raw => exact .fastCheck _ rfl
  | dmaWrite addr w v => exact dmaWrite_effect ..
  | dmaWriteAttempt addr w v => exact effect_push _ s rfl
  | dmaWriteCheck addr w v => exact dmaWriteCheck_effect ..
  | fastWriteEnd => exact .fastCheck s.acc rfl
  | pollStart addr last => exact pollStart_effect ..
  | pollTest addr => exact pollTest_effect ..
  | praccRead addr w => cases w <;> exact .pushes _ rfl rfl rfl (mayPush_of_ordinary rfl)
  | praccReadEnd w => exact .still rfl rfl rfl
  | praccWrite addr w v => exact .pushes _ rfl rfl rfl (mayPush_of_ordinary rfl)
  | runModule m => exact .pushes _ rfl rfl rfl (mayPush_of_ordinary rfl)
  | moduleLoop m => exact effect_push _ s rfl
  | praccPoll m => exact effect_push _ s rfl
  | praccPollTest m => exact praccPollTest_effect ..
  | praccServe m isWrite => exact praccServe_effect ..
  | praccStore m a => exact effect_push _ s rfl
  | praccCommit m a d => exact praccCommit_effect ..
  | wait length => exact .still rfl rfl rfl
  | flashPoll a cond last => exact flashPoll_effect ..
  | flashPollTest a cond => exact flashPollTest_effect ..
  | probeRound rounds last => exact probeRound_effect ..
  | probeAttempt k rounds => exact probeAttempt_effect ..
  | probeVendor k rounds => exact effect_push _ s rfl
  | probeDevice k rounds v => exact probeDevice_effect ..
  | probeExtended k rounds v => exact probeClose_effect ..
  | probeLookup k rounds v d => exact probeLookup_effect ..
  | selectArea area => exact selectArea_effect ..
  | eraseArea start n => exact .pushes _ rfl rfl rfl (mayPush_of_ordinary rfl)
  | eraseBlock b => exact eraseBlock_effect ..
  | eraseNext i rest fail => exact eraseNext_effect ..
  | writeFlash a v => exact writeFlash_effect ..

/-- A task of a running command, or its end when no task is left. -/
theorem tick_cases (s : State) : (s.cont = [] ∧ tick s = s.finish) ∨
    ∃ x k, s.cont = x :: k ∧ Effect x { s with cont := k } (tick s) := by
  cases h : s.cont with
  | nil => exact .inl ⟨rfl, tick_nil h⟩
  | cons x k => exact .inr ⟨x, k, rfl, tick_cons h ▸ runTask_effect x _⟩

end Sys2Proof.Machine
end

section
/-! What no task, and no command, does: each whole-machine rule as a case split over the effects of a task. -/

namespace Sys2Proof.Machine

/-! ### The tasks on the stack -/

theorem Effect.mem_cont {x : Task} {s t : State} (h : Effect x s t) : ∀ u ∈ t.cont, u ∈ s.cont ∨ s.MayPush x u := by
  have pushed : ∀ ts : List Task, (∀ u ∈ ts, s.MayPush x u) → ∀ u ∈ ts ++ s.cont, u ∈ s.cont ∨ s.MayPush x u :=
    fun ts ht u hu => (List.mem_append.1 hu).symm.imp id (ht u)
  cases h with
  | work hw hr hc => exact hc
  | fail | cancel => exact nofun
  | poll ts hx ht => exact pushed ts ht
  | report i b ts ht => exact pushed ts ht
  | clock hc => obtain ⟨cs, hc⟩ := hc; rw [hc]; exact fun u => .inl
  | shiftIr | fastCheck | initEnd | shutdownEnd | identify | customize => exact fun u => .inl

/-! ### The session and POSSIBLE_CORRUPTION -/

/-- Only the last task of INIT and of SHUTDOWN change LINK_OPEN or MODE (10_state.md R41, R43). -/
theorem Effect.session {x : Task} {s t : State} (h : Effect x s t) (hx : x.endsSession = false) :
    t.linkOpen = s.linkOpen ∧ t.mode = s.mode := by
  cases h with
  | work hw => rw [hw]; exact ⟨rfl, rfl⟩
  | clock hc => obtain ⟨cs, hc⟩ := hc; rw [hc]; exact ⟨rfl, rfl⟩
  | initEnd hx' | shutdownEnd hx' => rw [hx] at hx'; cases hx'
  | fail | poll | cancel | shiftIr | report | fastCheck | identify | customize => exact ⟨rfl, rfl⟩

/-- POSSIBLE_CORRUPTION is set by FastCheck and never cleared (10_state.md R42). -/
theorem Effect.possibleCorruption {x : Task} {s t : State} (h : Effect x s t) :
    (s.possibleCorruption = true → t.possibleCorruption = true) ∧
      (x.isFast = false → t.possibleCorruption = s.possibleCorruption) := by
  cases h with
  | work hw => rw [hw]; exact ⟨id, fun _ => rfl⟩
  | clock hc => obtain ⟨cs, hc⟩ := hc; rw [hc]; exact ⟨id, fun _ => rfl⟩
  | fastCheck v hx =>
    refine ⟨fun hp => ?_, fun hx' => by rw [hx] at hx'; cases hx'⟩
    show (s.possibleCorruption || _) = true
    rw [hp, Bool.true_or]
  | fail | poll | cancel | shiftIr | report | initEnd | shutdownEnd | identify | customize =>
    exact ⟨id, fun _ => rfl⟩

/-! ### CMD, OVERRUN and CANCEL -/

/-- A task changes neither CMD nor OVERRUN (10_state.md R24). -/
theorem Effect.cmd_overrun {x : Task} {s t : State} (h : Effect x s t) : t.cmd = s.cmd ∧ t.overrun = s.overrun := by
  cases h with
  | work hw => rw [hw]; exact ⟨rfl, rfl⟩
  | clock hc => obtain ⟨cs, hc⟩ := hc; rw [hc]; exact ⟨rfl, rfl⟩
  | fail | poll | cancel | shiftIr | report | fastCheck | initEnd | shutdownEnd | identify | customize =>
    exact ⟨rfl, rfl⟩

/-- A task that is no poll head does not draw CANCEL (60_exceptions.md R276). -/
theorem Effect.cancelIn {x : Task} {s t : State} (h : Effect x s t) (hx : x.isPoll = false) :
    t.cancelIn = s.cancelIn ∧ t.cancelDraws = s.cancelDraws := by
  cases h with
  | work hw => rw [hw]; exact ⟨rfl, rfl⟩
  | clock hc => obtain ⟨cs, hc⟩ := hc; rw [hc]; exact ⟨rfl, rfl⟩
  | poll ts hx' | cancel e hx' => rw [hx] at hx'; cases hx'
  | fail | shiftIr | report | fastCheck | initEnd | shutdownEnd | identify | customize => exact ⟨rfl, rfl⟩

/-! ### The trace and CLOCK_COUNT -/

/-- Events that are control-byte writes (10_state.md R57). -/
def ctrlWrites (es : List Event) : Nat := es.countP fun | .ctrlWrite _ => true | _ => false

theorem ctrlWrites_ctrlWrite (b : Byte) (es : List Event) : ctrlWrites (.ctrlWrite b :: es) = ctrlWrites es + 1 :=
  List.countP_cons_of_pos rfl

theorem ctrlWrites_statusRead (b : Byte) (es : List Event) : ctrlWrites (.statusRead b :: es) = ctrlWrites es :=
  List.countP_cons_of_neg nofun

theorem ctrlWrites_append (es fs : List Event) : ctrlWrites (es ++ fs) = ctrlWrites es + ctrlWrites fs :=
  List.countP_append

/-- `io'` is `io` with events added, among them two control-byte writes for each of `n` clocks, and `n` counted. -/
def Io.Grows (io io' : Io) : Prop :=
  ∃ (events : List Event) (n : Nat), io'.trace = events ++ io.trace ∧ ctrlWrites events = 2 * n ∧
    io'.clockCount = io.clockCount + BitVec.ofNat 32 n

theorem Io.Grows.refl (io : Io) : io.Grows io := ⟨[], 0, rfl, rfl, by simp⟩

theorem Io.Grows.trans {io io' io'' : Io} (h₁ : io.Grows io') (h₂ : io'.Grows io'') : io.Grows io'' := by
  obtain ⟨es, n, ht, he, hn⟩ := h₁
  obtain ⟨fs, m, ht', he', hn'⟩ := h₂
  refine ⟨fs ++ es, n + m, by rw [ht', ht, List.append_assoc], ?_, ?_⟩
  · rw [ctrlWrites_append]; omega
  · rw [hn', hn, BitVec.ofNat_add, BitVec.add_assoc]

/-- An event that is no control-byte write. -/
theorem Io.grows_event (io : Io) (e : Event) (he : ctrlWrites [e] = 0) :
    io.Grows { io with trace := e :: io.trace } := ⟨[e], 0, rfl, he, by simp⟩

theorem ctrlWrites_events (p : PinMap) (io : Io) (k : Nat) (cs : List Pulse) :
    ctrlWrites (io.events p k cs) = 2 * cs.length := by
  induction cs generalizing k with
  | nil => rfl
  | cons c cs ih =>
    have hlen : (c :: cs).length = cs.length + 1 := rfl
    cases hs : c.sample with
    | false =>
      simp only [Io.events, hs, Bool.false_eq_true, if_false, ctrlWrites_ctrlWrite, ih]
      omega
    | true =>
      simp only [Io.events, hs, if_true, ctrlWrites_ctrlWrite, ctrlWrites_statusRead, ih]
      omega

/-- Clocks (40_tap.md R132). -/
theorem Io.grows_after (p : PinMap) (cs : List Pulse) (io : Io) : io.Grows (io.after p cs) := by
  refine ⟨(io.events p 0 cs).reverse, cs.length, rfl, ?_, rfl⟩
  rw [← ctrlWrites_events p io 0 cs]
  exact List.countP_reverse

theorem State.shiftIr_io (code : Word) (s : State) :
    (s.shiftIr code).io = s.io.after s.pins (irPulses (maskIr code s.irLength) s.irLength) := by
  rw [← quietPulses_ir]
  exact Io.clocks_eq s.wire _ _

theorem Effect.grows {x : Task} {s t : State} (h : Effect x s t) : s.io.Grows t.io := by
  cases h with
  | work hw => rw [hw]; exact .refl _
  | clock hc => obtain ⟨cs, hc⟩ := hc; rw [hc]; exact Io.grows_after s.pins cs s.io
  | shiftIr code => rw [State.shiftIr_io]; exact Io.grows_after ..
  | fail | cancel => exact Io.grows_event _ _ rfl
  | report => exact Io.grows_event _ _ rfl
  | poll | fastCheck | initEnd | shutdownEnd | identify | customize => exact .refl _

/-! ### Runs of tasks -/

/-- What the end of a command and every task keep, a run of tasks keeps. -/
theorem drive_keeps {P : State → Prop} (hfin : ∀ s, P s → P s.finish)
    (htask : ∀ x k s t, P s → s.busy = true → s.cont = x :: k → Effect x { s with cont := k } t → P t) (n : Nat)
    {s : State} (h : P s) : P (drive n s) := by
  refine drive_induction (fun u hb hu => ?_) n h
  rcases tick_cases u with ⟨-, he⟩ | ⟨x, k, hc, he⟩
  · rw [he]; exact hfin u hu
  · exact htask x k u _ hu hb hc he

/-! ### The shell of a command -/

/-- A command before its tasks: INIT's session reset, FLASH_PROBE's start from no chip, FLASH_ERASE_BLOCK's progress
report, and nothing for the others. -/
inductive Prepared (i : Instr) (s : State) : State → Prop where
  | same : Prepared i s s
  | sessionReset (hi : i = .init) : Prepared i s s.sessionReset
  | forgetChip : Prepared i s s.forgetChip
  | progress (v : Word) : Prepared i s { s with progress := v }

/-- The tasks a command may start with. -/
def Launches (i : Instr) (u : Task) : Prop :=
  u.isFast = false ∧ (u.endsSession = true → i = .init ∨ i = .shutdown)

/-- What command `i` can do in the state `s` it was accepted in. -/
inductive Ran (i : Instr) (s : State) : State → Prop where
  | error (e : CmdError) : Ran i s (s.raise e)
  | invalid : Ran i s s.endInvalid
  | tasks {u : State} (ts : List Task) (n : Nat) (hp : Prepared i s u) (ht : ∀ x ∈ ts, Launches i x) :
      Ran i s (drive n { u with cont := ts })

/-- A piece of command `i` that answers only what the command can do. -/
def Runs (i : Instr) (body : State → Answer) : Prop := ∀ ⦃s t : State⦄, body s = .next t → Ran i s t

theorem launches_of_ordinary (i : Instr) {ts : List Task} (h : ts.all Task.ordinary = true) :
    ∀ x ∈ ts, Launches i x := by
  intro x hx
  have ho := List.all_eq_true.1 h x hx
  simp only [Task.ordinary, Bool.and_eq_true, Bool.not_eq_true'] at ho
  exact ⟨ho.2, fun he => by simp [ho.1] at he⟩

theorem launches_of_session {i : Instr} (hi : i = .init ∨ i = .shutdown) {ts : List Task}
    (h : ts.all (fun u => !u.isFast) = true) : ∀ x ∈ ts, Launches i x := by
  intro x hx
  have ho := List.all_eq_true.1 h x hx
  exact ⟨by simpa using ho, fun _ => hi⟩

theorem runs_launch {i : Instr} {f : State → State} {ts : State → List Task} (hf : ∀ s, Prepared i s (f s))
    (ht : ∀ s, ∀ x ∈ ts s, Launches i x) : Runs i fun s => (f s).launch (ts s) := by
  rintro s _ ⟨⟩
  exact .tasks (ts s) _ (hf s) (ht s)

theorem runs_error {i : Instr} (e : State → CmdError) : Runs i fun s => .next (s.raise (e s)) := by
  rintro s _ ⟨⟩
  exact .error (e s)

theorem runs_stop {i : Instr} {body : State → Answer} (h : ∀ s t, body s ≠ .next t) : Runs i body :=
  fun s t hs => absurd hs (h s t)

theorem runs_ite {i : Instr} {c : State → Prop} [∀ s, Decidable (c s)] {a b : State → Answer} (ha : Runs i a)
    (hb : Runs i b) : Runs i fun s => if c s then a s else b s := by
  intro s t h
  by_cases hc : c s
  · exact ha ((if_pos hc).symm.trans h)
  · exact hb ((if_neg hc).symm.trans h)

theorem runs_whenOpen {i : Instr} {body : State → Answer} (h : Runs i body) : Runs i (whenOpen body) :=
  runs_ite h (runs_error notOpenError)

theorem runs_whenModed {i : Instr} {body : State → Answer} (h : Runs i body) : Runs i (whenModed body) :=
  runs_ite (runs_stop fun _ _ => nofun) h

theorem runs_whenChip {i : Instr} {body : FlashDescriptor → State → Answer} (h : ∀ c, Runs i (body c)) :
    Runs i (whenChip body) := by
  intro s t hs
  unfold whenChip at hs
  split at hs
  · exact runs_error (fun _ => noChipError) hs
  · exact h _ hs

/-- A host write of the word of command `i`, met by the block in `s`: dropped while BUSY, else accepted and run. -/
def Commanded (i : Instr) (body : State → Answer) : Prop := ∀ ⦃s t : State⦄, body s = .next t →
  (s.busy = true ∧ t = { s with overrun := true }) ∨ (s.busy = false ∧ Ran i (s.accept (encode i)) t)

theorem commanded_command {i : Instr} {body : State → Answer} (h : Runs i body) :
    Commanded i (command (encode i) body) := by
  intro s t hs
  by_cases hb : s.busy = true
  · rw [command_busy _ _ hb] at hs
    cases hs
    exact .inl ⟨hb, rfl⟩
  · rw [Bool.not_eq_true] at hb
    rw [command_idle _ _ hb] at hs
    exact .inr ⟨hb, h hs⟩

/-- A command that needs an open session, and then only starts its tasks. -/
theorem commanded_opened {i : Instr} {ts : State → List Task} (ht : ∀ s, ∀ x ∈ ts s, Launches i x) :
    Commanded i (command (encode i) (whenOpen fun s => s.launch (ts s))) :=
  commanded_command (runs_whenOpen (runs_launch (fun _ => .same) ht))

/-- A command that needs an open session with a mode, and then only starts its tasks. -/
theorem commanded_moded {i : Instr} {ts : State → List Task} (ht : ∀ s, ∀ x ∈ ts s, Launches i x) :
    Commanded i (command (encode i) (whenOpen (whenModed fun s => s.launch (ts s)))) :=
  commanded_command (runs_whenOpen (runs_whenModed (runs_launch (fun _ => .same) ht)))

/-- A flash command that needs a chip, and starts its tasks after what `f` prepares. -/
theorem commanded_chipped {i : Instr} {f : State → State} {ts : FlashDescriptor → State → List Task}
    (hf : ∀ s, Prepared i s (f s)) (ht : ∀ c s, ∀ x ∈ ts c s, Launches i x) :
    Commanded i (command (encode i) (whenOpen (whenModed (whenChip fun c s => (f s).launch (ts c s))))) :=
  commanded_command (runs_whenOpen (runs_whenModed (runs_whenChip fun c => runs_launch hf (ht c))))

theorem commanded_execInit : Commanded .init execInit := by
  refine commanded_command (runs_ite (runs_error _) (runs_ite (runs_error _) ?_))
  exact runs_launch (fun _ => .sessionReset rfl) fun _ => launches_of_session (.inl rfl) rfl

theorem commanded_execFlashProbe : Commanded .flashProbe execFlashProbe := by
  refine commanded_command (runs_whenOpen (runs_whenModed (runs_ite ?_ (runs_stop fun _ _ => nofun))))
  exact runs_launch (fun _ => .forgetChip) fun _ => launches_of_ordinary _ rfl

theorem commanded_execFlashSelectArea (area : BitVec 4) :
    Commanded (.flashSelectArea area) (execFlashSelectArea area) := by
  intro s t h
  unfold execFlashSelectArea at h
  split at h
  · refine commanded_command (runs_whenOpen (runs_whenChip fun _ => ?_)) h
    exact runs_launch (fun _ => .same) fun _ => launches_of_ordinary _ rfl
  · exact commanded_command (fun s t ht => by cases ht; exact .invalid) h

/-- What a command can do: the one case split over the commands that the whole-machine rules rest on. -/
theorem exec_commanded (i : Instr) : Commanded i (exec i) := by
  cases i with
  | clock | resetTap | setIr | shiftDr32 => exact commanded_opened fun _ => launches_of_ordinary _ rfl
  | shutdown => exact commanded_opened fun _ => launches_of_session (.inr rfl) rfl
  | readWord | readHalf | writeWord | writeHalf => exact commanded_moded fun _ => launches_of_ordinary _ rfl
  | dmaReadWord | dmaReadHalf | dmaWriteWord | dmaWriteHalf =>
    exact commanded_opened fun _ => launches_of_ordinary _ rfl
  | praccReadWord | praccReadHalf | praccWriteWord | praccWriteHalf =>
    exact commanded_opened fun _ => launches_of_ordinary _ rfl
  | flashResetRead | flashEraseArea | flashWriteWord =>
    exact commanded_chipped (fun _ => .same) fun _ _ => launches_of_ordinary _ rfl
  | flashEraseBlock =>
    exact commanded_chipped (f := fun s => { s with progress := s.addr }) (fun s => .progress s.addr) fun _ _ =>
      launches_of_ordinary _ rfl
  | flashSelectArea area => exact commanded_execFlashSelectArea area
  | flashProbe => exact commanded_execFlashProbe
  | init => exact commanded_execInit

end Sys2Proof.Machine
end

section
/-! The invariant of every reachable state: what its clauses need of the TAP table, of the IR mask and of the block
map, then each effect of a task, each command and each action of the host keeps it. -/

namespace Sys2Proof.Machine

/-! ### TAP_STATES is never empty (10_state.md R38) -/

/-- Bit `j` of the image of a set under one transition: some state of the set goes to the state of that bit
(40_tap.md R131). -/
theorem getLsbD_tapNext (states : BitVec 16) (tms : Bool) (j : Nat) :
    (tapNext states tms).getLsbD j =
      allTapStates.any fun t => states.getLsbD (tapCode t) && (tapOnly (tapNext1 t tms)).getLsbD j := by
  have key : ∀ (l : List TapState) (acc : BitVec 16),
      (l.foldl (fun acc t => if states.getLsbD (tapCode t) then acc ||| tapOnly (tapNext1 t tms) else acc)
        acc).getLsbD j =
      (acc.getLsbD j || l.any fun t => states.getLsbD (tapCode t) && (tapOnly (tapNext1 t tms)).getLsbD j) := by
    intro l
    induction l with
    | nil => simp
    | cons t l ih =>
      intro acc
      rw [List.foldl_cons, ih, List.any_cons]
      cases states.getLsbD (tapCode t) <;> simp [Bool.or_assoc]
  unfold tapNext
  rw [key]
  simp

theorem mem_allTapStates (t : TapState) : t ∈ allTapStates := by cases t <;> decide

theorem exists_tapCode (k : Nat) (hk : k < 16) : ∃ t, tapCode t = k := by
  have h : ∀ k : Fin 16, ∃ t ∈ allTapStates, tapCode t = k.val := by decide
  obtain ⟨t, -, ht⟩ := h ⟨k, hk⟩
  exact ⟨t, ht⟩

theorem getLsbD_tapOnly_self (t : TapState) : (tapOnly t).getLsbD (tapCode t) = true := by cases t <;> decide

theorem tapNext_ne_zero {states : BitVec 16} (h : states ≠ 0) (tms : Bool) : tapNext states tms ≠ 0 := by
  obtain ⟨k, hk, hbit⟩ : ∃ k < 16, states.getLsbD k = true := by
    by_contra hno
    refine h (BitVec.eq_of_getLsbD_eq fun i hi => ?_)
    simpa using fun hi' => hno ⟨i, hi, hi'⟩
  obtain ⟨t, rfl⟩ := exists_tapCode k hk
  intro h0
  have hbit' : (tapNext states tms).getLsbD (tapCode (tapNext1 t tms)) = true := by
    rw [getLsbD_tapNext, List.any_eq_true]
    exact ⟨t, mem_allTapStates t, by rw [hbit, getLsbD_tapOnly_self]; rfl⟩
  simp [h0] at hbit'

theorem Io.after_tapStates_ne_zero (p : PinMap) (cs : List Pulse) (io : Io) (h : io.tapStates ≠ 0) :
    (io.after p cs).tapStates ≠ 0 := by
  rw [Io.after_tapStates]
  exact List.foldlRecOn (motive := (· ≠ 0)) cs _ h fun _ hs c _ => tapNext_ne_zero hs c.tms

/-! ### The IR cache is masked (10_state.md R37) -/

theorem maskIr_toNat (ir : Word) (l : Nat) : (maskIr ir l).toNat = ir.toNat % 2 ^ l := by
  have h : ir.toNat % 2 ^ l < 2 ^ 32 := Nat.lt_of_le_of_lt (Nat.mod_le _ _) ir.isLt
  exact Nat.mod_eq_of_lt h

theorem maskIr_maskIr (ir : Word) (l : Nat) : maskIr (maskIr ir l) l = maskIr ir l := by
  apply BitVec.eq_of_toNat_eq
  rw [maskIr_toNat, maskIr_toNat, Nat.mod_mod]

/-! ### The block map is within its capacity (10_state.md R35) -/

theorem length_blockStarts (rs : List Region) (a : Nat) : (blockStarts rs a).length = totalBlocks rs := by
  induction rs generalizing a with
  | nil => rfl
  | cons r rs ih => simp [blockStarts, ih, totalBlocks]

theorem length_buildMap (draw : Nat) (rs : List Region) (base : Word) :
    (buildMap draw rs base).length = totalBlocks rs := by
  unfold buildMap
  dsimp only
  split
  · rw [List.length_map, length_blockStarts]
  · rw [List.length_map, List.length_range, length_blockStarts]

/-! ### The flash registers show the chip (10_state.md R32) -/

/-- The entry a lookup finds has the ids looked up (43_flash.md R230). -/
theorem lookupChip_ids {p : FlashParams} {v d : Half} {e : FlashDescriptor} (h : lookupChip p v d = some e) :
    e.vendor = v ∧ e.device = d := by
  have hs := List.find?_some h
  simpa using hs

theorem chipShown_identified {s : State} {e : FlashDescriptor} {v d : Half}
    (h : lookupChip s.flashParams v d = some e) : (s.identified e v d).ChipShown := by
  obtain ⟨rfl, rfl⟩ := lookupChip_ids h
  exact ⟨rfl, rfl, rfl⟩

/-- With a chip, a change of the block map and of the window shows the same chip. -/
theorem chipShown_customized {s : State} {c : FlashDescriptor} (hc : s.chip = some c) (h : s.ChipShown) :
    (s.customized c).ChipShown := by
  unfold State.ChipShown at *
  have hc' : (s.customized c).chip = some c := hc
  rw [hc] at h
  rw [hc']
  exact h

theorem selectMode_ne_none (f : Word) (s : State) : s.selectMode f ≠ .none := by
  unfold State.selectMode
  split
  · nofun
  · split
    · nofun
    · split <;> nofun

/-! ### Tasks -/

/-- The end of a command. -/
theorem inv_finish {s : State} (h : s.Inv) : s.finish.Inv := by
  obtain ⟨hcfg, htap, hses, -, hret, hchip, hmap, hir⟩ := h
  exact ⟨hcfg, htap, hses, fun _ => rfl, hret, hchip, hmap, hir⟩

/-- Every effect of a task keeps the invariant of a busy block. -/
theorem Effect.inv {x : Task} {s t : State} (h : Effect x s t) (hb : s.busy = true) (hi : s.Inv) : t.Inv := by
  obtain ⟨hcfg, htap, hses, -, hret, hchip, hmap, hir⟩ := hi
  have running : ∀ {l : List Task}, s.busy = false → l = [] := fun hb' => absurd (hb.symm.trans hb') nofun
  cases h with
  | work hw hr =>
    rw [hw]
    exact ⟨hcfg, htap, hses, running, Nat.le_trans hr (Nat.max_le.2 ⟨hret, Nat.le_refl _⟩), hchip, hmap, hir⟩
  | fail | cancel => exact ⟨hcfg, htap, hses, fun _ => rfl, hret, hchip, hmap, hir⟩
  | poll | report | fastCheck => exact ⟨hcfg, htap, hses, running, hret, hchip, hmap, hir⟩
  | clock hc hv =>
    obtain ⟨cs, hc⟩ := hc
    have hir' := hir ∘ hv
    rw [hc]
    exact ⟨hcfg, Io.after_tapStates_ne_zero _ _ _ htap, hses, running, hret, hchip, hmap, hir'⟩
  | shiftIr code =>
    have htap' : (s.shiftIr code).io.tapStates ≠ 0 := by
      rw [State.shiftIr_io]
      exact Io.after_tapStates_ne_zero _ _ _ htap
    exact ⟨hcfg, htap', hses, running, hret, hchip, hmap, fun _ => maskIr_maskIr code s.irLength⟩
  | initEnd =>
    exact ⟨hcfg, htap, iff_of_true rfl (selectMode_ne_none _ s), running, hret, hchip, hmap, hir⟩
  | shutdownEnd => exact ⟨hcfg, htap, by simp [State.shutdownEnd], running, hret, hchip, hmap, nofun⟩
  | identify e v d hl hm =>
    exact ⟨hcfg, htap, hses, running, hret, chipShown_identified hl, (length_buildMap ..).trans_le hm, hir⟩
  | customize c hc hm =>
    exact ⟨hcfg, htap, hses, running, hret, chipShown_customized hc hchip, (length_buildMap ..).trans_le hm, hir⟩

theorem inv_cont {s : State} (hb : s.busy = true) (h : s.Inv) (k : List Task) : State.Inv { s with cont := k } := by
  obtain ⟨hcfg, htap, hses, -, hret, hchip, hmap, hir⟩ := h
  have running : s.busy = false → k = [] := fun hb' => absurd (hb.symm.trans hb') nofun
  exact ⟨hcfg, htap, hses, running, hret, hchip, hmap, hir⟩

theorem drive_inv (n : Nat) {s : State} (h : s.Inv) : (drive n s).Inv :=
  drive_keeps (P := State.Inv) (fun _ => inv_finish) (fun _ k _ _ hi hb _ he => he.inv hb (inv_cont hb hi k)) n h

/-! ### Commands -/

theorem inv_accept (w : Word) {s : State} (h : s.Inv) : (s.accept w).Inv := by
  obtain ⟨hcfg, htap, hses, -, hret, hchip, hmap, hir⟩ := h
  exact ⟨hcfg, htap, hses, nofun, hret, hchip, hmap, hir⟩

theorem inv_endInvalid {s : State} (h : s.Inv) : s.endInvalid.Inv := by
  obtain ⟨hcfg, htap, hses, -, hret, hchip, hmap, hir⟩ := h
  exact ⟨hcfg, htap, hses, fun _ => rfl, hret, hchip, hmap, hir⟩

theorem Prepared.inv {i : Instr} {s u : State} (h : Prepared i s u) (hb : s.busy = true) (hi : s.Inv) :
    u.Inv ∧ u.busy = true := by
  obtain ⟨hcfg, htap, hses, hc, hret, hchip, hmap, hir⟩ := hi
  have running : s.busy = false → s.cont = [] := hc
  cases h with
  | same => exact ⟨⟨hcfg, htap, hses, running, hret, hchip, hmap, hir⟩, hb⟩
  | progress v => exact ⟨⟨hcfg, htap, hses, running, hret, hchip, hmap, hir⟩, hb⟩
  | forgetChip => exact ⟨⟨hcfg, htap, hses, running, hret, ⟨rfl, rfl, rfl, rfl⟩, Nat.zero_le _, hir⟩, hb⟩
  | sessionReset =>
    exact ⟨⟨hcfg, htap, by simp [State.sessionReset], running, hret, ⟨rfl, rfl, rfl, rfl⟩, Nat.zero_le _, nofun⟩, hb⟩

theorem Ran.inv {i : Instr} {s t : State} (h : Ran i s t) (hb : s.busy = true) (hi : s.Inv) : t.Inv := by
  cases h with
  | error e => exact (effect_raise .setResult s e).inv hb hi
  | invalid => exact inv_endInvalid hi
  | tasks ts n hp =>
    obtain ⟨hu, hub⟩ := hp.inv hb hi
    exact drive_inv n (inv_cont hub hu ts)

theorem inv_overrun {s : State} (h : s.Inv) : State.Inv { s with overrun := true } := h

theorem exec_inv (i : Instr) {s t : State} (hi : s.Inv) (h : exec i s = .next t) : t.Inv := by
  rcases exec_commanded i h with ⟨-, rfl⟩ | ⟨-, hr⟩
  · exact inv_overrun hi
  · exact hr.inv rfl (inv_accept _ hi)

theorem illegalCommand_inv (w : Word) {s t : State} (hi : s.Inv) (h : illegalCommand w s = .next t) : t.Inv := by
  unfold illegalCommand at h
  by_cases hb : s.busy = true
  · rw [command_busy _ _ hb] at h
    cases h
    exact inv_overrun hi
  · rw [command_idle _ _ (Bool.eq_false_iff.2 hb)] at h
    cases h
    exact inv_endInvalid (inv_accept w hi)

theorem commandWrite_inv (w : Word) {s t : State} (hi : s.Inv) (h : commandWrite w s = .next t) : t.Inv := by
  unfold commandWrite at h
  split at h
  · exact exec_inv _ hi h
  · exact illegalCommand_inv w hi h

/-! ### Actions of the host -/

theorem inv_whenIdle {s : State} {write : State → State} (hi : s.Inv) (hw : (write s).Inv) :
    (s.whenIdle write).Inv := by
  unfold State.whenIdle
  split
  · exact inv_overrun hi
  · exact hw

/-- A write of CONFIG clears the reserved bits, and the IR cache with its mask (10_state.md R22, R37). -/
theorem inv_writeConfig (v : Word) {s : State} (hi : s.Inv) :
    State.Inv { s with config := v &&& configMask, irCacheValid := false } := by
  obtain ⟨-, htap, hses, hc, hret, hchip, hmap, -⟩ := hi
  exact ⟨by simp [BitVec.and_assoc], htap, hses, hc, hret, hchip, hmap, nofun⟩

theorem writeReg_inv (r : Reg) (v : Word) {s : State} (hi : s.Inv) : (s.writeReg r v).Inv := by
  cases r with
  | config => exact inv_whenIdle hi (inv_writeConfig v hi)
  | tckDelay | addr | data | len | blockSel => exact inv_whenIdle hi hi
  | _ => exact hi

theorem hostWrite_inv (offset v : Word) {s t : State} (hi : s.Inv) (h : hostWrite offset v s = .next t) : t.Inv := by
  unfold hostWrite at h
  split at h
  · exact commandWrite_inv v hi h
  · cases h
    exact writeReg_inv _ v hi
  · cases h
    exact hi

/-- Settles O52: every clause, read off the reset values of R55. -/
theorem invariantAtReset : Obligations.InvariantAtReset := by
  have htap : (0xFFFF : BitVec 16) ≠ 0 := by decide
  exact ⟨rfl, htap, by simp [State.reset], fun _ => rfl, Nat.le_refl _, ⟨rfl, rfl, rfl, rfl⟩, Nat.zero_le _, nofun⟩

/-- Power-on reset is the reset state but for the model's own fields and the parameters, whose capacity the empty
block map is within. -/
theorem inv_powerOn (s : State) : s.powerOn.Inv := by
  obtain ⟨hcfg, htap, hses, hc, hret, hchip, -, hir⟩ := invariantAtReset
  exact ⟨hcfg, htap, hses, hc, hret, hchip, Nat.zero_le _, hir⟩

/-- Settles O53: a step serves one action of the host or runs one pace of tasks, and each of them keeps the
invariant. -/
theorem invariantKept : Obligations.InvariantKept := by
  intro s t hi h
  have hq : ∀ q, State.Inv { s with hostQueue := q } := fun _ => hi
  change hostStep s = .next t at h
  unfold hostStep at h
  split at h
  · cases h
    exact drive_inv _ hi
  · cases h
    split
    · exact drive_inv _ hi
    · exact hq _
  · exact hostWrite_inv _ _ (hq _) h
  · cases h
    exact hi
  · cases h
    exact inv_powerOn _

end Sys2Proof.Machine
end

section
/-! The other whole-machine rules: what a command does to the session, to POSSIBLE_CORRUPTION and to the trace, and
where it draws CANCEL. -/

namespace Sys2Proof.Machine

/-! ### The session (10_state.md R41, R43) -/

/-- The session of `s`, and no task to come that opens or closes one. -/
def InSession (s t : State) : Prop :=
  (t.linkOpen = s.linkOpen ∧ t.mode = s.mode) ∧ ∀ u ∈ t.cont, u.endsSession = false

theorem drive_inSession (n : Nat) {s t : State} (h : InSession s t) : InSession s (drive n t) := by
  refine drive_keeps (fun u hu => ⟨hu.1, nofun⟩) (fun x k u v hu _ hc he => ?_) n h
  obtain ⟨⟨hl, hm⟩, hk⟩ := hu
  rw [hc] at hk
  obtain ⟨hl', hm'⟩ := he.session (hk x List.mem_cons_self)
  refine ⟨⟨hl'.trans hl, hm'.trans hm⟩, fun y hy => ?_⟩
  rcases he.mem_cont y hy with hy | hy
  · exact hk y (List.mem_cons_of_mem _ hy)
  · exact hy.1

theorem Ran.session {i : Instr} {s t : State} (h : Ran i s t) (hi : i ≠ .init) (hs : i ≠ .shutdown) :
    t.linkOpen = s.linkOpen ∧ t.mode = s.mode := by
  cases h with
  | error e => exact (effect_raise .setResult s e).session rfl
  | invalid => exact ⟨rfl, rfl⟩
  | tasks ts n hp ht =>
    have quiet : ∀ x ∈ ts, x.endsSession = false := fun x hx =>
      Bool.eq_false_iff.2 fun he => ((ht x hx).2 he).elim hi hs
    refine (drive_inSession n ⟨?_, quiet⟩).1
    cases hp with
    | sessionReset hi' => exact absurd hi' hi
    | same | forgetChip | progress => exact ⟨rfl, rfl⟩

/-- Settles O55: the two tasks that change the session stand in INIT and SHUTDOWN only. -/
theorem sessionKept : Obligations.SessionKept := by
  intro i s t hi hs h
  rcases exec_commanded i h with ⟨-, rfl⟩ | ⟨-, hr⟩
  · exact ⟨rfl, rfl⟩
  · exact hr.session hi hs

/-! ### POSSIBLE_CORRUPTION (10_state.md R42, 42_transaction.md R179) -/

/-- POSSIBLE_CORRUPTION is not cleared since `s`, and with FAST = 0 it is as it was and no task to come leads to
FastCheck. -/
def Unspoiled (s t : State) : Prop :=
  (s.possibleCorruption = true → t.possibleCorruption = true) ∧ t.fast = s.fast ∧
    (s.fast = false → t.possibleCorruption = s.possibleCorruption ∧ ∀ u ∈ t.cont, u.isFast = false)

/-- No task writes CONFIG, so none changes FAST. -/
theorem Effect.fast {x : Task} {s t : State} (h : Effect x s t) : t.fast = s.fast := by
  cases h with
  | work hw => rw [hw]; rfl
  | clock hc => obtain ⟨cs, hc⟩ := hc; rw [hc]; rfl
  | fail | poll | cancel | shiftIr | report | fastCheck | initEnd | shutdownEnd | identify | customize => rfl

theorem drive_unspoiled (n : Nat) {s t : State} (h : Unspoiled s t) : Unspoiled s (drive n t) := by
  refine drive_keeps (fun u hu => ?_) (fun x k u v hu _ hc he => ?_) n h
  · obtain ⟨hup, hf, hslow⟩ := hu
    exact ⟨hup, hf, fun h0 => ⟨(hslow h0).1, nofun⟩⟩
  · obtain ⟨hup, hf, hslow⟩ := hu
    refine ⟨fun hp => he.possibleCorruption.1 (hup hp), he.fast.trans hf, fun h0 => ?_⟩
    obtain ⟨heq, hk⟩ := hslow h0
    rw [hc] at hk
    have hx := hk x List.mem_cons_self
    refine ⟨(he.possibleCorruption.2 hx).trans heq, fun y hy => ?_⟩
    rcases he.mem_cont y hy with hy | ⟨-, hy⟩
    · exact hk y (List.mem_cons_of_mem _ hy)
    · refine Bool.eq_false_iff.2 fun hyf => (hy hyf).elim (fun hs => ?_) (fun hs => ?_)
      · exact absurd (hs.symm.trans (hf.trans h0)) nofun
      · exact absurd (hs.symm.trans hx) nofun

theorem Ran.possibleCorruption {i : Instr} {s t : State} (h : Ran i s t) (hi : i ≠ .init) :
    (s.possibleCorruption = true → t.possibleCorruption = true) ∧
      (s.fast = false → t.possibleCorruption = s.possibleCorruption) := by
  cases h with
  | error e =>
    obtain ⟨hup, heq⟩ := (effect_raise .setResult s e).possibleCorruption
    exact ⟨hup, fun _ => heq rfl⟩
  | invalid => exact ⟨id, fun _ => rfl⟩
  | @tasks u ts n hp ht =>
    have slow : ∀ x ∈ ts, x.isFast = false := fun x hx => (ht x hx).1
    have h0 : Unspoiled s { u with cont := ts } := by
      cases hp with
      | sessionReset hi' => exact absurd hi' hi
      | same | forgetChip | progress => exact ⟨id, rfl, fun _ => ⟨rfl, slow⟩⟩
    obtain ⟨hup, -, hslow⟩ := drive_unspoiled n h0
    exact ⟨hup, fun hf => (hslow hf).1⟩

/-- Settles O56: only FastCheck sets the bit, it stands in fast accesses only, and only INIT clears it. -/
theorem corruptionSticky : Obligations.CorruptionSticky := by
  intro i s t hi h
  rcases exec_commanded i h with ⟨-, rfl⟩ | ⟨-, hr⟩
  · exact ⟨id, fun _ => rfl⟩
  · exact hr.possibleCorruption hi

/-! ### The trace and CLOCK_COUNT (10_state.md R39, R57) -/

theorem drive_grows (n : Nat) (s : State) : s.io.Grows (drive n s).io :=
  drive_keeps (P := fun t => s.io.Grows t.io) (fun _ h => h.trans (Io.grows_event _ _ rfl))
    (fun _ _ _ _ h _ _ he => h.trans he.grows) n (.refl _)

theorem Ran.grows {i : Instr} {s t : State} (h : Ran i s t) : s.io.Grows t.io := by
  cases h with
  | error e => exact (effect_raise .setResult s e).grows
  | invalid => exact Io.grows_event _ _ rfl
  | @tasks u ts n hp ht =>
    have hu : u.io = s.io := by cases hp <;> rfl
    exact hu ▸ drive_grows n { u with cont := ts }

/-- Settles O58: every effect adds events, with two control-byte writes for each clock it counts. -/
theorem clocksCounted : Obligations.ClocksCounted := by
  intro i s t h
  rcases exec_commanded i h with ⟨-, rfl⟩ | ⟨-, hr⟩
  · exact Io.Grows.refl s.io
  · exact hr.grows

/-! ### CANCEL (60_exceptions.md R276) -/

/-- A poll head draws CANCEL once; CANCEL = 1 ends the command with USER_CANCELLED, CANCEL = 0 only puts tasks on the
stack. -/
theorem cancel_at_poll {s t : State} {e : CmdError} {ts : List Task} (he : e.code = .userCancelled)
    (hb : s.busy = true) (ht : t = if s.cancelLevel 0 then (s.drawn 1).endWithError e else (s.drawn 1).push ts) :
    t.cancelIn = s.cancelIn.drop 1 ∧ t.cancelDraws = s.cancelDraws + (1 - s.cancelIn.length) ∧
      (s.cancelLevel 0 = true → t.busy = false ∧ t.err = .userCancelled ∧ t.cont = []) ∧
      (s.cancelLevel 0 = false → t.busy = true ∧ t.err = s.err) := by
  cases hc : s.cancelLevel 0 with
  | true =>
    rw [hc, if_pos rfl] at ht
    rw [ht]
    exact ⟨rfl, rfl, fun _ => ⟨rfl, he, rfl⟩, nofun⟩
  | false =>
    rw [hc, if_neg Bool.false_ne_true] at ht
    rw [ht]
    exact ⟨rfl, rfl, nofun, fun _ => ⟨hb, rfl⟩⟩

/-- Settles O57: the two poll heads draw CANCEL by one rule, and no effect of another task draws it. -/
theorem cancelPoints : Obligations.CancelPoints := by
  intro s x k hb hc
  rw [tick_cons hc]
  refine ⟨?_, fun hp hf => (runTask_effect x _).cancelIn ?_⟩
  · rintro (⟨a, last, rfl⟩ | ⟨a, cond, last, rfl⟩)
    · exact cancel_at_poll (s := { s with cont := k }) rfl hb (pollStart_eq a last _)
    · exact cancel_at_poll (s := { s with cont := k }) rfl hb (flashPoll_eq a cond last _)
  · cases x with
    | pollStart a last => exact absurd rfl (hp a last)
    | flashPoll a cond last => exact absurd rfl (hf a cond last)
    | _ => rfl

end Sys2Proof.Machine
end

section
/-! The host's side: which register stands at an offset, what one step serving a host action answers, the STATUS word,
reset, and a run of tasks cut in two. -/

namespace Sys2Proof.Machine

/-! ### The register at an offset (30_encoding.md R90, R91) -/

theorem regAt_regOffset (r : Reg) : regAt (regOffset r) = some r := by cases r <;> decide

theorem regOffset_of_regAt {a : Word} {r : Reg} (h : regAt a = some r) : a = regOffset r := by
  have hs := List.find?_some h
  exact (eq_of_beq hs).symm

/-- The registers the host can write, and the read-only ones. -/
theorem regOffset_mem (r : Reg) :
    regOffset r ∈ writableOffsets ∨ regOffset r ∈ readOnlyOffsets ∨ regOffset r = 0x08 ∨ regOffset r = 0x18 := by
  cases r <;> decide

theorem regAt_none {a : Word} (hw : a ∉ writableOffsets) (hr : a ∉ readOnlyOffsets) (hc : a ≠ 0x08) (hs : a ≠ 0x18) :
    regAt a = none := by
  cases h : regAt a with
  | none => rfl
  | some r =>
    rw [regOffset_of_regAt h] at hw hr hc hs
    rcases regOffset_mem r with h | h | h | h
    · exact absurd h hw
    · exact absurd h hr
    · exact absurd h hc
    · exact absurd h hs

theorem readOffset_reg (s : State) (r : Reg) : s.readOffset (regOffset r) = s.readReg r := by
  unfold State.readOffset
  rw [regAt_regOffset]

theorem readOffset_none {s : State} {a : Word} (h : regAt a = none) : s.readOffset a = 0 := by
  unfold State.readOffset
  rw [h]

theorem hostWrite_cmd (v : Word) (s : State) : hostWrite 0x08 v s = commandWrite v s := rfl

theorem hostWrite_none {a : Word} (h : regAt a = none) (v : Word) (s : State) : hostWrite a v s = .next s := by
  unfold hostWrite
  rw [h]

theorem hostWrite_reg {r : Reg} (h : r ≠ .cmd) (v : Word) (s : State) :
    hostWrite (regOffset r) v s = .next (s.writeReg r v) := by
  unfold hostWrite
  rw [regAt_regOffset]
  cases r with
  | cmd => exact absurd rfl h
  | _ => rfl

theorem whenIdle_idle (write : State → State) {s : State} (h : s.busy = false) : s.whenIdle write = write s := by
  simp [State.whenIdle, h]

theorem whenIdle_busy (write : State → State) {s : State} (h : s.busy = true) :
    s.whenIdle write = { s with overrun := true } := by
  simp [State.whenIdle, h]

/-! ### One step, by the host's next action -/

theorem step_read {s : State} {a : Word} {q : List HostAction} (h : s.hostQueue = .read a :: q) :
    step s = .next { s with hostQueue := q, hostRdata := s.readOffset a } := by
  show hostStep s = _
  unfold hostStep
  rw [h]
  rfl

theorem step_write {s : State} {a v : Word} {q : List HostAction} (h : s.hostQueue = .write a v :: q) :
    step s = hostWrite a v { s with hostQueue := q } := by
  show hostStep s = _
  unfold hostStep
  rw [h]

theorem step_powerOn {s : State} {q : List HostAction} (h : s.hostQueue = .powerOn :: q) :
    step s = .next (State.powerOn { s with hostQueue := q }) := by
  show hostStep s = _
  unfold hostStep
  rw [h]

theorem step_resume {s : State} (h : s.hostQueue = []) : step s = .next (drive s.pace s) := by
  show hostStep s = _
  unfold hostStep
  rw [h]
  rfl

/-- A write of CMD. -/
theorem step_writeCmd {s : State} {w : Word} {q : List HostAction} (h : s.hostQueue = .write 0x08 w :: q) :
    step s = commandWrite w { s with hostQueue := q } := by
  rw [step_write h, hostWrite_cmd]

/-- A write of a register other than CMD. -/
theorem step_writeReg {s : State} {r : Reg} {v : Word} {q : List HostAction} (hr : r ≠ .cmd)
    (h : s.hostQueue = .write (regOffset r) v :: q) : step s = .next (State.writeReg r v { s with hostQueue := q }) := by
  rw [step_write h, hostWrite_reg hr]

/-! ### Reads -/

/-- Settles O5: at the offset of each register the chain of R90 gives that register, elsewhere 0. -/
theorem registerMap : Obligations.RegisterMap := by
  intro s a q h
  rw [step_read h]
  congr 2
  cases ha : regAt a with
  | some r =>
    rw [regOffset_of_regAt ha, readOffset_reg]
    cases r with
    | blockAddr =>
      show s.blockMap[s.blockSel.toNat]?.getD 0 = dite _ _ _
      split
      · next hlt => rw [List.getElem?_eq_getElem hlt]; rfl
      · next hlt => rw [List.getElem?_eq_none (Nat.not_lt.1 hlt)]; rfl
    | _ => rfl
  | none =>
    have hne : ∀ r ∈ allRegs, a ≠ regOffset r := fun r _ hr => by rw [hr, regAt_regOffset] at ha; cases ha
    simp only [allRegs, List.forall_mem_cons, regOffset] at hne
    simp only [readOffset_none ha, hne, if_false]

/-- The STATUS word bit by bit (10_state.md R29). -/
theorem getLsbD_statusWord (s : State) {i : Nat} (hi : i < 32) : s.statusWord.getLsbD i =
    if i = 0 then s.busy else if i = 1 then s.linkOpen else if i < 4 then s.mode.code.getLsbD (i - 2)
    else if i = 4 then s.possibleCorruption else if i = 5 then s.overrun else if i = 6 then s.stubAnomaly
    else if i = 7 then s.chipValid else if i < 16 then s.err.code.getLsbD (i - 8)
    else if i = 16 then s.irCacheValid else false := by
  unfold State.statusWord
  change BitVec.getLsbD (w := 15 + 1 + 8 + 1 + 1 + 1 + 1 + 2 + 1 + 1) _ _ = _
  simp only [BitVec.getLsbD_append]
  interval_cases i <;> simp

theorem statusWord_mode (s : State) : s.statusWord.extractLsb' 2 2 = s.mode.code := by
  refine BitVec.eq_of_getLsbD_eq fun i hi => ?_
  rw [BitVec.getLsbD_extractLsb', getLsbD_statusWord s (by omega)]
  interval_cases i <;> rfl

theorem statusWord_err (s : State) : s.statusWord.extractLsb' 8 8 = s.err.code := by
  refine BitVec.eq_of_getLsbD_eq fun i hi => ?_
  rw [BitVec.getLsbD_extractLsb', getLsbD_statusWord s (by omega)]
  interval_cases i <;> rfl

/-- Bits 31:17 of STATUS are reserved (10_state.md R29). -/
theorem statusWord_reserved (s : State) : s.statusWord.extractLsb' 17 15 = 0 := by
  refine BitVec.eq_of_getLsbD_eq fun i hi => ?_
  rw [BitVec.getLsbD_extractLsb', getLsbD_statusWord s (by omega)]
  interval_cases i <;> rfl

/-- Settles O6: the two tables of codes, then the fields of the word read off its bits. -/
theorem statusBits : Obligations.StatusBits := by
  refine ⟨rfl, rfl, fun s => ?_⟩
  have bit := fun (i : Nat) (hi : i < 32) => getLsbD_statusWord s hi
  exact ⟨bit 0 (by decide), bit 1 (by decide), statusWord_mode s, bit 4 (by decide), bit 5 (by decide),
    bit 6 (by decide), bit 7 (by decide), statusWord_err s, bit 16 (by decide), statusWord_reserved s⟩

/-- FLASH_INFO holds a family code, or 0 (30_encoding.md R114). -/
theorem flashInfo_reserved {s : State} (h : s.ChipShown) : s.flashInfo.extractLsb' 3 29 = 0 := by
  have hf : ∀ f : Family, (familyCode f).extractLsb' 3 29 = 0 := by intro f; cases f <;> decide
  unfold State.ChipShown at h
  split at h
  · obtain ⟨-, hi, -⟩ := h
    rw [hi]; rfl
  · obtain ⟨-, hi, -⟩ := h
    rw [hi]; exact hf _

/-- The reserved fields of CONFIG read 0 (30_encoding.md R91). -/
theorem configWord_reserved (s : State) : s.configWord &&& 0xFFFFF0C0 = 0 := by
  have hm : configMask &&& 0xFFFFF0C0 = 0 := by decide
  unfold State.configWord
  rw [BitVec.and_assoc, hm]
  exact BitVec.and_zero

theorem setWidth_reserved (t : BitVec 16) : (t.setWidth 32).extractLsb' 16 16 = 0 := by
  ext i hi
  simp

/-! ### Writes -/

/-- A write where there is no register, or at a read-only one, is ignored. -/
theorem hostWrite_ignored {a : Word} (hw : a ∉ writableOffsets) (hc : a ≠ 0x08) (hs : a ≠ 0x18) (v : Word) (s : State) :
    hostWrite a v s = .next s := by
  cases h : regAt a with
  | none => exact hostWrite_none h v s
  | some r =>
    obtain rfl := regOffset_of_regAt h
    cases r with
    | config | tckDelay | addr | data | len | blockSel => exact absurd (by decide) hw
    | cmd => exact absurd rfl hc
    | status => exact absurd rfl hs
    | _ => rfl

/-- A write to CONFIG or to an operand register while idle. -/
theorem step_writeIdle {s : State} {r : Reg} {v : Word} {q : List HostAction} {write : State → State} (hr : r ≠ .cmd)
    (hw : ∀ t : State, t.writeReg r v = t.whenIdle write) (hb : s.busy = false) {a : Word} (ha : a = regOffset r)
    (h : s.hostQueue = .write a v :: q) : step s = .next (write { s with hostQueue := q }) := by
  subst ha
  rw [step_writeReg hr h, hw]
  exact congrArg Host.Outcome.next (whenIdle_idle write (s := { s with hostQueue := q }) hb)

/-- Settles O7: a read changes the host's own word only, and each reserved field is 0 in the word it takes; a write goes
by the register at its offset, or is ignored where no writable one stands. -/
theorem hostAccessRules : Obligations.HostAccessRules := by
  refine ⟨fun s a q h => ⟨_, step_read h, ?_, ?_, ?_, ?_, ?_⟩, fun s a v q h hw hc hs => ?_, fun s v q h => ?_,
    fun s v q h hb => ?_⟩
  · exact fun hw hr hc hs => readOffset_none (regAt_none hw hr hc hs)
  · rintro rfl
    exact configWord_reserved s
  · rintro rfl
    exact statusWord_reserved s
  · rintro rfl
    exact setWidth_reserved _
  · rintro rfl ⟨-, -, -, -, -, hchip, -⟩
    exact flashInfo_reserved hchip
  · rw [step_write h, hostWrite_ignored hw hc hs]
  · exact step_writeReg (r := .status) nofun h
  · exact step_writeIdle (r := .config) nofun (fun _ => rfl) hb rfl h

/-- Settles O8: each of the five registers is written by the one rule for writes while idle. -/
theorem operandWrites : Obligations.OperandWrites := by
  intro s a v q h hb
  exact ⟨fun ha => step_writeIdle (r := .tckDelay) nofun (fun _ => rfl) hb ha h,
    fun ha => step_writeIdle (r := .addr) nofun (fun _ => rfl) hb ha h,
    fun ha => step_writeIdle (r := .data) nofun (fun _ => rfl) hb ha h,
    fun ha => step_writeIdle (r := .len) nofun (fun _ => rfl) hb ha h,
    fun ha => step_writeIdle (r := .blockSel) nofun (fun _ => rfl) hb ha h⟩

/-! ### Reset (10_state.md R55, 70_reset_and_hazards.md R300) -/

/-- Settles O11: a served power-on reset is `State.powerOn`, which is the state of R300. -/
theorem powerOnReset : Obligations.PowerOnReset := fun _ _ h => step_powerOn h

/-- Settles O10: the values stand in State.reset, and power-on reset leaves the trace and clears CLOCK_COUNT. -/
theorem resetValues : Obligations.ResetValues := by
  iterate 38 refine ⟨rfl, ?_⟩
  exact fun s q h => ⟨_, step_powerOn h, rfl, rfl⟩

/-! ### Pace (log entry 6) -/

theorem drive_add (m n : Nat) (s : State) : drive (m + n) s = drive n (drive m s) := by
  induction m generalizing s with
  | zero => rw [Nat.zero_add, drive_zero]
  | succ m ih =>
    cases hb : s.busy with
    | true => rw [Nat.add_right_comm, drive_busy _ s hb, drive_busy m s hb, ih]
    | false => rw [drive_idle _ s hb, drive_idle _ s hb, drive_idle _ s hb]

/-- Settles O12: runs compose, and a step with an empty queue is a run of one pace. -/
theorem paceDoesNotMatter : Obligations.PaceDoesNotMatter := ⟨drive_add, fun _ => step_resume⟩

/-! ### Command words (30_encoding.md R92 to R97) -/

/-- A word with a reserved field of 0 is made of its opcode and its argument. -/
theorem commandWord_fields {w : Word} (h : resField w = 0) : commandWord (opField w) (argField w) = w := by
  refine BitVec.eq_of_getLsbD_eq fun i hi => ?_
  have hb : (resField w).getLsbD (i - 12) = false := by rw [h]; simp
  simp only [resField, BitVec.getLsbD_extractLsb'] at hb
  simp only [commandWord, opField, argField, BitVec.getLsbD_or, BitVec.getLsbD_setWidth, BitVec.getLsbD_shiftLeft,
    BitVec.getLsbD_extractLsb', Nat.zero_add]
  obtain h8 | ⟨h8, h12⟩ | h12 : i < 8 ∨ (8 ≤ i ∧ i < 12) ∨ 12 ≤ i := by omega
  · simp [hi, h8]
  · have e : 8 + (i - 8) = i := by omega
    have h4 : i - 8 < 4 := by omega
    have h32 : i - 8 < 32 := by omega
    simp [hi, Nat.not_lt.2 h8, h4, h32, e]
  · have e : 12 + (i - 12) = i := by omega
    have h20 : i - 12 < 20 := by omega
    have h4 : ¬ i - 8 < 4 := by omega
    have h8 : ¬ i < 8 := by omega
    simp only [e, h20, decide_true, Bool.true_and] at hb
    simp [h8, h4, hb]
theorem clockArg_bits : ∀ a : BitVec 4, a.getLsbD 3 = false →
    clockArg (a.getLsbD 0) (a.getLsbD 1) (a.getLsbD 2) = a := by decide

theorem encode_plainRows : ∀ p ∈ plainRows, encode p.2 = commandWord p.1 0 := by decide

/-- The encoding of the command a word decodes to is the word. -/
theorem encode_of_decode {w : Word} {i : Instr} (h : decode w = .ok i) : encode i = w := by
  unfold decode at h
  split at h
  · cases h
  next hres =>
  have hw : commandWord (opField w) (argField w) = w := commandWord_fields (not_not.1 hres)
  split at h
  next hop =>
    split at h
    · cases h
    next h3 =>
    cases h
    show commandWord opClock _ = w
    rw [clockArg_bits _ (Bool.eq_false_iff.2 h3), ← hop, hw]
  split at h
  next hop =>
    split at h
    · cases h
      show commandWord opSelectArea _ = w
      rw [← hop, hw]
    · cases h
  split at h
  · cases h
  next i' hrow =>
  split at h
  next harg =>
    cases h
    obtain ⟨l₁, l₂, hl, -⟩ := List.lookup_eq_some_iff.1 hrow
    have hi := encode_plainRows (opField w, i) (by rw [hl]; simp)
    rw [← hw, harg]
    exact hi
  · cases h

/-! ### CMD (10_state.md R24) -/

theorem illegalCommand_idle (w : Word) {s : State} (h : s.busy = false) :
    illegalCommand w s = .next (s.accept w).endInvalid := command_idle w _ h

/-- A command met while BUSY is dropped. -/
theorem exec_busy (i : Instr) {s : State} (h : s.busy = true) : exec i s = .next { s with overrun := true } := by
  have hcmd := fun (w : Word) (body : State → Answer) => command_busy w body h
  cases i with
  | flashSelectArea area =>
    show execFlashSelectArea area s = _
    unfold execFlashSelectArea
    split
    · exact hcmd _ _
    · exact hcmd _ _
  | init =>
    show execInit s = _
    unfold execInit
    exact hcmd _ _
  | _ => exact hcmd _ _

theorem commandWrite_busy (w : Word) {s : State} (h : s.busy = true) :
    commandWrite w s = .next { s with overrun := true } := by
  unfold commandWrite
  split
  · exact exec_busy _ h
  · exact command_busy _ _ h

/-- CMD and OVERRUN, which no task writes. -/
def SameCommand (s t : State) : Prop := t.cmd = s.cmd ∧ t.overrun = s.overrun

theorem SameCommand.trans {s t u : State} (h₁ : SameCommand s t) (h₂ : SameCommand t u) : SameCommand s u :=
  ⟨h₂.1.trans h₁.1, h₂.2.trans h₁.2⟩

theorem drive_sameCommand (n : Nat) (s : State) : SameCommand s (drive n s) :=
  drive_keeps (P := SameCommand s) (fun _ h => h) (fun _ _ _ _ h _ _ he => h.trans he.cmd_overrun) n ⟨rfl, rfl⟩

theorem Ran.sameCommand {i : Instr} {s t : State} (h : Ran i s t) : SameCommand s t := by
  cases h with
  | error e => exact (effect_raise .setResult s e).cmd_overrun
  | invalid => exact ⟨rfl, rfl⟩
  | @tasks u ts n hp ht =>
    have hu : SameCommand s { u with cont := ts } := by cases hp <;> exact ⟨rfl, rfl⟩
    exact hu.trans (drive_sameCommand n _)

/-- A command accepted while idle leaves its word in CMD, and OVERRUN as it was. -/
theorem exec_cmd (i : Instr) {s t : State} (hb : s.busy = false) (h : exec i s = .next t) :
    t.cmd = encode i ∧ t.overrun = s.overrun := by
  rcases exec_commanded i h with ⟨hb', -⟩ | ⟨-, hr⟩
  · rw [hb] at hb'; cases hb'
  · exact hr.sameCommand

theorem commandWrite_cmd {w : Word} {s t : State} (hb : s.busy = false) (h : commandWrite w s = .next t) :
    t.cmd = w ∧ t.overrun = s.overrun := by
  unfold commandWrite at h
  split at h
  · next i hd => exact encode_of_decode hd ▸ exec_cmd i hb h
  · rw [illegalCommand_idle w hb] at h
    cases h
    exact ⟨rfl, rfl⟩

theorem commandWrite_ok {w : Word} {i : Instr} (h : decode w = .ok i) (s : State) : commandWrite w s = exec i s := by
  unfold commandWrite
  rw [h]

/-- The registers at the writable offsets: CONFIG and the five operand registers. -/
def writableRegs : List Reg := [.config, .tckDelay, .addr, .data, .len, .blockSel]

theorem writableOffsets_eq : writableOffsets = writableRegs.map regOffset := rfl

/-- A write to CONFIG or to an operand register while BUSY is dropped. -/
theorem writeReg_busy {r : Reg} (hr : r ∈ writableRegs) (v : Word) {s : State} (hb : s.busy = true) :
    s.writeReg r v = { s with overrun := true } := by
  cases r with
  | config | tckDelay | addr | data | len | blockSel => simp only [State.writeReg, whenIdle_busy _ hb]
  | _ => exact absurd hr (by decide)

theorem step_writeBusy {s : State} {a v : Word} {q : List HostAction} (h : s.hostQueue = .write a v :: q)
    (hb : s.busy = true) (ha : a ∈ writableOffsets) : step s = .next { s with hostQueue := q, overrun := true } := by
  rw [writableOffsets_eq] at ha
  obtain ⟨r, hr, rfl⟩ := List.mem_map.1 ha
  rw [step_writeReg (by rintro rfl; exact absurd hr (by decide)) h]
  exact congrArg Host.Outcome.next (writeReg_busy hr v (s := { s with hostQueue := q }) hb)

/-- Settles O9: while BUSY a write is dropped; while idle a word in CMD is accepted, and no task of its command writes
CMD or OVERRUN. -/
theorem busyDropsWrites : Obligations.BusyDropsWrites := by
  refine ⟨fun i s hb => exec_busy i hb, fun s a v q h hb ha => ?_, fun s t w i q h hb hd => ?_,
    fun s t w q h hb _ hn => ?_, fun s q h => step_read h, rfl⟩
  · rcases ha with rfl | ha
    · exact (step_writeCmd h).trans (commandWrite_busy v (s := { s with hostQueue := q }) hb)
    · exact step_writeBusy h hb ha
  · have hs := step_writeCmd h
    exact ⟨hs.trans (commandWrite_ok hd _), fun hn => commandWrite_cmd (s := { s with hostQueue := q }) hb (hs ▸ hn)⟩
  · have hs := step_writeCmd h
    exact commandWrite_cmd (s := { s with hostQueue := q }) hb (hs ▸ hn)

end Sys2Proof.Machine
end

section
/-! Access commands: a fast DMA access from its acceptance to its end, and every access that meets a shift whose
preconditions do not hold. -/

namespace Sys2Proof.Machine

/-! ### Fast DMA (42_transaction.md R178) -/

/-- Settles O25: the command leads to its DMA access, the access takes its fast pass, and a read's RESULT is written
before the end. -/
theorem fastDmaAccess : Obligations.FastDmaAccess := by
  intro i x s hi hr hs hf ha hp
  obtain ⟨k, he, h0⟩ := exec_access hi nofun hr ha
  have h1 := reaches_dma_ok (s := s.accept (encode i)) rfl hs x .fast (tailOf x) rfl rfl
    ((accept_allows _ _ _ _).2 hf)
  rw [accept_access] at h1
  have h2 := reaches_tail x (encode i) (s.access x .fast)
  rw [he, drive_of_reaches ((h0.trans h1).trans h2) rfl hp]
  rfl

/-! ### A shift that cannot be made (40_tap.md R138) -/

/-- The two preconditions and their errors are of the TAP and of CONFIG. -/
theorem shiftable_congr {s t : State} (hio : t.io = s.io) (hc : t.config = s.config) :
    (t.Shiftable ↔ s.Shiftable) ∧ t.shiftError = s.shiftError := by
  have hlegal : t.irLengthLegal = s.irLengthLegal := by
    unfold State.irLengthLegal State.irLength
    rw [hc]
  unfold State.Shiftable State.shiftError State.configWord
  rw [hlegal, hio, hc]
  exact ⟨Iff.rfl, rfl⟩

/-- The instruction-register shift at the head of an access, in a state `t` with the TAP and the CONFIG of `s`. -/
theorem reaches_setIr_unshiftable {s t : State} (hb : t.busy = true) (hio : t.io = s.io) (hc : t.config = s.config)
    (hs : ¬ s.Shiftable) (ir : Word) {l k : List Task} (hl : enclosingArea l = enclosingArea k) :
    Reaches 1 { t with cont := .setIr ir :: l } (State.raise s.shiftError { t with cont := k }) := by
  obtain ⟨hiff, he⟩ := shiftable_congr (t := { t with cont := l }) hio hc
  have h := reaches_cont hb (.setIr ir) l
  have hraise : runTask (.setIr ir) { t with cont := l } = State.raise s.shiftError { t with cont := k } := by
    rw [← raise_cont _ t (shiftError_code s) hl, ← he]
    exact setInstruction_raise ir _ (mt hiff.1 hs)
  rwa [hraise] at h

/-- A DMA access, fast or careful and whatever the session's mode, has loaded the retry counter when it comes to its
first shift (10_state.md R46). -/
theorem reaches_dma_unshiftable {s : State} (hb : s.busy = true) (hs : ¬ s.Shiftable) (x : Act) {k : List Task} :
    Reaches 3 { s with cont := dmaTask x :: k } (State.raise s.shiftError { s with retries := 16, cont := k }) := by
  have h1 := reaches_cont hb (dmaTask x) k
  have stops := fun (l : List Task) (hl : enclosingArea l = enclosingArea k) =>
    reaches_setIr_unshiftable (t := { s with retries := 16 }) hb rfl rfl hs s.ejtag.irAddress hl
  by_cases hf : s.fast = true
  · obtain ⟨l, hl, hl'⟩ : ∃ l, runTask (dmaTask x) { s with cont := k } =
        { s with retries := 16, cont := .setIr s.ejtag.irAddress :: l } ∧ enclosingArea l = enclosingArea k := by
      cases x <;> exact ⟨_, if_pos hf, rfl⟩
    rw [hl] at h1
    exact Reaches.mono (h1.trans (stops l hl')) (by decide)
  · have hcareful : runTask (dmaTask x) { s with cont := k } = { s with retries := 16, cont := attemptTask x :: k } := by
      cases x <;> exact if_neg hf
    obtain ⟨l, hl, hl'⟩ : ∃ l, runTask (attemptTask x) { s with retries := 16, cont := k } =
        { s with retries := 16, cont := .setIr s.ejtag.irAddress :: l } ∧ enclosingArea l = enclosingArea k := by
      cases x <;> exact ⟨_, rfl, rfl⟩
    have h2 := reaches_cont (s := { s with retries := 16 }) hb (attemptTask x) k
    rw [hcareful] at h1
    rw [hl] at h2
    exact (h1.trans h2).trans (stops l hl')

/-- A Processor Access, whatever the session's mode, has loaded its mailboxes and cleared the hit counter when it comes
to its first shift (42_transaction.md R197). -/
theorem reaches_pracc_unshiftable {s : State} (hb : s.busy = true) (hs : ¬ s.Shiftable) (x : Act) {k : List Task} :
    Reaches 4 { s with cont := praccTask x :: k } (State.raise s.shiftError { s with
      mboxAddr := (s.loadMail x).addr, mboxData := (s.loadMail x).data, hits := 0, cont := k }) := by
  have h1 := reaches_cont hb (praccTask x) k
  obtain ⟨l, hl, hl'⟩ : ∃ l, runTask (praccTask x) { s with cont := k } =
      { s with
        mboxAddr := (s.loadMail x).addr, mboxData := (s.loadMail x).data, cont := .runModule x.module :: l } ∧
      enclosingArea l = enclosingArea k := by
    cases x <;> exact ⟨_, rfl, rfl⟩
  rw [hl] at h1
  have h2 := reaches_cont (s := { s with mboxAddr := (s.loadMail x).addr, mboxData := (s.loadMail x).data }) hb
    (.runModule x.module) l
  have h3 := reaches_cont
    (s := { s with mboxAddr := (s.loadMail x).addr, mboxData := (s.loadMail x).data, hits := 0 }) hb
    (.moduleLoop x.module) l
  have h4 := reaches_setIr_unshiftable
    (t := { s with mboxAddr := (s.loadMail x).addr, mboxData := (s.loadMail x).data, hits := 0 }) hb rfl rfl hs
    s.ejtag.irControl (l := .praccPoll x.module :: l) hl'
  exact ((h1.trans h2).trans h3).trans h4

/-- An access command whose access ends so, in the state `t`, fails there. -/
theorem exec_unshiftable {i : Instr} {x : Act} {m : Mode} {s t : State} {n : Nat} (hi : s.accessOf i = some (x, m))
    (hm : m ≠ .none) (hr : s.Ready) (ha : misaligned x.addr x.width = false) (hn : n + 1 ≤ s.pace)
    (h : Reaches n { s.accept (encode i) with cont := pathTask m x :: tailOf x }
      (State.raise s.shiftError { t.accept (encode i) with cont := tailOf x })) :
    exec i s = .next (t.failed i s.shiftError) := by
  obtain ⟨k, he, h0⟩ := exec_access hi hm hr ha
  have hk : enclosingArea (tailOf x) = none := by cases x <;> rfl
  rw [raise_end _ (shiftError_code s) _ _ hk] at h
  rw [he, drive_of_reaches (h0.trans h) rfl (by omega)]
  rfl

/-! ### The first access of a flash command -/

/-- Operations reach a state where no shift can be made only at their first write: nothing has changed yet. -/
theorem reached_unshiftable {s : State} {ops : List Op} {r : Reach} (h : s.ReachGoes ops r)
    (hs : ¬ (s.reached r).Shiftable) : s.reached r = s := by
  obtain ⟨-, hrun, -, hnext⟩ := h
  unfold State.reached at hs ⊢
  cases hn : r.next with
  | write a v =>
    rw [hn] at hs
    rcases hrun with hsh | hnil
    · exact absurd (opsRun_shiftable _ hsh) hs
    · simp only [hnil]
      rfl
  | poll a cond =>
    rw [hn] at hs hnext
    exact absurd (drawn_shiftable 1 (polled_shiftable a _ (opsRun_shiftable _ hnext.1))) hs

theorem attemptComes_shiftable {s t : State} {k : Attempt} {r : AttemptRun} {x : Act}
    (h : s.AttemptComes k r x t) (hs : s.Shiftable) : t.Shiftable := by
  cases h with
  | vendor => exact opsRun_shiftable _ hs
  | device => exact shiftable_afterVendor k r hs
  | extended => exact shiftable_afterDevice k r hs
  | reset => exact shiftable_afterIds k r hs

/-- A probe comes to an attempt where no shift can be made only at its first one. -/
theorem probeComes_unshiftable {s t : State} {misses : List AttemptRun} {k : Attempt} (h : s.ProbeComes misses k t)
    (hs : ¬ t.Shiftable) : t = s.unprobed := by
  obtain ⟨-, -, -, hkeep⟩ := reaches_probeComes misses k h 0
  obtain ⟨-, hnil | hsh, -, -, last, hrun⟩ := h
  · rw [hnil] at hrun
    exact (congrArg Prod.fst hrun).symm
  · exact absurd (hkeep hsh) hs

/-- A flash command comes to an access where no shift can be made only at its first access: the session, the TAP and
CONFIG are those it began with. -/
theorem comesTo_unshiftable {i : Instr} {n : Nat} {x : Act} {s t : State} (h : s.ComesTo i n x t)
    (hs : ¬ t.Shiftable) : t.mode = s.mode ∧ t.shiftError = s.shiftError := by
  cases h with
  | resetRead c hc => exact ⟨rfl, rfl⟩
  | eraseBlock c r hc ha hg =>
    rw [reached_unshiftable hg hs]
    exact ⟨rfl, rfl⟩
  | writeWord c r hc ha hg =>
    rw [reached_unshiftable hg hs]
    exact ⟨rfl, rfl⟩
  | probeEnter misses k t r hp hg =>
    have ht := reached_unshiftable hg hs
    rw [ht] at hs ⊢
    rw [probeComes_unshiftable hp hs]
    exact ⟨rfl, rfl⟩
  | probeIds misses k t r x u hsh hp hg =>
    obtain ⟨-, -, -, hkeep⟩ := reaches_probeComes misses k hp 0
    exact absurd (attemptComes_shiftable hg (hkeep hsh)) hs

/-- Settles O24: a flash command by the stop of its first access, an access command by the path of its access. -/
theorem accessPreconditions : Obligations.AccessPreconditions := by
  refine ⟨fun i n x s t hr hm h hp ha hs => ?_, fun i x m s hi hr hp ha hs => ⟨?_, ?_⟩⟩
  · obtain ⟨hmode, herr⟩ := comesTo_unshiftable h hs
    rw [exec_stops (stop := .unshiftable) hr hm h ⟨hmode ▸ hm, ha, hs⟩ hp]
    show Host.Outcome.next ((t.beforeShift x).failed i t.shiftError) = _
    rw [herr]
    unfold State.beforeShift
    rw [hmode]
    cases hsm : s.mode with
    | none => exact absurd hsm hm
    | dma => rfl
    | pracc => rfl
  · rintro rfl
    refine exec_unshiftable (t := { s with retries := 16 }) (n := 3) hi nofun hr ha (by omega) ?_
    exact reaches_dma_unshiftable (s := s.accept (encode i)) rfl hs x
  · rintro rfl
    refine exec_unshiftable (t := { s with
      mboxAddr := (s.loadMail x).addr, mboxData := (s.loadMail x).data, hits := 0 }) (n := 4) hi nofun hr ha hp ?_
    have h := reaches_pracc_unshiftable (s := s.accept (encode i)) rfl hs x (k := tailOf x)
    cases x <;> exact h

end Sys2Proof.Machine
end

section
/-! Alignment (20_memory.md R68, 42_transaction.md R171): which addresses are misaligned, and how a command whose first
task finds its address misaligned ends. -/

namespace Sys2Proof.Machine

/-! ### Misaligned addresses -/

theorem aligned_half_iff (a : Word) : misaligned a .half = false ↔ a.extractLsb' 0 1 = 0 := by
  simp [misaligned, BitVec.eq_of_getLsbD_eq_iff]

theorem aligned_word_iff (a : Word) : misaligned a .word = false ↔ a.extractLsb' 0 2 = 0 := by
  simp [misaligned, BitVec.eq_of_getLsbD_eq_iff, Nat.le_one_iff_eq_zero_or_eq_one]

theorem misaligned_half_iff (a : Word) : misaligned a .half = true ↔ a.extractLsb' 0 1 ≠ 0 := by
  rw [Ne, ← aligned_half_iff, Bool.not_eq_false]

theorem misaligned_word_iff (a : Word) : misaligned a .word = true ↔ a.extractLsb' 0 2 ≠ 0 := by
  rw [Ne, ← aligned_word_iff, Bool.not_eq_false]

/-- The explicit check of a command that takes one path whatever the session's mode (R171). -/
theorem checkAlign_misaligned {a : Word} {w : Width} (v : Word) (s : State) (ha : misaligned a w = true) :
    runTask (.checkAlign a w v) s = s.raise (misalignedError a v) := if_pos ha

theorem eraseBlock_misaligned {s : State} {c : FlashDescriptor} (hc : s.chip = some c) {b : Word}
    (hb : misaligned b .half = true) : runTask (.eraseBlock b) s = s.raise (misalignedError b 0) := by
  show s.eraseBlock b = _
  unfold State.eraseBlock
  rw [hc]
  exact if_pos hb

theorem writeFlash_misaligned {s : State} {c : FlashDescriptor} (hc : s.chip = some c) {a : Word} (v : Word)
    (ha : misaligned a .word = true) : runTask (.writeFlash a v) s = s.raise (misalignedError a v) := by
  show s.writeFlash a v = _
  unfold State.writeFlash
  rw [hc]
  exact if_pos ha

/-! ### Commands whose first task finds the address misaligned -/

/-- An access command starts with an access by MODE, or with the check of its address; the tasks after it hold no erase
area. -/
theorem exec_access_first {i : Instr} {x : Act} {m : Mode} {s : State} (hi : s.accessOf i = some (x, m))
    (hm : m ≠ .none) (hr : s.Ready) :
    ∃ t l, exec i s = .next (drive s.pace { s.accept (encode i) with cont := t :: l }) ∧ enclosingArea l = none ∧
      (t = memTask x ∨ t = .checkAlign x.addr x.width x.operand) := by
  have opened (w : Word) (body : State → Answer) : command w (whenOpen body) s = body (s.accept w) :=
    (command_idle w _ hr.1).trans (whenOpen_open body hr.2)
  cases i with
  | readWord | readHalf | writeWord | writeHalf =>
    cases hi
    exact ⟨_, _, (opened _ _).trans (whenModed_moded _ hm), rfl, .inl rfl⟩
  | dmaReadWord | dmaReadHalf | dmaWriteWord | dmaWriteHalf
  | praccReadWord | praccReadHalf | praccWriteWord | praccWriteHalf =>
    cases hi
    exact ⟨_, _, opened _ _, rfl, .inr rfl⟩
  | _ => cases hi

/-- A command whose first task raises MISALIGNED has changed nothing but what it wrote before it started its tasks. -/
theorem exec_first_misaligned {i : Instr} {s t : State} {first : Task} {l : List Task} {a v : Word}
    (he : exec i s = .next (drive s.pace { t.accept (encode i) with cont := first :: l }))
    (hl : enclosingArea l = none) (hp : 1 ≤ s.pace)
    (hf : runTask first { t.accept (encode i) with cont := l } =
      State.raise (misalignedError a v) { t.accept (encode i) with cont := l }) :
    exec i s = .next (t.failed i (misalignedError a v)) := by
  have hcode : (misalignedError a v).code ≠ .transactionCorrupted := by simp [misalignedError]
  have h := reaches_cont (s := t.accept (encode i)) rfl first l
  rw [hf, raise_end _ hcode _ _ hl] at h
  rw [he, drive_of_reaches h rfl hp]
  rfl

/-- Settles O23: the twelve access commands, FLASH_ERASE_BLOCK and FLASH_WRITE_WORD by their first task, an access that
a flash command comes to by the way it stops. -/
theorem misalignedAccess : Obligations.MisalignedAccess := by
  refine ⟨fun a => ⟨misaligned_word_iff a, misaligned_half_iff a⟩, ?access, ?comes, ?flash⟩
  case access =>
    intro i x m s hi hm hr hp ha
    obtain ⟨first, l, he, hl, hfirst⟩ := exec_access_first hi hm hr
    refine exec_first_misaligned (t := s) (v := x.operand) he hl hp ?_
    rcases hfirst with rfl | rfl
    · exact memTask_misaligned x l ha
    · exact checkAlign_misaligned _ _ ha
  case comes =>
    intro i n x s t hr hm h hp ha
    exact exec_stops (stop := .misaligned) hr hm h ha hp
  case flash =>
    intro c s hr hm hc hp
    refine ⟨fun ha => ?_, fun ha => ?_⟩
    · exact exec_first_misaligned (t := { s with progress := s.addr }) (flash_launch hr hm hc rfl rfl) rfl hp
        (eraseBlock_misaligned (by exact hc) ha)
    · exact exec_first_misaligned (t := s) (flash_launch hr hm hc rfl rfl) rfl hp
        (writeFlash_misaligned (by exact hc) _ ((Bool.or_eq_true _ _).mpr ha))

end Sys2Proof.Machine
end

section
/-! Half-words of the reference target's memory (20_memory.md R60), from the rules of its bytes. -/

namespace Sys2Proof.Machine

theorem toNat_succ_ne (a : Word) : (a + 1).toNat ≠ a.toNat := by
  bv_omega

theorem half_of_bytes (v : Half) : v.extractLsb' 8 8 ++ v.extractLsb' 0 8 = v :=
  (BitVec.extractLsb'_append_extractLsb'_eq_extractLsb' (start₁ := 0) (start₂ := 8) rfl).trans
    BitVec.extractLsb'_eq_self

section
variable (u : Byte) {m : List Host.Cell} (a : Word) (v : Half) (h : memoryWf u m = true)
include h

theorem memoryWriteHalf_wf : memoryWf u (memoryWriteHalf u m a v) = true :=
  memoryWrite_wf u _ _ _ (memoryWrite_wf u m _ _ h)

theorem memoryRead_writeHalf_high : memoryRead u (memoryWriteHalf u m a v) (a + 1).toNat = v.extractLsb' 8 8 :=
  memoryRead_write u _ _ _ (memoryWrite_wf u m _ _ h)

/-- Any byte but the higher one is as the write of the lower one left it. -/
theorem memoryRead_writeHalf_ne_high {b : Nat} (hb : b ≠ (a + 1).toNat) :
    memoryRead u (memoryWriteHalf u m a v) b = memoryRead u (memoryWrite u m a.toNat (v.extractLsb' 0 8)) b :=
  memoryRead_write_ne u _ _ _ _ hb (memoryWrite_wf u m _ _ h)

theorem memoryRead_writeHalf_low : memoryRead u (memoryWriteHalf u m a v) a.toNat = v.extractLsb' 0 8 := by
  rw [memoryRead_writeHalf_ne_high u a v h (toNat_succ_ne a).symm, memoryRead_write u m _ _ h]

theorem memoryReadHalf_writeHalf : memoryReadHalf u (memoryWriteHalf u m a v) a = v := by
  unfold memoryReadHalf
  rw [memoryRead_writeHalf_high u a v h, memoryRead_writeHalf_low u a v h, half_of_bytes]

theorem memoryRead_writeHalf_ne {b : Nat} (hlow : b ≠ a.toNat) (hhigh : b ≠ (a + 1).toNat) :
    memoryRead u (memoryWriteHalf u m a v) b = memoryRead u m b := by
  rw [memoryRead_writeHalf_ne_high u a v h hhigh, memoryRead_write_ne u m _ _ _ hlow h]

end

/-- Settles O60: a half-word write is the write of its lower byte, then of its higher one, at another address. -/
theorem targetMemory : Obligations.TargetMemory := fun u _ a v h =>
  ⟨memoryWriteHalf_wf u a v h, memoryReadHalf_writeHalf u a v h, memoryRead_writeHalf_low u a v h,
    fun _ hlow hhigh => memoryRead_writeHalf_ne u a v h hlow hhigh⟩

end Sys2Proof.Machine
end

section
/-! The decoder, said once: a word decodes to a command when its reserved field is 0 and its opcode and argument stand
in a row of the opcode map (30_encoding.md R92 to R97). The statements about command words follow from that. -/

namespace Sys2Proof.Machine
open Sys2Proof.Laws

/-! ### Rows of the opcode map (30_encoding.md R93, R96, R97) -/

/-- The command of an opcode and an argument. -/
inductive CommandRow : Byte → BitVec 4 → Instr → Prop where
  | clock {arg : BitVec 4} (h : arg.getLsbD 3 = false) :
      CommandRow opClock arg (.clock (arg.getLsbD 0) (arg.getLsbD 1) (arg.getLsbD 2))
  | selectArea {arg : BitVec 4} (h : arg ≤ customArea) : CommandRow opSelectArea arg (.flashSelectArea arg)
  | plain {op : Byte} {i : Instr} (h : (op, i) ∈ plainRows) : CommandRow op 0 i

theorem plainRows_lookup : ∀ p ∈ plainRows, plainRows.lookup p.1 = some p.2 := by decide

theorem plainRows_mem_of_lookup {op : Byte} {i : Instr} (h : plainRows.lookup op = some i) : (op, i) ∈ plainRows := by
  obtain ⟨l₁, l₂, hl, -⟩ := List.lookup_eq_some_iff.1 h
  rw [hl]
  simp

theorem plainRows_opcode : ∀ p ∈ plainRows, p.1 ≠ opClock ∧ p.1 ≠ opSelectArea := by decide

theorem plainRows_wf : ∀ p ∈ plainRows, p.2.wf = true := by decide

theorem CommandRow.wf {op : Byte} {arg : BitVec 4} {i : Instr} (h : CommandRow op arg i) : i.wf = true := by
  cases h with
  | clock => rfl
  | selectArea h => exact decide_eq_true h
  | plain h => exact plainRows_wf _ h

/-- A word decodes to the command of its row; there is one only if its reserved field is 0 (R95). -/
theorem decode_eq_ok_iff {w : Word} {i : Instr} :
    decode w = .ok i ↔ resField w = 0 ∧ CommandRow (opField w) (argField w) i := by
  constructor
  · intro h
    unfold decode at h
    split at h
    · cases h
    next hres =>
    refine ⟨not_not.1 hres, ?_⟩
    split at h
    next hop =>
      split at h
      · cases h
      next h3 =>
      cases h
      exact hop ▸ .clock (Bool.eq_false_iff.2 h3)
    split at h
    next hop =>
      split at h
      next harea =>
        cases h
        exact hop ▸ .selectArea harea
      · cases h
    split at h
    · cases h
    next hrow =>
    split at h
    next harg =>
      cases h
      exact harg ▸ .plain (plainRows_mem_of_lookup hrow)
    · cases h
  · rintro ⟨hres, hrow⟩
    unfold decode
    rw [if_neg (not_not.2 hres)]
    generalize opField w = op, argField w = arg at hrow
    cases hrow with
    | clock h => rw [if_pos rfl, if_neg (Bool.eq_false_iff.1 h)]
    | selectArea h => rw [if_neg (by decide), if_pos rfl, if_pos h]
    | plain h =>
      obtain ⟨hclock, harea⟩ := plainRows_opcode _ h
      rw [if_neg hclock, if_neg harea, plainRows_lookup _ h]
      rfl

/-! ### Decoding and encoding -/

theorem encode_fields (i : Instr) : EncodeFields.Statement i := by
  cases i with
  | clock tms tdi sample => exact EncodeFields.clock tms tdi sample
  | flashSelectArea area => exact EncodeFields.flashSelectArea area
  | _ => exact ⟨rfl, rfl, rfl⟩

theorem clockArg_row (tms tdi sample : Bool) :
    CommandRow opClock (clockArg tms tdi sample) (.clock tms tdi sample) := by
  cases tms <;> cases tdi <;> cases sample <;> exact .clock rfl

/-- A well-formed command stands in the row of its opcode and its argument. -/
theorem commandRow_of_wf {i : Instr} (h : i.wf = true) : CommandRow (opcodeOf i) (argOf i) i := by
  cases i with
  | clock tms tdi sample => exact clockArg_row tms tdi sample
  | flashSelectArea area => exact .selectArea (of_decide_eq_true h)
  | _ => exact .plain (by decide)

theorem decode_encode {i : Instr} (h : i.wf = true) : decode (encode i) = .ok i := by
  obtain ⟨hop, harg, hres⟩ := encode_fields i
  exact decode_eq_ok_iff.2 ⟨hres, hop.symm ▸ harg.symm ▸ commandRow_of_wf h⟩

/-- Settles O1: the row of a word gives its command well-formed and its encoding back; a well-formed command stands in
the row of its own encoding. -/
theorem decodeEncodeAgree : Obligations.DecodeEncodeAgree := by
  refine fun w i => ⟨fun h => ⟨(decode_eq_ok_iff.1 h).2.wf, encode_of_decode h⟩, ?_⟩
  rintro ⟨hwf, rfl⟩
  exact decode_encode hwf

/-- Settles O3: each word is the encoding of its command. -/
theorem sampleWords : Obligations.SampleWords := by
  have h := fun w i => (decodeEncodeAgree w i).2
  exact ⟨h _ _ ⟨rfl, rfl⟩, h _ _ ⟨rfl, rfl⟩, h _ _ ⟨rfl, rfl⟩, h _ _ ⟨rfl, rfl⟩, h _ _ ⟨rfl, rfl⟩, h _ _ ⟨rfl, rfl⟩,
    h _ _ ⟨rfl, rfl⟩, h _ _ ⟨rfl, rfl⟩, h _ _ ⟨rfl, rfl⟩⟩

/-! ### Legal words (30_encoding.md R95) -/

theorem mem_opcodes_iff (op : Byte) :
    op ∈ opcodes ↔ op = opClock ∨ op = opSelectArea ∨ op ∈ plainRows.map Prod.fst := by
  have hrow : ∀ op ∈ opcodes, op = opClock ∨ op = opSelectArea ∨ op ∈ plainRows.map Prod.fst := by decide
  have hop : ∀ op ∈ opClock :: opSelectArea :: plainRows.map Prod.fst, op ∈ opcodes := by decide
  simp only [List.mem_cons] at hop
  exact ⟨hrow op, hop op⟩

/-- What `LegalWord` asks of the argument, by the opcode. -/
def LegalArg (op : Byte) (arg : BitVec 4) : Prop :=
  (op = opClock → arg.getLsbD 3 = false) ∧ (op = opSelectArea → arg ≤ customArea) ∧
    (op ≠ opClock → op ≠ opSelectArea → arg = 0)

theorem legalWord_iff (w : Word) :
    LegalWord w ↔ opField w ∈ opcodes ∧ resField w = 0 ∧ LegalArg (opField w) (argField w) := by
  have hbit : (argField w).getLsbD 3 = w.getLsbD 11 := by simp [argField]
  unfold LegalArg
  rw [hbit]
  exact Iff.rfl

theorem exists_commandRow_iff (op : Byte) (arg : BitVec 4) :
    (∃ i, CommandRow op arg i) ↔ op ∈ opcodes ∧ LegalArg op arg := by
  rw [mem_opcodes_iff]
  constructor
  · rintro ⟨i, h⟩
    cases h with
    | clock h => exact ⟨.inl rfl, fun _ => h, nofun, fun hne => absurd rfl hne⟩
    | selectArea h => exact ⟨.inr (.inl rfl), nofun, fun _ => h, fun _ hne => absurd rfl hne⟩
    | plain h =>
      obtain ⟨hclock, harea⟩ := plainRows_opcode _ h
      exact ⟨.inr (.inr (List.mem_map_of_mem h)), fun he => absurd he hclock, fun he => absurd he harea, fun _ _ => rfl⟩
  · rintro ⟨rfl | rfl | h, hclock, harea, hplain⟩
    · exact ⟨_, .clock (hclock rfl)⟩
    · exact ⟨_, .selectArea (harea rfl)⟩
    · obtain ⟨⟨op, i⟩, hi, rfl⟩ := List.mem_map.1 h
      obtain ⟨hnc, hna⟩ := plainRows_opcode _ hi
      exact ⟨i, hplain hnc hna ▸ .plain hi⟩

theorem decode_ok_iff_legalWord (w : Word) : (∃ i, decode w = .ok i) ↔ LegalWord w := by
  simp only [decode_eq_ok_iff, exists_and_left, exists_commandRow_iff, legalWord_iff]
  exact and_left_comm

/-! ### Words written to CMD (30_encoding.md R94) -/

theorem commandWrite_illegal {w : Word} (h : ¬ LegalWord w) (s : State) : commandWrite w s = illegalCommand w s := by
  unfold commandWrite
  split
  · next i hd => exact absurd ((decode_ok_iff_legalWord w).1 ⟨i, hd⟩) h
  · rfl

/-- An illegal word met while idle changes CMD, STATUS.ERR and the trace only. -/
theorem illegalCommand_eq (w : Word) {s : State} (h : s.busy = false) :
    illegalCommand w s = .next { s with
      cmd := w
      err := .invalidCommand
      cont := []
      io := { s.io with trace := .done w 5 :: s.io.trace } } := by
  rw [illegalCommand_idle w h]
  cases s
  cases h
  rfl

/-- Settles O2: the words of the rows are the legal ones, and any other word ends with INVALID_COMMAND. -/
theorem illegalWords : Obligations.IllegalWords := by
  refine ⟨decode_ok_iff_legalWord, fun w s q hw hb hq => ?_⟩
  rw [step_writeCmd hq, commandWrite_illegal hw]
  exact illegalCommand_eq w (s := { s with hostQueue := q }) hb

/-- Settles O4: a write of CMD is `commandWrite`, which runs the command its word decodes to. -/
theorem stepRunsDecoded : Obligations.StepRunsDecoded := fun _ _ _ _ hq hd =>
  (step_writeCmd hq).trans (commandWrite_ok hd _)

/-- Settles O44: a code above CUSTOM takes the arm of the illegal words. -/
theorem illegalAreaCode : Obligations.IllegalAreaCode := by
  intro area s hb harea
  have harm : exec (.flashSelectArea area) s = illegalCommand (encode (.flashSelectArea area)) s :=
    if_neg (BitVec.not_le.2 harea)
  rw [harm, illegalCommand_eq _ hb]

/-! ### Commands that need an open session (60_exceptions.md R273) -/

/-- Every well-formed command but INIT checks the session before anything else. -/
theorem exec_eq_whenOpen {i : Instr} (hi : i ≠ .init) (hw : i.wf = true) :
    ∃ body, ∀ s, exec i s = command (encode i) (whenOpen body) s := by
  cases i with
  | init => exact absurd rfl hi
  | flashSelectArea area => exact ⟨_, fun s => if_pos (of_decide_eq_true hw)⟩
  | _ => exact ⟨_, fun s => rfl⟩

/-- Settles O22: the check of the session ends the command with the word that was accepted. -/
theorem notOpen : Obligations.NotOpen := by
  intro i s hi hw hb ho
  obtain ⟨body, hexec⟩ := exec_eq_whenOpen hi hw
  rw [hexec, launch_closed hb ho, raise_accept _ ⟨.notOpen, 0, encode i⟩ nofun]
  rfl

/-- Settles O51: with the session open and its mode set, the table is what FLASH_PROBE looks at next. -/
theorem illFormedTableRefused : Obligations.IllFormedTableRefused := by
  rintro s ⟨hb, ho⟩ hm ht
  show execFlashProbe s = _
  unfold execFlashProbe
  rw [command_idle _ _ hb, whenOpen_open _ (by exact ho), whenModed_moded _ (by exact hm)]
  exact if_neg (Bool.eq_false_iff.1 ht)

end Sys2Proof.Machine
end

section
/-! Values fixed by tables: the TAP transitions, the control bytes of a clock, the parameters after reset. -/

namespace Sys2Proof.Machine

/-! ### The TAP state machine (30_encoding.md R111, 40_tap.md R130) -/

theorem tapNext1_five (t : TapState) : (List.replicate 5 true).foldl tapNext1 t = .testLogicReset := by
  cases t <;> rfl

/-- Settles O13: the codes and the rows are those of the tables, and the five transitions are followed from each
state. -/
theorem tapTransitions : Obligations.TapTransitions := ⟨rfl, by decide, tapNext1_five⟩

/-! ### Control bytes (30_encoding.md R112, 40_tap.md R132) -/

/-- A level driven at a pin stands at that pin's bit and at no other. -/
theorem getLsbD_atPin (b : Bool) (pin k : Fin 8) :
    ((BitVec.ofBool b).setWidth 8 <<< pin.val).getLsbD k.val = (b && k == pin) := by
  revert b pin k
  decide

/-- Settles O15: both bytes are levels at pins, one over the other. -/
theorem controlBytes : Obligations.ControlBytes := by
  intro p tms tdi k
  have hlow : (lowByte p tms tdi).getLsbD k.val = (tms && k == p.tms || tdi && k == p.tdi) := by
    unfold lowByte
    rw [BitVec.getLsbD_or, getLsbD_atPin, getLsbD_atPin]
  have htck : ((1 : Byte) <<< p.tck.val).getLsbD k.val = (k == p.tck) := getLsbD_atPin true p.tck k
  refine ⟨hlow, ?_⟩
  unfold highByte
  rw [BitVec.getLsbD_or, hlow, htck]

/-! ### Parameters after reset (log entry 1) -/

/-- Settles O33: State.reset carries the defaults of 00_scope.md R9, and the CONTROL words are the bits they name. -/
theorem controlWords : Obligations.ControlWords := by
  refine ⟨⟨rfl, rfl, rfl, rfl, rfl, rfl, rfl, rfl⟩, ?positions, ?codes, rfl, rfl⟩
  case positions => exact ⟨rfl, rfl, rfl, rfl, rfl, rfl, rfl, rfl, rfl, rfl, rfl⟩
  case codes => exact ⟨rfl, rfl, rfl, rfl, rfl, rfl, rfl, rfl, rfl⟩

end Sys2Proof.Machine
end

section
/-! FLASH_PROBE that finds a chip: the attempts that miss, the attempt that matches, then the end of the command at its
lookup (43_flash.md R224, R230, R232, R250). -/

namespace Sys2Proof.Machine

/-- The free values of block maps are not drawn by target traffic. -/
theorem Framed.freeDraws {s t : State} (h : Framed s t) : t.freeDraws = s.freeDraws := by
  have e := congrArg State.freeDraws h.eq; exact e

/-- Attempts that miss are target traffic from the state with no chip. -/
theorem probeComes_framed {s t : State} {misses : List AttemptRun} {k : Attempt} (h : s.ProbeComes misses k t) :
    Framed s.unprobed t := by
  obtain ⟨-, -, hf, -⟩ := reaches_probeComes misses k h 0
  exact hf

/-! ### The lookup of an attempt (43_flash.md R230, R232) -/

theorem probeLookup_overflow {s : State} {v d : Half} {e : FlashDescriptor} (k : Attempt) (n : Nat)
    (hl : lookupChip s.flashParams v d = some e) (hm : s.flashParams.maxBlocks < totalBlocks e.regions) :
    runTask (.probeLookup k n v d) s = s.raise
      ⟨.blockmapOverflow, windowBase s.flashParams e.size, BitVec.ofNat 32 (totalBlocks e.regions)⟩ := by
  show s.probeLookup k n v d = _
  unfold State.probeLookup
  rw [hl]
  exact if_pos hm

theorem probeLookup_identified {s : State} {v d : Half} {e : FlashDescriptor} (k : Attempt) (n : Nat)
    (hl : lookupChip s.flashParams v d = some e) (hm : ¬ s.flashParams.maxBlocks < totalBlocks e.regions) :
    runTask (.probeLookup k n v d) s = s.identified e v d := by
  show s.probeLookup k n v d = _
  unfold State.probeLookup
  rw [hl]
  exact if_neg hm

/-- The end of a probe whose attempt, over in the state `t`, has ids of FLASH_TABLE. -/
theorem reaches_probeFound {t : State} {v d : Half} {e : FlashDescriptor} (k : Attempt) (n : Nat)
    (hl : lookupChip t.flashParams v d = some e) :
    Reaches 2 { t.accept (encode .flashProbe) with cont := [.probeLookup k n v d] }
      (if t.flashParams.maxBlocks < totalBlocks e.regions then
        t.failed .flashProbe
          ⟨.blockmapOverflow, windowBase t.flashParams e.size, BitVec.ofNat 32 (totalBlocks e.regions)⟩
      else (t.identified e v d).ended .flashProbe .none) := by
  have h := reaches_cont (s := t.accept (encode .flashProbe)) rfl (.probeLookup k n v d) []
  split
  next hm =>
    rw [probeLookup_overflow k n (by exact hl) (by exact hm)] at h
    rw [← raise_failed _ _ t [] rfl rfl]
    exact h.mono (by decide)
  next hm =>
    rw [probeLookup_identified k n (by exact hl) (by exact hm)] at h
    exact h.trans (reaches_finish rfl rfl)

/-! ### The whole probe (43_flash.md R224, R250) -/

/-- A probe that comes to an attempt whose ids are in FLASH_TABLE ends with it. -/
theorem exec_probeFound {s t : State} {misses : List AttemptRun} {r : AttemptRun} {k : Attempt} {e : FlashDescriptor}
    (hr : s.Ready) (hm : s.mode ≠ .none) (hs : s.Shiftable) (hc : s.ProbeComes misses k t) (hg : t.AttemptGoes k r)
    (hl : lookupChip (t.afterAttempt k r).flashParams (t.vendorId k r) (t.deviceId k r) = some e)
    (hp : (misses.map (·.tasks)).sum + r.tasks + 4 ≤ s.pace) :
    exec .flashProbe s = .next (
      if (t.afterAttempt k r).flashParams.maxBlocks < totalBlocks e.regions then
        (t.afterAttempt k r).failed .flashProbe
          ⟨.blockmapOverflow, windowBase (t.afterAttempt k r).flashParams e.size,
            BitVec.ofNat 32 (totalBlocks e.regions)⟩
      else ((t.afterAttempt k r).identified e (t.vendorId k r) (t.deviceId k r)).ended .flashProbe .none) := by
  obtain ⟨n, hmisses, -, hsh⟩ := reaches_probeComes misses k hc (encode .flashProbe)
  have hattempt := reaches_probeAttempt (s := t.accept (encode .flashProbe)) rfl (hsh hs) k r n []
    ((accept_attemptGoes _ _ _ _).2 hg)
  rw [accept_afterAttempt, accept_vendorId, accept_deviceId] at hattempt
  have hrun := (hmisses.trans hattempt).trans (reaches_probeFound k n hl)
  rw [probe_start hr hm hc.1, drive_of_reaches hrun (by split <;> rfl) (by omega)]

/-- Settles O49: the attempts before the match bring the probe to it, and no attempt changes what its lookup reads of
the state with no chip. -/
theorem flashProbeFinds : Obligations.FlashProbeFinds := by
  refine ⟨rfl, ?_⟩
  rintro misses r e k last s _ t hr hs hm ht rfl hlen hmiss hrun hg hl hp
  have hc : s.ProbeComes misses k t := ⟨ht, .inr hs, hlen, hmiss, last, hrun⟩
  have hf : Framed s.unprobed (t.afterAttempt k r) := (probeComes_framed hc).trans (framed_afterAttempt k r t)
  have hparams : (t.afterAttempt k r).flashParams = s.flashParams := hf.flashParams
  have hdraws : (t.afterAttempt k r).freeDraws = s.freeDraws := hf.freeDraws
  rw [exec_probeFound hr hm hs hc hg (by rw [hparams]; exact hl) hp]
  unfold State.identified
  rw [hparams, hdraws]
  rfl

end Sys2Proof.Machine
end

section
/-! The TAP driver's commands: the tracked set of TAP states, where five clocks with TMS = 1 leave it, and each raw TAP
command and SHUTDOWN as its one or two tasks. -/

namespace Sys2Proof.Machine

/-! ### The tracked set (40_tap.md R131) -/

theorem tapCode_injective {t u : TapState} (h : tapCode t = tapCode u) : t = u := by
  have key : ∀ t ∈ allTapStates, ∀ u ∈ allTapStates, tapCode t = tapCode u → t = u := by decide
  exact key t (mem_allTapStates t) u (mem_allTapStates u) h

theorem getLsbD_tapOnly_iff (t u : TapState) : (tapOnly t).getLsbD (tapCode u) = true ↔ t = u := by
  constructor
  · intro h
    have hbit : (BitVec.twoPow 16 (tapCode t)).getLsbD (tapCode u) = true := h
    rw [BitVec.getLsbD_twoPow] at hbit
    exact tapCode_injective (of_decide_eq_true (Bool.and_elim_right hbit))
  · rintro rfl
    exact getLsbD_tapOnly_self t

/-- The tracked set after a transition is the image of the set before it. -/
theorem getLsbD_tapNext_iff (states : BitVec 16) (tms : Bool) (t : TapState) :
    (tapNext states tms).getLsbD (tapCode t) = true ↔
      ∃ u, states.getLsbD (tapCode u) = true ∧ tapNext1 u tms = t := by
  simp [getLsbD_tapNext, mem_allTapStates, getLsbD_tapOnly_iff]

/-- Settles O14: a transition takes the image, and both kinds of clock end with one transition. -/
theorem trackedSet : Obligations.TrackedSet := by
  refine ⟨getLsbD_tapNext_iff, by decide, fun w tms tdi io => ⟨?_, ?_⟩⟩
  · rw [Io.clock_eq]
    rfl
  · rw [Io.sampledClock_eq]
    rfl

/-- The tracked set after a list of clocks is the image of the set before them. -/
theorem getLsbD_tapPath_iff (cs : List Pulse) (states : BitVec 16) (t : TapState) :
    (tapPath states cs).getLsbD (tapCode t) = true ↔
      ∃ u, states.getLsbD (tapCode u) = true ∧ cs.foldl (fun v c => tapNext1 v c.tms) u = t := by
  induction cs generalizing states with
  | nil => simp [tapPath]
  | cons c cs ih =>
    have hstep : tapPath states (c :: cs) = tapPath (tapNext states c.tms) cs := rfl
    simp only [hstep, ih, getLsbD_tapNext_iff, List.foldl_cons]
    constructor
    · rintro ⟨_, ⟨u, hu, rfl⟩, h⟩
      exact ⟨u, hu, h⟩
    · rintro ⟨u, hu, h⟩
      exact ⟨_, ⟨u, hu, rfl⟩, h⟩

theorem exists_tapState {states : BitVec 16} (h : states ≠ 0) : ∃ t, states.getLsbD (tapCode t) = true := by
  by_contra hno
  refine h (BitVec.eq_of_getLsbD_eq fun k hk => ?_)
  obtain ⟨t, rfl⟩ := exists_tapCode k hk
  simpa using fun ht => hno ⟨t, ht⟩

/-- A list of clocks that takes every TAP state to `t` leaves a non-empty tracked set at {t}. -/
theorem tapPath_of_forall {cs : List Pulse} {t : TapState}
    (hcs : ∀ u, cs.foldl (fun v c => tapNext1 v c.tms) u = t) {states : BitVec 16} (h : states ≠ 0) :
    tapPath states cs = tapOnly t := by
  obtain ⟨u, hu⟩ := exists_tapState h
  refine BitVec.eq_of_getLsbD_eq fun k hk => ?_
  obtain ⟨v, rfl⟩ := exists_tapCode k hk
  rw [Bool.eq_iff_iff, getLsbD_tapPath_iff, getLsbD_tapOnly_iff]
  constructor
  · rintro ⟨w, -, hw⟩
    exact (hcs w).symm.trans hw
  · rintro rfl
    exact ⟨u, hu, hcs u⟩

/-- The six clocks of ResetTap lead to Run-Test/Idle from every state (R133). -/
theorem tapPath_resetPulses {states : BitVec 16} (h : states ≠ 0) : tapPath states resetPulses = tapIdle :=
  tapPath_of_forall (t := .runTestIdle) (fun u => by cases u <;> rfl) h

/-! ### Commands of one or two tasks -/

/-- A command in an open session runs the tasks its arm launches on the accepted state. -/
theorem exec_launch {i : Instr} {s : State} {ts : List Task} {body : State → Answer} (hb : s.busy = false)
    (ho : s.linkOpen = true) (hi : exec i s = command (encode i) (whenOpen body) s)
    (hbody : body (s.accept (encode i)) = (s.accept (encode i)).launch ts) :
    exec i s = .next (drive s.pace { s.accept (encode i) with cont := ts }) := by
  rw [hi, command_idle _ _ hb, whenOpen_open _ (by exact ho), hbody]
  rfl

/-- A command with no task left ends without an error. -/
theorem reaches_ended (i : Instr) (t : State) : Reaches 1 (t.accept (encode i)) (t.ended i .none) :=
  reaches_finish rfl rfl

/-- A command of one task, whose effect is that from `s` to `t`. -/
theorem drive_task_ended {i : Instr} {s t : State} {first : Task} (hp : 2 ≤ s.pace)
    (h : runTask first { s.accept (encode i) with cont := [] } = t.accept (encode i)) :
    drive s.pace { s.accept (encode i) with cont := [first] } = t.ended i .none := by
  have hfirst := reaches_cont (s := s.accept (encode i)) rfl first []
  rw [h] at hfirst
  exact drive_of_reaches (hfirst.trans (reaches_ended i t)) rfl hp

/-- A command of two tasks, whose effects are those from `s` to `t` and from `t` to `u`. -/
theorem drive_tasks_ended {i : Instr} {s t u : State} {first second : Task} (hp : 3 ≤ s.pace)
    (h₁ : runTask first { s.accept (encode i) with cont := [second] } =
      { t.accept (encode i) with cont := [second] })
    (h₂ : runTask second { t.accept (encode i) with cont := [] } = u.accept (encode i)) :
    drive s.pace { s.accept (encode i) with cont := [first, second] } = u.ended i .none := by
  have hfirst := reaches_cont (s := s.accept (encode i)) rfl first [second]
  have hsecond := reaches_cont (s := t.accept (encode i)) rfl second []
  rw [h₁] at hfirst
  rw [h₂] at hsecond
  exact drive_of_reaches ((hfirst.trans hsecond).trans (reaches_ended i u)) rfl hp

/-- A command whose first task raises an error other than TRANSACTION_CORRUPTED has changed nothing before. -/
theorem drive_first_failed {i : Instr} {s : State} {first : Task} {l : List Task} {e : CmdError} (hp : 1 ≤ s.pace)
    (hl : enclosingArea l = none) (he : e.code ≠ .transactionCorrupted)
    (h : runTask first { s.accept (encode i) with cont := l } = State.raise e { s.accept (encode i) with cont := l }) :
    drive s.pace { s.accept (encode i) with cont := first :: l } = s.failed i e := by
  have hfirst := reaches_cont (s := s.accept (encode i)) rfl first l
  rw [h, raise_end _ he _ _ hl] at hfirst
  exact drive_of_reaches hfirst rfl hp

/-! ### CLOCK (40_tap.md R142) -/

/-- A raw clock, sampled or not, in terms of the status byte to come. -/
theorem rawClock_eq (tms tdi sample : Bool) (s : State) : s.rawClock tms tdi sample = { s with
    io := s.io.after s.pins [⟨tms, tdi, sample⟩]
    irCacheValid := false
    result :=
      if sample = true then (BitVec.ofBool (tdoBit s.pins (s.io.statusByte 0))).setWidth 32 else s.result } := by
  unfold State.rawClock
  cases sample with
  | true =>
    rw [Io.sampledClock_eq]
    rfl
  | false =>
    rw [Io.clock_eq]
    rfl

/-- Settles O16: the raw clock is the one task of the arm, behind the check of the session. -/
theorem clockCommand : Obligations.ClockCommand := by
  intro tms tdi sample s hb hp
  split
  next ho =>
    rw [exec_launch hb ho rfl rfl]
    exact congrArg Host.Outcome.next (drive_task_ended hp (rawClock_eq tms tdi sample (s.accept _)))
  next ho => exact notOpen _ s nofun rfl hb (Bool.not_eq_true _ ▸ ho)

/-! ### RESET_TAP and SHUTDOWN (40_tap.md R133, R143, 41_session.md R162) -/

theorem resetTap_eq (s : State) :
    s.resetTap = { s with io := s.io.after s.pins resetPulses, irCacheValid := false } := by
  unfold State.resetTap
  rw [Io.clocks_eq, quietPulses_reset]
  rfl

/-- Settles O17: the tracked set is where the six clocks lead from every state. -/
theorem resetTapCommand : Obligations.ResetTapCommand := by
  intro s hb hp
  refine ⟨?_, rfl, tapPath_resetPulses⟩
  split
  next ho =>
    rw [exec_launch hb ho rfl rfl]
    exact congrArg Host.Outcome.next (drive_task_ended hp (resetTap_eq (s.accept _)))
  next ho => exact notOpen .resetTap s nofun rfl hb (Bool.not_eq_true _ ▸ ho)

/-- Settles O21: ResetTap, then the session is closed. -/
theorem shutdownCommand : Obligations.ShutdownCommand := by
  intro s hb hp
  split
  next ho =>
    rw [exec_launch hb ho rfl rfl]
    exact congrArg Host.Outcome.next (drive_tasks_ended (t := { s with
      io := s.io.after s.pins resetPulses, irCacheValid := false }) hp (resetTap_eq _) rfl)
  next ho => exact notOpen .shutdown s nofun rfl hb (Bool.not_eq_true _ ▸ ho)

/-! ### SET_IR (40_tap.md R144) -/

theorem irLengthLegal_iff (s : State) : s.irLengthLegal = true ↔ 1 ≤ s.irLength ∧ s.irLength ≤ 32 := by
  simp [State.irLengthLegal]

/-- SET_IR in an open session: the error of its shift, or the shift. -/
theorem exec_setIr {s : State} (hb : s.busy = false) (ho : s.linkOpen = true) (hp : 2 ≤ s.pace) :
    (¬ s.Shiftable → exec .setIr s = .next (s.failed .setIr s.shiftError)) ∧
      (s.Shiftable → exec .setIr s = .next ((s.moved [.ir s.data]).ended .setIr .none)) := by
  rw [exec_launch (ts := [.setIr s.data]) hb ho rfl rfl]
  refine ⟨fun hs => congrArg Host.Outcome.next ?_, fun hs => congrArg Host.Outcome.next ?_⟩
  · exact drive_first_failed (by omega) rfl (shiftError_code s) (setInstruction_raise s.data (s.accept _) hs)
  · exact drive_task_ended hp (setInstruction_eq s.data (s.accept _) hs)

/-- One instruction-register shift: nothing on a cache hit. -/
theorem moved_ir (code : Word) (s : State) : s.moved [.ir code] =
    if s.irCacheValid = true ∧ s.irCache = maskIr code s.irLength then s
    else { s with
      io := s.io.after s.pins (irPulses (maskIr code s.irLength) s.irLength)
      irCache := maskIr code s.irLength
      irCacheValid := true } := by
  simp only [State.moved, State.traffic, List.foldl, Port.shift]
  split <;> rfl

/-- Settles O18: the two preconditions in the order of the error they give, then the cache, then the shift. -/
theorem setIrCommand : Obligations.SetIrCommand := by
  intro s hb hp
  refine ⟨?command, fun hl ht m => ⟨?idle, irPulses_length m _⟩⟩
  case idle =>
    rw [Io.after_tapStates, ht]
    exact tapPath_irPulses m _ hl
  case command =>
    split
    next ho => exact notOpen .setIr s nofun rfl hb ho
    next ho =>
    obtain ⟨hfails, hshifts⟩ := exec_setIr hb (Bool.not_eq_false _ ▸ ho) hp
    split
    next hl =>
      rw [← irLengthLegal_iff] at hl
      rw [hfails fun hs => hl hs.1, State.shiftError, if_pos (Bool.not_eq_true _ ▸ hl)]
    next hl =>
    rw [not_not, ← irLengthLegal_iff] at hl
    split
    next ht => rw [hfails fun hs => ht hs.2, State.shiftError, if_neg (by simp [hl])]
    next ht =>
      rw [hshifts ⟨hl, not_not.1 ht⟩, moved_ir]
      split
      next hc => rw [if_pos (by exact hc)]
      next hc =>
        rw [if_neg (by exact hc)]
        rfl

/-! ### SHIFT_DR32 (40_tap.md R145) -/

theorem testBit_bits (bits : List Bool) (i : Nat) :
    (bits.foldr (fun (b : Bool) n => b.toNat + 2 * n) 0).testBit i = bits.getD i false := by
  induction bits generalizing i with
  | nil => simp
  | cons b bits ih =>
    rw [List.foldr_cons, Nat.add_comm, ← Nat.bit_val]
    cases i with
    | zero => exact Nat.testBit_bit_zero _ _
    | succ i =>
      rw [Nat.testBit_bit_succ, ih]
      rfl

/-- Bit `i` of a captured word is TDO of the `i`-th status byte of its shift (R139). -/
theorem getLsbD_captured (s : State) (k : Nat) {i : Nat} (hi : i < 32) :
    (s.captured k).getLsbD i = tdoBit s.pins (s.io.statusByte (32 * k + i)) := by
  unfold State.captured wordOfBits
  rw [BitVec.getLsbD_ofNat, testBit_bits]
  simp [hi]

/-- One data-register shift, with the word it captures. -/
theorem shiftData32_idle (v : Word) {s : State} (ht : s.io.tapStates = tapIdle) :
    s.shiftData32 v = { s with io := s.io.after s.pins (drPulses v), acc := s.captured 0 } :=
  shiftData32_eq v s ht

/-- Settles O19: the shift and the write of RESULT, or the error of the shift. -/
theorem shiftDrCommand : Obligations.ShiftDrCommand := by
  intro s hb hp
  refine ⟨?command, fun i hi => ?bits, ?count, fun ht => ?idle⟩
  case bits => rw [getLsbD_captured s 0 hi, Nat.mul_zero, Nat.zero_add]
  case count =>
    rw [Io.after_clockCount, drPulses_length]
    rfl
  case idle =>
    rw [Io.after_tapStates, ht]
    exact tapPath_drPulses s.data
  case command =>
    split
    next ho => exact notOpen .shiftDr32 s nofun rfl hb ho
    next ho =>
    rw [exec_launch (ts := [.shiftDr s.data, .setResult]) hb (Bool.not_eq_false _ ▸ ho) rfl rfl]
    refine congrArg Host.Outcome.next ?_
    split
    next ht => exact drive_first_failed (by omega) rfl nofun (if_pos ht)
    next ht =>
      exact drive_tasks_ended (t := { s with
        io := s.io.after s.pins (drPulses s.data), acc := s.captured 0 }) hp (shiftData32_idle _ (not_not.1 ht)) rfl

end Sys2Proof.Machine
end

section
/-! FLASH_ERASE_AREA (43_flash.md R242, R243, R254): the loop over the blocks that are done, its end, and a cancellation
inside the block it has come to. -/

namespace Sys2Proof.Machine

/-! ### The frame of an erase area -/

/-- Of two states that differ by target traffic, the same holds with PROGRESS and ERASE_FAILED set alike. -/
theorem Framed.with_counts {s t : State} (h : Framed s t) (p n : Word) :
    Framed { s with progress := p, eraseFailed := n } { t with progress := p, eraseFailed := n } := by
  have e := congrArg (fun u : State => { u with progress := p, eraseFailed := n }) h.eq
  exact e

/-- A block of an erase area is target traffic but for ERASE_FAILED. -/
theorem blockRun_framed (s : State) (r : BlockRun) :
    Framed { s with eraseFailed := (s.blockRun r).eraseFailed } (s.blockRun r) := by
  cases r with
  | done run =>
    have h := opsRun_framed run s
    rw [State.blockRun, h.eraseFailed]
    exact h
  | stopped r stop =>
    have h := (reached_framed r s).trans (stopState_framed r.act stop (s.reached r))
    have e := congrArg (fun u : State => { u with eraseFailed := s.eraseFailed + 1 }) h.eq
    exact e
  | misaligned => rfl

/-- The blocks of an erase area are target traffic but for PROGRESS and ERASE_FAILED. -/
theorem areaRun_framed (i : Nat) (bs : List (Word × BlockRun)) (s : State) :
    Framed { s with
      progress := (State.areaRun i bs s).progress, eraseFailed := (State.areaRun i bs s).eraseFailed }
      (State.areaRun i bs s) := by
  induction bs generalizing i s with
  | nil => rfl
  | cons p bs ih =>
    obtain ⟨b, r⟩ := p
    have hreports : ∀ p n : Word, Framed { s with progress := p, eraseFailed := n }
        { s.reports i b with progress := p, eraseFailed := n } := fun _ _ => rfl
    have hblock := (blockRun_framed (s.reports i b) r).with_counts
    exact ((hreports _ _).trans (hblock _ _)).trans (ih (i + 1) ((s.reports i b).blockRun r))

theorem beforeShift_shiftable (x : Act) {s : State} (h : s.Shiftable) : (s.beforeShift x).Shiftable := by
  unfold State.beforeShift
  split <;> exact h

theorem stopState_shiftable (x : Act) (stop : Stop) {s : State} (h : s.Shiftable) :
    (s.stopState x stop).Shiftable := by
  cases stop with
  | corrupted ks k => exact access_shiftable x _ h
  | misaligned => exact h
  | unshiftable => exact beforeShift_shiftable x h

theorem reached_shiftable (r : Reach) {s : State} (h : s.Shiftable) : (s.reached r).Shiftable := by
  unfold State.reached
  split
  · exact opsRun_shiftable _ h
  · exact drawn_shiftable 1 (polled_shiftable _ _ (opsRun_shiftable _ h))

theorem blockRun_shiftable (r : BlockRun) {s : State} (h : s.Shiftable) : (s.blockRun r).Shiftable := by
  cases r with
  | done run => exact opsRun_shiftable run h
  | stopped r stop => exact stopState_shiftable r.act stop (reached_shiftable r h)
  | misaligned => exact h

theorem areaRun_shiftable (i : Nat) (bs : List (Word × BlockRun)) {s : State} (h : s.Shiftable) :
    (State.areaRun i bs s).Shiftable := by
  induction bs generalizing i s with
  | nil => exact h
  | cons p bs ih => exact ih (i + 1) (blockRun_shiftable p.2 h)

/-! ### The loop (R243) -/

/-- The head of the loop with a block to come: its reports, then its erase. -/
theorem reaches_eraseNext {i : Nat} {b : Word} {rest : List Word} {e : Option CmdError} {k : List Task} {w : Word}
    (s : State) :
    Reaches 1 { s.accept w with cont := .eraseNext i (b :: rest) e :: k }
      { (s.reports i b).accept w with cont := .eraseBlock b :: .eraseNext (i + 1) rest e :: k } :=
  reaches_cont (s := s.accept w) rfl (.eraseNext i (b :: rest) e) k

theorem blockRun_tasks_pos (r : BlockRun) : 1 ≤ r.tasks := by
  cases r <;> simp only [BlockRun.tasks] <;> omega

/-- The loop over blocks that go in some way, a block error kept for the end. -/
theorem reaches_area {c : FlashDescriptor} {w : Word} {k : List Task} (bs : List (Word × BlockRun)) (rest : List Word)
    (i : Nat) (e : Option CmdError) {s : State} (hc : s.chip = some c) (hg : State.AreaGoes c.family i bs s) :
    Reaches ((bs.map (·.2.tasks)).sum) { s.accept w with cont := .eraseNext i (bs.map Prod.fst ++ rest) e :: k }
      { (State.areaRun i bs s).accept w with
        cont := .eraseNext (i + bs.length) rest (State.areaError i e bs s) :: k } := by
  induction bs generalizing i e s with
  | nil => exact Reaches.refl _
  | cons p bs ih =>
    obtain ⟨b, r⟩ := p
    obtain ⟨hblock, hrest⟩ := hg
    have hnext := reaches_eraseNext (i := i) (b := b) (rest := bs.map Prod.fst ++ rest) (e := e) (k := k) (w := w) s
    have herase := reaches_block (s := (s.reports i b).accept w) rfl hc b r (i + 1) (bs.map Prod.fst ++ rest) e k
      ((accept_blockGoes _ _ _ _ _).2 hblock)
    rw [accept_blockRun, accept_blockError] at herase
    have hloop := ih (i + 1) (((s.reports i b).blockError b r).orElse fun _ => e)
      ((blockRun_framed (s.reports i b) r).chip.trans hc) hrest
    rw [Nat.add_right_comm, Nat.add_assoc] at hloop
    have htasks := blockRun_tasks_pos r
    exact ((hnext.trans herase).trans hloop).mono (by simp only [List.map_cons, List.sum_cons]; omega)

/-- The end of the command after its loop: with the last block error, if there was one. -/
def State.areaEnded (t : State) : Option CmdError → State
  | none => t.ended .flashEraseArea .none
  | some e => t.failed .flashEraseArea e

theorem areaEnded_busy (t : State) (e : Option CmdError) : (t.areaEnded e).busy = false := by
  cases e <;> rfl

theorem reaches_areaEnded {i : Nat} (e : Option CmdError) (t : State) :
    Reaches 2 { t.accept (encode .flashEraseArea) with cont := [.eraseNext i [] e] } (t.areaEnded e) := by
  have h := reaches_cont (s := t.accept (encode .flashEraseArea)) rfl (.eraseNext i [] e) []
  cases e with
  | none => exact h.trans (reaches_finish rfl rfl)
  | some e =>
    rw [State.areaEnded, ← raise_failed e _ t [] rfl rfl]
    exact h.mono (by decide)

/-! ### The command (R254) -/

/-- The state FLASH_ERASE_AREA begins its loop in: the blocks counted, no failure yet. -/
def State.areaBegun (n : Nat) (s : State) : State := { s with result := BitVec.ofNat 32 n, eraseFailed := 0 }

/-- The command up to its loop, whose blocks are those of the selection. -/
theorem exec_eraseArea {c : FlashDescriptor} {s : State} (hr : s.Ready) (hm : s.mode ≠ .none) (hc : s.chip = some c) :
    ∃ u, exec .flashEraseArea s = .next (drive s.pace u) ∧
      Reaches 1 u { (s.areaBegun (selectBlocks s.blockMap s.addr s.len).length).accept (encode .flashEraseArea) with
        cont := [.eraseNext 0 (selectBlocks s.blockMap s.addr s.len) none] } :=
  ⟨_, flash_launch (t := s) (ts := [.eraseArea s.addr s.len]) hr hm hc rfl rfl,
    reaches_cont (s := s.accept (encode .flashEraseArea)) rfl (.eraseArea s.addr s.len) []⟩

/-- The command up to the erase of a block, the blocks before it done. -/
theorem exec_comesToBlock {c : FlashDescriptor} {done : List (Word × BlockRun)} {b : Word} {rest : List Word}
    {s s₀ u : State} (hr : s.Ready) (hm : s.mode ≠ .none) (hc : s.chip = some c)
    (hsel : done.map Prod.fst ++ b :: rest = selectBlocks s.blockMap s.addr s.len)
    (h₀ : s₀ = s.areaBegun (done.length + 1 + rest.length)) (hg : State.AreaGoes c.family 0 done s₀)
    (hu : u = (State.areaRun 0 done s₀).reports done.length b) (ha : misaligned b .half = false) :
    ∃ v k, exec .flashEraseArea s = .next (drive s.pace v) ∧
      Reaches ((done.map (·.2.tasks)).sum + 3) v
        { u.accept (encode .flashEraseArea) with cont := u.eraseTasks c.family b ++ k } := by
  obtain ⟨v, hexec, hbegin⟩ := exec_eraseArea hr hm hc
  have hcount : (selectBlocks s.blockMap s.addr s.len).length = done.length + 1 + rest.length := by
    rw [← hsel, List.length_append, List.length_map, List.length_cons]
    omega
  rw [hcount, ← h₀, ← hsel] at hbegin
  have hc₀ : s₀.chip = some c := by rw [h₀]; exact hc
  have hcu : u.chip = some c := by rw [hu]; exact (areaRun_framed 0 done s₀).chip.trans hc₀
  have hloop := reaches_area (w := encode .flashEraseArea) (k := []) done (b :: rest) 0 none hc₀ hg
  rw [Nat.zero_add] at hloop
  have hnext := reaches_eraseNext (i := done.length) (b := b) (rest := rest)
    (e := State.areaError 0 none done s₀) (k := []) (w := encode .flashEraseArea) (State.areaRun 0 done s₀)
  rw [← hu] at hnext
  have hblock := reaches_eraseBlock (s := u.accept (encode .flashEraseArea)) rfl hcu b
    [.eraseNext (done.length + 1) rest (State.areaError 0 none done s₀)] ha
  exact ⟨v, _, hexec, (((hbegin.trans hloop).trans hnext).trans hblock).mono (by omega)⟩

/-- A cancellation ends the command inside an erase area too (60_exceptions.md R276). -/
theorem raise_userCancelled (a d : Word) (i : Instr) (t : State) (l : List Task) :
    State.raise ⟨.userCancelled, a, d⟩ { t.accept (encode i) with cont := l } =
      t.failed i ⟨.userCancelled, a, d⟩ := by
  rw [raise_cancelled _ [] l, raise_failed _ _ _ _ rfl rfl]

/-- CANCEL = 1 at a completion poll, after operations and after reads that miss. -/
theorem reaches_opsPollCancel {i : Instr} {u : State} (hs : u.Shiftable) {ops : List Op} {ts : List Task}
    (hc : Carries ts ops) {run : List (Op × List Pass)} {a : Word} {cond : PollCond} (reads : List Pass)
    (k : List Task) (hops : run.map Prod.fst ++ [.poll a cond] <+: ops) (hg : u.OpsGo run)
    (hmiss : (u.opsRun run).PollMisses a cond reads) (hcl : ((u.opsRun run).polled a reads).cancelLevel 0 = true) :
    Reaches (opsTasks run + (reads.map (·.tasks + 2)).sum + 1) { u.accept (encode i) with cont := ts ++ k }
      ((((u.opsRun run).polled a reads).drawn 1).failed i
        ⟨.userCancelled, a, if reads = [] then 0 else ((u.opsRun run).polled a reads).acc⟩) := by
  obtain ⟨os, rfl⟩ := hops
  rw [List.append_assoc] at hc
  obtain ⟨before, polls, rfl, hbefore, hpolls⟩ := carries_split _ hc
  obtain ⟨l, rfl⟩ := carries_head hpolls
  have hrun := reaches_ops (s := u.accept (encode i)) rfl hs run before (opTask (.poll a cond) :: l ++ k) hbefore
    ((accept_opsGo _ _ _).2 hg)
  rw [accept_opsRun] at hrun
  have hreads := reaches_pollMisses (s := (u.opsRun run).accept (encode i)) rfl (opsRun_shiftable run hs) a cond reads
    0 (l ++ k) ((accept_pollMisses _ _ _ _ _).2 hmiss)
  rw [accept_polled] at hreads
  have hcancel := reaches_pollCancel (s := ((u.opsRun run).polled a reads).accept (encode i)) rfl a cond
    (if reads = [] then 0 else ((u.opsRun run).polled a reads).acc) (l ++ k) hcl
  rw [accept_drawn, raise_userCancelled] at hcancel
  rw [List.append_assoc]
  exact (hrun.trans hreads).trans hcancel

/-- CANCEL = 1 at the start-bit poll of a DMA access that operations come to. -/
theorem reaches_accessCancel {i : Instr} {u : State} (hs : u.Shiftable) {ops : List Op} {ts : List Task}
    (hc : Carries ts ops) (r : Reach) {failed : List Nat} {polls : Nat} (k : List Task) (hm : u.mode = .dma)
    (hg : u.ReachGoes ops r) (ha : misaligned r.act.addr r.act.width = false)
    (hall : (u.reached r).Allows r.act (.cancelled failed polls)) :
    Reaches (r.tasks + (Pass.cancelled failed polls).tasks) { u.accept (encode i) with cont := ts ++ k }
      (((u.reached r).access r.act (.cancelled failed polls)).failed i
        ⟨.userCancelled, r.act.addr,
          if polls = 0 then 0 else (u.reached r).captured (wordsOf failed + r.act.startWords + polls - 1)⟩) := by
  obtain ⟨l, -, -, hops⟩ := reaches_reach (s := u.accept (encode i)) rfl hc r k ((accept_reachGoes _ _ _ _).2 hg)
  rw [accept_reached] at hops
  have hcancel := reaches_act_err (s := (u.reached r).accept (encode i)) rfl (reached_shiftable r hs) r.act
    (.cancelled failed polls) l _ ((reached_framed r u).mode.trans hm) ha ((accept_allows _ _ _ _).2 hall) rfl
  rw [accept_access', raise_userCancelled] at hcancel
  exact hops.trans hcancel

/-- Settles O48: a cancellation inside the block the loop has come to, or the whole loop and its last block error. -/
theorem flashEraseAreaCommand : Obligations.FlashEraseAreaCommand := by
  refine ⟨?cancelled, ?whole⟩
  case cancelled =>
    intro c done b rest s s₀ u hr hs hm hc hsel h₀ hg hu ha
    obtain ⟨v, k, hexec, hcomes⟩ := exec_comesToBlock hr hm hc hsel h₀ hg hu ha
    have hsu : u.Shiftable := by
      rw [hu, h₀]
      exact areaRun_shiftable 0 done hs
    have hmu : u.mode = s.mode := by
      rw [hu, h₀]
      exact (areaRun_framed 0 done _).mode
    have htasks := carries_erase u c b
    rw [hexec]
    refine ⟨fun run a cond reads hp hops hgo hmiss hcl => ?_, fun r failed polls hp hdma hreach hact hall => ?_⟩
    · have hend := reaches_opsPollCancel (i := .flashEraseArea) hsu htasks reads k hops hgo hmiss hcl
      rw [drive_of_reaches (hcomes.trans hend) rfl (by omega)]
    · have hend := reaches_accessCancel (i := .flashEraseArea) hsu htasks r k (hmu.trans hdma) hreach hact hall
      rw [drive_of_reaches (hcomes.trans hend) rfl (by omega)]
  case whole =>
    intro c blocks s hr hm hc hsel hg hp
    obtain ⟨v, hexec, hbegin⟩ := exec_eraseArea hr hm hc
    have hcount : (selectBlocks s.blockMap s.addr s.len).length = blocks.length := by
      rw [← List.length_map Prod.fst, hsel]
      rfl
    have hblocks : selectBlocks s.blockMap s.addr s.len = blocks.map Prod.fst ++ [] := by
      rw [List.append_nil, hsel]
      rfl
    rw [hcount, hblocks] at hbegin
    have hloop := reaches_area (w := encode .flashEraseArea) (k := []) blocks [] 0 none (by exact hc) hg
    have hend := (hbegin.trans hloop).trans (reaches_areaEnded _ _)
    rw [hexec, drive_of_reaches hend (areaEnded_busy _ _) (by omega)]
    rfl

end Sys2Proof.Machine
end

section
/-! INIT (41_session.md R160, R161): the two checks of CONFIG, then the bring-up, one task after another, from the
session reset to the open session. -/

namespace Sys2Proof.Machine

/-! ### The checks of CONFIG -/

/-- Both force flags, or an illegal IR_LENGTH, end INIT on the state before it. -/
theorem exec_init_refused {s : State} (hb : s.busy = false)
    (h : (s.forceDma = true ∧ s.forcePracc = true) ∨ ¬ (1 ≤ s.irLength ∧ s.irLength ≤ 32)) :
    exec .init s = .next (s.failed .init s.badConfig) := by
  have hinit : exec .init s = execInit s := rfl
  have hraise : (s.accept (encode .init)).raise s.badConfig = s.failed .init s.badConfig :=
    raise_failed s.badConfig .init s [] rfl rfl
  rw [hinit, execInit, command_idle _ _ hb, ← hraise]
  rcases h with hforce | hlength
  · exact if_pos (Bool.and_eq_true_iff.2 hforce)
  · have hillegal : (!s.irLengthLegal) = true := by simpa [← irLengthLegal_iff] using hlength
    exact (congrArg (ite _ _) (if_pos hillegal)).trans (ite_self _)

/-- Past the checks INIT resets the session and runs its four tasks. -/
theorem exec_init_launch {s : State} (hb : s.busy = false) (hforce : ¬ (s.forceDma = true ∧ s.forcePracc = true))
    (hl : s.irLengthLegal = true) :
    exec .init s = .next (drive s.pace { s.sessionReset.accept (encode .init) with
      cont := [.resetTap, .setIr s.ejtag.irImpcode, .shiftDr 0, .initEnd] }) := by
  have hinit : exec .init s = execInit s := rfl
  have hlegal : ¬ (!s.irLengthLegal) = true := by simp [hl]
  rw [hinit, execInit, command_idle _ _ hb]
  exact (if_neg (mt Bool.and_eq_true_iff.1 hforce)).trans (if_neg hlegal)

/-! ### The bring-up -/

/-- One task of a command, whose effect is that from `s` to `t` whatever tasks are left. -/
theorem reaches_effect {i : Instr} {s t : State} {first : Task} (l : List Task)
    (h : runTask first { s.accept (encode i) with cont := l } = { t.accept (encode i) with cont := l }) :
    Reaches 1 { s.accept (encode i) with cont := first :: l } { t.accept (encode i) with cont := l } :=
  h ▸ reaches_cont (s := s.accept (encode i)) rfl first l

/-- After the session reset and ResetTap. -/
def State.bringReset (s : State) : State := { s.sessionReset with io := s.io.after s.pins resetPulses }

/-- After the shift that selects the feature register. -/
def State.bringSelected (s : State) : State :=
  { s.bringReset with
    io := s.io.after s.pins (resetPulses ++ irPulses (maskIr s.ejtag.irImpcode s.irLength) s.irLength)
    irCache := maskIr s.ejtag.irImpcode s.irLength
    irCacheValid := true }

/-- After the shift that reads the feature register. -/
def State.bringRead (s : State) : State :=
  { s.bringSelected with
    io := s.io.after s.pins (resetPulses ++
      irPulses (maskIr s.ejtag.irImpcode s.irLength) s.irLength ++ drPulses 0)
    acc := s.captured 0 }

/-- ResetTap leaves a block with a legal IR_LENGTH able to shift. -/
theorem bringReset_shiftable {s : State} (hl : s.irLengthLegal = true) (ht : s.io.tapStates ≠ 0) :
    s.bringReset.Shiftable :=
  ⟨hl, tapPath_resetPulses ht⟩

/-- The IR cache is invalid after the reset, so the instruction is shifted. -/
theorem bringReset_moved (s : State) : s.bringReset.moved [.ir s.ejtag.irImpcode] = s.bringSelected := by
  have hinvalid : ¬ (s.bringReset.irCacheValid = true ∧
      s.bringReset.irCache = maskIr s.ejtag.irImpcode s.bringReset.irLength) := fun h => nomatch h.1
  rw [moved_ir, if_neg hinvalid, State.bringSelected, Io.after_append]
  rfl

theorem bringSelected_shiftable {s : State} (hl : s.irLengthLegal = true) (ht : s.io.tapStates ≠ 0) :
    s.bringSelected.Shiftable :=
  bringReset_moved s ▸ shiftable_moved _ _ (bringReset_shiftable hl ht)

/-- No clock before the data shift samples TDO: the word read is the first one to come. -/
theorem bringSelected_captured (s : State) : s.bringSelected.captured 0 = s.captured 0 := by
  have hquiet : samples (resetPulses ++ irPulses (maskIr s.ejtag.irImpcode s.irLength) s.irLength) = 0 := by
    rw [samples_append, samples_irPulses]
    rfl
  have hbyte (k : Nat) : s.bringSelected.io.statusByte k = s.io.statusByte k := by
    rw [State.bringSelected, Io.statusByte_after, hquiet, Nat.zero_add]
  unfold State.captured
  simp only [hbyte]
  rfl

/-- The clocks of the data shift come after those of the bring-up so far. -/
theorem bringSelected_read (s : State) :
    { s.bringSelected with io := s.bringSelected.io.after s.pins (drPulses 0), acc := s.bringSelected.captured 0 } =
      s.bringRead := by
  rw [bringSelected_captured, State.bringRead, Io.after_append]
  rfl

/-- The mode as the rule of R161 orders it. -/
theorem selectMode_eq (f : Word) (s : State) : s.selectMode f =
    if s.forceDma = true then .dma
    else if s.forcePracc = true then .pracc
    else if f.getLsbD s.ejtag.impcodeNoDmaBit = false then .dma
    else .pracc := by
  unfold State.selectMode
  cases f.getLsbD s.ejtag.impcodeNoDmaBit <;> rfl

/-- The four tasks of the bring-up. -/
theorem reaches_bringUp {s : State} (hl : s.irLengthLegal = true) (ht : s.io.tapStates ≠ 0) :
    Reaches 4
      { s.sessionReset.accept (encode .init) with
        cont := [.resetTap, .setIr s.ejtag.irImpcode, .shiftDr 0, .initEnd] }
      (s.bringRead.initEnd.accept (encode .init)) := by
  have hreset := reaches_effect (i := .init) (s := s.sessionReset) (t := s.bringReset) (first := .resetTap)
    [.setIr s.ejtag.irImpcode, .shiftDr 0, .initEnd] (resetTap_eq _)
  have hselect := reaches_effect (i := .init) (s := s.bringReset) (t := s.bringSelected)
    (first := .setIr s.ejtag.irImpcode) [.shiftDr 0, .initEnd] (by
      rw [← bringReset_moved]
      exact setInstruction_eq _ _ (bringReset_shiftable hl ht))
  have hread := reaches_effect (i := .init) (s := s.bringSelected) (t := s.bringRead) (first := .shiftDr 0)
    [.initEnd] (by
      rw [← bringSelected_read]
      exact shiftData32_idle 0 (bringSelected_shiftable hl ht).2)
  have hopen := reaches_effect (i := .init) (s := s.bringRead) (t := s.bringRead.initEnd) (first := .initEnd) [] rfl
  exact ((hreset.trans hselect).trans hread).trans hopen

/-- Settles O20: the two checks refuse before any change; past them the four tasks of the bring-up run. -/
theorem initCommand : Obligations.InitCommand := by
  intro s hb ht hp
  split
  next hforce => exact exec_init_refused hb (.inl hforce)
  next hforce =>
  split
  next hl => exact exec_init_refused hb (.inr hl)
  next hl =>
    rw [not_not, ← irLengthLegal_iff] at hl
    have hrun := (reaches_bringUp hl ht).trans (reaches_ended .init s.bringRead.initEnd)
    rw [exec_init_launch hb hforce hl, drive_of_reaches hrun rfl hp, State.initEnd, selectMode_eq]
    rfl

end Sys2Proof.Machine
end

section
/-! Access commands past their first shift: careful DMA and Processor Accesses that complete, and DMA accesses that end
with an error of their own (42_transaction.md R173 to R177, R190 to R197). -/

namespace Sys2Proof.Machine

/-! ### Accesses that complete -/

theorem Pass.tasks_pos (p : Pass) : 1 ≤ p.tasks := by
  cases p <;> simp only [Pass.tasks] <;> omega

/-- An access command whose access completes: a read's RESULT is written before the end. -/
theorem exec_access_ended {i : Instr} {x : Act} {m : Mode} {p : Pass} {s : State}
    (hi : s.accessOf i = some (x, m)) (hm : m ≠ .none) (hr : s.Ready) (ha : misaligned x.addr x.width = false)
    (h : Reaches (p.tasks - 1) { s.accept (encode i) with cont := pathTask m x :: tailOf x }
      { (s.accept (encode i)).access x p with cont := tailOf x })
    (hp : p.tasks + 2 ≤ s.pace) :
    exec i s = .next ({ s.access x p with
      result := if x.isRead then (s.access x p).acc else s.result }.ended i .none) := by
  obtain ⟨k, he, hfirst⟩ := exec_access hi hm hr ha
  rw [accept_access] at h
  have hrun := (hfirst.trans h).trans (reaches_tail x (encode i) (s.access x p))
  have hpos := p.tasks_pos
  rw [he, drive_of_reaches hrun rfl (by omega), (access_framed x p s).result]
  rfl

/-- Settles O26: the attempts that fail use up their retries, and the next one completes the access. -/
theorem carefulDmaAccess : Obligations.CarefulDmaAccess := by
  intro i x failed polls s hi hr hs ha hall hp
  exact exec_access_ended hi nofun hr ha
    (reaches_dma_ok (s := s.accept (encode i)) rfl hs x (.careful failed polls) (tailOf x) rfl rfl
      ((accept_allows _ _ _ _).2 hall)) hp

/-- Settles O29: RunModule serves the script up to its second hit, and the access completes. -/
theorem processorAccess : Obligations.ProcessorAccess := by
  intro i x script polls s hi hr hs ha hall hp
  exact exec_access_ended hi nofun hr ha
    (reaches_pracc (s := s.accept (encode i)) rfl hs x (.pracc script polls) (tailOf x) rfl
      ((accept_allows _ _ _ _).2 hall)) hp

/-! ### DMA accesses that end with an error -/

/-- An error at the access of a command: the task that waits behind a read is what has a corrupted read write RESULT
(42_transaction.md R177). -/
theorem raise_tailOf (e : CmdError) (i : Instr) (x : Act) (t : State) :
    State.raise e { t.accept (encode i) with cont := tailOf x } = { t with
      result := if e.code = ErrCode.transactionCorrupted ∧ x.isRead then e.data else t.result }.failed i e := by
  have hreturns : State.returnsValue { t.accept (encode i) with cont := tailOf x } = x.isRead := by cases x <;> rfl
  rw [raise_ends _ _ (.inr (by cases x <;> rfl)), endWithError_eq, hreturns]
  rfl

theorem accept_accessError (w : Word) (x : Act) (p : Pass) (s : State) :
    (s.accept w).accessError x p = s.accessError x p := by
  cases p <;> rfl

/-- An access command whose DMA access ends with an error of its own. -/
theorem exec_access_failed {i : Instr} {x : Act} {p : Pass} {e : CmdError} {s : State}
    (hi : s.accessOf i = some (x, .dma)) (hr : s.Ready) (hs : s.Shiftable) (ha : misaligned x.addr x.width = false)
    (hall : s.Allows x p) (he : s.accessError x p = some e) (hp : p.tasks ≤ s.pace) :
    exec i s = .next ({ s.access x p with
      result := if e.code = ErrCode.transactionCorrupted ∧ x.isRead then e.data else s.result }.failed i e) := by
  obtain ⟨k, hexec, hfirst⟩ := exec_access hi nofun hr ha
  have haccess := reaches_dma_err (s := s.accept (encode i)) rfl hs x p (tailOf x) e
    ((accept_accessError _ _ _ _).trans he) ((accept_allows _ _ _ _).2 hall)
  rw [accept_access', raise_tailOf] at haccess
  have hpos := p.tasks_pos
  rw [hexec, drive_of_reaches (hfirst.trans haccess) rfl (by omega), (access_framed x p s).result]

theorem attemptComes_framed {s t : State} {k : Attempt} {r : AttemptRun} {x : Act} (h : s.AttemptComes k r x t) :
    Framed s t := by
  cases h with
  | vendor => exact opsRun_framed _ s
  | device => exact framed_afterVendor k r s
  | extended => exact framed_afterDevice k r s
  | reset => exact framed_afterIds k r s

/-- A flash command does not change the mode on the way to an access (10_state.md R43). -/
theorem comesTo_mode {i : Instr} {n : Nat} {x : Act} {s t : State} (h : s.ComesTo i n x t) : t.mode = s.mode := by
  cases h with
  | resetRead c hc => rfl
  | eraseBlock c r hc ha hg => exact (reached_framed r _).mode
  | writeWord c r hc ha hg => exact (reached_framed r s).mode
  | probeEnter misses k t r hp hg => exact ((probeComes_framed hp).trans (reached_framed r t)).mode
  | probeIds misses k t r x u hs hp hg => exact ((probeComes_framed hp).trans (attemptComes_framed hg)).mode

/-- A flash command that comes to a DMA access which ends with an error of its own. -/
theorem exec_comesTo_failed {i : Instr} {n : Nat} {x : Act} {p : Pass} {e : CmdError} {s t : State} (hr : s.Ready)
    (hm : s.mode = .dma) (h : s.ComesTo i n x t) (hs : t.Shiftable) (ha : misaligned x.addr x.width = false)
    (hall : t.Allows x p) (he : t.accessError x p = some e) (hp : n + p.tasks ≤ s.pace) :
    exec i s = .next ((t.access x p).failed i e) := by
  obtain ⟨u, l, hexec, harea, hresult, hcomes⟩ := exec_comesTo hr (by rw [hm]; nofun) h
  have haccess := reaches_act_err (s := t.accept (encode i)) rfl hs x p l e ((comesTo_mode h).trans hm) ha
    ((accept_allows _ _ _ _).2 hall) ((accept_accessError _ _ _ _).trans he)
  rw [accept_access', raise_failed _ _ _ _ harea hresult] at haccess
  rw [hexec, drive_of_reaches (hcomes.trans haccess) rfl hp]

/-- Settles O27: the seventeenth attempt finds no retry left, in a flash command and in an access command. -/
theorem corruptedDmaAccess : Obligations.CorruptedDmaAccess := by
  refine ⟨fun i n x failed polls s t hr hm h hs ha hall hp => ?_, fun i x failed polls s hi hr hs ha hall hp => ?_⟩
  · exact exec_comesTo_failed hr hm h hs ha hall rfl hp
  · rw [exec_access_failed hi hr hs ha hall rfl (by omega)]
    simp only [true_and]

/-- Settles O28: CANCEL = 1 at the head of the poll loop, in a flash command and in an access command. -/
theorem cancelledDmaAccess : Obligations.CancelledDmaAccess := by
  refine ⟨fun i n x failed polls s t hr hm h hs ha hall hp => ?_, fun i x failed polls s hi hr hs ha hall hp => ?_⟩
  · exact exec_comesTo_failed hr hm h hs ha hall rfl hp
  · rw [exec_access_failed hi hr hs ha hall rfl (by omega)]
    simp only [reduceCtorEq, false_and, if_false]
    rfl

end Sys2Proof.Machine
end

section
/-! Accesses that wait: what holds along a run of tasks, however many of them a step carries out, and the two poll loops
it is kept in (42_transaction.md R175, R191, R198, 60_exceptions.md R288). -/

namespace Sys2Proof.Machine

/-! ### What holds along a run -/

/-- `P` holds of `s` and after each of the next `n` tasks. -/
def Along (P : State → Prop) (n : Nat) (s : State) : Prop := ∀ m ≤ n, P (drive m s)

theorem Along.mono {P : State → Prop} {m n : Nat} {s : State} (h : Along P n s) (hmn : m ≤ n) : Along P m s :=
  fun j hj => h j (hj.trans hmn)

theorem along_zero {P : State → Prop} {s : State} (h : P s) : Along P 0 s := by
  intro m hm
  rw [Nat.le_zero.1 hm]
  exact h

theorem along_succ {P : State → Prop} {n : Nat} {s : State} {t : Task} {k : List Task} (hb : s.busy = true)
    (hc : s.cont = t :: k) (hP : P s) (h : Along P n (runTask t { s with cont := k })) : Along P (n + 1) s := by
  intro m hm
  cases m with
  | zero => exact hP
  | succ m =>
    rw [drive_busy m s hb, tick_cons hc]
    exact h m (Nat.le_of_succ_le_succ hm)

section
variable {P : State → Prop} {s : State} {d r n : Nat}

/-- One task of a state on the way, not counted. -/
theorem along_on (hb : s.busy = true) (hP : ∀ xs k v, P (s.on xs d r k v)) {xs : List Shift} {t : Task}
    {k : List Task} {v : Word} (h : Along P n (runTask t (s.on xs d r k v))) :
    Along P n (s.on xs d r (t :: k) v) :=
  (along_succ (s := s.on xs d r (t :: k) v) hb rfl (hP _ _ _) h).mono (Nat.le_succ n)

theorem runTask_setIr_on (hs : s.Shiftable) (c : Word) (xs : List Shift) (k : List Task) (v : Word) :
    runTask (.setIr c) (s.on xs d r k v) = s.on (xs ++ [.ir c]) d r k v := by
  rw [← on_moved]
  exact setInstruction_eq c _ (on_shiftable xs d r k v hs)

theorem runTask_shiftDr_on (hs : s.Shiftable) (w : Word) (xs : List Shift) (k : List Task) (v : Word) :
    runTask (.shiftDr w) (s.on xs d r k v) = s.on (xs ++ [.dr w]) d r k (s.captured (words xs)) := by
  have h := shiftData32_eq w _ (on_shiftable xs d r k v hs).2
  rw [on_moved, on_captured] at h
  exact h

/-- Shifts on the way, whatever they return. -/
theorem along_shifts (hb : s.busy = true) (hs : s.Shiftable) (hP : ∀ xs k v, P (s.on xs d r k v)) {k : List Task}
    (ys xs : List Shift) (v : Word) (h : ∀ u, Along P n (s.on (xs ++ ys) d r k u)) :
    Along P n (s.on xs d r (shiftTasks ys ++ k) v) := by
  induction ys generalizing xs v with
  | nil =>
    rw [List.append_nil] at h
    exact h v
  | cons y ys ih =>
    have hrest (u : Word) : Along P n (s.on (xs ++ [y]) d r (shiftTasks ys ++ k) u) :=
      ih (xs ++ [y]) u (by rw [List.append_assoc]; exact h)
    cases y with
    | ir c => exact along_on hb hP (by rw [runTask_setIr_on hs]; exact hrest v)
    | dr w => exact along_on hb hP (by rw [runTask_shiftDr_on hs]; exact hrest _)

end

/-! ### The two poll loops -/

/-- The start-bit poll while every poll captures DSTRT = 1 and CANCEL stays 0, `d` polls after its start (R175). -/
theorem along_pollStart {P : State → Prop} {s : State} {r b w : Nat} (hb : s.busy = true) (hs : s.Shiftable)
    (hP : ∀ d xs k v, P (s.on xs d r k v)) (hq : s.Quiet b)
    (hd : ∀ j < b, s.dstrt (s.captured (w + j)) = true) (n d : Nat) (hn : d + n ≤ b) (xs : List Shift)
    (hx : words xs = w + d) (a l v : Word) (k : List Task) : Along P n (s.on xs d r (.pollStart a l :: k) v) := by
  induction n generalizing d xs l v with
  | zero => exact along_zero (hP _ _ _ _)
  | succ n ih =>
    have hpoll : runTask (.pollStart a l) (s.on xs d r k v) =
        s.on xs (d + 1) r (.shiftDr (ctlDmaPoll s.ctl) :: .pollTest a :: k) v := by
      simp only [runTask, State.pollStart, drawCancel_eq, on_cancelLevel, Nat.add_zero, hq d (by omega), on_drawn,
        on_push, on_ctl, Bool.false_eq_true, if_false]
      rfl
    have htest : runTask (.pollTest a) (s.on (xs ++ [.dr (ctlDmaPoll s.ctl)]) (d + 1) r k (s.captured (words xs))) =
        s.on (xs ++ [.dr (ctlDmaPoll s.ctl)]) (d + 1) r (.pollStart a (s.captured (words xs)) :: k)
          (s.captured (words xs)) := if_pos (by rw [hx]; exact hd d (by omega))
    have hloop := ih (d + 1) (by omega) (xs ++ [.dr (ctlDmaPoll s.ctl)])
      (by rw [words_append, hx]; rfl) (s.captured (words xs)) (s.captured (words xs))
    rw [← htest] at hloop
    have hshift := along_on hb (hP (d + 1)) hloop
    rw [← runTask_shiftDr_on hs (v := v)] at hshift
    have hstart := along_on hb (hP (d + 1)) hshift
    rw [← hpoll] at hstart
    exact along_succ (s := s.on xs d r (.pollStart a l :: k) v) hb rfl (hP _ _ _ _) hstart

/-- The poll of RunModule while no access is pending: it draws no CANCEL (R191, R198). -/
theorem along_praccPoll {P : State → Prop} {s : State} {d r b : Nat} (hb : s.busy = true) (hs : s.Shiftable)
    (hP : ∀ xs k v, P (s.on xs d r k v)) (hp : ∀ j < b, s.praccBit (s.captured j) = false) (n : Nat)
    (xs : List Shift) (hn : words xs + n ≤ b) (m : ModuleKind) (v : Word) (k : List Task) :
    Along P n (s.on xs d r (.praccPoll m :: k) v) := by
  induction n generalizing xs v with
  | zero => exact along_zero (hP _ _ _)
  | succ n ih =>
    have htest : runTask (.praccPollTest m)
          (s.on (xs ++ [.dr (ctlPraccPoll s.ctl)]) d r k (s.captured (words xs))) =
        s.on (xs ++ [.dr (ctlPraccPoll s.ctl)]) d r (.praccPoll m :: k) (s.captured (words xs)) :=
      if_neg (by rw [on_acc, on_ctl, getLsbD_pracc, hp _ (by omega)]; nofun)
    have hloop := ih (xs ++ [.dr (ctlPraccPoll s.ctl)]) (by rw [words_append, words_dr, words_nil]; omega)
      (s.captured (words xs))
    rw [← htest] at hloop
    have hshift := along_on hb hP hloop
    rw [← runTask_shiftDr_on hs (v := v)] at hshift
    exact along_succ (s := s.on xs d r (.praccPoll m :: k) v) hb rfl (hP _ _ _) (along_on hb hP hshift)

/-! ### Accesses that come to them -/

/-- A careful DMA access whose start bit stays set. -/
theorem along_dma {P : State → Prop} {s : State} {n : Nat} {x : Act} (hb : s.busy = true) (hs : s.Shiftable)
    (hf : s.fast = false) (hP : ∀ r d xs k v, P (s.on xs d r k v)) (hq : s.Quiet n)
    (hd : ∀ j < n, s.dstrt (s.captured (x.startWords + j)) = true) (k : List Task) :
    Along P n { s with cont := dmaTask x :: k } := by
  have hload : runTask (dmaTask x) (s.on [] 0 s.retries k s.acc) = s.on [] 0 16 (attemptTask x :: k) s.acc := by
    cases x <;>
      simp only [dmaTask, runTask, State.dmaRead, State.dmaWrite, on_fast, hf, Bool.false_eq_true, if_false,
        loadRetries_on, on_push] <;>
      rfl
  obtain ⟨l, hattempt⟩ : ∃ l, runTask (attemptTask x) (s.on [] 0 16 k s.acc) =
      s.on [] 0 16 (shiftTasks (s.startShifts x) ++ .pollStart x.addr 0 :: l) s.acc := by
    cases x <;> exact ⟨_, rfl⟩
  rw [on_cont (dmaTask x :: k) s]
  refine along_on hb (hP _ _) ?_
  rw [hload]
  refine along_on hb (hP _ _) ?_
  rw [hattempt]
  refine along_shifts hb hs (hP _ _) _ [] _ fun u => ?_
  exact along_pollStart hb hs (hP 16) hq hd n 0 (by omega) _ (words_start s x) _ _ _ _

/-- A Processor Access whose CPU has no access pending. -/
theorem along_pracc {P : State → Prop} {s : State} {n : Nat} {x : Act} (hb : s.busy = true) (hs : s.Shiftable)
    (hP : ∀ mail h xs k v, P ((s.withMail mail h).on xs 0 s.retries k v))
    (hp : ∀ j < n, s.praccBit (s.captured j) = false) (k : List Task) :
    Along P n { s with cont := praccTask x :: k } := by
  obtain ⟨l, hload⟩ : ∃ l, runTask (praccTask x) (s.on [] 0 s.retries k s.acc) =
      (s.withMail (s.loadMail x) s.hits).on [] 0 s.retries (.runModule x.module :: l) s.acc := by
    cases x <;> exact ⟨_, rfl⟩
  have hbegin : runTask (.runModule x.module) ((s.withMail (s.loadMail x) s.hits).on [] 0 s.retries l s.acc) =
      (s.withMail (s.loadMail x) 0).on [] 0 s.retries (.moduleLoop x.module :: l) s.acc := rfl
  have hiter : runTask (.moduleLoop x.module) ((s.withMail (s.loadMail x) 0).on [] 0 s.retries l s.acc) =
      (s.withMail (s.loadMail x) 0).on [] 0 s.retries (.setIr s.ejtag.irControl :: .praccPoll x.module :: l)
        s.acc := rfl
  have hself : s.withMail ⟨s.mboxAddr, s.mboxData, s.stubAnomaly⟩ s.hits = s := rfl
  have hP₀ := hP ⟨s.mboxAddr, s.mboxData, s.stubAnomaly⟩ s.hits
  rw [hself] at hP₀
  have hb₀ (h : Nat) : (s.withMail (s.loadMail x) h).busy = true := hb
  have hs₀ : (s.withMail (s.loadMail x) 0).Shiftable := hs
  rw [on_cont (praccTask x :: k) s]
  refine along_on hb hP₀ ?_
  rw [hload]
  refine along_on (hb₀ _) (hP _ _) ?_
  rw [hbegin]
  refine along_on (hb₀ 0) (hP _ _) ?_
  rw [hiter]
  refine along_on (hb₀ 0) (hP _ _) ?_
  rw [runTask_setIr_on hs₀]
  exact along_praccPoll (hb₀ 0) hs₀ (hP _ _) hp n _ (by simp) _ _ _

/-! ### Commands whose access waits -/

/-- An access command with an aligned address launches a task that only leads to the access itself. -/
theorem exec_access_start {i : Instr} {x : Act} {m : Mode} {s : State} (hi : s.accessOf i = some (x, m))
    (hm : m ≠ .none) (hr : s.Ready) (ha : misaligned x.addr x.width = false) :
    ∃ first l, exec i s = .next (drive s.pace { s.accept (encode i) with cont := first :: l }) ∧
      runTask first { s.accept (encode i) with cont := l } =
        { s.accept (encode i) with cont := pathTask m x :: tailOf x } := by
  have opened (w : Word) (body : State → Answer) : command w (whenOpen body) s = body (s.accept w) :=
    (command_idle w _ hr.1).trans (whenOpen_open body hr.2)
  have moded (w : Word) : s.mode = m → runTask (memTask x) { s.accept w with cont := tailOf x } =
      { s.accept w with cont := pathTask m x :: tailOf x } := by
    intro hsm
    cases m with
    | none => exact absurd rfl hm
    | dma => exact memTask_dma x _ (s := s.accept w) hsm ha
    | pracc => exact memTask_pracc x _ (s := s.accept w) hsm ha
  cases i with
  | readWord | readHalf | writeWord | writeHalf =>
    cases hi
    exact ⟨_, _, (opened _ _).trans (whenModed_moded _ hm), moded _ rfl⟩
  | dmaReadWord | dmaReadHalf | dmaWriteWord | dmaWriteHalf
  | praccReadWord | praccReadHalf | praccWriteWord | praccWriteHalf =>
    cases hi
    exact ⟨_, _, opened _ _, if_neg (Bool.eq_false_iff.1 ha)⟩
  | _ => cases hi

/-- What holds at the acceptance and along the access holds when the step is over. -/
theorem exec_access_along {P : State → Prop} {i : Instr} {x : Act} {m : Mode} {s : State}
    (hi : s.accessOf i = some (x, m)) (hm : m ≠ .none) (hr : s.Ready) (ha : misaligned x.addr x.width = false)
    (hP : ∀ k, P { s.accept (encode i) with cont := k })
    (h : Along P s.pace { s.accept (encode i) with cont := pathTask m x :: tailOf x }) :
    ∃ t, exec i s = .next t ∧ P t := by
  obtain ⟨first, l, hexec, hfirst⟩ := exec_access_start hi hm hr ha
  rw [← hfirst] at h
  have hall := along_succ (s := { s.accept (encode i) with cont := first :: l }) rfl rfl (hP _) h
  exact ⟨_, hexec, hall s.pace (Nat.le_succ _)⟩

/-- BUSY without an error, and RESULT as in `s`. -/
def State.Waits (s t : State) : Prop := t.busy = true ∧ t.err = .none ∧ t.result = s.result

/-- The levels of CANCEL to come are those of `s`. -/
def State.SameCancel (s t : State) : Prop := t.cancelIn = s.cancelIn ∧ t.cancelDraws = s.cancelDraws

theorem sameCancel_on (xs : List Shift) (r : Nat) (k : List Task) (v : Word) (s : State) :
    s.SameCancel (s.on xs 0 r k v) := by
  unfold State.on
  rw [drawn_zero]
  exact ⟨rfl, rfl⟩

/-- Settles O30: the poll loop ends on DSTRT = 0 or on CANCEL = 1 only, and nothing before it ends the command. -/
theorem dmaSpins : Obligations.DmaSpins := by
  intro i x s hi hr hs hf ha hq hd
  refine exec_access_along (P := s.Waits) hi nofun hr ha (fun _ => ⟨rfl, rfl, rfl⟩) ?_
  exact along_dma (s := s.accept (encode i)) rfl hs hf (fun _ _ _ _ _ => ⟨rfl, rfl, rfl⟩) hq hd (tailOf x)

/-- Settles O31: the poll loop ends on PRACC = 1 only, and neither it nor the way to it draws CANCEL. -/
theorem praccSpins : Obligations.PraccSpins := by
  intro i x s hi hr hs ha hp
  obtain ⟨t, hexec, ⟨hbusy, herr, hresult⟩, hcancel⟩ := exec_access_along (P := fun t => s.Waits t ∧ s.SameCancel t)
    hi nofun hr ha (fun _ => ⟨⟨rfl, rfl, rfl⟩, rfl, rfl⟩)
    (along_pracc (s := s.accept (encode i)) rfl hs
      (fun mail h xs k v => ⟨⟨rfl, rfl, rfl⟩, sameCancel_on xs s.retries k v ((s.accept _).withMail mail h)⟩) hp
      (tailOf x))
  exact ⟨t, hexec, hbusy, herr, hresult, hcancel⟩

end Sys2Proof.Machine
end

section
/-! Values the accesses turn on: what a read of the CPU is served, the lane of a half-word, a flash command value in
both lanes; and the model's stop where an open session has no mode (42_transaction.md R170, R180, R193, R194, 43_flash.md
R221). -/

namespace Sys2Proof.Machine

/-! ### What a read of the CPU is served (42_transaction.md R193, R194) -/

theorem serve_eq_served (m : ModuleKind) (a : Word) (s : State) :
    s.serve m a = s.served m ⟨s.mboxAddr, s.mboxData, s.stubAnomaly⟩ a := by
  have hself : s.withMail ⟨s.mboxAddr, s.mboxData, s.stubAnomaly⟩ s.hits = s := rfl
  have h := serve_eq m ⟨s.mboxAddr, s.mboxData, s.stubAnomaly⟩ s.hits [] 0 s.retries s.cont s.acc a s
  rwa [hself, on_zero] at h

/-- Settles O35: at or above the vector by whether the micro-program has the word, below it by the two mailboxes. -/
theorem serveRule : Obligations.ServeRule := by
  intro s m a
  rw [serve_eq_served]
  unfold State.served
  refine ⟨fun ha => ?above, fun ha => ?below⟩
  case above =>
    rw [if_pos ha]
    refine ⟨fun hlt => ?_, fun hle => if_neg (Nat.not_lt.2 hle)⟩
    rw [if_pos hlt, List.getD_eq_getElem _ _ hlt]
  case below =>
    rw [if_neg (BitVec.not_le.2 ha)]
    refine ⟨fun hv => if_pos hv, fun hv hd => ?_, fun hv hd => ?_⟩
    · rw [if_neg hv, if_pos hd]
    · rw [if_neg hv, if_neg hd]

/-! ### Lanes (42_transaction.md R180, 43_flash.md R221) -/

/-- A one-bit field is its bit. -/
theorem toNat_bit (a : Word) (k : Nat) : (a.extractLsb' k 1).toNat = (a.getLsbD k).toNat := by
  simp [BitVec.getLsbD, Nat.shiftRight_eq_div_pow, Nat.toNat_testBit]

/-- Settles O34: the lane is the upper half where bit 1 of the address is set, the lower one where it is not. -/
theorem laneRule : Obligations.LaneRule := by
  refine fun raw addr => ⟨?_, rfl⟩
  show lane raw addr = _
  unfold lane
  rw [toNat_bit]
  cases addr.getLsbD 1 with
  | true =>
    have hshift : (raw >>> 16).toNat < 2 ^ 16 := by bv_omega
    exact BitVec.eq_of_toNat_eq (Nat.and_two_pow_sub_one_of_lt_two_pow hshift).symm
  | false => rfl

/-- The two copies of a command value do not overlap, so that they add up. -/
theorem rep_eq_mul (c : Byte) : rep c = c.setWidth 32 * 0x00010001 := by
  have hdisjoint : c.setWidth 32 &&& (c.setWidth 32 <<< 16) = (0 : Word) := by
    ext k hk
    have hlow : 16 ≤ k → c.getLsbD k = false := fun h => c.getLsbD_of_ge k (by omega)
    by_cases h : 16 ≤ k <;> simp [h, hlow]
  unfold rep
  rw [← BitVec.add_eq_or_of_and_eq_zero _ _ hdisjoint]
  bv_omega

theorem toNat_rep (c : Byte) : (rep c).toNat = 2 ^ 16 * c.toNat + c.toNat := by
  rw [rep_eq_mul]
  bv_omega

/-- The lanes as numbers: the quotient and the remainder by 2^16. -/
theorem toNat_lane (raw addr : Word) :
    (lane raw addr).toNat = if addr.getLsbD 1 then raw.toNat / 2 ^ 16 else raw.toNat % 2 ^ 16 := by
  unfold lane
  split
  · rw [BitVec.toNat_ushiftRight, Nat.shiftRight_eq_div_pow]
  · exact Nat.and_two_pow_sub_one_eq_mod raw.toNat 16

theorem lane_rep (c : Byte) (a : Word) : lane (rep c) a = c.setWidth 32 := by
  apply BitVec.eq_of_toNat_eq
  have hc : c.toNat < 2 ^ 16 := c.isLt.trans (by decide)
  rw [toNat_lane, toNat_rep, BitVec.toNat_setWidth, Nat.mod_eq_of_lt (hc.trans (by decide))]
  split
  · rw [Nat.mul_add_div (by decide), Nat.div_eq_of_lt hc, Nat.add_zero]
  · rw [Nat.mul_add_mod, Nat.mod_eq_of_lt hc]

/-- Settles O36: both halves of the sum are the value. -/
theorem replication : Obligations.Replication := fun c a => ⟨rep_eq_mul c, lane_rep c a⟩

/-! ### Accesses without a mode (42_transaction.md R170) -/

theorem exec_without_mode {i : Instr} {s : State} {body : State → Answer} (hr : s.Ready) (hm : s.mode = .none)
    (hi : exec i s = command (encode i) (whenOpen (whenModed body)) s) : exec i s = .fault .accessWithoutMode := by
  rw [hi, command_idle _ _ hr.1, whenOpen_open _ (by exact hr.2)]
  exact if_pos hm

/-- Settles O32: each of the nine commands asks for the mode before anything else in an open session. -/
theorem noModeFaults : Obligations.NoModeFaults := by
  intro i s hr hm hi
  fin_cases hi <;> exact exec_without_mode hr hm rfl

end Sys2Proof.Machine
end

section
/-! Flash addresses: the unlock addresses, the window base, the block map of a chip and the blocks an erase area selects
(43_flash.md R222, R233, R236, R242). -/

namespace Sys2Proof.Machine

/-! ### Addresses (R222, R233) -/

/-- Settles O37: the offsets of the two families, doubled. -/
theorem unlockAddresses : Obligations.UnlockAddresses := fun _ _ => ⟨rfl, rfl, rfl, rfl, rfl, rfl⟩

/-- Settles O40: the size is compared with the threshold once. -/
theorem windowBaseRule : Obligations.WindowBaseRule := fun _ _ =>
  ⟨fun hlarge => if_pos hlarge, fun hsmall => if_neg (BitVec.not_le.2 hsmall), rfl⟩

/-! ### Selections (R242) -/

/-- Settles O39: a selection is a filter of the map. -/
theorem selectRule : Obligations.SelectRule := by
  intro map start n
  unfold selectBlocks
  exact ⟨List.filter_sublist, fun b => by simp only [List.mem_filter, Bool.and_eq_true, decide_eq_true_eq]⟩

/-! ### Block starts (R236) -/

/-- The bytes regions take up. -/
def regionsSpan (rs : List Region) : Nat := (rs.map fun r => r.count.toNat * r.blockSize.toNat).sum

theorem regionsSpan_cons (r : Region) (rs : List Region) :
    regionsSpan (r :: rs) = r.count.toNat * r.blockSize.toNat + regionsSpan rs := List.sum_cons

/-- A region that has blocks has blocks of some size. -/
def regionSized (r : Region) : Bool := r.count == 0 || r.blockSize != 0

theorem blockSize_pos {r : Region} (h : regionSized r = true) {k : Nat} (hk : k < r.count.toNat) :
    0 < r.blockSize.toNat := by
  unfold regionSized at h
  simp only [Bool.or_eq_true, beq_iff_eq, bne_iff_ne] at h
  bv_omega

/-- The blocks of a region lie within it. -/
theorem block_lt_region {r : Region} (h : regionSized r = true) {k : Nat} (hk : k < r.count.toNat) :
    k * r.blockSize.toNat < r.count.toNat * r.blockSize.toNat :=
  Nat.mul_lt_mul_of_pos_right hk (blockSize_pos h hk)

/-- The block starts of one region from `a` up. -/
def regionStarts (r : Region) (a : Nat) : List Nat :=
  (List.range r.count.toNat).map fun k => a + k * r.blockSize.toNat

theorem blockStarts_cons (r : Region) (rs : List Region) (a : Nat) : blockStarts (r :: rs) a =
    regionStarts r a ++ blockStarts rs (a + r.count.toNat * r.blockSize.toNat) := rfl

theorem length_regionStarts (r : Region) (a : Nat) : (regionStarts r a).length = r.count.toNat := by
  unfold regionStarts
  rw [List.length_map, List.length_range]

theorem mem_regionStarts {r : Region} {a x : Nat} (h : regionSized r = true) (hx : x ∈ regionStarts r a) :
    a ≤ x ∧ x < a + r.count.toNat * r.blockSize.toNat := by
  obtain ⟨k, hk, rfl⟩ := List.mem_map.1 hx
  exact ⟨Nat.le_add_right .., Nat.add_lt_add_left (block_lt_region h (List.mem_range.1 hk)) a⟩

theorem regionStarts_increasing {r : Region} (h : regionSized r = true) (a : Nat) :
    (regionStarts r a).Pairwise (· < ·) := by
  refine List.pairwise_map.2 (List.pairwise_lt_range.imp_of_mem fun {j k} _ hk hjk => ?_)
  have hpos := blockSize_pos h (List.mem_range.1 hk)
  exact Nat.add_lt_add_left (Nat.mul_lt_mul_of_pos_right hjk hpos) a

theorem blockStarts_append (xs ys : List Region) (a : Nat) :
    blockStarts (xs ++ ys) a = blockStarts xs a ++ blockStarts ys (a + regionsSpan xs) := by
  induction xs generalizing a with
  | nil => rfl
  | cons r rs ih =>
    rw [List.cons_append, blockStarts_cons, blockStarts_cons, ih, List.append_assoc, regionsSpan_cons, Nat.add_assoc]

theorem mem_blockStarts {rs : List Region} {a x : Nat} (h : rs.all regionSized = true)
    (hx : x ∈ blockStarts rs a) : a ≤ x ∧ x < a + regionsSpan rs := by
  induction rs generalizing a with
  | nil => cases hx
  | cons r rs ih =>
    obtain ⟨hr, hrs⟩ := Bool.and_eq_true_iff.1 h
    rw [regionsSpan_cons]
    rcases List.mem_append.1 hx with hx | hx
    · have hin := mem_regionStarts hr hx
      omega
    · have hin := ih hrs hx
      omega

theorem blockStarts_increasing {rs : List Region} (h : rs.all regionSized = true) (a : Nat) :
    (blockStarts rs a).Pairwise (· < ·) := by
  induction rs generalizing a with
  | nil => exact .nil
  | cons r rs ih =>
    obtain ⟨hr, hrs⟩ := Bool.and_eq_true_iff.1 h
    refine List.pairwise_append.2 ⟨regionStarts_increasing hr a, ih hrs _, fun x hx y hy => ?_⟩
    exact (mem_regionStarts hr hx).2.trans_le (mem_blockStarts hrs hy).1

/-- The first block starts where the regions do; regions without blocks take up nothing. -/
theorem head_blockStarts {rs : List Region} {a x : Nat} (hx : (blockStarts rs a).head? = some x) : x = a := by
  induction rs generalizing a with
  | nil => cases hx
  | cons r rs ih =>
    rw [blockStarts_cons] at hx
    cases hn : r.count.toNat with
    | zero =>
      rw [List.eq_nil_of_length_eq_zero ((length_regionStarts r a).trans hn), hn, Nat.zero_mul] at hx
      exact ih hx
    | succ n =>
      unfold regionStarts at hx
      rw [hn, List.range_succ_eq_map] at hx
      simpa using hx.symm

/-- Block `k` of a region starts `k` blocks past the regions before it. -/
theorem getElem?_blockStarts (before : List Region) (r : Region) (after : List Region) (a : Nat) {k : Nat}
    (hk : k < r.count.toNat) : (blockStarts (before ++ r :: after) a)[totalBlocks before + k]? =
      some (a + regionsSpan before + k * r.blockSize.toNat) := by
  rw [blockStarts_append, List.getElem?_append_right (by rw [length_blockStarts]; omega), length_blockStarts,
    Nat.add_sub_cancel_left, blockStarts_cons, List.getElem?_append_left (by rwa [length_regionStarts])]
  unfold regionStarts
  rw [List.getElem?_map, List.getElem?_range hk]
  rfl

/-! ### Block maps (R236) -/

/-- A map that does not wrap is the list of its starts. -/
theorem buildMap_unwrapped (draw : Nat) {rs : List Region} {base : Word} (h : rs.all regionSized = true)
    (hfit : base.toNat + regionsSpan rs ≤ 2 ^ 32) :
    buildMap draw rs base = (blockStarts rs base.toNat).map (BitVec.ofNat 32) :=
  if_pos (List.all_eq_true.2 fun _ hx => decide_eq_true ((mem_blockStarts h hx).2.trans_le hfit))

theorem toNat_blockStart {rs : List Region} {base : Word} {x : Nat} (h : rs.all regionSized = true)
    (hfit : base.toNat + regionsSpan rs ≤ 2 ^ 32) (hx : x ∈ blockStarts rs base.toNat) :
    (BitVec.ofNat 32 x).toNat = x :=
  Nat.mod_eq_of_lt ((mem_blockStarts h hx).2.trans_le hfit)

theorem ofNat_toNat_add (base : Word) (n : Nat) : BitVec.ofNat 32 (base.toNat + n) = base + BitVec.ofNat 32 n := by
  rw [BitVec.ofNat_add, BitVec.ofNat_toNat, BitVec.setWidth_eq]

/-- Settles O38: the map is the list of its starts, which lie below 2^32. -/
theorem blockMapRule : Obligations.BlockMapRule := by
  intro draw before r after base hsized hfit
  refine ⟨length_buildMap _ _ _, ?_⟩
  rw [buildMap_unwrapped draw hsized hfit]
  refine ⟨List.pairwise_map.2 ?increasing, fun a ha => ?first, fun k hk => ?entry⟩
  case increasing =>
    refine (blockStarts_increasing hsized base.toNat).imp_of_mem fun {x y} hx hy hxy => ?_
    rwa [toNat_blockStart hsized hfit hx, toNat_blockStart hsized hfit hy]
  case first =>
    rw [List.head?_map, Option.map_eq_some_iff] at ha
    obtain ⟨x, hx, rfl⟩ := ha
    rw [head_blockStarts hx, BitVec.ofNat_toNat, BitVec.setWidth_eq]
  case entry =>
    rw [List.getElem?_map, getElem?_blockStarts before r after base.toNat hk, Option.map_some, Nat.add_assoc,
      ofNat_toNat_add]
    rfl

end Sys2Proof.Machine
end

section
/-! Errors taken (60_exceptions.md R271, R278, 43_flash.md R243), and the flash commands that find no chip (43_flash.md
R245). -/

namespace Sys2Proof.Machine

/-! ### Taking an error -/

/-- Settles O59: by whether an erase area stands around the tasks left. -/
theorem errorTaken : Obligations.ErrorTaken := by
  intro e s hresult
  have hkept : ¬ (e.code = .transactionCorrupted ∧ s.returnsValue = true) := fun ⟨hcode, hreturns⟩ =>
    hresult.elim (fun h => h hcode) fun h => Bool.false_ne_true (h.symm.trans hreturns)
  split
  next h =>
    have hends : e.code = .userCancelled ∨ enclosingArea s.cont = none := by
      by_cases hc : e.code = .userCancelled
      · exact .inl hc
      · exact .inr ((if_neg hc).symm.trans h)
    rw [raise_ends e s hends, endWithError_eq, if_neg hkept]
  next i rest k h =>
    have hc : e.code ≠ .userCancelled := fun hc => by
      rw [if_pos hc] at h
      cases h
    rw [if_neg hc] at h
    exact raise_in_area e s hc h

/-! ### No chip -/

theorem whenChip_none (body : FlashDescriptor → State → Answer) {s : State} (h : s.chip = none) :
    whenChip body s = .next (s.raise noChipError) := by
  unfold whenChip
  rw [h]

/-- A command that comes to its check for a chip before anything else in an open session. -/
theorem exec_noChip {i : Instr} {s : State} {outer : State → Answer} {body : FlashDescriptor → State → Answer}
    (hr : s.Ready) (hc : s.chip = none) (hi : exec i s = command (encode i) (whenOpen outer) s)
    (hfirst : outer (s.accept (encode i)) = whenChip body (s.accept (encode i))) :
    exec i s = .next (s.failed i noChipError) := by
  rw [hi, command_idle _ _ hr.1, whenOpen_open _ (by exact hr.2), hfirst, whenChip_none _ (by exact hc)]
  exact congrArg Host.Outcome.next (raise_failed noChipError i s [] rfl rfl)

/-- Settles O41: behind the checks of the session and of the mode, the check for a chip comes before the operands. -/
theorem noChip : Obligations.NoChip := by
  intro i s hr hm hc hw hi
  rcases hi with hi | ⟨area, rfl⟩
  · fin_cases hi <;> exact exec_noChip hr hc rfl (whenModed_moded _ hm)
  · exact exec_noChip hr hc (if_pos (of_decide_eq_true hw)) rfl

end Sys2Proof.Machine
end

section
/-! FLASH_RESET_READ and FLASH_SELECT_AREA with their chip: commands of one task (43_flash.md R234, R235, R244, R251,
R252). -/

namespace Sys2Proof.Machine

/-! ### FLASH_RESET_READ (R244, R251) -/

theorem goes_mode {s : State} {x : Act} {p : Pass} (h : s.Goes x p) : s.mode ≠ .none := by
  obtain ⟨hmode, -⟩ := h
  rw [← hmode]
  cases p <;> nofun

/-- Settles O42: the reset write is the one task of the command. -/
theorem flashResetReadCommand : Obligations.FlashResetReadCommand := by
  intro c p s hr hs hc hg hp
  have haccess := reaches_act_ok (s := s.accept (encode .flashResetRead)) rfl hs _ p [] ((accept_goes _ _ _ _).2 hg)
  rw [accept_access'] at haccess
  have hexec : exec .flashResetRead s = .next (drive s.pace { s.accept (encode .flashResetRead) with
      cont := [memTask (s.resetWrite (amdStyle c.family) s.flashBase)] }) := flash_launch hr (goes_mode hg) hc rfl rfl
  have hend := haccess.trans (reaches_ended .flashResetRead (s.access (s.resetWrite (amdStyle c.family) s.flashBase) p))
  rw [hexec, drive_of_reaches hend rfl (by omega)]

/-! ### FLASH_SELECT_AREA (R234, R235, R252) -/

theorem selectArea_custom {s : State} {c : FlashDescriptor} (hc : s.chip = some c) :
    runTask (.selectArea 4) s = s.selectCustom c := by
  show s.selectArea 4 = _
  unfold State.selectArea
  rw [hc]
  rfl

theorem selectArea_named {area : BitVec 4} {s : State} {c : FlashDescriptor} (hc : s.chip = some c) (ha : area ≠ 4) :
    runTask (.selectArea area) s = s.selectNamed c area := by
  show s.selectArea area = _
  unfold State.selectArea
  rw [hc]
  exact if_neg ha

theorem selectNamed_some {area : BitVec 4} {s : State} {c : FlashDescriptor} {e : AreaEntry}
    (h : lookupArea s.flashParams c.size area = some e) :
    s.selectNamed c area = { s with areaStart := e.start, areaLen := e.length } := by
  unfold State.selectNamed
  rw [h]

theorem selectNamed_none {area : BitVec 4} {s : State} {c : FlashDescriptor}
    (h : lookupArea s.flashParams c.size area = none) :
    s.selectNamed c area = s.raise ⟨.chipSelectionInvalid, c.size, area.setWidth 32⟩ := by
  unfold State.selectNamed
  rw [h]

/-- FLASH_SELECT_AREA launches the one task of its selection. -/
theorem exec_selectArea {area : BitVec 4} {s : State} {c : FlashDescriptor} (hr : s.Ready) (hc : s.chip = some c)
    (ha : area ≤ 4) : exec (.flashSelectArea area) s =
      .next (drive s.pace { s.accept (encode (.flashSelectArea area)) with cont := [.selectArea area] }) :=
  exec_launch hr.1 hr.2 (if_pos ha) (whenChip_some _ (by exact hc))

/-- Settles O43: CUSTOM by the test of its block count, a named area by its entry of AREA_TABLE. -/
theorem flashSelectAreaCommand : Obligations.FlashSelectAreaCommand := by
  intro area c s hr hc ha hp
  have hchip : (s.accept (encode (.flashSelectArea area))).chip = some c := hc
  rw [exec_selectArea hr hc ha]
  refine congrArg Host.Outcome.next ?_
  split
  next hcustom =>
    subst hcustom
    split
    next hm => exact drive_first_failed (by omega) rfl nofun ((selectArea_custom hchip).trans (if_pos hm))
    next hm => exact drive_task_ended (t := s.customized c) hp ((selectArea_custom hchip).trans (if_neg hm))
  next hnamed =>
    split
    next e hl =>
      exact drive_task_ended (t := { s with areaStart := e.start, areaLen := e.length }) hp
        ((selectArea_named hchip hnamed).trans (selectNamed_some hl))
    next hl =>
      exact drive_first_failed (by omega) rfl nofun ((selectArea_named hchip hnamed).trans (selectNamed_none hl))

end Sys2Proof.Machine
end

section
/-! FLASH_ERASE_BLOCK and FLASH_WRITE_WORD: their operations complete, or come to a completion poll that goes on or is
cancelled (43_flash.md R237 to R241, R245, R253, R255, 60_exceptions.md R276, R288). -/

namespace Sys2Proof.Machine

/-! ### Operations of a command -/

/-- Command `i`, met by the idle block in `s`, starts with one task in the state `t`, which puts the tasks `ts` on the
stack. -/
def State.Starts (s : State) (i : Instr) (t : State) (ts : List Task) : Prop :=
  ∃ first, exec i s = .next (drive s.pace { t.accept (encode i) with cont := [first] }) ∧
    Reaches 1 { t.accept (encode i) with cont := [first] } { t.accept (encode i) with cont := ts ++ [] }

theorem starts_eraseBlock {s : State} {c : FlashDescriptor} (hr : s.Ready) (hm : s.mode ≠ .none)
    (hc : s.chip = some c) (ha : misaligned s.addr .half = false) :
    s.Starts .flashEraseBlock { s with progress := s.addr } (s.eraseTasks c.family s.addr) :=
  ⟨_, flash_launch (t := { s with progress := s.addr }) (ts := [.eraseBlock s.addr]) hr hm hc rfl rfl,
    reaches_eraseBlock (s := { s with progress := s.addr }.accept (encode .flashEraseBlock)) rfl hc s.addr [] ha⟩

theorem starts_writeWord {s : State} {c : FlashDescriptor} (hr : s.Ready) (hm : s.mode ≠ .none)
    (hc : s.chip = some c) (ha : misaligned s.addr .word = false) :
    s.Starts .flashWriteWord s (s.programTasks c.family s.addr s.data) :=
  ⟨_, flash_launch (t := s) (ts := [.writeFlash s.addr s.data]) hr hm hc rfl rfl,
    reaches_writeFlash (s := s.accept (encode .flashWriteWord)) rfl hc s.addr s.data [] ha⟩

section
variable {i : Instr} {s t : State} {ts : List Task} {ops : List Op} {run : List (Op × List Pass)}

/-- A command whose tasks are operations that all complete. -/
theorem exec_opsEnded (h : s.Starts i t ts) (hs : t.Shiftable) (hc : Carries ts (run.map Prod.fst))
    (hg : t.OpsGo run) (hp : opsTasks run + 4 ≤ s.pace) : exec i s = .next ((t.opsRun run).ended i .none) := by
  obtain ⟨first, hexec, hstart⟩ := h
  have hops := reaches_ops (s := t.accept (encode i)) rfl hs run ts [] hc ((accept_opsGo _ _ _).2 hg)
  rw [accept_opsRun] at hops
  have hend := (hstart.trans hops).trans (reaches_ended i (t.opsRun run))
  rw [hexec, drive_of_reaches hend rfl (by omega)]

/-- A command whose operations come to a completion poll that is cancelled. -/
theorem exec_opsPollCancelled (h : s.Starts i t ts) (hs : t.Shiftable) (hc : Carries ts ops) {a : Word}
    {cond : PollCond} {reads : List Pass} (hops : run.map Prod.fst ++ [.poll a cond] <+: ops) (hg : t.OpsGo run)
    (hmiss : (t.opsRun run).PollMisses a cond reads) (hcl : ((t.opsRun run).polled a reads).cancelLevel 0 = true)
    (hp : opsTasks run + (reads.map (·.tasks + 2)).sum + 4 ≤ s.pace) :
    exec i s = .next ((((t.opsRun run).polled a reads).drawn 1).failed i
      ⟨.userCancelled, a, if reads = [] then 0 else ((t.opsRun run).polled a reads).acc⟩) := by
  obtain ⟨first, hexec, hstart⟩ := h
  have hcancel := reaches_opsPollCancel (i := i) hs hc reads [] hops hg hmiss hcl
  rw [hexec, drive_of_reaches (hstart.trans hcancel) rfl (by omega)]

end

/-! ### Poll conditions and halves (R237 to R241, R245) -/

theorem amdStyle_iff (f : Family) : amdStyle f = true ↔ f = .amd ∨ f = .sst := by
  cases f <;> decide

/-- The half-word written at `a + 2k` is the word shifted down and masked. -/
theorem setWidth_programHalf (v : Word) (k : Nat) :
    (programHalf v k).setWidth 32 = (v >>> (16 * k)) &&& 0xFFFF := by
  apply BitVec.eq_of_toNat_eq
  have hmask : ((v >>> (16 * k)) &&& 0xFFFF).toNat = (v >>> (16 * k)).toNat % 2 ^ 16 :=
    Nat.and_two_pow_sub_one_eq_mod _ 16
  have hlow : (programHalf v k).toNat = (v >>> (16 * k)).toNat % 2 ^ 16 := by
    unfold programHalf
    rw [BitVec.extractLsb'_toNat, BitVec.toNat_ushiftRight]
  rw [BitVec.toNat_setWidth_of_le (by decide), hlow, hmask]

/-! ### Commands whose operations complete (R253, R255) -/

/-- Settles O45: an erase is its family's operations, from the first write to the end of the completion poll. -/
theorem flashEraseBlockCommand : Obligations.FlashEraseBlockCommand := by
  refine ⟨amdStyle_iff, fun p v => ⟨beq_iff_eq, bne_iff_ne⟩, ?_⟩
  intro c run s hr hs hc ha hrun hg hp
  obtain ⟨o, os, hfirst⟩ := eraseOps_cons s c.family s.addr
  have hm := opsGo_mode hg (hrun.trans hfirst)
  exact exec_opsEnded (starts_eraseBlock hr hm hc ha) hs (hrun ▸ carries_erase s c s.addr) hg hp

/-- Settles O46: a program is its family's operations on the low half, then those on the high half. -/
theorem flashWriteWordCommand : Obligations.FlashWriteWordCommand := by
  refine ⟨setWidth_programHalf, fun p v h => beq_iff_eq, ?_⟩
  intro c run s hr hs hc ha hrun hg hp
  obtain ⟨o, os, hfirst⟩ := programOps_cons s c.family s.addr s.data
  have hm := opsGo_mode hg (hrun.trans hfirst)
  exact exec_opsEnded (starts_writeWord hr hm hc ha) hs (hrun ▸ carries_program s c s.addr s.data) hg hp

/-! ### A completion poll that goes on (R239, 60_exceptions.md R288) -/

/-- A task the command goes on from leaves STATUS.ERR as it is (10_state.md R31). -/
theorem Effect.err {x : Task} {s t : State} (h : Effect x s t) : t.busy = true → t.err = s.err := by
  cases h with
  | work hw => rw [hw]; exact fun _ => rfl
  | clock hc => obtain ⟨cs, hc⟩ := hc; rw [hc]; exact fun _ => rfl
  | fail | cancel => exact nofun
  | poll | shiftIr | report | fastCheck | initEnd | shutdownEnd | identify | customize => exact fun _ => rfl

/-- A command that goes on has the STATUS.ERR it began with. -/
theorem drive_err (n : Nat) (s : State) : (drive n s).busy = true → (drive n s).err = s.err := by
  refine drive_keeps (P := fun t => t.busy = true → t.err = s.err) (fun t _ => nofun) ?_ n fun _ => rfl
  intro x k t u ht hb _ he hu
  exact (he.err hu).trans (ht hb)

/-- A block that is BUSY after some tasks was BUSY after fewer. -/
theorem busy_of_drive_busy {m n : Nat} {s : State} (hmn : m ≤ n) (h : (drive n s).busy = true) :
    (drive m s).busy = true := by
  by_contra hidle
  obtain ⟨k, rfl⟩ := Nat.exists_eq_add_of_le hmn
  rw [drive_add, drive_idle k _ (Bool.eq_false_iff.2 hidle)] at h
  exact hidle h

/-- BUSY for as long after tasks that lead to `t` as it is from `t` on. -/
theorem along_busy_of_reaches {a n : Nat} {s t : State} (h : Reaches a s t) (ht : Along (·.busy = true) n t) :
    Along (·.busy = true) n s := by
  obtain ⟨j, -, hj⟩ := h
  intro m hm
  have hbusy := ht m hm
  rw [← hj m] at hbusy
  exact busy_of_drive_busy (Nat.le_add_left m j) hbusy

theorem flashPoll_quiet {s : State} (a : Word) (cond : PollCond) (l : Word) (k : List Task)
    (hc : s.cancelLevel 0 = false) : runTask (.flashPoll a cond l) { s with cont := k } =
      { s.drawn 1 with cont := memTask (.read a .half) :: .flashPollTest a cond :: k } := by
  simp only [runTask, State.flashPoll, drawCancel_eq]
  exact if_neg (Bool.eq_false_iff.1 hc)

theorem flashPollTest_missed {s : State} (a : Word) (cond : PollCond) (k : List Task)
    (h : pollHolds s.flashParams s.acc cond = false) : runTask (.flashPollTest a cond) { s with cont := k } =
      { s with cont := .flashPoll a cond s.acc :: k } :=
  if_neg (Bool.eq_false_iff.1 h)

/-- A completion poll none of whose reads satisfies it: each read takes at least one task. -/
theorem along_pollMisses {s : State} (hb : s.busy = true) (hs : s.Shiftable) (a : Word) (cond : PollCond)
    (reads : List Pass) (l : Word) (k : List Task) (h : s.PollMisses a cond reads) :
    Along (·.busy = true) reads.length { s with cont := .flashPoll a cond l :: k } := by
  induction reads generalizing s l with
  | nil => exact along_zero hb
  | cons p reads ih =>
    obtain ⟨hquiet, hgo, hmiss, hrest⟩ := h
    refine along_succ (s := { s with cont := .flashPoll a cond l :: k }) hb rfl hb ?_
    have hf := (drawn_framed 1 s).trans (access_framed (.read a .half) p (s.drawn 1))
    have hread := reaches_act_ok (s := s.drawn 1) hb (drawn_shiftable 1 hs) (.read a .half) p
      (.flashPollTest a cond :: k) hgo
    have htest := reaches_cont (hf.busy.trans hb) (.flashPollTest a cond) k
    rw [flashPollTest_missed a cond k (hf.flashParams ▸ hmiss)] at htest
    have hloop := ih (hf.busy.trans hb) (access_shiftable _ p (drawn_shiftable 1 hs))
      ((s.drawn 1).access (.read a .half) p).acc hrest
    have hon := along_busy_of_reaches (hread.trans htest) hloop
    rw [← flashPoll_quiet a cond l k hquiet] at hon
    exact hon

/-- Operations up to a completion poll. -/
theorem reaches_opsPoll {t : State} (hb : t.busy = true) (hs : t.Shiftable) {ts : List Task} {ops : List Op}
    (hc : Carries ts ops) {run : List (Op × List Pass)} {a : Word} {cond : PollCond} (k : List Task)
    (hops : run.map Prod.fst ++ [.poll a cond] <+: ops) (hg : t.OpsGo run) :
    ∃ l, Reaches (opsTasks run) { t with cont := ts ++ k } { t.opsRun run with cont := .flashPoll a cond 0 :: l } := by
  obtain ⟨os, rfl⟩ := hops
  rw [List.append_assoc] at hc
  obtain ⟨before, polls, rfl, hbefore, hpolls⟩ := carries_split _ hc
  obtain ⟨l, rfl⟩ := carries_head hpolls
  rw [List.append_assoc]
  exact ⟨l ++ k, reaches_ops hb hs run before _ hbefore hg⟩

/-- A command whose operations come to a completion poll that outlasts the step. -/
theorem exec_opsPollSpins {i : Instr} {s t : State} {ts : List Task} {ops : List Op} {run : List (Op × List Pass)}
    (h : s.Starts i t ts) (hs : t.Shiftable) (hc : Carries ts ops) {a : Word} {cond : PollCond}
    {reads : List Pass} (hops : run.map Prod.fst ++ [.poll a cond] <+: ops) (hg : t.OpsGo run)
    (hmiss : (t.opsRun run).PollMisses a cond reads) (hp : s.pace ≤ reads.length) :
    ∃ v, exec i s = .next v ∧ v.busy = true ∧ v.err = .none := by
  obtain ⟨first, hexec, hstart⟩ := h
  obtain ⟨l, hrun⟩ := reaches_opsPoll (t := t.accept (encode i)) rfl hs hc [] hops ((accept_opsGo _ _ _).2 hg)
  rw [accept_opsRun] at hrun
  have hpoll := along_pollMisses (s := (t.opsRun run).accept (encode i)) rfl (opsRun_shiftable run hs) a cond reads 0 l
    ((accept_pollMisses _ _ _ _ _).2 hmiss)
  have hbusy := along_busy_of_reaches (hstart.trans hrun) hpoll s.pace hp
  exact ⟨_, hexec, hbusy, drive_err _ _ hbusy⟩

/-- Settles O47: both commands come to the poll with its operations done, and it goes on or is cancelled there. -/
theorem flashPollCancelled : Obligations.FlashPollCancelled := by
  refine ⟨fun c run a cond reads s hr hs hm hc hp => ⟨?eraseSpins, ?writeSpins⟩,
    fun c run a cond reads s hr hs hm hc hp => ⟨?eraseCancelled, ?writeCancelled⟩⟩
  case eraseSpins =>
    intro ha hops hg hmiss
    exact exec_opsPollSpins (starts_eraseBlock hr hm hc ha) hs (carries_erase s c s.addr) hops hg hmiss hp
  case writeSpins =>
    intro ha hops hg hmiss
    exact exec_opsPollSpins (starts_writeWord hr hm hc ha) hs (carries_program s c s.addr s.data) hops hg hmiss hp
  case eraseCancelled =>
    rintro _ rfl ha hops hg hmiss hcl
    exact exec_opsPollCancelled (starts_eraseBlock hr hm hc ha) hs (carries_erase s c s.addr) hops hg hmiss hcl hp
  case writeCancelled =>
    rintro _ rfl ha hops hg hmiss hcl
    exact exec_opsPollCancelled (starts_writeWord hr hm hc ha) hs (carries_program s c s.addr s.data) hops hg hmiss
      hcl hp

end Sys2Proof.Machine
end

section
/-! FLASH_PROBE that finds no chip: after the last attempt no round is left (43_flash.md R224, R231, R250). -/

namespace Sys2Proof.Machine

theorem attemptsLeft_eq_zero {k : Attempt} {n : Nat} (h : attemptsLeft k n = 0) : k = .amd ∧ n = 0 := by
  cases k with
  | amd => exact ⟨rfl, (Nat.mul_eq_zero.1 h).resolve_left (by decide)⟩
  | sst | intel => cases h

/-- With no round left the probe ends, in the probe's window and with the last ids read (R231). -/
theorem reaches_probeMissed (t : State) (last : Word) :
    Reaches 1 { t.accept (encode .flashProbe) with cont := [.probeRound 0 last] }
      (t.failed .flashProbe ⟨.chipNotDetected, t.flashParams.baseSmall, last⟩) := by
  rw [← raise_failed _ .flashProbe t [] rfl rfl]
  exact reaches_cont (s := t.accept (encode .flashProbe)) rfl (.probeRound 0 last) []

/-- Settles O50: three attempts for each round leave none. -/
theorem flashProbeFindsNone : Obligations.FlashProbeFindsNone := by
  intro misses k last s s₀ t hr hs hm ht h₀ hlen hmiss hrun hp
  obtain rfl : s₀ = s.unprobed := h₀
  have hall : misses.length = attemptsLeft .amd s.flashParams.probeRounds := hlen
  obtain ⟨n, hmisses, hcount, hf, -⟩ := reaches_misses (s := s.unprobed.accept (encode .flashProbe)) rfl hs misses .amd
    s.flashParams.probeRounds 0 [] ((accept_misses _ _ _ _).2 hmiss) hall.le
  rw [accept_missRun, hrun] at hmisses hcount hf
  obtain ⟨rfl, rfl⟩ : k = .amd ∧ n = 0 := attemptsLeft_eq_zero (by simp only at hcount; omega)
  have hparams : t.flashParams = s.flashParams := hf.flashParams
  have hend := hmisses.trans (reaches_probeMissed t last)
  rw [hparams] at hend
  rw [probe_start hr hm ht]
  exact congrArg Host.Outcome.next (drive_of_reaches hend rfl (by omega))

end Sys2Proof.Machine
end
